-- ==== Sys2Proof/Word.lean ====
section
/-! DEFINITION. The bit vectors of the part: bytes of the link, 16-bit words that wrap or are carried as bits, and the
32-bit stamp. Positions, counts and intervals are numbers, not bit vectors. -/

namespace Sys2Proof

/-- One byte of a link frame (R133). -/
abbrev Byte := BitVec 8

/-- A 16-bit word: segment tags (R4), frame check values (R143), capture numbers and dropped counts (R126, R127). -/
abbrev Word16 := BitVec 16

/-- A value of the stamp clock (R123). -/
abbrev Stamp := BitVec 32

end Sys2Proof
end

