-- ==== Sys2Proof/Syntax.lean ====
section
/-! DEFINITION. The commands of the part: one constructor of `Instr` per row of spec/opcode_table.json, with the lane, axis,
line, byte or level that comes with the event. -/

namespace Sys2Proof

/-- The two lanes (01). -/
inductive LaneId where
  | L0 | L1
  deriving DecidableEq, Repr

/-- The four axes (03). -/
inductive AxisId where
  | A | B | C | D
  deriving DecidableEq, Repr

/-- The four trigger lines (07). -/
inductive TrgId where
  | T0 | T1 | T2 | T3
  deriving DecidableEq, Repr

/-- The level of a line. -/
inductive Level where
  | low | high
  deriving DecidableEq, Repr

/-- The commands. A REQUEST row (the first 27) is the event in which the request executor takes the earliest PENDING intake
slot and the frame there is that request (R147, R155, R156): its operands are the payload of that frame, so the constructor
carries none. An EVENT row carries what happens and to whom. -/
inductive Instr where
  | ping
  | identify
  | setLink
  | restart
  | setTick
  | setAxis
  | setLane
  | setLine
  | loadPattern
  | setPosition
  | energise
  | release
  | queueSegment
  | startLane
  | stopLane
  | abortLane
  | holdLane
  | resumeLane
  | clearLane
  | readLane
  | readAxis
  | readLines
  | mark
  | readCaptures
  | fetchReport
  | ackReport
  | unknownKindRequest
  /-- The second CHECK byte of a frame arrives with this value (R144). -/
  | frameReceived (low : Byte)
  | framingError
  /-- A LEN byte above 200 arrives with this value (R142). -/
  | lenOver200 (len : Byte)
  | gapExpiry
  | linkBreak
  | frameBegin
  | frameSent
  | powerOn
  | rstnLow
  /-- The reset ends, and the RATE1 and RATE0 pins then show these levels (R134, R188). -/
  | deviceResetEnd (rate1 rate0 : Level)
  | stepEvent (lane : LaneId)
  | inProgressStepEvent (lane : LaneId)
  | stopRampStepEvent (lane : LaneId)
  | dwellIntervalExpiry (lane : LaneId)
  | homingStepEvent (lane : LaneId)
  | homeLimitIntervalExpiry (lane : LaneId)
  | settleExpiry (lane : LaneId)
  | holdTimerExpiry (axis : AxisId)
  | syncTimeoutExpiry (lane : LaneId)
  | silenceExpiry
  | resendTimerExpiry
  /-- The raw trigger line changes to this level (R118). -/
  | triggerRawChange (line : TrgId) (level : Level)
  | triggerFilteredChange (line : TrgId)
  /-- The raw home line changes to this level (R104). -/
  | homeRawChange (axis : AxisId) (level : Level)
  | homeFilteredChange (axis : AxisId)
  | pulseEnd (axis : AxisId)
  /-- A byte arrives on RXD: its stop bit is sampled high (R133, R140). -/
  | byteArrival (byte : Byte)
  /-- RXD falls or rises to this level (R137). -/
  | rxdLevelChange (level : Level)
  deriving DecidableEq, Repr

end Sys2Proof
end

