-- ==== Sys2Proof/Decode.lean ====
section
/-! DEFINITION. The table gives no row any bits (every row's "fields" is empty and none has a match), so no word spells a
command. -/

namespace Sys2Proof

/-- The command a word spells by the bits of spec/opcode_table.json: none, for the table gives no row any bits. -/
def decodeTableWord (_nbits _w : Nat) : Option Instr := none

end Sys2Proof
end

