-- ==== Sys2Proof/Config.lean ====
section
/-! DEFINITION. What one part fixes for good, and the free values: constants with no body, of which nothing can be proved. -/

namespace Sys2Proof

/-- FREE VALUE (log 4). Which of several events that stand at one moment the part takes first, and whether a moment that the
spec does not tie to time has come (R155, R188); applied to the count of choices already made. -/
opaque Config.choice : Nat → Nat

/-- FREE VALUE (log 5). Where, within the tick, a SET-TICK that changes the exponent falls (R25, R27 do not say); applied to
the count of choices already made. -/
opaque Config.tickPhase : Nat → Nat

/-- The family code of IDENTIFY (R162). -/
def Config.familyCode : Nat := 0x3A
/-- The part code of IDENTIFY (R162). -/
def Config.partCode : Nat := 0x04
/-- The revision that IDENTIFY and every RESTARTED report carry (R162). -/
def Config.revision : Nat := 1
/-- The axes of the part (R162). -/
def Config.axes : Nat := 4
/-- The lanes of the part (R162). -/
def Config.lanes : Nat := 2
/-- The places of a segment queue (R9, R162). -/
def Config.queueDepth : Nat := 16
/-- The places of the report queue (R162, R176). -/
def Config.reportDepth : Nat := 16
/-- The places of the report queue open to ordinary reports (R176). -/
def Config.ordinaryDepth : Nat := 12
/-- The places of the capture log (R125, R162). -/
def Config.captureDepth : Nat := 8
/-- The entries of the reply cache (R148). -/
def Config.cacheDepth : Nat := 2

end Sys2Proof
end

