-- ==== Sys2Proof/Machine/State.lean ====
section
/-! DEFINITION. Everything the spec gives the part to hold, as plain data, block by block in the order of 00_scope.md; the
value of each field after a device reset; and the reasons a step can stop. -/

namespace Sys2Proof.Machine

open Sys2Proof

/-! ### Families of like things -/

/-- One value per lane. -/
structure PerLane (α : Type) where
  l0 : α
  l1 : α
  deriving DecidableEq, Repr

/-- One value per axis. -/
structure PerAxis (α : Type) where
  a : α
  b : α
  c : α
  d : α
  deriving DecidableEq, Repr

/-- One value per trigger line. -/
structure PerTrg (α : Type) where
  t0 : α
  t1 : α
  t2 : α
  t3 : α
  deriving DecidableEq, Repr

/-- A timer that counts millisecond marks (R124): stopped, or the marks still to come. -/
abbrev MsTimer := Option Nat

/-- The filter of an input line (R104, R118): the raw pin, the filtered level, and, while the two differ, how long the raw
line has stayed at its new level, in half microseconds. -/
structure InputFilter where
  raw : Level
  filtered : Level
  measure : Option Nat
  deriving DecidableEq, Repr

/-! ### Segments (01) -/

/-- A segment tag (R4). -/
abbrev Tag := Word16

/-- The start condition of a segment (section 1.2). -/
inductive StartCond where
  | none
  | trigger (line : TrgId)
  | sync (number : Nat)
  deriving DecidableEq, Repr

/-- The part of a segment record that its kind decides. The dominant count N and a last interval left out are completed at
acceptance (R4). -/
inductive SegmentBody where
  | move (entries : List (AxisId × Int)) (lastInterval dominant : Nat)
  | dwell (count : Nat)
  | home (axis : AxisId) (limit : Nat) (preset : Int)
  deriving DecidableEq, Repr

/-- A segment record, as it stands from acceptance until it leaves the queue (section 1.2, R4). -/
structure Segment where
  tag : Tag
  lane : LaneId
  body : SegmentBody
  firstInterval : Nat
  start : StartCond
  notify : Bool
  deriving DecidableEq, Repr

/-- The kind of a segment, as SEGMENT-DONE shows it (R16). -/
inductive SegmentKind where
  | move | dwell | home
  deriving DecidableEq, Repr

/-! ### Lanes (01, 02, 04, 05, 06) -/

/-- The seven lane states (R2). -/
inductive LaneState where
  | idle | ready | waiting | running | held | stopping | halted
  deriving DecidableEq, Repr

/-- The ten halt causes (R85). -/
inductive HaltCause where
  | abort | lineHalt | window | limit | silence | syncMismatch | syncBroken | syncTimeout | homeNotFound | homeWindow
  deriving DecidableEq, Repr

/-- A halt cause, with the axis concerned for WINDOW, LIMIT, HOME-NOT-FOUND and HOME-WINDOW (R85). -/
structure HaltInfo where
  cause : HaltCause
  axis : Option AxisId
  deriving DecidableEq, Repr

/-- The unmet wait conditions of the active segment (R65). -/
structure Unmet where
  settle : Bool
  trigger : Option TrgId
  sync : Bool
  deriving DecidableEq, Repr

/-- No condition unmet. -/
def Unmet.empty : Unmet := ⟨false, none, false⟩

/-- The step timer (R26). While it counts, `begun` says whether its interval has begun at a tick boundary (R27). An interval
with no ticks left has run out, and its expiry is due. -/
inductive StepTimer where
  | stopped
  | counting (left : Nat) (begun : Bool)
  | frozen (left : Nat)
  deriving DecidableEq, Repr

/-- The phase of a homing run (R106). -/
inductive HomePhase where
  | notChosen | leave | seek
  deriving DecidableEq, Repr

/-- The homing run (R106); its steps taken are the step-event count of the lane (R36). -/
structure HomingRun where
  phase : HomePhase
  limitReached : Bool
  deriving DecidableEq, Repr

/-- The end state a controlled stop is on its way to (R85). -/
inductive RampEnd where
  | idle | haltedSilence
  deriving DecidableEq, Repr

/-- The stop-ramp context (R85). `steps` is S, absent until the in-progress step event; `taken` is j. -/
structure StopRamp where
  endState : RampEnd
  distance : Nat
  stopInterval : Nat
  fromInterval : Nat
  steps : Option Nat
  taken : Nat
  deriving DecidableEq, Repr

/-- The four lane settings (R22). -/
structure LaneSettings where
  settle : Nat
  stopDistance : Nat
  stopInterval : Nat
  syncTimeout : Nat
  deriving DecidableEq, Repr

/-- A lane controller (R1, R85, R106). -/
structure Lane where
  queue : List Segment
  state : LaneState
  started : Bool
  softHold : Bool
  unmet : Unmet
  settleTimer : MsTimer
  stepTimer : StepTimer
  accumulators : PerAxis (Option Nat)
  interval : Nat
  stepCount : Nat
  dwellLeft : Nat
  homing : Option HomingRun
  ramp : Option StopRamp
  halt : Option HaltInfo
  settings : LaneSettings
  deriving DecidableEq, Repr

/-- A lane controller after a device reset (R1, section 1.8). -/
def Lane.atReset : Lane where
  queue := []
  state := .idle
  started := false
  softHold := false
  unmet := Unmet.empty
  settleTimer := none
  stepTimer := .stopped
  accumulators := ⟨none, none, none, none⟩
  interval := 0
  stepCount := 0
  dwellLeft := 0
  homing := none
  ramp := none
  halt := none
  settings := { settle := 20, stopDistance := 0, stopInterval := 4000, syncTimeout := 0 }

/-! ### Sync unit (04) -/

/-- A standing sync-wait entry: its number and its timeout timer, stopped where the lane's sync timeout was 0 (R74). -/
structure SyncEntry where
  number : Nat
  timer : MsTimer
  deriving DecidableEq, Repr

/-! ### Axis units (03, 06) -/

inductive DriveMode where
  | wave | pair | half | table | pulse
  deriving DecidableEq, Repr

inductive Sense where
  | normal | inverted
  deriving DecidableEq, Repr

inductive HomeDir where
  | forward | reverse
  deriving DecidableEq, Repr

/-- The largest magnitude of a window bound (section 3.1). -/
def boundMax : Int := 2147483647

/-- An axis unit (section 3.1, R44, R104). `owner` is the lane field, `none` for FREE. `pulse` is the time left, in half
microseconds, of a step pulse on line 1 (R48). -/
structure Axis where
  owner : Option LaneId
  mode : DriveMode
  sense : Sense
  phase : Nat
  position : Int
  windowMin : Int
  windowMax : Int
  energised : Bool
  holdTime : Nat
  homeLevel : Level
  homeDir : HomeDir
  guard : Bool
  homeFilter : Nat
  dirLevel : Level
  holdTimer : MsTimer
  home : InputFilter
  pulse : Option Nat
  deriving DecidableEq, Repr

/-- An axis unit after a device reset, given its lane and the level its home line shows at the end of it (R44, R104). -/
def Axis.atReset (owner : LaneId) (homeLine : Level) : Axis where
  owner := some owner
  mode := .half
  sense := .normal
  phase := 0
  position := 0
  windowMin := -boundMax
  windowMax := boundMax
  energised := false
  holdTime := 500
  homeLevel := .low
  homeDir := .reverse
  guard := false
  homeFilter := 25
  dirLevel := .low
  holdTimer := none
  home := ⟨homeLine, homeLine, none⟩
  pulse := none

/-! ### Line unit (07) -/

inductive Role where
  | off | start | hold | halt
  deriving DecidableEq, Repr

inductive EdgeSetting where
  | rise | fall | both
  deriving DecidableEq, Repr

inductive LaneMask where
  | none | l0 | l1 | both
  deriving DecidableEq, Repr

/-- A trigger line record with its filter (R117). -/
structure TrgLine where
  role : Role
  edge : EdgeSetting
  activeLevel : Level
  mask : LaneMask
  filterTime : Nat
  capture : Bool
  input : InputFilter
  deriving DecidableEq, Repr

/-- A trigger line record after a device reset, given the raw level at the end of it (R117). -/
def TrgLine.atReset (raw : Level) : TrgLine where
  role := .off
  edge := .rise
  activeLevel := .high
  mask := .none
  filterTime := 0
  capture := false
  input := ⟨raw, raw, none⟩

/-! ### Time base (02, 07) -/

/-- The time base (R25, R123, R124). `tickPhase`, `halfMicro` and `msPhase` say how many half microseconds have passed since
the last tick boundary, the last count of the stamp clock and the last millisecond mark. -/
structure TimeBase where
  exponent : Nat
  tickPhase : Nat
  halfMicro : Bool
  msPhase : Nat
  stamp : Stamp
  deriving DecidableEq, Repr

/-- The time base at the end of a device reset (R25, R123, R124; log 5). -/
def TimeBase.atReset : TimeBase := { exponent := 1, tickPhase := 0, halfMicro := false, msPhase := 0, stamp := 0 }

/-! ### Capture log (07) -/

/-- An edge that occurred (R119). -/
inductive Edge where
  | rise | fall
  deriving DecidableEq, Repr

/-- The source of a capture (section 7.4). -/
inductive CaptureSource where
  | line (id : TrgId)
  | host
  deriving DecidableEq, Repr

/-- A capture record (section 7.4). -/
structure CaptureRecord where
  number : Word16
  source : CaptureSource
  edge : Option Edge
  stamp : Stamp
  positions : PerAxis Int
  tags : PerLane (Option Tag)
  droppedBefore : Word16
  deriving DecidableEq, Repr

/-- The capture log (R125), oldest record first. -/
structure CaptureLog where
  records : List CaptureRecord
  next : Word16
  dropped : Word16
  deriving DecidableEq, Repr

/-! ### Report queue (10) -/

/-- The cause of a device reset (R165). -/
inductive ResetCause where
  | power | pin | request
  deriving DecidableEq, Repr

/-- The segment that a stop or halt cut, and, where it is a MOVE, the steps not taken (R101). -/
structure Cut where
  tag : Tag
  notTaken : Option Nat
  deriving DecidableEq, Repr

/-- What completion of a HOME adds to SEGMENT-DONE (R16, R110). -/
structure HomeResult where
  stepsTaken : Nat
  detectedAt : Int
  deriving DecidableEq, Repr

/-- The contents of a report besides its number and its lost before count (section 10.2). `laneStopped` with no halt is end
state IDLE with cause STOP-REQUEST; with one it is end state HALTED with that cause (R101). -/
inductive ReportBody where
  | restarted (cause : ResetCause) (revision : Nat)
  | segmentDone (lane : LaneId) (tag : Tag) (kind : SegmentKind) (depth : Nat) (home : Option HomeResult)
      (positions : PerAxis Int)
  | laneStopped (lane : LaneId) (halt : Option HaltInfo) (cut : Option Cut) (positions : PerAxis Int)
  | captureReady (records : Nat)
  deriving DecidableEq, Repr

/-- A report in the list (R175). -/
structure Report where
  number : Byte
  lostBefore : Nat
  body : ReportBody
  deriving DecidableEq, Repr

inductive Delivery where
  | push | poll
  deriving DecidableEq, Repr

/-- The delivery state of the head report (section 10.4). -/
inductive HeadState where
  | unsent | sending | sent | due
  deriving DecidableEq, Repr

/-- The report queue (R174), oldest report first. -/
structure ReportQueue where
  list : List Report
  next : Byte
  lost : Nat
  mode : Delivery
  resendPeriod : Nat
  resendLimit : Nat
  head : HeadState
  retries : Nat
  resendTimer : MsTimer
  suspended : Bool
  deriving DecidableEq, Repr

/-- The report queue at the end of a device reset (R174). -/
def ReportQueue.atReset (cause : ResetCause) : ReportQueue where
  list := [{ number := 0, lostBefore := 0, body := .restarted cause Config.revision }]
  next := 1
  lost := 0
  mode := .push
  resendPeriod := 20
  resendLimit := 3
  head := .unsent
  retries := 0
  resendTimer := none
  suspended := false

/-! ### Host link unit and request executor (08, 09) -/

/-- The six link rates (R134). -/
inductive LinkRate where
  | r19200 | r57600 | r115200 | r230400 | r460800 | r921600
  deriving DecidableEq, Repr

/-- The rate that the RATE1 and RATE0 pins select (R134). -/
def pinRate : Level → Level → LinkRate
  | .low, .high => .r19200
  | .low, .low => .r115200
  | .high, .low => .r460800
  | .high, .high => .r921600

/-- The receiver and the frame it is assembling (R140). HEADER is split by the byte awaited; `check` awaits the first CHECK
byte and `checkLow` the second. -/
inductive Receiver where
  | hunt
  | headerLen
  | headerSeq (len : Byte)
  | headerKind (len seq : Byte)
  | body (len seq kind : Byte) (payload : List Byte)
  | check (len seq kind : Byte) (payload : List Byte)
  | checkLow (len seq kind : Byte) (payload : List Byte) (high : Byte)
  deriving DecidableEq, Repr

/-- A good request frame as an intake slot holds it (R145). -/
structure Request where
  seq : Byte
  kind : Byte
  payload : List Byte
  check : Word16
  deriving DecidableEq, Repr

/-- What the end of a reply brings besides freeing its slot (R135, R151, R164). -/
inductive AfterReply where
  | nothing
  | changeRate (rate : LinkRate)
  | deviceReset
  deriving DecidableEq, Repr

/-- An intake slot (R145). -/
inductive Slot where
  | free
  | pending (order : Nat) (request : Request)
  | answering (order : Nat) (frame : List Byte) (after : AfterReply)
  deriving DecidableEq, Repr

/-- The two intake slots. -/
inductive SlotId where
  | S0 | S1
  deriving DecidableEq, Repr

/-- An entry of the reply cache (R148). -/
structure CacheEntry where
  seq : Byte
  check : Word16
  reply : List Byte
  deriving DecidableEq, Repr

/-- Where the frame being sent comes from (R150). -/
inductive TxSource where
  | slot (id : SlotId)
  | report (number : Byte)
  deriving DecidableEq, Repr

/-- The transmitter (R150). `left` is what is left to send, in bits times 2,000,000, so that half a microsecond at a rate of r
bits a second lowers it by r. -/
inductive Transmitter where
  | idle
  | sending (source : TxSource) (frame : List Byte) (left : Nat)
  deriving DecidableEq, Repr

/-- The bit that a break found in progress on TXD, which goes on to its end (R138): its level, what is left of it, in the count
of `Transmitter.sending`, and the rate it is sent at. -/
structure LastBit where
  level : Level
  left : Nat
  rate : LinkRate
  deriving DecidableEq, Repr

/-- The host link unit (chapter 08). The gap and break measures are in half microseconds. -/
structure Link where
  rate : LinkRate
  pinRate : LinkRate
  receiver : Receiver
  awaitHigh : Bool
  gap : Option Nat
  breakMeasure : Option Nat
  breakHold : Bool
  slot0 : Slot
  slot1 : Slot
  nextOrder : Nat
  cache : List CacheEntry
  tx : Transmitter
  lastBit : Option LastBit
  silencePeriod : Nat
  silenceTimer : MsTimer
  deriving DecidableEq, Repr

/-- The host link unit at the end of a device reset, given the pin rate and the level of RXD (section 8.8, R137). -/
def Link.atReset (rate : LinkRate) (rxd : Level) : Link where
  rate := rate
  pinRate := rate
  receiver := .hunt
  awaitHigh := false
  gap := none
  breakMeasure := if rxd = .low then some 0 else none
  breakHold := false
  slot0 := .free
  slot1 := .free
  nextOrder := 0
  cache := []
  tx := .idle
  lastBit := none
  silencePeriod := 0
  silenceTimer := none

/-! ### The part -/

/-- Whether a device reset is in progress, with its cause and the half microseconds it has lasted (R165, R188). -/
inductive Power where
  | running
  | inReset (cause : ResetCause) (elapsed : Nat)
  deriving DecidableEq, Repr

/-- The input pins that no block above holds, at their present levels. -/
structure Pins where
  rstn : Level
  rxd : Level
  rate1 : Level
  rate0 : Level
  deriving DecidableEq, Repr

/-- The whole part. `freeCount` and `pending` are the model's own: the count that the free values are applied to, and the
queue of commands that wait. -/
structure State where
  power : Power
  pins : Pins
  lanes : PerLane Lane
  sync : PerLane (Option SyncEntry)
  axes : PerAxis Axis
  lines : PerTrg TrgLine
  time : TimeBase
  captures : CaptureLog
  reports : ReportQueue
  patterns : List Nat
  link : Link
  restartWait : Bool
  freeCount : Nat
  pending : List Instr
  deriving DecidableEq, Repr

/-- The part at the end of a device reset with this cause, the pins showing these levels in that event (R165, R188). -/
def State.atReset (cause : ResetCause) (pins : Pins) (trg : PerTrg Level) (home : PerAxis Level) : State where
  power := .running
  pins := pins
  lanes := ⟨Lane.atReset, Lane.atReset⟩
  sync := ⟨none, none⟩
  axes := ⟨Axis.atReset .L0 home.a, Axis.atReset .L0 home.b, Axis.atReset .L1 home.c, Axis.atReset .L1 home.d⟩
  lines := ⟨TrgLine.atReset trg.t0, TrgLine.atReset trg.t1, TrgLine.atReset trg.t2, TrgLine.atReset trg.t3⟩
  time := TimeBase.atReset
  captures := { records := [], next := 0, dropped := 0 }
  reports := ReportQueue.atReset cause
  patterns := [8, 12, 4, 6, 2, 3, 1, 9]
  link := Link.atReset (pinRate pins.rate1 pins.rate0) pins.rxd
  restartWait := false
  freeCount := 0
  pending := []

/-- The part right after a power-on reset: every field at the value the spec gives for a device reset. The pins are the
model's choice (DESIGN CHOICE, log 8): RATE1 and RATE0 low, the trigger lines low, the home lines high, and RXD at rest. -/
def State.reset : State :=
  State.atReset .power { rstn := .high, rxd := .high, rate1 := .low, rate0 := .low } ⟨.low, .low, .low, .low⟩
    ⟨.high, .high, .high, .high⟩

/-- The reasons the part can stop with a fault: none. No rule of the spec names an event that stops it (a refused request is a
reply status, a motion error a halted lane), so no meaning raises one, and nothing is safe or unsafe about it. -/
inductive Fault where
  deriving DecidableEq, Repr

/-- The reasons a command has no meaning. -/
inductive Refusal where
  /-- The row of this mnemonic is not modelled. Raised by `exec` alone, for an arm with no meaning; safe. No arm raises it:
  every row of the table has its meaning. -/
  | notModelled (mnemonic : String)
  deriving DecidableEq, Repr

end Sys2Proof.Machine
end

