-- ==== Sys2Proof/Machine/Ops.lean ====
section
/-! DEFINITION. The shared operations below the lanes: one home for each read and write, timers, the report queue, the capture
log, the axis unit's own operations, and the device reset. -/

namespace Sys2Proof.Machine

open Sys2Proof

/-! ### Reading and writing families -/

def PerLane.get (p : PerLane α) : LaneId → α
  | .L0 => p.l0
  | .L1 => p.l1

def PerLane.set (p : PerLane α) : LaneId → α → PerLane α
  | .L0, v => { p with l0 := v }
  | .L1, v => { p with l1 := v }

def PerLane.mapWith (f : LaneId → α → β) (p : PerLane α) : PerLane β := ⟨f .L0 p.l0, f .L1 p.l1⟩

def PerAxis.get (p : PerAxis α) : AxisId → α
  | .A => p.a
  | .B => p.b
  | .C => p.c
  | .D => p.d

def PerAxis.set (p : PerAxis α) : AxisId → α → PerAxis α
  | .A, v => { p with a := v }
  | .B, v => { p with b := v }
  | .C, v => { p with c := v }
  | .D, v => { p with d := v }

def PerAxis.mapWith (f : AxisId → α → β) (p : PerAxis α) : PerAxis β := ⟨f .A p.a, f .B p.b, f .C p.c, f .D p.d⟩

def PerTrg.get (p : PerTrg α) : TrgId → α
  | .T0 => p.t0
  | .T1 => p.t1
  | .T2 => p.t2
  | .T3 => p.t3

def PerTrg.set (p : PerTrg α) : TrgId → α → PerTrg α
  | .T0, v => { p with t0 := v }
  | .T1, v => { p with t1 := v }
  | .T2, v => { p with t2 := v }
  | .T3, v => { p with t3 := v }

def PerTrg.mapWith (f : TrgId → α → β) (p : PerTrg α) : PerTrg β := ⟨f .T0 p.t0, f .T1 p.t1, f .T2 p.t2, f .T3 p.t3⟩

/-- The other lane. -/
def otherLane : LaneId → LaneId
  | .L0 => .L1
  | .L1 => .L0

/-- The axes, lowest letter first (Conventions: the lowest letter is chosen). -/
def allAxes : List AxisId := [.A, .B, .C, .D]

/-- The trigger lines in order. -/
def allTrgs : List TrgId := [.T0, .T1, .T2, .T3]

def State.lane (s : State) (l : LaneId) : Lane := s.lanes.get l
def State.setLane (s : State) (l : LaneId) (v : Lane) : State := { s with lanes := s.lanes.set l v }
def State.axis (s : State) (a : AxisId) : Axis := s.axes.get a
def State.setAxis (s : State) (a : AxisId) (v : Axis) : State := { s with axes := s.axes.set a v }
def State.line (s : State) (n : TrgId) : TrgLine := s.lines.get n
def State.setLine (s : State) (n : TrgId) (v : TrgLine) : State := { s with lines := s.lines.set n v }
def State.setSync (s : State) (l : LaneId) (e : Option SyncEntry) : State := { s with sync := s.sync.set l e }

/-- No device reset is in progress. -/
def State.running (s : State) : Bool := s.power = .running

/-- The positions of all four axes. -/
def State.positions (s : State) : PerAxis Int := s.axes.mapWith fun _ x => x.position

/-! ### Time (R25 to R27, R124) -/

/-- The present moment is a tick boundary (R27). -/
def State.onTick (s : State) : Bool := s.time.tickPhase = 0

/-- The marks a timer of `t` milliseconds started now has to count: it expires at the first mark at which `t` milliseconds or
more have passed since its start (R124). -/
def State.msFor (s : State) (t : Nat) : Nat := if s.time.msPhase = 0 then t else t + 1

/-! ### Segments (R4, R28, R30) -/

def Segment.kind (g : Segment) : SegmentKind :=
  match g.body with
  | .move .. => .move
  | .dwell _ => .dwell
  | .home .. => .home

/-- The segment is a MOVE or a HOME: its activation energises the axes of its lane (R13). -/
def Segment.isMotion (g : Segment) : Bool := g.kind ≠ .dwell

/-- The count of an axis in a MOVE; an axis that the counts list does not name has the count 0 (R4). -/
def countOf (entries : List (AxisId × Int)) (a : AxisId) : Int :=
  match entries.find? (fun e => e.1 = a) with
  | some e => e.2
  | none => 0

/-- The dominant count of a counts list, the largest magnitude in it (R4). -/
def dominantOf (entries : List (AxisId × Int)) : Nat := entries.foldl (fun m e => max m e.2.natAbs) 0

/-- The start value of the accumulators: floor(N/2) for each axis with a count that is not 0 (R30). -/
def Segment.startAccumulators (g : Segment) : PerAxis (Option Nat) :=
  match g.body with
  | .move entries _ dominant =>
    (⟨(), (), (), ()⟩ : PerAxis Unit).mapWith fun a _ => if countOf entries a = 0 then none else some (dominant / 2)
  | _ => ⟨none, none, none, none⟩

def Segment.dwellCount (g : Segment) : Nat :=
  match g.body with
  | .dwell n => n
  | _ => 0

def Segment.startRun (g : Segment) : Option HomingRun :=
  match g.body with
  | .home .. => some ⟨.notChosen, false⟩
  | _ => none

def Segment.triggerLine (g : Segment) : Option TrgId :=
  match g.start with
  | .trigger n => some n
  | _ => none

/-- The interval before step event `k` of a MOVE (R28). -/
def rampInterval (i0 i1 n k : Nat) : Nat :=
  if n ≤ 1 then i0 else ((i0 : Int) + (((i1 : Int) - i0) * ((k : Int) - 1)).tdiv ((n : Int) - 1)).toNat

/-- The interval before stop step event `j` of a ramp of `s` steps (R90). -/
def stopInterval (is ic s j : Nat) : Nat := if ic < is then ic + (is - ic) * j / s else ic

/-! ### Lanes: what a lane's state says -/

/-- The active segment: the head of the queue in WAITING, RUNNING, HELD and STOPPING (R3). -/
def Lane.active (v : Lane) : Option Segment :=
  match v.state with
  | .waiting | .running | .held | .stopping => v.queue.head?
  | _ => none

/-- The tag the lane offers to the capture log (R3). -/
def Lane.activeTag (v : Lane) : Option Tag := v.active.map (·.tag)

/-- The staged segment: the second entry of the queue of a started lane (R10). -/
def Lane.staged (v : Lane) : Option Segment := if v.started then v.queue[1]? else none

/-- The lane is executing a MOVE or a HOME: RUNNING, HELD or STOPPING with such an active segment (R53). -/
def Lane.executing (v : Lane) : Bool :=
  match v.state with
  | .running | .held | .stopping => (v.queue.head?).any Segment.isMotion
  | _ => false

/-- The lane is in WAITING, RUNNING, HELD or STOPPING: the states that refuse most settings (R23, R41, section 3.7). -/
def Lane.busy (v : Lane) : Bool :=
  match v.state with
  | .waiting | .running | .held | .stopping => true
  | _ => false

/-- The lane is IDLE or HALTED: its axes may change lane (R58). -/
def Lane.emptyState (v : Lane) : Bool := v.state = .idle || v.state = .halted

def Unmet.isEmpty (u : Unmet) : Bool := u = Unmet.empty

/-- What a stop or halt taken now would cut (R101). -/
def Lane.cut (v : Lane) : Option Cut :=
  v.active.map fun g =>
    { tag := g.tag
      notTaken := match g.body with
        | .move _ _ n => some (n - v.stepCount)
        | _ => none }

/-- The lane with everything that belongs to an active segment dropped (R11). -/
def Lane.cleared (v : Lane) : Lane :=
  { v with unmet := Unmet.empty, settleTimer := none, stepTimer := .stopped, accumulators := ⟨none, none, none, none⟩
           interval := 0, stepCount := 0, dwellLeft := 0, homing := none, ramp := none }

/-- The lane after a full flush of its queue (R11). -/
def Lane.flushed (v : Lane) : Lane := { v.cleared with queue := [] }

/-! ### Report queue (R176 to R180) -/

/-- RESTARTED and LANE-STOPPED are vital, SEGMENT-DONE and CAPTURE-READY ordinary (R175). -/
def ReportBody.vital : ReportBody → Bool
  | .restarted .. | .laneStopped .. => true
  | _ => false

/-- The places of the list open to a report of this kind (R176). -/
def ReportBody.places (b : ReportBody) : Nat := if b.vital then Config.reportDepth else Config.ordinaryDepth

/-- The queue accepts or discards a report (R176). -/
def ReportQueue.hand (q : ReportQueue) (b : ReportBody) : ReportQueue :=
  if q.list.length < b.places then
    let q' := { q with list := q.list ++ [{ number := q.next, lostBefore := q.lost, body := b }], next := q.next + 1, lost := 0 }
    if q.list.isEmpty then { q' with head := .unsent, retries := 0, resendTimer := none, suspended := false } else q'
  else { q with lost := min (q.lost + 1) 255 }

/-- A producer hands a report to the report queue (R176). -/
def enqueue (b : ReportBody) (s : State) : State := { s with reports := s.reports.hand b }

/-- The report queue asks the transmitter for the line (R178, R182). -/
def ReportQueue.asks (q : ReportQueue) : Bool :=
  q.mode = .push && !q.suspended && !q.list.isEmpty && (q.head = .unsent || q.head = .due)

/-- The head is removed, and what is left becomes the head afresh (R180). -/
def ReportQueue.removeHead (q : ReportQueue) : ReportQueue :=
  { q with list := q.list.tail, head := .unsent, retries := 0, resendTimer := none, suspended := false }

/-- The head goes to UNSENT with retry count 0, the resend timer stopped and SUSPENDED clear (R182, R183). -/
def ReportQueue.headUnsent (q : ReportQueue) : ReportQueue :=
  { q with head := .unsent, retries := 0, resendTimer := none, suspended := false }

/-! ### Capture log (R126 to R128) -/

/-- A capture takes the next number and forms its record (R126). -/
def captureRecord (source : CaptureSource) (edge : Option Edge) (s : State) : CaptureRecord where
  number := s.captures.next
  source := source
  edge := edge
  stamp := s.time.stamp
  positions := s.positions
  tags := s.lanes.mapWith fun _ v => v.activeTag
  droppedBefore := s.captures.dropped

/-- The log has no place for a record (R127). -/
def CaptureLog.full (c : CaptureLog) : Bool := Config.captureDepth ≤ c.records.length

/-- A capture is made, and stored or discarded; a record stored into an empty log queues CAPTURE-READY (R126 to R128). -/
def makeCapture (source : CaptureSource) (edge : Option Edge) (s : State) : State :=
  let c := s.captures
  if c.full then { s with captures := { c with next := c.next + 1, dropped := c.dropped + 1 } }
  else
    let s' := { s with captures :=
      { records := c.records ++ [captureRecord source edge s], next := c.next + 1, dropped := 0 } }
    if c.records.isEmpty then enqueue (.captureReady 1) s' else s'

/-! ### Axis units (R46 to R53) -/

/-- The pattern length of an axis (R46). -/
def patternLength (patterns : List Nat) : DriveMode → Nat
  | .wave => 4
  | .pair => 4
  | .half => 8
  | .table => patterns.length
  | .pulse => 1

/-- A step in this direction raises the phase index, or, in PULSE mode, sets the direction level HIGH (R47, R48). -/
def Axis.phaseUp (x : Axis) (forward : Bool) : Bool := forward == (x.sense = .normal)

/-- The position a step in this direction would give (R47). -/
def Axis.stepped (x : Axis) (forward : Bool) : Int := if forward then x.position + 1 else x.position - 1

/-- The axis takes a step that passed its checks (R47, R48). The hold timer that R47 restarts does not run while the lane
executes, so the restart shows when the lane stops executing (R53; log 17). R48 has line 2 take its level before line 1 rises and
gives no time: both change in this one event, with no lead (DESIGN CHOICE, log 22). -/
def Axis.takeStep (patterns : List Nat) (forward : Bool) (x : Axis) : Axis :=
  let n := patternLength patterns x.mode
  let up := x.phaseUp forward
  if x.mode = .pulse then
    { x with position := x.stepped forward, dirLevel := if up then .high else .low, pulse := some 2 }
  else
    { x with position := x.stepped forward, phase := if up then (x.phase + 1) % n else (x.phase + n - 1) % n }

/-- The step would leave the axis window (R33). -/
def Axis.windowFails (x : Axis) (forward : Bool) : Bool :=
  let p := x.stepped forward
  p < x.windowMin || x.windowMax < p

/-- The home line of the axis is active (R104). -/
def Axis.homeActive (x : Axis) : Bool := x.home.filtered = x.homeLevel

/-- The limit guard refuses the step (R33, R114). -/
def Axis.guardFails (x : Axis) (forward : Bool) : Bool :=
  x.guard && (forward == (x.homeDir = .forward)) && x.homeActive

/-- A value lies within the axis window (R50). -/
def Axis.inWindow (x : Axis) (p : Int) : Bool := x.windowMin ≤ p && p ≤ x.windowMax

/-- The axis is released: its lines go low and its hold timer stops (R52). -/
def Axis.released (x : Axis) : Axis := { x with energised := false, holdTimer := none, pulse := none }

/-- Every axis of the lane is energised (R13, R51). -/
def energiseLane (l : LaneId) (s : State) : State :=
  { s with axes := s.axes.mapWith fun _ x => if x.owner = some l then { x with energised := true } else x }

/-- Some axis of the lane is RELEASED (R13). -/
def State.hasReleased (s : State) (l : LaneId) : Bool :=
  allAxes.any fun a => (s.axis a).owner = some l && !(s.axis a).energised

/-- The lane an axis belongs to, if any, is executing a MOVE or HOME (R53). -/
def State.ownerExecutes (s : State) (x : Axis) : Bool :=
  match x.owner with
  | some l => (s.lane l).executing
  | none => false

/-- The three conditions under which a hold timer runs (R53). -/
def State.holdRuns (s : State) (a : AxisId) : Bool :=
  (s.axis a).energised && (s.axis a).holdTime != 0 && !s.ownerExecutes (s.axis a)

/-- A hold timer with the full hold time remaining (R53). -/
def State.holdStart (s : State) (x : Axis) : MsTimer := some (s.msFor x.holdTime)

/-- Each hold timer starts afresh in an event in which its conditions begin to hold, and stops in one in which they cease to
(R53): `before` and `after` are the part before and after the event. -/
def settleHoldTimers (before after : State) : State :=
  { after with axes := after.axes.mapWith fun a x =>
      match before.holdRuns a, after.holdRuns a with
      | false, true => { x with holdTimer := after.holdStart x }
      | true, false => { x with holdTimer := none }
      | _, _ => x }

/-! ### Device reset (R165, R188) -/

def trgLevels (s : State) : PerTrg Level := s.lines.mapWith fun _ x => x.input.raw
def homeLevels (s : State) : PerAxis Level := s.axes.mapWith fun _ x => x.home.raw

/-- Every block at its reset values, the pins as they stand; the queue of waiting commands and the count of the free values
are not the part's and stay. -/
def resetBlocks (cause : ResetCause) (s : State) : State :=
  { State.atReset cause s.pins (trgLevels s) (homeLevels s) with freeCount := s.freeCount, pending := s.pending }

/-- A device reset begins (R188): the blocks take their reset values at once, no report is held, and the link rate stays
until the pins are sampled at the end. -/
def beginReset (cause : ResetCause) (s : State) : State :=
  let r := resetBlocks cause s
  { r with
    power := .inReset cause 0
    reports := { r.reports with list := [] }
    link := { r.link with rate := s.link.rate, pinRate := s.link.pinRate, breakMeasure := none } }

/-- A device reset ends, the rate pins showing these levels and RSTN high (R188). -/
def endReset (cause : ResetCause) (rate1 rate0 : Level) (s : State) : State :=
  resetBlocks cause { s with pins := { s.pins with rstn := .high, rate1 := rate1, rate0 := rate0 } }

end Sys2Proof.Machine
end

