-- ==== Sys2Proof/Machine/Flags.lean ====
section
/-! DEFINITION. What the part's state says at a glance: the hold sources, the checks of a step, and the output lines (the coil
lines, TXD and ATTN), each computed from the state that decides it. -/

namespace Sys2Proof.Machine

open Sys2Proof

/-! ### Hold sources (R71, R72) -/

def LaneMask.names : LaneMask → LaneId → Bool
  | .none, _ => false
  | .l0, l => l = .L0
  | .l1, l => l = .L1
  | .both, _ => true

/-- The line is a hold source of the lane (R71). -/
def TrgLine.holds (t : TrgLine) (l : LaneId) : Bool :=
  t.role = .hold && t.mask.names l && t.input.filtered = t.activeLevel

/-- The lane's hold is asserted: its soft hold, or a line that is a hold source (R72). -/
def State.holdAsserted (s : State) (l : LaneId) : Bool :=
  (s.lane l).softHold || allTrgs.any fun n => (s.line n).holds l

/-! ### Edges (R119) -/

def edgeTo : Level → Edge
  | .high => .rise
  | .low => .fall

/-- The edge is an accepted edge for this edge setting (R119). -/
def EdgeSetting.accepts : EdgeSetting → Edge → Bool
  | .both, _ => true
  | .rise, e => e = .rise
  | .fall, e => e = .fall

/-! ### The step of a MOVE (R31, R33, R35) -/

/-- What one accumulator does at a step event: whether its axis is due, and its new value (R31). -/
def accumulate (n : Nat) (count : Int) : Option Nat → Bool × Option Nat
  | none => (false, none)
  | some v => if n ≤ v + count.natAbs then (true, some (v + count.natAbs - n)) else (false, some (v + count.natAbs))

/-- The axis is due at the next step event of the lane's MOVE (R31). -/
def Lane.due (v : Lane) (entries : List (AxisId × Int)) (n : Nat) (a : AxisId) : Bool :=
  (accumulate n (countOf entries a) (v.accumulators.get a)).1

/-- A step in the sign of this count is a forward step (R31). -/
def forwardCount (entries : List (AxisId × Int)) (a : AxisId) : Bool := 0 < countOf entries a

/-- The halt that the checks of the next step event call for, if a due axis fails one: LIMIT for the lowest axis that fails its
guard, else WINDOW for the lowest that leaves its window (R33, R35). -/
def moveFailure (l : LaneId) (entries : List (AxisId × Int)) (n : Nat) (s : State) : Option HaltInfo :=
  let due := (s.lane l).due entries n
  match allAxes.find? fun a => due a && (s.axis a).guardFails (forwardCount entries a) with
  | some a => some ⟨.limit, some a⟩
  | none =>
    match allAxes.find? fun a => due a && (s.axis a).windowFails (forwardCount entries a) with
    | some a => some ⟨.window, some a⟩
    | none => none

/-! ### Output lines -/

/-- The coil states of a drive mode in order (section 3.2). -/
def pattern (patterns : List Nat) : DriveMode → List Nat
  | .wave => [8, 4, 2, 1]
  | .pair => [12, 6, 3, 9]
  | .half => [8, 12, 4, 6, 2, 3, 1, 9]
  | .table => patterns
  | .pulse => []

/-- The levels of the four coil lines of an axis, as the sum of 8 for line 1, 4 for line 2, 2 for line 3 and 1 for line 4
(R46, R48). -/
def Axis.coilState (patterns : List Nat) (x : Axis) : Nat :=
  if !x.energised then 0
  else if x.mode = .pulse then
    (if x.pulse.isSome then 8 else 0) + (if x.dirLevel = .high then 4 else 0) + 2
  else (pattern patterns x.mode).getD x.phase 0

/-- The coil lines of an axis; a device reset has every axis released, so they are low throughout it (R44, R188). -/
def State.coilState (s : State) (a : AxisId) : Nat := (s.axis a).coilState s.patterns

/-- ATTN: low exactly while the report queue is not empty, and through a device reset (R185, R188). -/
def State.attn (s : State) : Level := if !s.running || !s.reports.list.isEmpty then .low else .high

/-- The ten bit times of a byte on a link line: a start bit, eight data bits least significant first, a stop bit (R133). -/
def byteLevels (b : Byte) : List Level :=
  .low :: ((List.range 8).map fun i => if b.getLsbD i then .high else .low) ++ [.high]

/-- What half a microsecond at 1 bit a second is worth in `Transmitter.sending`'s count of what is left. -/
def bitWeight : Nat := 2000000

/-- The bit of a frame that is going out with `left` still to send. -/
def frameBit (frame : List Byte) (left : Nat) : Level :=
  let bits := frame.flatMap byteLevels
  bits.getD ((bits.length * bitWeight - left) / bitWeight) .high

/-- TXD: the bit of the frame that is going out, or what a break has left of one; high at rest and through a device reset (R133,
R138, R150, R188). -/
def State.txd (s : State) : Level :=
  match s.link.lastBit, s.link.tx with
  | some b, _ => b.level
  | none, .idle => .high
  | none, .sending _ frame left => frameBit frame left

/-- What a break leaves of the frame on TXD: the bit in progress, to its end, at the rate it is sent at (R138 step 4). -/
def Link.bitInProgress (k : Link) : Option LastBit :=
  match k.lastBit, k.tx with
  | some b, _ => some b
  | none, .sending _ frame (left + 1) => some { level := frameBit frame (left + 1), left := left % bitWeight + 1, rate := k.rate }
  | none, _ => none

end Sys2Proof.Machine
end

