-- ==== Sys2Proof/Machine/Lanes.lean ====
section
/-! DEFINITION. The shared operations of the lane controllers and the sync unit: activation, the leaving of WAITING, sync
waits, completion, step events, stops and halts, holds, and what a change of an input line does to a lane. -/

namespace Sys2Proof.Machine

open Sys2Proof

/-! ### Ends of a lane's work: halts and stops (R11, R78, R87, R92, R94, R95) -/

/-- The full flush, the withdrawal of the lane's sync-wait entry, the entry into IDLE or HALTED with its cause, and the
LANE-STOPPED report with what was cut (R11, R87, R92, R94, R101). -/
def endLane (l : LaneId) (h : Option HaltInfo) (s : State) : State :=
  let v := s.lane l
  let s1 := (s.setLane l { v.flushed with state := if h.isSome then .halted else .idle, started := false, halt := h }).setSync l none
  enqueue (.laneStopped l h v.cut s1.positions) s1

/-- The halt of one lane alone: ignored in HALTED (R94, R95). -/
def haltOnly (l : LaneId) (h : HaltInfo) (s : State) : State :=
  if (s.lane l).state = .halted then s else endLane l (some h) s

/-- The halt procedure: the lane halts, and then the other lane's standing wait is broken (R78, R94). -/
def halt (l : LaneId) (h : HaltInfo) (s : State) : State :=
  if (s.lane l).state = .halted then s
  else
    let s1 := endLane l (some h) s
    if (s1.sync.get (otherLane l)).isSome then haltOnly (otherLane l) ⟨.syncBroken, none⟩ s1 else s1

/-- An immediate stop (R87). -/
def immediateStop (l : LaneId) (s : State) : State := endLane l none s

/-- A controlled stop begins: what stands behind the active segment is flushed, and the stop-ramp context is set up (R88). -/
def beginStop (l : LaneId) (e : RampEnd) (s : State) : State :=
  let v := s.lane l
  s.setLane l { v with
    queue := v.queue.take 1
    state := .stopping
    ramp := some { endState := e, distance := v.settings.stopDistance, stopInterval := v.settings.stopInterval
                   fromInterval := v.interval, steps := none, taken := 0 } }

/-- A controlled stop reaches its end state (R92). -/
def reachStopEnd (l : LaneId) (e : RampEnd) (s : State) : State :=
  match e with
  | .idle => endLane l none s
  | .haltedSilence => halt l ⟨.silence, none⟩ s

/-! ### Intervals (R26, R27, R39, R40) -/

/-- An interval of `n` ticks starts; `atTick` says that it begins at the instant of the event (R27). -/
def startInterval (l : LaneId) (n : Nat) (atTick : Bool) (s : State) : State :=
  s.setLane l { s.lane l with stepTimer := .counting n atTick, interval := n }

/-- The hold takes effect on a RUNNING or HELD lane: it freezes the interval in progress, or lets the frozen remainder run out
(R39, R40, R72). -/
def applyHold (l : LaneId) (s : State) : State :=
  let v := s.lane l
  match v.state, s.holdAsserted l, v.stepTimer with
  | .running, true, .counting left _ => s.setLane l { v with state := .held, stepTimer := .frozen (max left 1) }
  | .held, false, .frozen left => s.setLane l { v with state := .running, stepTimer := .counting left s.onTick }
  | _, _, _ => s

/-- Both lanes' holds take effect. -/
def applyHolds (s : State) : State := applyHold .L1 (applyHold .L0 s)

/-! ### Activation, waiting and sync (R13 to R15, R51, R75 to R77, R107) -/

/-- The phase a homing run starts in, read from the home line (R107). -/
def startPhase (s : State) (g : Segment) : Option HomingRun :=
  match g.body with
  | .home a _ _ => some ⟨if (s.axis a).homeActive then .leave else .seek, false⟩
  | _ => none

/-- The first interval of the active segment begins, counting or frozen by a hold; a MOVE or HOME energises any axis of the
lane that is RELEASED (R14, R15, R51, R107). -/
def beginSegment (l : LaneId) (atTick : Bool) (s : State) : State :=
  match (s.lane l).queue with
  | [] => s
  | g :: _ =>
    let s1 := if g.isMotion then energiseLane l s else s
    let v := s1.lane l
    s1.setLane l { v with
      state := if s1.holdAsserted l then .held else .running
      stepTimer := if s1.holdAsserted l then .frozen g.firstInterval else .counting g.firstInterval atTick
      homing := startPhase s1 g }

/-- A lane in WAITING with no condition unmet leaves it (R15). -/
def leaveIfMet (l : LaneId) (atTick : Bool) (s : State) : State :=
  if (s.lane l).state = .waiting && (s.lane l).unmet.isEmpty then beginSegment l atTick s else s

/-- The lane enters a sync wait for the number `k`, decided against the other lane's entry (R75 to R77). -/
def enterSync (l : LaneId) (k : Nat) (atTick : Bool) (s : State) : State :=
  let o := otherLane l
  let v := s.lane l
  match s.sync.get o with
  | none =>
    let t := v.settings.syncTimeout
    (s.setLane l { v with unmet := { v.unmet with sync := true } }).setSync l
      (some { number := k, timer := if t = 0 then none else some (s.msFor t) })
  | some e =>
    if e.number = k then
      let w := s.lane o
      let s1 := (s.setLane o { w with unmet := { w.unmet with sync := false } }).setSync o none
      leaveIfMet o atTick (leaveIfMet l atTick s1)
    else
      haltOnly l ⟨.syncMismatch, none⟩ (haltOnly o ⟨.syncMismatch, none⟩ s)

/-- The head of the lane's queue becomes the active segment, with its conditions SETTLE and TRIGGER (R13, R14). Its SYNC, if it
has one, is still to be taken. -/
def prepareActivation (l : LaneId) (g : Segment) (s : State) : State :=
  let s1 := if g.isMotion then energiseLane l s else s
  let v := s1.lane l
  let settle := g.isMotion && s.hasReleased l && v.settings.settle != 0
  s1.setLane l { v with
    state := .waiting
    started := true
    unmet := { settle := settle, trigger := g.triggerLine, sync := false }
    settleTimer := if settle then some (s1.msFor v.settings.settle) else none
    stepTimer := .stopped
    accumulators := g.startAccumulators
    interval := g.firstInterval
    stepCount := 0
    dwellLeft := g.dwellCount
    homing := g.startRun
    ramp := none }

/-- The activation of the head of the lane's queue (R13, R14). -/
def activate (l : LaneId) (atTick : Bool) (s : State) : State :=
  match (s.lane l).queue with
  | [] => s
  | g :: _ =>
    let s1 := prepareActivation l g s
    match g.start with
    | .sync k => enterSync l k atTick s1
    | _ => leaveIfMet l atTick s1

/-! ### Completion (R16 to R18) -/

/-- The active segment leaves the head of the queue, with its SEGMENT-DONE if notify is yes (R16). -/
def removeActive (l : LaneId) (home : Option HomeResult) (s : State) : State :=
  match (s.lane l).queue with
  | [] => s
  | g :: rest =>
    let s1 := s.setLane l { (s.lane l).cleared with queue := rest }
    if g.notify then enqueue (.segmentDone l g.tag g.kind rest.length home s1.positions) s1 else s1

/-- The completion of the active segment of a started lane: the staged segment is activated, or the lane runs dry (R16 to
R18). -/
def complete (l : LaneId) (home : Option HomeResult) (atTick : Bool) (s : State) : State :=
  let s1 := removeActive l home s
  match (s1.lane l).queue with
  | [] => s1.setLane l { s1.lane l with state := .idle, started := false }
  | _ :: _ => activate l atTick s1

/-! ### Step events (R31 to R35) -/

/-- Every due axis steps, the accumulators take their new values and the step-event count rises by 1 (R34). -/
def takeMoveStep (l : LaneId) (entries : List (AxisId × Int)) (n : Nat) (s : State) : State :=
  let v := s.lane l
  { s with
    axes := s.axes.mapWith fun a x =>
      if v.due entries n a then x.takeStep s.patterns (forwardCount entries a) else x
    lanes := s.lanes.set l { v with
      accumulators := v.accumulators.mapWith fun a c => (accumulate n (countOf entries a) c).2
      stepCount := v.stepCount + 1 } }

/-- A MOVE's step event in RUNNING: it fails as a whole, completes the segment, or starts the next interval (R34, R35). -/
def runMoveStep (l : LaneId) (entries : List (AxisId × Int)) (i0 i1 n : Nat) (s : State) : State :=
  match moveFailure l entries n s with
  | some h => halt l h s
  | none =>
    let s1 := takeMoveStep l entries n s
    let k := (s1.lane l).stepCount
    if n ≤ k then complete l none true s1 else startInterval l (rampInterval i0 i1 n (k + 1)) true s1

/-- The step event at which the running stop finds the segment's last step taken: it completes, nothing is handed over, and
the stop's end state is reached with nothing cut (R89, R91). -/
def completeInStop (l : LaneId) (e : RampEnd) (s : State) : State := reachStopEnd l e (removeActive l none s)

/-- The in-progress step event of a controlled stop (R89). -/
def runInProgressStep (l : LaneId) (entries : List (AxisId × Int)) (n : Nat) (r : StopRamp) (s : State) : State :=
  match moveFailure l entries n s with
  | some h => halt l h s
  | none =>
    let s1 := takeMoveStep l entries n s
    let left := n - (s1.lane l).stepCount
    let steps := min r.distance left
    if left = 0 then completeInStop l r.endState s1
    else if steps = 0 then reachStopEnd l r.endState s1
    else
      startInterval l (stopInterval r.stopInterval r.fromInterval steps 1) true
        (s1.setLane l { s1.lane l with ramp := some { r with steps := some steps, taken := 0 } })

/-- A stop-ramp step event, the ramp having `steps` of them (R91). -/
def runStopStep (l : LaneId) (entries : List (AxisId × Int)) (n : Nat) (r : StopRamp) (steps : Nat) (s : State) : State :=
  match moveFailure l entries n s with
  | some h => halt l h s
  | none =>
    let s1 := takeMoveStep l entries n s
    let j := r.taken + 1
    if steps ≤ j then
      if n ≤ (s1.lane l).stepCount then completeInStop l r.endState s1 else reachStopEnd l r.endState s1
    else
      startInterval l (stopInterval r.stopInterval r.fromInterval steps (j + 1)) true
        (s1.setLane l { s1.lane l with ramp := some { r with taken := j } })

/-! ### Homing (R108 to R110) -/

/-- The direction of a homing step (R108). -/
def homeForward (x : Axis) : HomePhase → Bool
  | .leave => x.homeDir = .reverse
  | _ => x.homeDir = .forward

/-- A homing step event: the window check, the step, and the next interval, which after the home limit takes no step
(R108). -/
def runHomingStep (l : LaneId) (a : AxisId) (limit i0 : Nat) (h : HomingRun) (s : State) : State :=
  let forward := homeForward (s.axis a) h.phase
  if (s.axis a).windowFails forward then halt l ⟨.window, some a⟩ s
  else
    let s1 := s.setAxis a ((s.axis a).takeStep s.patterns forward)
    let k := (s.lane l).stepCount + 1
    startInterval l i0 true
      (s1.setLane l { s.lane l with stepCount := k, homing := some { h with limitReached := limit ≤ k } })

/-- The detection of the home line (R110): with the preset inside the window the position takes the preset and the segment
completes; else the lane halts with HOME-WINDOW. -/
def detectHome (l : LaneId) (a : AxisId) (preset : Int) (s : State) : State :=
  let x := s.axis a
  if x.inWindow preset then
    complete l (some { stepsTaken := (s.lane l).stepCount, detectedAt := x.position }) s.onTick
      (s.setAxis a { x with position := preset })
  else halt l ⟨.homeWindow, some a⟩ s

/-- A home-line event reaches the lane that owns the axis (R109 to R112): only a HOME of this axis in RUNNING or HELD acts on
it, by its phase. -/
def homeEvent (l : LaneId) (a : AxisId) (becameActive : Bool) (s : State) : State :=
  let v := s.lane l
  if v.state = .running || v.state = .held then
    match v.queue.head?.map Segment.body, v.homing with
    | some (.home b _ preset), some h =>
      if b = a then
        match h.phase, becameActive with
        | .leave, false => s.setLane l { v with homing := some { h with phase := .seek } }
        | .seek, true => detectHome l a preset s
        | _, _ => s
      else s
    | _, _ => s
  else s

/-- The filtered home-line level of the axis takes the raw level, and the event is handed to the owning lane (R104). -/
def passHomeFilter (a : AxisId) (s : State) : State :=
  let x := s.axis a
  let s1 := s.setAxis a { x with home := { x.home with filtered := x.home.raw, measure := none } }
  match x.owner with
  | some l => homeEvent l a (x.home.raw = x.homeLevel) s1
  | none => s1

/-! ### Trigger lines (R67, R82, R119) -/

/-- An accepted edge of a START line meets the TRIGGER condition of a lane that waits on the line (R67). -/
def meetTrigger (n : TrgId) (l : LaneId) (s : State) : State :=
  let v := s.lane l
  if v.state = .waiting && v.unmet.trigger = some n then
    leaveIfMet l s.onTick (s.setLane l { v with unmet := { v.unmet with trigger := none } })
  else s

/-- An accepted edge of a HALT line halts the lanes of its mask; where it names both, neither halt breaks the other lane's
wait (R78, R82). -/
def haltMasked (m : LaneMask) (s : State) : State :=
  match m with
  | .none => s
  | .l0 => halt .L0 ⟨.lineHalt, none⟩ s
  | .l1 => halt .L1 ⟨.lineHalt, none⟩ s
  | .both => haltOnly .L1 ⟨.lineHalt, none⟩ (haltOnly .L0 ⟨.lineHalt, none⟩ s)

/-- What a change of a filtered level does to the lanes, by the role of the line (R119). -/
def roleEffect (n : TrgId) (accepted : Bool) (s : State) : State :=
  match (s.line n).role, accepted with
  | .start, true => meetTrigger n .L1 (meetTrigger n .L0 s)
  | .hold, _ => applyHolds s
  | .halt, true => haltMasked (s.line n).mask s
  | _, _ => s

/-- The filtered level of the line takes the raw level, and the change is handed on: first the capture, then the lanes
(R118, R119). -/
def passTriggerFilter (n : TrgId) (s : State) : State :=
  let t := s.line n
  let edge := edgeTo t.input.raw
  let accepted := t.edge.accepts edge
  let s1 := s.setLine n { t with input := { t.input with filtered := t.input.raw, measure := none } }
  let s2 := if t.capture && accepted then makeCapture (.line n) (some edge) s1 else s1
  roleEffect n accepted s2

/-- A raw change of a line: a return to the filtered level loses the change, a new level starts the measure (R104, R118). A
return that waits as a command at the very moment the filter time is reached is taken ahead of the filtered change that stands
due then, and so loses it (DESIGN CHOICE, log 23). -/
def InputFilter.rawChange (f : InputFilter) (level : Level) : InputFilter :=
  { f with raw := level, measure := if level = f.filtered then none else some 0 }

/-- The half microseconds of a filter time in units of 4 µs (R104, section 7.1). -/
def filterSpan (units : Nat) : Nat := 8 * units

/-- The raw line has stayed at its new level for the filter time (R104, R118). -/
def InputFilter.passed (f : InputFilter) (units : Nat) : Bool := f.measure.any fun e => filterSpan units ≤ e

/-! ### Host silence (R99, R100) -/

/-- What a silence expiry does to one lane (R99, R100). -/
def silenceLane (l : LaneId) (s : State) : State :=
  let v := s.lane l
  match v.state with
  | .ready | .waiting | .held => haltOnly l ⟨.silence, none⟩ s
  | .running =>
    match v.queue.head?.map Segment.body with
    | some (.move ..) => beginStop l .haltedSilence s
    | _ => haltOnly l ⟨.silence, none⟩ s
  | .stopping => s.setLane l { v with ramp := v.ramp.map fun r => { r with endState := .haltedSilence } }
  | .idle | .halted => s

end Sys2Proof.Machine
end

