-- ==== Sys2Proof/Machine/Operands.lean ====
section
/-! DEFINITION. The operands of the requests and the data of replies and reports: the byte layouts and value codes of chapter
11 (R187). -/

namespace Sys2Proof.Machine

open Sys2Proof

/-! ### Fields of a payload: most significant byte first, signed values in two's complement (R187) -/

def byteAt (p : List Byte) (i : Nat) : Nat := (p.getD i 0).toNat
def u16At (p : List Byte) (i : Nat) : Nat := byteAt p i * 256 + byteAt p (i + 1)
def u32At (p : List Byte) (i : Nat) : Nat := u16At p i * 65536 + u16At p (i + 2)
def i32At (p : List Byte) (i : Nat) : Int :=
  if u32At p i < 2147483648 then (u32At p i : Int) else (u32At p i : Int) - 4294967296

def put8 (n : Nat) : List Byte := [BitVec.ofNat 8 n]
def put16 (n : Nat) : List Byte := [BitVec.ofNat 8 (n / 256), BitVec.ofNat 8 n]
def put32 (n : Nat) : List Byte := put16 (n / 65536) ++ put16 n
def putI32 (z : Int) : List Byte := put32 (z % 4294967296).toNat
def putPositions (p : PerAxis Int) : List Byte := putI32 p.a ++ putI32 p.b ++ putI32 p.c ++ putI32 p.d

/-- The presence bits of a layout, bit 0 first (R187). -/
def presence : List Bool → Nat
  | [] => 0
  | b :: bs => b.toNat + 2 * presence bs

/-! ### Value codes (section 11.2) -/

def laneOfCode : Nat → Option LaneId
  | 0 => some .L0
  | 1 => some .L1
  | _ => none

def axisOfCode : Nat → Option AxisId
  | 0 => some .A
  | 1 => some .B
  | 2 => some .C
  | 3 => some .D
  | _ => none

def trgOfCode : Nat → Option TrgId
  | 0 => some .T0
  | 1 => some .T1
  | 2 => some .T2
  | 3 => some .T3
  | _ => none

/-- The lane of an axis; `some none` is FREE. -/
def ownerOfCode : Nat → Option (Option LaneId)
  | 0 => some (some .L0)
  | 1 => some (some .L1)
  | 2 => some none
  | _ => none

def modeOfCode : Nat → Option DriveMode
  | 0 => some .wave
  | 1 => some .pair
  | 2 => some .half
  | 3 => some .table
  | 4 => some .pulse
  | _ => none

def senseOfCode : Nat → Option Sense
  | 0 => some .normal
  | 1 => some .inverted
  | _ => none

def levelOfCode : Nat → Option Level
  | 0 => some .low
  | 1 => some .high
  | _ => none

def homeDirOfCode : Nat → Option HomeDir
  | 0 => some .forward
  | 1 => some .reverse
  | _ => none

def flagOfCode : Nat → Option Bool
  | 0 => some false
  | 1 => some true
  | _ => none

def roleOfCode : Nat → Option Role
  | 0 => some .off
  | 1 => some .start
  | 2 => some .hold
  | 3 => some .halt
  | _ => none

def edgeOfCode : Nat → Option EdgeSetting
  | 0 => some .rise
  | 1 => some .fall
  | 2 => some .both
  | _ => none

def maskOfCode : Nat → Option LaneMask
  | 0 => some .none
  | 1 => some .l0
  | 2 => some .l1
  | 3 => some .both
  | _ => none

def deliveryOfCode : Nat → Option Delivery
  | 0 => some .push
  | 1 => some .poll
  | _ => none

/-- Rate codes of SET-LINK (R134). -/
def rateOfCode : Nat → Option LinkRate
  | 0 => some .r19200
  | 1 => some .r57600
  | 2 => some .r115200
  | 3 => some .r230400
  | 4 => some .r460800
  | 5 => some .r921600
  | _ => none

def LaneId.code : LaneId → Nat
  | .L0 => 0
  | .L1 => 1

def AxisId.code : AxisId → Nat
  | .A => 0
  | .B => 1
  | .C => 2
  | .D => 3

def ownerCode : Option LaneId → Nat
  | some l => LaneId.code l
  | none => 2

def DriveMode.code : DriveMode → Nat
  | .wave => 0
  | .pair => 1
  | .half => 2
  | .table => 3
  | .pulse => 4

def Level.code : Level → Nat
  | .low => 0
  | .high => 1

def Role.code : Role → Nat
  | .off => 0
  | .start => 1
  | .hold => 2
  | .halt => 3

def EdgeSetting.code : EdgeSetting → Nat
  | .rise => 0
  | .fall => 1
  | .both => 2

def Edge.code : Edge → Nat
  | .rise => 0
  | .fall => 1

def LaneMask.code : LaneMask → Nat
  | .none => 0
  | .l0 => 1
  | .l1 => 2
  | .both => 3

def SegmentKind.code : SegmentKind → Nat
  | .move => 0
  | .dwell => 1
  | .home => 2

def LaneState.code : LaneState → Nat
  | .idle => 0
  | .ready => 1
  | .waiting => 2
  | .running => 3
  | .held => 4
  | .stopping => 5
  | .halted => 6

def HaltCause.code : HaltCause → Nat
  | .abort => 1
  | .lineHalt => 2
  | .window => 3
  | .limit => 4
  | .silence => 5
  | .syncMismatch => 6
  | .syncBroken => 7
  | .syncTimeout => 8
  | .homeNotFound => 9
  | .homeWindow => 10

def ResetCause.code : ResetCause → Nat
  | .power => 0
  | .pin => 1
  | .request => 2

def TrgId.code : TrgId → Nat
  | .T0 => 0
  | .T1 => 1
  | .T2 => 2
  | .T3 => 3

def CaptureSource.code : CaptureSource → Nat
  | .line n => TrgId.code n
  | .host => 4

/-- The bits a second of a link rate (R134). -/
def LinkRate.bitsPerSecond : LinkRate → Nat
  | .r19200 => 19200
  | .r57600 => 57600
  | .r115200 => 115200
  | .r230400 => 230400
  | .r460800 => 460800
  | .r921600 => 921600

/-! ### Request codes (section 11.2) -/

/-- The request that a KIND byte names, as the row of the executor's take of it: the row of an unknown request where it names
none of the twenty-six (R159). -/
def requestRow (kind : Byte) : Instr :=
  match kind.toNat with
  | 0x01 => .ping
  | 0x02 => .identify
  | 0x03 => .setLink
  | 0x04 => .restart
  | 0x08 => .setTick
  | 0x09 => .setAxis
  | 0x0A => .setLane
  | 0x0B => .setLine
  | 0x0C => .loadPattern
  | 0x0D => .setPosition
  | 0x0E => .energise
  | 0x0F => .release
  | 0x10 => .queueSegment
  | 0x11 => .startLane
  | 0x12 => .stopLane
  | 0x13 => .abortLane
  | 0x14 => .holdLane
  | 0x15 => .resumeLane
  | 0x16 => .clearLane
  | 0x18 => .readLane
  | 0x19 => .readAxis
  | 0x1A => .readLines
  | 0x1B => .mark
  | 0x1C => .readCaptures
  | 0x1E => .fetchReport
  | 0x1F => .ackReport
  | _ => .unknownKindRequest

/-! ### QUEUE-SEGMENT (R5, R6, section 11.3) -/

def segmentNotify (p : List Byte) : Bool := byteAt p 2 % 2 = 1
def segmentHasLast (p : List Byte) : Bool := byteAt p 2 / 2 % 2 = 1
def segmentStartCode (p : List Byte) : Nat := byteAt p 2 / 4 % 4
/-- Where the start condition field begins. -/
def segmentStartAt (p : List Byte) : Nat := if segmentHasLast p then 9 else 7
/-- Where the kind part begins. -/
def segmentKindAt (p : List Byte) : Nat :=
  segmentStartAt p + (match segmentStartCode p with
    | 0 => 0
    | 1 => 1
    | 2 => 1
    | _ => 2)

/-- The length that the layout gives for the kind, the entry count and the optional fields of the payload, if there is a
consistent one (R5 step 1). -/
def segmentLength (p : List Byte) : Option Nat :=
  let k := segmentKindAt p
  match byteAt p 1 with
  | 0 => if k < p.length && 1 ≤ byteAt p k && byteAt p k ≤ 4 then some (k + 1 + 5 * byteAt p k) else none
  | 1 => some (k + 2)
  | 2 => some (k + 9)
  | _ => none

/-- `n` counts entries from offset `i`, each an axis code and a signed count. -/
def entriesAt (p : List Byte) : Nat → Nat → Option (List (AxisId × Int))
  | _, 0 => some []
  | i, n + 1 => do
    let a ← axisOfCode (byteAt p i)
    let rest ← entriesAt p (i + 5) n
    some ((a, i32At p (i + 1)) :: rest)

/-- The largest magnitude of a count, and the largest home limit (section 1.2). -/
def countMax : Nat := 1048575

/-- The counts list passes the field checks for a lane (R6). -/
def entriesValid (s : State) (l : LaneId) (entries : List (AxisId × Int)) : Bool :=
  (entries.map (·.1)).Nodup && entries.all (fun e => (s.axis e.1).owner = some l && e.2.natAbs ≤ countMax) &&
    entries.any (fun e => e.2 ≠ 0)

/-- The start condition of a payload that passes the field checks (R6). -/
def segmentStart (s : State) (p : List Byte) : Option StartCond :=
  let v := byteAt p (segmentStartAt p)
  match segmentStartCode p with
  | 0 => some .none
  | 1 => (trgOfCode v).bind fun n => if (s.line n).role = .start then some (.trigger n) else none
  | 2 => if v = 0 then none else some (.sync v)
  | _ => none

/-- The kind part of a payload that passes the field checks, completed as R4 gives (R4, R6). -/
def segmentBody (s : State) (l : LaneId) (p : List Byte) : Option SegmentBody :=
  let k := segmentKindAt p
  match byteAt p 1 with
  | 0 => do
    let entries ← entriesAt p (k + 1) (byteAt p k)
    let last := if segmentHasLast p then u16At p 7 else u16At p 5
    if entriesValid s l entries && 8 ≤ last then some (.move entries last (dominantOf entries)) else none
  | 1 => if !segmentHasLast p && u16At p k ≠ 0 then some (.dwell (u16At p k)) else none
  | 2 => do
    let a ← axisOfCode (byteAt p k)
    let limit := u32At p (k + 1)
    if !segmentHasLast p && (s.axis a).owner = some l && 1 ≤ limit && limit ≤ countMax
    then some (.home a limit (i32At p (k + 5))) else none
  | _ => none

/-- The segment record of a payload that passes the field checks of R6, completed as R4 gives. -/
def segmentOf (s : State) (l : LaneId) (p : List Byte) : Option Segment := do
  let body ← segmentBody s l p
  let start ← segmentStart s p
  if 8 ≤ u16At p 5 then
    some { tag := BitVec.ofNat 16 (u16At p 3), lane := l, body := body, firstInterval := u16At p 5, start := start
           notify := segmentNotify p }
  else none

/-! ### Replies and reports -/

/-- Status values of replies (section 9.2). -/
inductive Status where
  | ok | badKind | badLength | badField | badState | queueFull | halted | empty | stale | window | logFull
  deriving DecidableEq, Repr

def Status.code : Status → Nat
  | .ok => 0
  | .badKind => 1
  | .badLength => 2
  | .badField => 3
  | .badState => 4
  | .queueFull => 5
  | .halted => 6
  | .empty => 7
  | .stale => 8
  | .window => 9
  | .logFull => 10

/-- The report code of a report (section 11.2). -/
def ReportBody.code : ReportBody → Nat
  | .restarted .. => 0x40
  | .segmentDone .. => 0x41
  | .laneStopped .. => 0x42
  | .captureReady _ => 0x43

/-- The cause code of a LANE-STOPPED report: STOP-REQUEST is 0 (section 11.2). -/
def stopCause : Option HaltInfo → Nat
  | none => 0
  | some h => h.cause.code

/-- The report payload after the lost before count (section 11.5). -/
def ReportBody.data : ReportBody → List Byte
  | .restarted cause revision => put8 cause.code ++ put8 revision
  | .segmentDone l tag kind depth home pos =>
    put8 (LaneId.code l) ++ put16 tag.toNat ++ put8 kind.code ++ put8 depth ++ put8 home.isSome.toNat ++
      (match home with
        | some h => put32 h.stepsTaken ++ putI32 h.detectedAt
        | none => put32 0 ++ put32 0) ++ putPositions pos
  | .laneStopped l halt cut pos =>
    let axis := halt.bind (·.axis)
    let left := cut.bind (·.notTaken)
    put8 (LaneId.code l) ++ put8 halt.isSome.toNat ++ put8 (stopCause halt) ++
      put8 (presence [axis.isSome, cut.isSome, left.isSome]) ++ put8 ((axis.map AxisId.code).getD 0) ++
      put16 ((cut.map fun c => c.tag.toNat).getD 0) ++ put32 (left.getD 0) ++ putPositions pos
  | .captureReady n => put8 n

/-- The whole report payload (section 11.5). -/
def Report.payload (r : Report) : List Byte := put8 r.lostBefore ++ r.body.data

/-- A capture record in a READ-CAPTURES reply (section 11.4). -/
def CaptureRecord.data (c : CaptureRecord) : List Byte :=
  put16 c.number.toNat ++ put8 c.source.code ++
    put8 (presence [c.edge.isSome, c.tags.l0.isSome, c.tags.l1.isSome]) ++ put8 ((c.edge.map Edge.code).getD 0) ++
    put32 c.stamp.toNat ++ putPositions c.positions ++ put16 ((c.tags.l0.map BitVec.toNat).getD 0) ++
    put16 ((c.tags.l1.map BitVec.toNat).getD 0) ++ put16 c.droppedBefore.toNat

end Sys2Proof.Machine
end

