-- ==== Sys2Proof/Machine/Frames.lean ====
section
/-! DEFINITION. The shared operations of the host link unit and the request executor: the CHECK, frames, the receiver, the
intake slots, the reply cache, the transmitter, and the one event in which the executor takes a request. -/

namespace Sys2Proof.Machine

open Sys2Proof

/-! ### CHECK and frames (R143, section 11.1) -/

/-- One bit of the CRC-16 (R143). -/
def crcBit (r : Word16) (bit : Bool) : Word16 := if r.msb != bit then (r <<< 1) ^^^ 0x1021 else r <<< 1

/-- One byte of the CRC-16, most significant bit first (R143). -/
def crcByte (r : Word16) (b : Byte) : Word16 := (List.range 8).foldl (fun r i => crcBit r (b.getMsbD i)) r

/-- The CHECK of LEN, SEQ, KIND and payload (R143). -/
def crc16 (bytes : List Byte) : Word16 := bytes.foldl crcByte 0xFFFF

def syncByte : Byte := 0xC3

/-- A whole frame (section 11.1). -/
def frame (seq kind : Byte) (payload : List Byte) : List Byte :=
  let body := BitVec.ofNat 8 payload.length :: seq :: kind :: payload
  syncByte :: body ++ put16 (crc16 body).toNat

/-- The reply frame to a request of known KIND (section 9.2). -/
def replyFrame (seq kind : Byte) (payload : List Byte) : List Byte := frame seq (kind + 0x80) payload

/-- The NAK of a bad frame, reason CHECK (R144). -/
def nakFrame (seq : Byte) : List Byte := frame seq 0xFF [1]

/-- The frame of a report: SEQ its number, KIND its code (R150, R178). -/
def reportFrame (r : Report) : List Byte := frame r.number (BitVec.ofNat 8 r.body.code) r.payload

/-! ### Intake slots (R145 to R147) -/

def Link.slot (k : Link) : SlotId → Slot
  | .S0 => k.slot0
  | .S1 => k.slot1

def Link.setSlot (k : Link) : SlotId → Slot → Link
  | .S0, v => { k with slot0 := v }
  | .S1, v => { k with slot1 := v }

/-- A FREE slot, if there is one; which one makes no difference (R146). -/
def Link.freeSlot (k : Link) : Option SlotId :=
  if k.slot0 = .free then some .S0 else if k.slot1 = .free then some .S1 else none

def Slot.pendingOrder : Slot → Option Nat
  | .pending o _ => some o
  | _ => none

def Slot.answeringOrder : Slot → Option Nat
  | .answering o _ _ => some o
  | _ => none

/-- The slot with the earlier order of the two that have one. -/
def earlier : Option Nat → Option Nat → Option SlotId
  | some x, some y => if y < x then some .S1 else some .S0
  | some _, none => some .S0
  | none, some _ => some .S1
  | none, none => none

/-- The PENDING slot that the executor takes next, with its order and request (R147). -/
def Link.nextRequest (k : Link) : Option (SlotId × Nat × Request) :=
  match earlier k.slot0.pendingOrder k.slot1.pendingOrder with
  | some i =>
    match k.slot i with
    | .pending o r => some (i, o, r)
    | _ => none
  | none => none

/-- The ANSWERING slot that the transmitter sends next, with its frame (R150). -/
def Link.nextAnswer (k : Link) : Option (SlotId × List Byte) :=
  match earlier k.slot0.answeringOrder k.slot1.answeringOrder with
  | some i =>
    match k.slot i with
    | .answering _ f _ => some (i, f)
    | _ => none
  | none => none

/-- What a slot holds is placed with the next order of arrival (R145). -/
def Link.place (k : Link) (i : SlotId) (v : Nat → Slot) : Link :=
  { k.setSlot i (v k.nextOrder) with nextOrder := k.nextOrder + 1 }

/-! ### Reply cache (R148, R149) -/

/-- The cached reply to a request: SEQ and CHECK alone are compared (R148). -/
def cachedReply (cache : List CacheEntry) (r : Request) : Option (List Byte) :=
  (cache.find? fun e => e.seq = r.seq && e.check = r.check).map (·.reply)

/-- A new entry; of two entries the older goes (R149). The list is oldest first. -/
def storeReply (cache : List CacheEntry) (e : CacheEntry) : List CacheEntry :=
  if cache.length < Config.cacheDepth then cache ++ [e] else cache.tail ++ [e]

/-! ### Transmitter (R139, R150, R178) -/

/-- The bit times of a frame, weighted (R133). -/
def frameSpan (f : List Byte) : Nat := f.length * 10 * bitWeight

/-- The idle transmitter chooses and begins the next frame, if there is one to send: the earliest ANSWERING slot, else the
report head that the report queue asks to have sent. It begins none while RXD stays low after a break, or in a device reset
(R139, R150, R178). -/
def beginFrame (s : State) : State :=
  if s.running && s.link.tx = .idle && !s.link.breakHold then
    match s.link.nextAnswer with
    | some (i, f) => { s with link := { s.link with tx := .sending (.slot i) f (frameSpan f) } }
    | none =>
      if s.reports.asks then
        match s.reports.list with
        | r :: _ =>
          { s with
            link := { s.link with tx := .sending (.report r.number) (reportFrame r) (frameSpan (reportFrame r)) }
            reports := { s.reports with head := .sending } }
        | [] => s
      else s
  else s

/-! ### Silence timer (R152) -/

/-- The silence timer starts afresh with the silence period, or stays stopped where that is 0 (R152). -/
def restartSilence (s : State) : State :=
  { s with link := { s.link with silenceTimer :=
      if s.link.silencePeriod = 0 then none else some (s.msFor (10 * s.link.silencePeriod)) } }

/-! ### Receiver (R136, R140 to R144, R146) -/

/-- The frame in assembly is discarded and the receiver goes to HUNT (R140 to R142). -/
def discardFrame (s : State) : State := { s with link := { s.link with receiver := .hunt, gap := none } }

/-- A byte of a frame takes the receiver on and starts the gap measure afresh (R141). -/
def receiverTo (r : Receiver) (s : State) : State := { s with link := { s.link with receiver := r, gap := some 0 } }

/-- The receiver after the KIND byte or a payload byte: CHECK once the payload holds LEN bytes (R140). -/
def afterPayload (len seq kind : Byte) (payload : List Byte) : Receiver :=
  if len.toNat ≤ payload.length then .check len seq kind payload else .body len seq kind payload

/-- A whole frame is judged (R144, R146): a good one restarts the silence timer and takes a FREE slot; a bad one puts a NAK in
a FREE slot, which the transmitter may choose at once (R150); with no FREE slot the frame is discarded. -/
def judgeFrame (len seq kind : Byte) (payload : List Byte) (high low : Byte) (s : State) : State :=
  let s1 := discardFrame s
  let check : Word16 := high ++ low
  if check = crc16 (len :: seq :: kind :: payload) then
    let s2 := restartSilence s1
    match s2.link.freeSlot with
    | some i => { s2 with link := s2.link.place i fun o => .pending o ⟨seq, kind, payload, check⟩ }
    | none => s2
  else
    match s1.link.freeSlot with
    | some i => beginFrame { s1 with link := s1.link.place i fun o => .answering o (nakFrame seq) .nothing }
    | none => s1

/-- A byte arrives and is handled by the receiver state (R140, R142, R144). -/
def receiveByte (b : Byte) (s : State) : State :=
  match s.link.receiver with
  | .hunt => if b = syncByte then receiverTo .headerLen s else s
  | .headerLen => if 200 < b.toNat then discardFrame s else receiverTo (.headerSeq b) s
  | .headerSeq len => receiverTo (.headerKind len b) s
  | .headerKind len seq => receiverTo (afterPayload len seq b []) s
  | .body len seq kind payload => receiverTo (afterPayload len seq kind (payload ++ [b])) s
  | .check len seq kind payload => receiverTo (.checkLow len seq kind payload b) s
  | .checkLow len seq kind payload high => judgeFrame len seq kind payload high b s

/-! ### The request executor (R155 to R160) -/

/-- What carrying out a request gives for its reply. -/
structure Reply where
  status : Status
  data : List Byte
  after : AfterReply
  deriving DecidableEq, Repr

/-- A reply of a status alone (R158). -/
def Reply.only (st : Status) : Reply := ⟨st, [], .nothing⟩

/-- A reply OK with data (R158). -/
def Reply.okWith (data : List Byte) : Reply := ⟨.ok, data, .nothing⟩

/-- The reply payload: the status and then the data (section 9.2). -/
def Reply.payload (r : Reply) : List Byte := put8 r.status.code ++ r.data

/-- What carrying out a request does: the part after its effects, and its reply. -/
abbrev Meaning := Request → State → State × Reply

/-- The generic length check that comes before a request's own checks (R157, R160). -/
def withLength (lo hi : Nat) (m : Meaning) : Meaning := fun r s =>
  if lo ≤ r.payload.length && r.payload.length ≤ hi then m r s else (s, Reply.only .badLength)

/-- A request that names a lane in its first byte; another lane number is refused with BAD-FIELD. -/
def onLane (m : LaneId → Request → State → State × Reply) : Meaning := fun r s =>
  match laneOfCode (byteAt r.payload 0) with
  | some l => m l r s
  | none => (s, Reply.only .badField)

/-- A request that names an axis in its first byte; another axis code is refused with BAD-FIELD. -/
def onAxis (m : AxisId → Request → State → State × Reply) : Meaning := fun r s =>
  match axisOfCode (byteAt r.payload 0) with
  | some a => m a r s
  | none => (s, Reply.only .badField)

/-- The reply is stored in the cache and placed in the request's slot, which becomes ANSWERING (R149, R156). -/
def answer (i : SlotId) (o : Nat) (r : Request) (f : List Byte) (after : AfterReply) (s : State) : State :=
  { s with link :=
    { s.link.setSlot i (.answering o f after) with cache := storeReply s.link.cache { seq := r.seq, check := r.check, reply := f } } }

/-- The executor carries out a request that is not in the cache: the effects with the hold timers they start and stop, then
the reply (R156). -/
def carryOut (replyOf : Byte → Byte → List Byte → List Byte) (m : Meaning) (i : SlotId) (o : Nat) (r : Request) (s : State) :
    State :=
  let (s1, reply) := m r s
  answer i o r (replyOf r.seq r.kind reply.payload) reply.after (settleHoldTimers s s1)

/-- The event in which the executor takes the earliest PENDING slot (R147, R155, R156): it happens while no restart waits, and
this row is the one that the KIND of the request there names. A request in the cache is answered with a copy of the cached
reply (R148); any other is carried out. The slot becomes ANSWERING, so the transmitter chooses (R150). -/
def takeRequest (row : Instr) (replyOf : Byte → Byte → List Byte → List Byte) (m : Meaning) (s : State) : State :=
  match s.running && !s.restartWait, s.link.nextRequest with
  | true, some (i, o, r) =>
    if requestRow r.kind = row then
      match cachedReply s.link.cache r with
      | some f => beginFrame { s with link := s.link.setSlot i (.answering o f .nothing) }
      | none => beginFrame (carryOut replyOf m i o r s)
    else s
  | _, _ => s

/-- A request row of known KIND. -/
def execRequest (row : Instr) (m : Meaning) (s : State) : Host.Outcome State Fault Refusal :=
  .next (takeRequest row replyFrame m s)

/-! ### Events

An event's effect is `none` where the event cannot arise: nothing of what it would end or change is there (log 2). -/

/-- An event of the lanes, axes or lines: it happens while no device reset is in progress; the hold timers start and stop with
it (R53), and the transmitter chooses if the event makes the report queue ask (R150). -/
def onEvent (f : State → Option State) (s : State) : Host.Outcome State Fault Refusal :=
  .next (match s.running, f s with
    | true, some t => beginFrame (settleHoldTimers s t)
    | _, _ => s)

/-- An event of the transmitter or the report queue, after which the transmitter chooses (R150). -/
def onLinkEvent (f : State → Option State) (s : State) : Host.Outcome State Fault Refusal :=
  .next (match s.running, f s with
    | true, some t => beginFrame t
    | _, _ => s)

/-- An event that neither frees the transmitter nor makes anything ready to send of itself. -/
def onQuietEvent (f : State → Option State) (s : State) : Host.Outcome State Fault Refusal :=
  .next (match s.running, f s with
    | true, some t => t
    | _, _ => s)

end Sys2Proof.Machine
end

