-- ==== Sys2Proof/Machine/ConfigRequests.lean ====
section
/-! DEFINITION. The configuration requests: SET-TICK, SET-AXIS, SET-LANE, SET-LINE, LOAD-PATTERN, SET-POSITION, ENERGISE and
RELEASE. -/

namespace Sys2Proof.Machine

open Sys2Proof

/-- A lane is in WAITING, RUNNING, HELD or STOPPING. -/
def State.anyBusy (s : State) : Bool := (s.lane .L0).busy || (s.lane .L1).busy

/-- The time base takes a tick exponent; the one in force changes nothing. Where the new tick's boundaries fall is not said
(log 5). -/
def takeExponent (p : Nat) (s : State) : State :=
  if p = s.time.exponent then s
  else { s with time := { s.time with exponent := p, tickPhase := Config.tickPhase s.freeCount % 2 ^ p }
                freeCount := s.freeCount + 1 }

/-- SET-TICK's own checks and effect (R41, R42). -/
def setTick : Meaning := fun r s =>
  let p := byteAt r.payload 0
  if 7 < p then (s, Reply.only .badField)
  else if s.anyBusy then (s, Reply.only .badState)
  else (takeExponent p s, Reply.only .ok)

/-- SET-TICK (R41). -/
def execSetTick (s : State) : Host.Outcome State Fault Refusal := execRequest .setTick (withLength 1 1 setTick) s

/-- The whole axis setting that SET-AXIS carries (R58). -/
structure AxisSetting where
  owner : Option LaneId
  mode : DriveMode
  sense : Sense
  windowMin : Int
  windowMax : Int
  holdTime : Nat
  homeLevel : Level
  homeDir : HomeDir
  guard : Bool
  homeFilter : Nat
  deriving DecidableEq, Repr

/-- The axis setting of a payload that passes step 1 of R58 (section 11.7). -/
def axisSettingOf (p : List Byte) : Option AxisSetting := do
  let owner ← ownerOfCode (byteAt p 1)
  let mode ← modeOfCode (byteAt p 2)
  let sense ← senseOfCode (byteAt p 3)
  let homeLevel ← levelOfCode (byteAt p 14)
  let homeDir ← homeDirOfCode (byteAt p 15)
  let guard ← flagOfCode (byteAt p 16)
  let lo := i32At p 4
  let hi := i32At p 8
  if -boundMax ≤ lo && hi ≤ boundMax && lo ≤ hi then
    some { owner := owner, mode := mode, sense := sense, windowMin := lo, windowMax := hi, holdTime := u16At p 12
           homeLevel := homeLevel, homeDir := homeDir, guard := guard, homeFilter := byteAt p 17 }
  else none

/-- The setting an axis holds. -/
def Axis.setting (x : Axis) : AxisSetting :=
  { owner := x.owner, mode := x.mode, sense := x.sense, windowMin := x.windowMin, windowMax := x.windowMax
    holdTime := x.holdTime, homeLevel := x.homeLevel, homeDir := x.homeDir, guard := x.guard, homeFilter := x.homeFilter }

/-- A lane, or FREE, that an axis may leave or join (R58). -/
def State.sideOpen (s : State) : Option LaneId → Bool
  | some l => (s.lane l).emptyState
  | none => true

/-- An axis whose settings may change: it is FREE or its lane is IDLE, READY or HALTED (R58). -/
def State.ownerAllows (s : State) : Option LaneId → Bool
  | some l => !(s.lane l).busy
  | none => true

/-- The state checks of SET-AXIS (R58 step 2). -/
def axisStateAllows (s : State) (x : Axis) (w : AxisSetting) : Bool :=
  (w.owner = x.owner || (s.sideOpen x.owner && s.sideOpen w.owner)) &&
    ({ w with owner := x.owner } = x.setting || s.ownerAllows x.owner)

/-- An axis unit takes a new setting (R59). A drive mode change sets the phase index to 0 and the direction level LOW; the move
to FREE releases; a changed hold time and a move between lanes start the hold timer of an ENERGISED axis afresh (R53): the
state checks have its lane execute nothing. -/
def Axis.takeSetting (start : Axis → MsTimer) (w : AxisSetting) (x : Axis) : Axis :=
  let y := { x with
    owner := w.owner, mode := w.mode, sense := w.sense, windowMin := w.windowMin, windowMax := w.windowMax
    holdTime := w.holdTime, homeLevel := w.homeLevel, homeDir := w.homeDir, guard := w.guard, homeFilter := w.homeFilter
    phase := if w.mode = x.mode then x.phase else 0
    dirLevel := if w.mode = x.mode then x.dirLevel else .low
    pulse := if w.mode = x.mode then x.pulse else none }
  if w.owner = none && x.owner ≠ none then y.released
  else if x.energised && (w.owner ≠ x.owner || w.holdTime ≠ x.holdTime) then
    { y with holdTimer := if w.holdTime = 0 then none else start y }
  else y

/-- SET-AXIS's effect (R59, R105): a new home filter time already exceeded changes the filtered level in this event. -/
def takeAxisSetting (a : AxisId) (w : AxisSetting) (s : State) : State :=
  let x := s.axis a
  let s1 := s.setAxis a (x.takeSetting s.holdStart w)
  if w.homeFilter ≠ x.homeFilter && x.home.passed w.homeFilter then passHomeFilter a s1 else s1

/-- SET-AXIS's own checks and effect (R58, R59). -/
def setAxis : Meaning := fun r s =>
  match axisOfCode (byteAt r.payload 0), axisSettingOf r.payload with
  | some a, some w =>
    let x := s.axis a
    if !axisStateAllows s x w then (s, Reply.only .badState)
    else if !(w.windowMin ≤ x.position && x.position ≤ w.windowMax) then (s, Reply.only .window)
    else (takeAxisSetting a w s, Reply.only .ok)
  | _, _ => (s, Reply.only .badField)

/-- SET-AXIS (R58). -/
def execSetAxis (s : State) : Host.Outcome State Fault Refusal := execRequest .setAxis (withLength 18 18 setAxis) s

/-- SET-LANE's own checks and effect (R23). -/
def setLane : Meaning := onLane fun l r s =>
  let p := r.payload
  let v := s.lane l
  if v.busy then (s, Reply.only .badState)
  else if 255 < u16At p 1 || u16At p 5 < 8 then (s, Reply.only .badField)
  else
    (s.setLane l { v with settings := { settle := u16At p 1, stopDistance := u16At p 3, stopInterval := u16At p 5
                                        syncTimeout := u16At p 7 } }, Reply.only .ok)

/-- SET-LANE (R23). -/
def execSetLane (s : State) : Host.Outcome State Fault Refusal := execRequest .setLane (withLength 9 9 setLane) s

/-- SET-LINE's effect (R120, R121): the six fields; then the filter, whose change is handed on under the new record; then the
hold sources of both lanes. -/
def takeLineSetting (n : TrgId) (t : TrgLine) (s : State) : State :=
  let s1 := s.setLine n t
  applyHolds (if t.input.passed t.filterTime then passTriggerFilter n s1 else s1)

/-- SET-LINE's own checks and effect (R120). -/
def setLine : Meaning := fun r s =>
  let p := r.payload
  match trgOfCode (byteAt p 0), roleOfCode (byteAt p 1), edgeOfCode (byteAt p 2), levelOfCode (byteAt p 3),
      maskOfCode (byteAt p 4), flagOfCode (byteAt p 6) with
  | some n, some role, some edge, some level, some mask, some capture =>
    (takeLineSetting n { s.line n with role := role, edge := edge, activeLevel := level, mask := mask
                                       filterTime := byteAt p 5, capture := capture } s, Reply.only .ok)
  | _, _, _, _, _, _ => (s, Reply.only .badField)

/-- SET-LINE (R120). -/
def execSetLine (s : State) : Host.Outcome State Fault Refusal := execRequest .setLine (withLength 7 7 setLine) s

/-- An axis in TABLE mode belongs to a lane in WAITING, RUNNING, HELD or STOPPING (R56). -/
def State.tableBusy (s : State) : Bool :=
  allAxes.any fun a => (s.axis a).mode = .table && !s.ownerAllows (s.axis a).owner

/-- LOAD-PATTERN's effect (R57): the table, and the phase indices of the TABLE axes reduced modulo the new count. -/
def takePattern (table : List Nat) (s : State) : State :=
  { s with patterns := table
           axes := s.axes.mapWith fun _ x => if x.mode = .table then { x with phase := x.phase % table.length } else x }

/-- LOAD-PATTERN's own checks and effect (R56, R57). -/
def loadPattern : Meaning := fun r s =>
  let n := byteAt r.payload 0
  let table := r.payload.tail.map BitVec.toNat
  if r.payload.length ≠ n + 1 then (s, Reply.only .badLength)
  else if n < 2 || 16 < n || table.any (15 < ·) then (s, Reply.only .badField)
  else if s.tableBusy then (s, Reply.only .badState)
  else (takePattern table s, Reply.only .ok)

/-- LOAD-PATTERN (R56). -/
def execLoadPattern (s : State) : Host.Outcome State Fault Refusal := execRequest .loadPattern (withLength 1 200 loadPattern) s

/-- SET-POSITION's own checks and effect (R60). -/
def setPosition : Meaning := onAxis fun a r s =>
  let x := s.axis a
  let z := i32At r.payload 1
  if !s.ownerAllows x.owner then (s, Reply.only .badState)
  else if !x.inWindow z then (s, Reply.only .window)
  else (s.setAxis a { x with position := z }, Reply.only .ok)

/-- SET-POSITION (R60). -/
def execSetPosition (s : State) : Host.Outcome State Fault Refusal := execRequest .setPosition (withLength 5 5 setPosition) s

/-- ENERGISE's own checks and effect (R61): a RELEASED axis is energised and its hold timer starts (R53); an ENERGISED one has
its hold timer started afresh. -/
def energise : Meaning := onAxis fun a _ s =>
  let x := s.axis a
  if x.owner = none || !s.ownerAllows x.owner then (s, Reply.only .badState)
  else if x.energised then
    (s.setAxis a { x with holdTimer := if x.holdTime = 0 then none else s.holdStart x }, Reply.only .ok)
  else (s.setAxis a { x with energised := true }, Reply.only .ok)

/-- ENERGISE (R61). -/
def execEnergise (s : State) : Host.Outcome State Fault Refusal := execRequest .energise (withLength 1 1 energise) s

/-- RELEASE's own checks and effect (R62). -/
def release : Meaning := onAxis fun a _ s =>
  let x := s.axis a
  if !s.ownerAllows x.owner then (s, Reply.only .badState)
  else if x.energised then (s.setAxis a x.released, Reply.only .ok)
  else (s, Reply.only .ok)

/-- RELEASE (R62). -/
def execRelease (s : State) : Host.Outcome State Fault Refusal := execRequest .release (withLength 1 1 release) s

end Sys2Proof.Machine
end

