-- ==== Sys2Proof/Machine/LineEvents.lean ====
section
/-! DEFINITION. The events of the trigger lines and the home lines (R104, R118, R119). In a device reset a pin changes and
nothing else does. -/

namespace Sys2Proof.Machine

open Sys2Proof

/-- TRIGGER_RAW_CHANGE (R118): with a filter time of 0 the filtered level changes in this event. -/
def execTriggerRawChange (n : TrgId) (level : Level) (s : State) : Host.Outcome State Fault Refusal :=
  if s.running then
    onEvent (fun s =>
      let t := s.line n
      if t.input.raw = level then none
      else
        let f := t.input.rawChange level
        let s1 := s.setLine n { t with input := f }
        some (if f.passed t.filterTime then passTriggerFilter n s1 else s1)) s
  else .next (s.setLine n { s.line n with input := { (s.line n).input with raw := level } })

/-- TRIGGER_FILTERED_CHANGE (R118, R119): it arises while a raw change is being measured. -/
def execTriggerFilteredChange (n : TrgId) (s : State) : Host.Outcome State Fault Refusal :=
  onEvent (fun s => if (s.line n).input.measure.isSome then some (passTriggerFilter n s) else none) s

/-- HOME_RAW_CHANGE (R104): with a home filter of 0 the filtered level changes in this event. -/
def execHomeRawChange (a : AxisId) (level : Level) (s : State) : Host.Outcome State Fault Refusal :=
  if s.running then
    onEvent (fun s =>
      let x := s.axis a
      if x.home.raw = level then none
      else
        let f := x.home.rawChange level
        let s1 := s.setAxis a { x with home := f }
        some (if f.passed x.homeFilter then passHomeFilter a s1 else s1)) s
  else .next (s.setAxis a { s.axis a with home := { (s.axis a).home with raw := level } })

/-- HOME_FILTERED_CHANGE (R104): it arises while a raw change is being measured. -/
def execHomeFilteredChange (a : AxisId) (s : State) : Host.Outcome State Fault Refusal :=
  onEvent (fun s => if (s.axis a).home.measure.isSome then some (passHomeFilter a s) else none) s

end Sys2Proof.Machine
end

