-- ==== Sys2Proof/Machine/LinkEvents.lean ====
section
/-! DEFINITION. The events of the host link unit: bytes, frames, errors, gap and break on RXD, and the frames on TXD. -/

namespace Sys2Proof.Machine

open Sys2Proof

/-- The receiver looks for bytes: it does not wait for RXD to return high (R136). -/
def Link.listening (k : Link) : Bool := !k.awaitHigh

/-- BYTE_ARRIVAL (R140): the receiver handles the byte by its state, whichever byte of a frame it is. -/
def execByteArrival (byte : Byte) (s : State) : Host.Outcome State Fault Refusal :=
  onQuietEvent (fun s => if s.link.listening then some (receiveByte byte s) else none) s

/-- FRAME_RECEIVED (R144): the byte is the second CHECK byte of the frame in assembly. -/
def execFrameReceived (low : Byte) (s : State) : Host.Outcome State Fault Refusal :=
  onQuietEvent (fun s =>
    match s.link.listening, s.link.receiver with
    | true, .checkLow len seq kind payload high => some (judgeFrame len seq kind payload high low s)
    | _, _ => none) s

/-- LEN_OVER_200 (R142): the byte awaited is LEN, and it is above 200. -/
def execLenOver200 (len : Byte) (s : State) : Host.Outcome State Fault Refusal :=
  onQuietEvent (fun s =>
    if s.link.listening && s.link.receiver = .headerLen && 200 < len.toNat then some (discardFrame s) else none) s

/-- FRAMING_ERROR (R136): the frame in assembly is discarded, and the receiver waits for RXD to return high. -/
def execFramingError (s : State) : Host.Outcome State Fault Refusal :=
  onQuietEvent (fun s =>
    if s.link.listening then
      let s1 := discardFrame s
      some { s1 with link := { s1.link with awaitHigh := true } }
    else none) s

/-- GAP_EXPIRY (R141): it arises while a frame is being assembled. -/
def execGapExpiry (s : State) : Host.Outcome State Fault Refusal :=
  onQuietEvent (fun s => if s.link.gap.isSome then some (discardFrame s) else none) s

/-- What a break does to the link, in the order of R138: receiver, slots, cache, transmitter (whose bit in progress goes on to
its end), rate, report head, silence timer; and the restart wait is cleared with the reply it waited for (R155). -/
def takeBreak (s : State) : State :=
  restartSilence { s with
    link := { s.link with
      receiver := .hunt, gap := none, awaitHigh := true, breakMeasure := none, breakHold := true
      slot0 := .free, slot1 := .free, cache := [], tx := .idle, lastBit := s.link.bitInProgress, rate := s.link.pinRate }
    reports := s.reports.headUnsent
    restartWait := false }

/-- BREAK (R137, R138): it arises while the break measure runs. -/
def execLinkBreak (s : State) : Host.Outcome State Fault Refusal :=
  onQuietEvent (fun s => if s.link.breakMeasure.isSome then some (takeBreak s) else none) s

/-- RXD goes to a level: a fall begins the break measure; a rise ends it, ends the receiver's wait, and lets the transmitter
begin its next frame (R136, R137, R139). -/
def takeRxd (level : Level) (s : State) : State :=
  let s1 := { s with pins := { s.pins with rxd := level } }
  match level with
  | .low => { s1 with link := { s1.link with breakMeasure := some 0 } }
  | .high =>
    let s2 := { s1 with link := { s1.link with breakMeasure := none, awaitHigh := false, breakHold := false } }
    if s.link.breakHold then beginFrame s2 else s2

/-- RXD_LEVEL_CHANGE (R137). Where RXD stood at the level already no edge arises, but for the word of a high line to a receiver
or transmitter that waits for it. A rise that waits as a command when the 10,000 µs are reached is taken ahead of the break
(DESIGN CHOICE, log 23). In a device reset the pin changes and nothing else does. -/
def execRxdLevelChange (level : Level) (s : State) : Host.Outcome State Fault Refusal :=
  .next (if s.running then
      if s.pins.rxd = level && (level = .low || !(s.link.awaitHigh || s.link.breakHold)) then s else takeRxd level s
    else { s with pins := { s.pins with rxd := level } })

/-- FRAME_BEGIN (R150): the idle transmitter chooses the next frame and begins it. -/
def execFrameBegin (s : State) : Host.Outcome State Fault Refusal := onLinkEvent some s

/-- What the end of a reply or NAK brings (R135, R151, R164). -/
def afterReply (s : State) : AfterReply → State
  | .nothing => beginFrame s
  | .changeRate rate => beginFrame { s with link := { s.link with rate := rate } }
  | .deviceReset => beginReset .request s

/-- The report queue records the sending of a report (R178, R182). -/
def ReportQueue.recordSent (period : MsTimer) (number : Byte) (q : ReportQueue) : ReportQueue :=
  match q.list with
  | r :: _ =>
    if r.number = number && q.head = .sending then
      if q.mode = .push then { q with head := .sent, resendTimer := period } else { q with head := .unsent, resendTimer := none }
    else q
  | [] => q

/-- The stop bit of the last byte of the frame has been sent (R151): the transmitter is idle, the slot is FREE and the reply's
after-effect comes, or the report's sending is recorded; then the transmitter chooses. -/
def endFrame (source : TxSource) (s : State) : State :=
  match source with
  | .slot i =>
    let after := match s.link.slot i with
      | .answering _ _ a => a
      | _ => .nothing
    afterReply { s with link := { s.link.setSlot i .free with tx := .idle, lastBit := none } } after
  | .report number =>
    beginFrame { s with
      link := { s.link with tx := .idle, lastBit := none }
      reports := s.reports.recordSent (some (s.msFor (5 * s.reports.resendPeriod))) number }

/-- FRAME_SENT (R151): it arises while the transmitter sends a frame. -/
def execFrameSent (s : State) : Host.Outcome State Fault Refusal :=
  onQuietEvent (fun s =>
    match s.link.tx with
    | .sending source _ _ => some (endFrame source s)
    | .idle => none) s

end Sys2Proof.Machine
end

