-- ==== Sys2Proof/Machine/LinkRequests.lean ====
section
/-! DEFINITION. The link and session requests, and the request of unknown KIND (section 9.3, R159). -/

namespace Sys2Proof.Machine

open Sys2Proof

/-- PING echoes its payload, at most 199 bytes of it (R161). -/
def ping : Meaning := fun r s => (s, Reply.okWith (r.payload.take 199))

/-- PING (R161). -/
def execPing (s : State) : Host.Outcome State Fault Refusal := execRequest .ping (withLength 0 200 ping) s

/-- The eight bytes of IDENTIFY (R162, section 11.6). -/
def identity : List Byte :=
  put8 Config.familyCode ++ put8 Config.partCode ++ put8 Config.revision ++ put8 Config.axes ++ put8 Config.lanes ++
    put8 Config.queueDepth ++ put8 Config.reportDepth ++ put8 Config.captureDepth

/-- IDENTIFY (R162). -/
def execIdentify (s : State) : Host.Outcome State Fault Refusal :=
  execRequest .identify (withLength 0 0 fun _ s => (s, Reply.okWith identity)) s

/-- The delivery mode as an accepted SET-LINK gives it (R182): the mode in force is no switch; a switch puts the head in
UNSENT, but for a head in SENDING at a switch to POLL, whose frame runs to the end (log 11). -/
def ReportQueue.switchTo (q : ReportQueue) (m : Delivery) : ReportQueue :=
  if q.mode = m then q
  else if m = .poll && q.head = .sending then { q with mode := m, resendTimer := none, suspended := false }
  else { q.headUnsent with mode := m }

/-- SET-LINK's own checks and effects (R163, R135, R152, R179, R182). -/
def setLink : Meaning := fun r s =>
  let p := r.payload
  match rateOfCode (byteAt p 0), deliveryOfCode (byteAt p 1) with
  | some rate, some mode =>
    if 1 ≤ u16At p 2 && u16At p 2 ≤ 510 && byteAt p 4 ≤ 15 then
      let q := { s.reports.switchTo mode with resendPeriod := u16At p 2, resendLimit := byteAt p 4 }
      (restartSilence { s with reports := q, link := { s.link with silencePeriod := byteAt p 5 } }, ⟨.ok, [], .changeRate rate⟩)
    else (s, Reply.only .badField)
  | _, _ => (s, Reply.only .badField)

/-- SET-LINK (R163). -/
def execSetLink (s : State) : Host.Outcome State Fault Refusal := execRequest .setLink (withLength 6 6 setLink) s

/-- RESTART (R164): the reply carries the device reset, and the restart wait is set. -/
def execRestart (s : State) : Host.Outcome State Fault Refusal :=
  execRequest .restart (withLength 0 0 fun _ s => ({ s with restartWait := true }, ⟨.ok, [], .deviceReset⟩)) s

/-- A request of unknown KIND: BAD-KIND alone, under KIND 0xFE (R159). -/
def execUnknownKindRequest (s : State) : Host.Outcome State Fault Refusal :=
  .next (takeRequest .unknownKindRequest (fun seq _ payload => frame seq 0xFE payload) (fun _ s => (s, Reply.only .badKind)) s)

end Sys2Proof.Machine
end

