-- ==== Sys2Proof/Machine/MotionEvents.lean ====
section
/-! DEFINITION. The expiries of a lane's step timer, and the end of a step pulse. Which of them an expiry is, the lane's state
and its active segment decide; each arises only while the step timer counts. -/

namespace Sys2Proof.Machine

open Sys2Proof

/-- The active segment of a lane in this state whose step timer counts. -/
def Lane.timing (v : Lane) (state : LaneState) : Option Segment :=
  match v.stepTimer with
  | .counting _ _ => if v.state = state then v.queue.head? else none
  | _ => none

/-- STEP_EVENT (R34): an interval of a RUNNING MOVE expires. -/
def execStepEvent (l : LaneId) (s : State) : Host.Outcome State Fault Refusal :=
  onEvent (fun s =>
    match (s.lane l).timing .running with
    | some g =>
      match g.body with
      | .move entries i1 n => some (runMoveStep l entries g.firstInterval i1 n s)
      | _ => none
    | none => none) s

/-- IN_PROGRESS_STEP_EVENT (R89): the interval that ran when a controlled stop began expires. -/
def execInProgressStepEvent (l : LaneId) (s : State) : Host.Outcome State Fault Refusal :=
  onEvent (fun s =>
    match ((s.lane l).timing .stopping).map Segment.body, (s.lane l).ramp with
    | some (.move entries _ n), some r => if r.steps = none then some (runInProgressStep l entries n r s) else none
    | _, _ => none) s

/-- STOP_RAMP_STEP_EVENT (R91): a stop-ramp interval expires. -/
def execStopRampStepEvent (l : LaneId) (s : State) : Host.Outcome State Fault Refusal :=
  onEvent (fun s =>
    match ((s.lane l).timing .stopping).map Segment.body, (s.lane l).ramp with
    | some (.move entries _ n), some r => r.steps.map fun steps => runStopStep l entries n r steps s
    | _, _ => none) s

/-- A dwell interval has run out: the next one starts, or the DWELL completes (R38). -/
def runDwell (l : LaneId) (i0 : Nat) (s : State) : State :=
  let left := (s.lane l).dwellLeft - 1
  if left = 0 then complete l none true s else startInterval l i0 true (s.setLane l { s.lane l with dwellLeft := left })

/-- DWELL_INTERVAL_EXPIRY (R38). -/
def execDwellIntervalExpiry (l : LaneId) (s : State) : Host.Outcome State Fault Refusal :=
  onEvent (fun s =>
    match (s.lane l).timing .running with
    | some g =>
      match g.body with
      | .dwell _ => some (runDwell l g.firstInterval s)
      | _ => none
    | none => none) s

/-- HOMING_STEP_EVENT (R108): an interval of a RUNNING HOME in LEAVE or SEEK expires before the home limit is reached. -/
def execHomingStepEvent (l : LaneId) (s : State) : Host.Outcome State Fault Refusal :=
  onEvent (fun s =>
    match (s.lane l).timing .running, (s.lane l).homing with
    | some g, some h =>
      match g.body with
      | .home a limit _ =>
        if h.limitReached || h.phase = .notChosen then none else some (runHomingStep l a limit g.firstInterval h s)
      | _ => none
    | _, _ => none) s

/-- HOME_LIMIT_INTERVAL_EXPIRY (R108): the extra interval after the home limit expires. -/
def execHomeLimitIntervalExpiry (l : LaneId) (s : State) : Host.Outcome State Fault Refusal :=
  onEvent (fun s =>
    match ((s.lane l).timing .running).map Segment.body, (s.lane l).homing with
    | some (.home a _ _), some h => if h.limitReached then some (halt l ⟨.homeNotFound, some a⟩ s) else none
    | _, _ => none) s

/-- PULSE_END (R48). -/
def execPulseEnd (a : AxisId) (s : State) : Host.Outcome State Fault Refusal :=
  onQuietEvent (fun s => if (s.axis a).pulse.isSome then some (s.setAxis a { s.axis a with pulse := none }) else none) s

end Sys2Proof.Machine
end

