-- ==== Sys2Proof/Machine/MotionRequests.lean ====
section
/-! DEFINITION. The motion requests: QUEUE-SEGMENT, START-LANE, STOP-LANE, ABORT-LANE, HOLD-LANE, RESUME-LANE and
CLEAR-LANE. -/

namespace Sys2Proof.Machine

open Sys2Proof

/-- A segment is appended at the tail of the lane's queue; an IDLE lane goes to READY (R7). -/
def appendSegment (l : LaneId) (g : Segment) (s : State) : State :=
  let v := s.lane l
  s.setLane l { v with queue := v.queue ++ [g], state := if v.state = .idle then .ready else v.state }

/-- QUEUE-SEGMENT's own checks and effect (R5 to R7). -/
def queueSegment : Meaning := fun r s =>
  let p := r.payload
  if segmentLength p ≠ some p.length then (s, Reply.only .badLength)
  else
    match laneOfCode (byteAt p 0) with
    | none => (s, Reply.only .badField)
    | some l =>
      let v := s.lane l
      if v.state = .halted then (s, Reply.only .halted)
      else if v.state = .stopping then (s, Reply.only .badState)
      else if Config.queueDepth ≤ v.queue.length then (s, Reply.only .queueFull)
      else
        match segmentOf s l p with
        | some g => (appendSegment l g s, Reply.okWith (put8 (v.queue.length + 1)))
        | none => (s, Reply.only .badField)

/-- QUEUE-SEGMENT (R5). -/
def execQueueSegment (s : State) : Host.Outcome State Fault Refusal :=
  execRequest .queueSegment (withLength 9 32 queueSegment) s

/-- START-LANE's own check and effect (R12). -/
def startLane : Meaning := onLane fun l _ s =>
  match (s.lane l).state with
  | .idle => (s, Reply.only .empty)
  | .ready => (activate l s.onTick s, Reply.only .ok)
  | .waiting | .running | .held => (s, Reply.only .ok)
  | .stopping => (s, Reply.only .badState)
  | .halted => (s, Reply.only .halted)

/-- START-LANE (R12). -/
def execStartLane (s : State) : Host.Outcome State Fault Refusal := execRequest .startLane (withLength 1 1 startLane) s

/-- STOP-LANE's effect by the lane state (R86 to R88). -/
def stopLaneEffect (l : LaneId) (s : State) : State :=
  let v := s.lane l
  match v.state with
  | .ready | .waiting | .held => immediateStop l s
  | .running =>
    match v.queue.head?.map Segment.body with
    | some (.move ..) => beginStop l .idle s
    | _ => immediateStop l s
  | .idle | .stopping | .halted => s

/-- STOP-LANE (R86). -/
def execStopLane (s : State) : Host.Outcome State Fault Refusal :=
  execRequest .stopLane (withLength 1 1 (onLane fun l _ s => (stopLaneEffect l s, Reply.only .ok))) s

/-- ABORT-LANE (R97). -/
def execAbortLane (s : State) : Host.Outcome State Fault Refusal :=
  execRequest .abortLane (withLength 1 1 (onLane fun l _ s => (halt l ⟨.abort, none⟩ s, Reply.only .ok))) s

/-- The soft hold takes a value, with its effect on the lane (R70, R72). -/
def takeSoftHold (l : LaneId) (b : Bool) (s : State) : State := applyHold l (s.setLane l { s.lane l with softHold := b })

/-- HOLD-LANE (R70). -/
def execHoldLane (s : State) : Host.Outcome State Fault Refusal :=
  execRequest .holdLane (withLength 1 1 (onLane fun l _ s => (takeSoftHold l true s, Reply.only .ok))) s

/-- RESUME-LANE (R70). -/
def execResumeLane (s : State) : Host.Outcome State Fault Refusal :=
  execRequest .resumeLane (withLength 1 1 (onLane fun l _ s => (takeSoftHold l false s, Reply.only .ok))) s

/-- CLEAR-LANE's effect (R98). -/
def clearLaneEffect (l : LaneId) (s : State) : State :=
  if (s.lane l).state = .halted then s.setLane l { s.lane l with state := .idle, halt := none } else s

/-- CLEAR-LANE (R98). -/
def execClearLane (s : State) : Host.Outcome State Fault Refusal :=
  execRequest .clearLane (withLength 1 1 (onLane fun l _ s => (clearLaneEffect l s, Reply.only .ok))) s

end Sys2Proof.Machine
end

