-- ==== Sys2Proof/Machine/ReadRequests.lean ====
section
/-! DEFINITION. The requests that read and record: READ-LANE, READ-AXIS, READ-LINES, MARK, READ-CAPTURES, FETCH-REPORT and
ACK-REPORT. -/

namespace Sys2Proof.Machine

open Sys2Proof

/-- The dominant steps remaining of an active MOVE or HOME (R167). -/
def Lane.remaining (v : Lane) : Option Nat :=
  v.active.bind fun g =>
    match g.body with
    | .move _ _ n => some (n - v.stepCount)
    | .home _ limit _ => some (limit - v.stepCount)
    | .dwell _ => none

/-- The data of READ-LANE (R166, section 11.6). -/
def laneData (l : LaneId) (s : State) : List Byte :=
  let v := s.lane l
  let axis := v.halt.bind (·.axis)
  put8 (LaneId.code l) ++ put8 v.state.code ++ put8 (presence [v.unmet.settle, v.unmet.trigger.isSome, v.unmet.sync]) ++
    put8 ((v.unmet.trigger.map TrgId.code).getD 0) ++ put8 v.softHold.toNat ++
    put8 (presence (allTrgs.map fun n => (s.line n).holds l)) ++
    put8 (presence [v.halt.isSome, axis.isSome, v.activeTag.isSome, v.remaining.isSome]) ++
    put8 ((v.halt.map fun h => h.cause.code).getD 0) ++ put8 ((axis.map AxisId.code).getD 0) ++ put8 v.queue.length ++
    put16 ((v.activeTag.map BitVec.toNat).getD 0) ++ put32 (v.remaining.getD 0) ++ put16 v.interval ++
    put8 v.settings.settle ++ put16 v.settings.stopDistance ++ put16 v.settings.stopInterval ++ put16 v.settings.syncTimeout

/-- READ-LANE (R166). -/
def execReadLane (s : State) : Host.Outcome State Fault Refusal :=
  execRequest .readLane (withLength 1 1 (onLane fun l _ s => (s, Reply.okWith (laneData l s)))) s

/-- The data of READ-AXIS (R168, section 11.6). -/
def axisData (a : AxisId) (s : State) : List Byte :=
  let x := s.axis a
  put8 (AxisId.code a) ++ put8 (ownerCode x.owner) ++ put8 x.mode.code ++ putI32 x.position ++ put8 x.phase ++
    put8 x.energised.toNat ++ put8 (Level.code x.home.filtered) ++ putI32 x.windowMin ++ putI32 x.windowMax

/-- READ-AXIS (R168). -/
def execReadAxis (s : State) : Host.Outcome State Fault Refusal :=
  execRequest .readAxis (withLength 1 1 (onAxis fun a _ s => (s, Reply.okWith (axisData a s)))) s

/-- The seven bytes of a trigger line in READ-LINES (section 11.6). -/
def TrgLine.data (t : TrgLine) : List Byte :=
  put8 (Level.code t.input.filtered) ++ put8 t.role.code ++ put8 t.edge.code ++ put8 (Level.code t.activeLevel) ++ put8 t.mask.code ++
    put8 t.filterTime ++ put8 t.capture.toNat

/-- The data of READ-LINES (R122, section 11.6). -/
def linesData (s : State) : List Byte :=
  allTrgs.flatMap (fun n => (s.line n).data) ++
    put8 (presence (allAxes.map fun a => (s.axis a).home.filtered = .high)) ++ put32 s.time.stamp.toNat

/-- READ-LINES (R122). -/
def execReadLines (s : State) : Host.Outcome State Fault Refusal :=
  execRequest .readLines (withLength 0 0 fun _ s => (s, Reply.okWith (linesData s))) s

/-- MARK's effect and reply (R129): the reply carries the number the capture took, stored or not. -/
def mark : Meaning := fun _ s =>
  (makeCapture .host none s, ⟨if s.captures.full then .logFull else .ok, put16 s.captures.next.toNat, .nothing⟩)

/-- MARK (R129). -/
def execMark (s : State) : Host.Outcome State Fault Refusal := execRequest .mark (withLength 0 0 mark) s

/-- READ-CAPTURES's own check and effect (R130). -/
def readCaptures : Meaning := fun r s =>
  let n := byteAt r.payload 0
  if n = 0 || 4 < n then (s, Reply.only .badField)
  else
    let c := s.captures
    ({ s with captures := { c with records := c.records.drop n } },
      Reply.okWith (put8 (c.records.take n).length ++ (c.records.take n).flatMap CaptureRecord.data))

/-- READ-CAPTURES (R130). -/
def execReadCaptures (s : State) : Host.Outcome State Fault Refusal :=
  execRequest .readCaptures (withLength 1 1 readCaptures) s

/-- FETCH-REPORT counts as a sending of the head in PUSH mode, and changes nothing in POLL mode (R181). -/
def fetchEffect (s : State) : State :=
  if s.reports.mode = .push then
    { s with reports := { s.reports with
        suspended := false, head := .sent, retries := 0, resendTimer := some (s.msFor (5 * s.reports.resendPeriod)) } }
  else s

/-- FETCH-REPORT's effect and reply (R181). -/
def fetchReport : Meaning := fun _ s =>
  match s.reports.list with
  | [] => (s, Reply.only .empty)
  | r :: _ => (fetchEffect s, Reply.okWith (put8 r.number.toNat ++ put8 r.body.code ++ r.payload))

/-- FETCH-REPORT (R181). -/
def execFetchReport (s : State) : Host.Outcome State Fault Refusal := execRequest .fetchReport (withLength 0 0 fetchReport) s

/-- ACK-REPORT's effect and reply (R180). -/
def ackReport : Meaning := fun r s =>
  match s.reports.list with
  | [] => (s, Reply.only .stale)
  | h :: _ =>
    if h.number.toNat = byteAt r.payload 0 then ({ s with reports := s.reports.removeHead }, Reply.only .ok)
    else (s, Reply.only .stale)

/-- ACK-REPORT (R180). -/
def execAckReport (s : State) : Host.Outcome State Fault Refusal := execRequest .ackReport (withLength 1 1 ackReport) s

end Sys2Proof.Machine
end

