-- ==== Sys2Proof/Machine/ResetEvents.lean ====
section
/-! DEFINITION. The events of the supply and of RSTN, and the end of a device reset (R165, R188). -/

namespace Sys2Proof.Machine

open Sys2Proof

/-- POWER_ON (R188): applying the supply begins a device reset with cause POWER, whatever the part was doing before the supply
went. -/
def execPowerOn (s : State) : Host.Outcome State Fault Refusal := .next (beginReset .power s)

/-- RSTN low during a reset prolongs it: the cause becomes PIN, but for a power-on reset (R188). -/
def prolongedCause : ResetCause → ResetCause
  | .power => .power
  | _ => .pin

/-- RSTN_LOW (R188): RSTN has been low for 2 µs. -/
def execRstnLow (s : State) : Host.Outcome State Fault Refusal :=
  .next (
    let s1 := { s with pins := { s.pins with rstn := .low } }
    match s.power with
    | .running => beginReset .pin s1
    | .inReset cause elapsed => { s1 with power := .inReset (prolongedCause cause) elapsed })

/-- DEVICE_RESET_END (R188): the pins are sampled, every block holds its reset values, and the transmitter chooses its first
frame (R150). -/
def execDeviceResetEnd (rate1 rate0 : Level) (s : State) : Host.Outcome State Fault Refusal :=
  .next (
    match s.power with
    | .running => s
    | .inReset cause _ => beginFrame (endReset cause rate1 rate0 s))

end Sys2Proof.Machine
end

