-- ==== Sys2Proof/Machine/TimerEvents.lean ====
section
/-! DEFINITION. The expiries of the timers that count milliseconds (R124): each arises only while its timer runs. -/

namespace Sys2Proof.Machine

open Sys2Proof

/-- SETTLE_EXPIRY (R66): SETTLE leaves the unmet set, and the lane leaves WAITING if it was the last. -/
def execSettleExpiry (l : LaneId) (s : State) : Host.Outcome State Fault Refusal :=
  onEvent (fun s =>
    let v := s.lane l
    if v.settleTimer.isSome then
      some (leaveIfMet l s.onTick (s.setLane l { v with settleTimer := none, unmet := { v.unmet with settle := false } }))
    else none) s

/-- HOLD_TIMER_EXPIRY (R54): the axis is released. -/
def execHoldTimerExpiry (a : AxisId) (s : State) : Host.Outcome State Fault Refusal :=
  onQuietEvent (fun s => if (s.axis a).holdTimer.isSome then some (s.setAxis a (s.axis a).released) else none) s

/-- SYNC_TIMEOUT_EXPIRY (R79): the standing entry ends and its lane halts. -/
def execSyncTimeoutExpiry (l : LaneId) (s : State) : Host.Outcome State Fault Refusal :=
  onEvent (fun s =>
    match s.sync.get l with
    | some ⟨_, some _⟩ => some (halt l ⟨.syncTimeout, none⟩ (s.setSync l none))
    | _ => none) s

/-- SILENCE_EXPIRY (R99, R152): the timer stops and each lane acts by its state, L0 before L1. -/
def execSilenceExpiry (s : State) : Host.Outcome State Fault Refusal :=
  onEvent (fun s =>
    if s.link.silenceTimer.isSome then
      some (silenceLane .L1 (silenceLane .L0 { s with link := { s.link with silenceTimer := none } }))
    else none) s

/-- The resend timer's expiry (R179): below the limit the retry count rises and the head is DUE; else delivery is
suspended. -/
def ReportQueue.resendExpired (q : ReportQueue) : ReportQueue :=
  if q.retries < q.resendLimit then { q with retries := q.retries + 1, head := .due, resendTimer := none }
  else { q with suspended := true, resendTimer := none }

/-- RESEND_TIMER_EXPIRY (R179). -/
def execResendTimerExpiry (s : State) : Host.Outcome State Fault Refusal :=
  onLinkEvent (fun s =>
    if s.reports.resendTimer.isSome then some { s with reports := s.reports.resendExpired } else none) s

end Sys2Proof.Machine
end

