-- ==== Sys2Proof/Machine/Dispatch.lean ====
section
/-! DEFINITION. The meaning of each command: one arm per constructor of Instr. -/

namespace Sys2Proof.Machine

open Sys2Proof

/-- The effect of a command on everything but the queue of waiting commands. -/
def exec (i : Instr) (s : State) : Host.Outcome State Fault Refusal :=
  match i with
  | .ping => Sys2Proof.Machine.execPing s
  | .identify => Sys2Proof.Machine.execIdentify s
  | .setLink => Sys2Proof.Machine.execSetLink s
  | .restart => Sys2Proof.Machine.execRestart s
  | .setTick => Sys2Proof.Machine.execSetTick s
  | .setAxis => Sys2Proof.Machine.execSetAxis s
  | .setLane => Sys2Proof.Machine.execSetLane s
  | .setLine => Sys2Proof.Machine.execSetLine s
  | .loadPattern => Sys2Proof.Machine.execLoadPattern s
  | .setPosition => Sys2Proof.Machine.execSetPosition s
  | .energise => Sys2Proof.Machine.execEnergise s
  | .release => Sys2Proof.Machine.execRelease s
  | .queueSegment => Sys2Proof.Machine.execQueueSegment s
  | .startLane => Sys2Proof.Machine.execStartLane s
  | .stopLane => Sys2Proof.Machine.execStopLane s
  | .abortLane => Sys2Proof.Machine.execAbortLane s
  | .holdLane => Sys2Proof.Machine.execHoldLane s
  | .resumeLane => Sys2Proof.Machine.execResumeLane s
  | .clearLane => Sys2Proof.Machine.execClearLane s
  | .readLane => Sys2Proof.Machine.execReadLane s
  | .readAxis => Sys2Proof.Machine.execReadAxis s
  | .readLines => Sys2Proof.Machine.execReadLines s
  | .mark => Sys2Proof.Machine.execMark s
  | .readCaptures => Sys2Proof.Machine.execReadCaptures s
  | .fetchReport => Sys2Proof.Machine.execFetchReport s
  | .ackReport => Sys2Proof.Machine.execAckReport s
  | .unknownKindRequest => Sys2Proof.Machine.execUnknownKindRequest s
  | .frameReceived low => Sys2Proof.Machine.execFrameReceived low s
  | .framingError => Sys2Proof.Machine.execFramingError s
  | .lenOver200 len => Sys2Proof.Machine.execLenOver200 len s
  | .gapExpiry => Sys2Proof.Machine.execGapExpiry s
  | .linkBreak => Sys2Proof.Machine.execLinkBreak s
  | .frameBegin => Sys2Proof.Machine.execFrameBegin s
  | .frameSent => Sys2Proof.Machine.execFrameSent s
  | .powerOn => Sys2Proof.Machine.execPowerOn s
  | .rstnLow => Sys2Proof.Machine.execRstnLow s
  | .deviceResetEnd rate1 rate0 => Sys2Proof.Machine.execDeviceResetEnd rate1 rate0 s
  | .stepEvent l => Sys2Proof.Machine.execStepEvent l s
  | .inProgressStepEvent l => Sys2Proof.Machine.execInProgressStepEvent l s
  | .stopRampStepEvent l => Sys2Proof.Machine.execStopRampStepEvent l s
  | .dwellIntervalExpiry l => Sys2Proof.Machine.execDwellIntervalExpiry l s
  | .homingStepEvent l => Sys2Proof.Machine.execHomingStepEvent l s
  | .homeLimitIntervalExpiry l => Sys2Proof.Machine.execHomeLimitIntervalExpiry l s
  | .settleExpiry l => Sys2Proof.Machine.execSettleExpiry l s
  | .holdTimerExpiry a => Sys2Proof.Machine.execHoldTimerExpiry a s
  | .syncTimeoutExpiry l => Sys2Proof.Machine.execSyncTimeoutExpiry l s
  | .silenceExpiry => Sys2Proof.Machine.execSilenceExpiry s
  | .resendTimerExpiry => Sys2Proof.Machine.execResendTimerExpiry s
  | .triggerRawChange n level => Sys2Proof.Machine.execTriggerRawChange n level s
  | .triggerFilteredChange n => Sys2Proof.Machine.execTriggerFilteredChange n s
  | .homeRawChange a level => Sys2Proof.Machine.execHomeRawChange a level s
  | .homeFilteredChange a => Sys2Proof.Machine.execHomeFilteredChange a s
  | .pulseEnd a => Sys2Proof.Machine.execPulseEnd a s
  | .byteArrival byte => Sys2Proof.Machine.execByteArrival byte s
  | .rxdLevelChange level => Sys2Proof.Machine.execRxdLevelChange level s

end Sys2Proof.Machine
end

