-- ==== Sys2Proof/Machine/Time.lean ====
section
/-! DEFINITION. The passing of time, half a microsecond at once (the shortest tick, R25), and the internal events that stand at
a moment: what the part does by itself while no command waits (log 3, log 4). -/

namespace Sys2Proof.Machine

open Sys2Proof

/-! ### Half a microsecond passes -/

/-- The time base half a microsecond later (R25, R123, R124). -/
def TimeBase.advance (t : TimeBase) : TimeBase :=
  { t with
    tickPhase := (t.tickPhase + 1) % 2 ^ t.exponent
    halfMicro := !t.halfMicro
    msPhase := (t.msPhase + 1) % 2000
    stamp := if t.halfMicro then t.stamp + 1 else t.stamp }

/-- A step timer at a tick boundary: an interval begins there, or one of its ticks has passed (R26, R27). -/
def StepTimer.tick : StepTimer → StepTimer
  | .counting left true => .counting (left - 1) true
  | .counting left false => .counting left true
  | t => t

/-- A measure of time that runs on (filters, gap, break). -/
def measured (m : Option Nat) : Option Nat := m.map (· + 1)

/-- A timer that counts down one unit: a millisecond mark, or half a microsecond of a pulse. -/
def countDown (t : Option Nat) : Option Nat := t.map (· - 1)

def InputFilter.advance (f : InputFilter) : InputFilter := { f with measure := measured f.measure }

def SyncEntry.mark (e : SyncEntry) : SyncEntry := { e with timer := countDown e.timer }

/-- Half a microsecond of the frame in transmission goes out. -/
def Transmitter.advance (rate : LinkRate) : Transmitter → Transmitter
  | .idle => .idle
  | .sending source f left => .sending source f (left - rate.bitsPerSecond)

/-- Half a microsecond of the bit that a break cut a frame in goes out. -/
def LastBit.advance (b : LastBit) : Option LastBit :=
  if b.left ≤ b.rate.bitsPerSecond then none else some { b with left := b.left - b.rate.bitsPerSecond }

/-- Half a microsecond on TXD: a frame begun while such a bit is in progress follows it (R138, R139; log 12). -/
def Link.sendBits (k : Link) : Link :=
  match k.lastBit with
  | some b => { k with lastBit := b.advance }
  | none => { k with tx := k.tx.advance k.rate }

/-- The lanes, axes, lines, link and report queue after half a microsecond in which a tick boundary (`tick`) and a millisecond
mark (`mark`) may have come. -/
def countTime (tick mark : Bool) (s : State) : State :=
  let ms := fun (t : MsTimer) => if mark then countDown t else t
  { s with
    lanes := s.lanes.mapWith fun _ v =>
      { v with stepTimer := if tick then v.stepTimer.tick else v.stepTimer, settleTimer := ms v.settleTimer }
    sync := if mark then s.sync.mapWith fun _ e => e.map SyncEntry.mark else s.sync
    axes := s.axes.mapWith fun _ x =>
      { x with holdTimer := ms x.holdTimer, home := x.home.advance, pulse := countDown x.pulse }
    lines := s.lines.mapWith fun _ t => { t with input := t.input.advance }
    reports := { s.reports with resendTimer := ms s.reports.resendTimer }
    link := { s.link.sendBits with
      gap := measured s.link.gap, breakMeasure := measured s.link.breakMeasure, silenceTimer := ms s.link.silenceTimer } }

/-- Half a microsecond passes. In a device reset the clocks stand (R188) and only the reset's own length is counted. -/
def advance (s : State) : State :=
  match s.power with
  | .inReset cause elapsed => { s with power := .inReset cause (elapsed + 1) }
  | .running =>
    let t := s.time.advance
    countTime (t.tickPhase = 0) (t.msPhase = 0) { s with time := t }

/-! ### Internal events that stand now -/

/-- The row of a lane's step timer's expiry, by the lane's state and its active segment. -/
def Lane.expiryRow (v : Lane) (l : LaneId) : Option Instr :=
  match v.state, v.queue.head?.map Segment.kind with
  | .running, some .move => some (.stepEvent l)
  | .running, some .dwell => some (.dwellIntervalExpiry l)
  | .running, some .home =>
    some (if v.homing.any (·.limitReached) then .homeLimitIntervalExpiry l else .homingStepEvent l)
  | .stopping, some .move =>
    some (if v.ramp.any (·.steps.isSome) then .stopRampStepEvent l else .inProgressStepEvent l)
  | _, _ => none

/-- The step timer has run out. -/
def StepTimer.expired : StepTimer → Bool
  | .counting 0 _ => true
  | _ => false

/-- `i` where `b` holds. -/
def rowIf (b : Bool) (i : Instr) : List Instr := if b then [i] else []

/-- The expiries of a lane that stand now. -/
def laneRows (s : State) (l : LaneId) : List Instr :=
  let v := s.lane l
  (if v.stepTimer.expired then (v.expiryRow l).toList else []) ++ rowIf (v.settleTimer = some 0) (.settleExpiry l) ++
    rowIf ((s.sync.get l).any fun e => e.timer = some 0) (.syncTimeoutExpiry l)

/-- The expiries of an axis that stand now. -/
def axisRows (s : State) (a : AxisId) : List Instr :=
  let x := s.axis a
  rowIf (x.holdTimer = some 0) (.holdTimerExpiry a) ++ rowIf (x.pulse = some 0) (.pulseEnd a) ++
    rowIf (x.home.passed x.homeFilter) (.homeFilteredChange a)

/-- A frame stands to be sent by an idle transmitter (R150). -/
def State.canBegin (s : State) : Bool :=
  s.link.tx = .idle && !s.link.breakHold && (s.link.nextAnswer.isSome || s.reports.asks)

/-- The expiries of the link and the report queue that stand now: gap at 5000 µs (R141), break at 10,000 µs (R137), the last
stop bit (R151). -/
def linkRows (s : State) : List Instr :=
  rowIf (s.link.gap.any (10000 ≤ ·)) .gapExpiry ++ rowIf (s.link.breakMeasure.any (20000 ≤ ·)) .linkBreak ++
    rowIf (match s.link.tx with
      | .sending _ _ 0 => true
      | _ => false) .frameSent ++
    rowIf s.canBegin .frameBegin ++ rowIf (s.link.silenceTimer = some 0) .silenceExpiry ++
    rowIf (s.reports.resendTimer = some 0) .resendTimerExpiry

/-- The half microseconds that a reset begun by RESTART may last: 100 µs (R188). -/
def restartSpan : Nat := 200

/-- The internal events that stand now and let no time pass before them. -/
def dueRows (s : State) : List Instr :=
  match s.power with
  | .running =>
    laneRows s .L0 ++ laneRows s .L1 ++ allAxes.flatMap (axisRows s) ++
      allTrgs.flatMap (fun n => rowIf ((s.line n).input.passed (s.line n).filterTime) (.triggerFilteredChange n)) ++ linkRows s
  | .inReset .request elapsed => rowIf (restartSpan ≤ elapsed && s.pins.rstn = .high) (.deviceResetEnd s.pins.rate1 s.pins.rate0)
  | .inReset _ _ => []

/-- The internal events whose moment the spec does not tie to time: the executor's take of a request (R155), and the end of a
reset begun by RESTART (R188). -/
def freeRows (s : State) : List Instr :=
  match s.power with
  | .running =>
    match s.restartWait, s.link.nextRequest with
    | false, some (_, _, r) => [requestRow r.kind]
    | _, _ => []
  | .inReset .request elapsed => rowIf (elapsed < restartSpan && s.pins.rstn = .high) (.deviceResetEnd s.pins.rate1 s.pins.rate0)
  | .inReset _ _ => []

/-- What may come next of itself: an event that stands, or, where none that lets no time pass does, the passing of time
(`none`). -/
def nextMoves (s : State) : List (Option Instr) :=
  let due := dueRows s
  (due ++ freeRows s).map some ++ (if due.isEmpty then [none] else [])

/-- One of several moves, by the free choice (log 4). -/
def chooseMove (n : Nat) : List (Option Instr) → Option Instr
  | [] => none
  | [m] => m
  | moves => moves.getD (Config.choice n % moves.length) none

end Sys2Proof.Machine
end

