-- ==== Sys2Proof/Machine/Step.lean ====
section
/-! DEFINITION. One step: the command at the front of the queue, or, while none waits, what the part does by itself. -/

namespace Sys2Proof.Machine

open Sys2Proof

/-- What the part does while no command waits, in place of idling (DESIGN CHOICE, log 3): an internal event that stands, or
the passing of half a microsecond. Where more than one move stands, the choice is free (log 4) and is counted. -/
def idle (s : State) : Host.Outcome State Fault Refusal :=
  let moves := nextMoves s
  let s1 := if moves.length ≤ 1 then s else { s with freeCount := s.freeCount + 1 }
  match chooseMove s.freeCount moves with
  | some i => exec i s1
  | none => .next (advance s1)

/-- One step of the part: a waiting command, ahead of an internal event that stands due at the same moment (DESIGN CHOICE,
log 23); with none waiting, `idle`. -/
def step (s : State) : Host.Outcome State Fault Refusal :=
  match s.pending with
  | i :: rest => exec i { s with pending := rest }
  | [] => idle s

/-- The state with the command that the word spells at the front of its queue; unchanged where it spells none. -/
def State.withFetchWord (s : State) (nbits w : Nat) : State :=
  match decodeTableWord nbits w with
  | some i => { s with pending := i :: s.pending }
  | none => s

end Sys2Proof.Machine
end

