-- ==== Sys2Proof/Safety.lean ====
section
/-! DEFINITION. What counts as a safe run: the laws that the spec says the part keeps, and what it says an event leaves of the
link, in the terms the statements use. -/

namespace Sys2Proof.Machine

open Sys2Proof

/-! ### Laws of an axis unit and the pattern table -/

/-- One axis: its window contains its position and lies within the widest window (R50); a FREE axis is RELEASED (R45); its
phase index lies below its pattern length (R46). -/
structure AxisOk (patterns : List Nat) (x : Axis) : Prop where
  low : x.windowMin ≤ x.position
  high : x.position ≤ x.windowMax
  boundLow : -boundMax ≤ x.windowMin
  boundHigh : x.windowMax ≤ boundMax
  freeReleased : x.owner = none → x.energised = false
  phase : x.phase < patternLength patterns x.mode

/-- Every axis keeps its law, and the user pattern table holds 2 to 16 coil states of four lines (R55). -/
structure AxisLaw (s : State) : Prop where
  axes : ∀ a, AxisOk s.patterns (s.axis a)
  tableLow : 2 ≤ s.patterns.length
  tableHigh : s.patterns.length ≤ 16
  tableStates : ∀ p ∈ s.patterns, p ≤ 15

/-- The hold timer of each axis runs exactly while its three conditions hold (R53). -/
def HoldTimerLaw (s : State) : Prop := ∀ a, (s.axis a).holdTimer.isSome = s.holdRuns a

/-! ### Laws of the lanes -/

/-- What the step timer is doing in each lane state (R26). -/
def StepTimer.fits : LaneState → StepTimer → Prop
  | .running, .counting _ _ => True
  | .stopping, .counting _ _ => True
  | .held, .frozen _ => True
  | .idle, .stopped => True
  | .ready, .stopped => True
  | .waiting, .stopped => True
  | .halted, .stopped => True
  | _, _ => False

/-- One lane controller (R2, R3, R9, R26, R65, R85, R88, R106). -/
structure LaneOk (v : Lane) : Prop where
  emptyIff : v.queue = [] ↔ v.state = .idle ∨ v.state = .halted
  depth : v.queue.length ≤ 16
  startedIff : v.started = v.busy
  haltIff : v.halt.isSome = true ↔ v.state = .halted
  unmetIff : v.unmet ≠ Unmet.empty ↔ v.state = .waiting
  settleIff : v.settleTimer.isSome = v.unmet.settle
  rampIff : v.ramp.isSome = true ↔ v.state = .stopping
  stoppingMove : v.state = .stopping → ∃ g, v.queue = [g] ∧ g.kind = .move
  timer : v.stepTimer.fits v.state
  homingIff : v.homing.isSome = v.active.any (fun g => g.kind = .home)
  phaseIff : ∀ h, v.homing = some h → (h.phase = .notChosen ↔ v.state = .waiting)

/-- Both lane controllers and the sync unit: each lane keeps its law; a lane's entry stands exactly while its SYNC is unmet, and
at most one entry stands (R74); no lane runs under an asserted hold, and none is held without one (R20, R72). -/
structure LaneLaw (s : State) : Prop where
  lanes : ∀ l, LaneOk (s.lane l)
  entryIff : ∀ l, (s.sync.get l).isSome = (s.lane l).unmet.sync
  oneEntry : s.sync.get .L0 = none ∨ s.sync.get .L1 = none
  runningFree : ∀ l, (s.lane l).state = .running → s.holdAsserted l = false
  heldHeld : ∀ l, (s.lane l).state = .held → s.holdAsserted l = true

/-- The axes a segment names belong to its lane (R7). -/
def SegmentBody.owned (s : State) (l : LaneId) : SegmentBody → Prop
  | .move entries _ _ => ∀ e ∈ entries, (s.axis e.1).owner = some l
  | .dwell _ => True
  | .home a _ _ => (s.axis a).owner = some l

/-- Every axis that a queued MOVE names, and the axis of a queued HOME, belongs to that segment's lane (R7). -/
def OwnershipLaw (s : State) : Prop := ∀ l, ∀ g ∈ (s.lane l).queue, g.lane = l ∧ g.body.owned s l

/-- The values the field checks leave a segment record (R4, R6, section 1.2). -/
def SegmentBody.complete : SegmentBody → Prop
  | .move entries i1 n =>
    n = dominantOf entries ∧ 1 ≤ n ∧ n ≤ countMax ∧ 8 ≤ i1 ∧ i1 ≤ 65535
  | .dwell n => 1 ≤ n ∧ n ≤ 65535
  | .home _ limit _ => 1 ≤ limit ∧ limit ≤ countMax

/-- A segment record as acceptance leaves it. -/
def Segment.complete (g : Segment) : Prop := 8 ≤ g.firstInterval ∧ g.firstInterval ≤ 65535 ∧ g.body.complete

/-- The accumulator of an axis with count `c` after `k` step events of a MOVE of dominant count `n` (R30 to R32). -/
def accumulatorAfter (n k : Nat) (c : Int) : Option Nat := if c = 0 then none else some ((n / 2 + k * c.natAbs) % n)

/-- The progress of the active segment agrees with its step-event count: for a MOVE, fewer than N step events are taken, each
accumulator is what R31 makes of floor(N/2) in that many, and a stop ramp under way has steps to take, no more than the MOVE has
left; the steps of a HOME are at the home limit if its run has reached it, which only a run whose phase is chosen has, and
fewer if not; a DWELL has intervals left
(R29 to R32, R38, R89, R106). -/
def progressOk (v : Lane) (g : Segment) : Prop :=
  match g.body with
  | .move entries _ n => v.stepCount < n ∧ (∀ a, v.accumulators.get a = accumulatorAfter n v.stepCount (countOf entries a)) ∧
    ∀ r steps, v.ramp = some r → r.steps = some steps → r.taken < steps ∧ steps + v.stepCount ≤ r.taken + n
  | .dwell _ => 1 ≤ v.dwellLeft
  | .home _ limit _ => ∀ h, v.homing = some h →
    if h.limitReached then h.phase ≠ .notChosen ∧ v.stepCount = limit else v.stepCount < limit

/-- Every queued record is complete, and the progress of each active segment agrees with its step-event count. -/
def ProgressLaw (s : State) : Prop :=
  ∀ l, (∀ g ∈ (s.lane l).queue, g.complete) ∧ ∀ g, (s.lane l).active = some g → progressOk (s.lane l) g

/-! ### Laws of the report queue, the capture log and the link -/

/-- The numbers of `n` reports that end just before `next`, oldest first (R176). -/
def numbersBefore (next : Byte) : Nat → List Byte
  | 0 => []
  | n + 1 => (next - BitVec.ofNat 8 (n + 1)) :: numbersBefore next n

/-- The report queue holds at most 16 reports, of which at most 12 are ordinary; their numbers are consecutive modulo 256 up to
the next number; the lost count stays within its byte and the retry count within the resend limit's range (R174, R176). -/
structure ReportLaw (q : ReportQueue) : Prop where
  depth : q.list.length ≤ 16
  ordinary : (q.list.filter fun r => !r.body.vital).length ≤ 12
  numbers : q.list.map (·.number) = numbersBefore q.next q.list.length
  lost : q.lost ≤ 255
  limit : q.resendLimit ≤ 15
  retries : q.retries ≤ 15

/-- The capture number of each record is the number of the record before it plus one plus its own dropped count, and the next
number follows the last record in the same way (R126, R127). -/
def numbersFollow (next dropped : Word16) : List CaptureRecord → Prop
  | [] => True
  | [r] => next = r.number + 1 + dropped
  | r :: r' :: rest => r'.number = r.number + 1 + r'.droppedBefore ∧ numbersFollow next dropped (r' :: rest)

/-- The capture log (R125, R127). -/
structure CaptureLaw (c : CaptureLog) : Prop where
  depth : c.records.length ≤ 8
  numbers : numbersFollow c.next c.dropped c.records

/-- Where the last record stored since the reset has the number `m` (65535 for none), whether or not READ-CAPTURES has removed
it: the log goes from `c` to `c'` with no record stored, or with one that is stored by that account, or to a reset (R127). -/
def CapturesContinue (m : Word16) (c c' : CaptureLog) : Prop :=
  c.next = m + 1 + c.dropped →
    (∃ n, c'.records = c.records.drop n ∧ c'.next = m + 1 + c'.dropped) ∨
    (∃ r, c'.records = c.records ++ [r] ∧ r.number = m + 1 + r.droppedBefore ∧ c'.next = r.number + 1 + c'.dropped) ∨
    c' = ⟨[], 0, 0⟩

/-- The order of arrival of an occupied slot. -/
def Slot.order : Slot → Option Nat
  | .free => none
  | .pending o _ => some o
  | .answering o _ _ => some o

/-- The link: at most two cached replies (R148); each occupied slot has an order of arrival of its own, given before the next
(R145); a gap is measured exactly while a frame is being assembled (R141); the frame on TXD that comes from a slot is that
slot's reply or NAK, still ANSWERING (R151); a bit that a break found in progress lasts one bit time at most (R138). -/
structure LinkLaw (k : Link) : Prop where
  cache : k.cache.length ≤ 2
  orders : ∀ o, k.slot0.order = some o → k.slot1.order ≠ some o
  below : ∀ i o, (k.slot i).order = some o → o < k.nextOrder
  gap : k.gap.isSome = true ↔ k.receiver ≠ .hunt
  sending : ∀ i f n, k.tx = .sending (.slot i) f n → ∃ o after, k.slot i = .answering o f after
  bit : ∀ b, k.lastBit = some b → 1 ≤ b.left ∧ b.left ≤ bitWeight

/-! ### What an event leaves as it was -/

/-- Nothing differs outside the lanes, the sync unit, the axes, the report queue and the link. -/
structure SameElsewhere (s t : State) : Prop where
  power : t.power = s.power
  pins : t.pins = s.pins
  lines : t.lines = s.lines
  time : t.time = s.time
  captures : t.captures = s.captures
  patterns : t.patterns = s.patterns
  restartWait : t.restartWait = s.restartWait
  freeCount : t.freeCount = s.freeCount
  pending : t.pending = s.pending

/-- The other intake slot. -/
def otherSlot : SlotId → SlotId
  | .S0 => .S1
  | .S1 => .S0

/-- The choice of an idle transmitter at the end of an event that leaves the part as `u` (R139, R150, R178): the earliest
ANSWERING slot, else the head report where the report queue asks for the line, else nothing. -/
structure Chooses (u t : State) : Prop where
  frame : t = { u with link := { u.link with tx := t.link.tx }, reports := { u.reports with head := t.reports.head } }
  busy : u.link.tx ≠ .idle ∨ u.link.breakHold = true → t = u
  answer : ∀ i o f a, u.link.tx = .idle → u.link.breakHold = false → u.link.slot i = .answering o f a →
    (∀ o' f' a', u.link.slot (otherSlot i) = .answering o' f' a' → o < o') →
    t.link.tx = .sending (.slot i) f (f.length * 10 * bitWeight) ∧ t.reports = u.reports
  report : ∀ r rest, u.link.tx = .idle → u.link.breakHold = false → (∀ i o f a, u.link.slot i ≠ .answering o f a) →
    u.reports.mode = .push → u.reports.suspended = false → (u.reports.head = .unsent ∨ u.reports.head = .due) →
    u.reports.list = r :: rest →
    t.link.tx = .sending (.report r.number) (reportFrame r) ((reportFrame r).length * 10 * bitWeight) ∧ t.reports.head = .sending
  rest : (∀ i o f a, u.link.slot i ≠ .answering o f a) →
    (u.reports.mode = .poll ∨ u.reports.suspended = true ∨ u.reports.head = .sending ∨ u.reports.head = .sent ∨
      u.reports.list = []) → t = u

/-- An event that is none of the link's own has left the link as `k` and the report queue as `q`, and the transmitter has then
chosen (R150, R178). -/
def ChoosesFrom (k : Link) (q : ReportQueue) (t : State) : Prop := Chooses { t with link := k, reports := q } t

/-- An axis but for its hold timer. -/
def Axis.untimed (x : Axis) : Axis := { x with holdTimer := none }

/-- The hold timers in an event that starts or stops them by their three conditions alone (R53). -/
structure HoldTimersSettled (s t : State) : Prop where
  kept : ∀ a, s.holdRuns a = t.holdRuns a → (t.axis a).holdTimer = (s.axis a).holdTimer
  started : ∀ a, s.holdRuns a = false → t.holdRuns a = true → (t.axis a).holdTimer = some (t.msFor (t.axis a).holdTime)
  stopped : ∀ a, s.holdRuns a = true → t.holdRuns a = false → (t.axis a).holdTimer = none

/-- An event of a lane: nothing differs outside the lanes, the sync unit, the axes and the report queue, but for the hold timers
that start and stop and, with the report queue as the event leaves it, the choice of an idle transmitter. -/
structure LaneEvent (s t : State) : Prop extends SameElsewhere s t where
  link : ∃ q, ChoosesFrom s.link q t
  timers : HoldTimersSettled s t

/-- No axis differs but in its hold timer. -/
def AxesKept (s t : State) : Prop := ∀ a, (t.axis a).untimed = (s.axis a).untimed

/-! ### Ends of a lane's work -/

/-- A lane that has ended in IDLE, or in HALTED with this cause: nothing of a segment is left, and the soft hold and the
settings are kept (R11, R87, R92, R94). -/
def Lane.ended (v : Lane) (h : Option HaltInfo) : Lane where
  queue := []
  state := if h.isSome then .halted else .idle
  started := false
  softHold := v.softHold
  unmet := ⟨false, none, false⟩
  settleTimer := none
  stepTimer := .stopped
  accumulators := ⟨none, none, none, none⟩
  interval := 0
  stepCount := 0
  dwellLeft := 0
  homing := none
  ramp := none
  halt := h
  settings := v.settings

/-- The active segment as LANE-STOPPED shows it when it is cut (R101). -/
def cutOf (v : Lane) : Option Cut :=
  match v.state, v.queue with
  | .waiting, g :: _ | .running, g :: _ | .held, g :: _ | .stopping, g :: _ =>
    some (match g.body with
      | .move _ _ n => ⟨g.tag, some (n - v.stepCount)⟩
      | _ => ⟨g.tag, none⟩)
  | _, _ => none

/-- The LANE-STOPPED report of a lane that ends now (R101). -/
def stoppedReport (s : State) (l : LaneId) (h : Option HaltInfo) : ReportBody :=
  .laneStopped l h (cutOf (s.lane l)) ⟨(s.axis .A).position, (s.axis .B).position, (s.axis .C).position, (s.axis .D).position⟩

/-- The lane `l` halts with `h`, and a standing wait of the other lane is broken with it (R78, R94). -/
structure HaltsLane (l : LaneId) (h : HaltInfo) (s t : State) : Prop where
  lane : t.lane l = (s.lane l).ended (some h)
  entries : t.sync = ⟨none, none⟩
  other : s.sync.get (otherLane l) = none → t.lane (otherLane l) = s.lane (otherLane l)
  broken : s.sync.get (otherLane l) ≠ none →
    t.lane (otherLane l) = (s.lane (otherLane l)).ended (some ⟨.syncBroken, none⟩)

/-- The report queue `q` after such a halt (R78, R94, R101). -/
def haltReports (l : LaneId) (h : HaltInfo) (s : State) (q : ReportQueue) : ReportQueue :=
  let q1 := q.hand (stoppedReport s l (some h))
  if s.sync.get (otherLane l) ≠ none then q1.hand (stoppedReport s (otherLane l) (some ⟨.syncBroken, none⟩)) else q1

/-- The halt, if any, that ends a controlled stop (R92). -/
def RampEnd.halt : RampEnd → Option HaltInfo
  | .idle => none
  | .haltedSilence => some ⟨.silence, none⟩

/-- The positions of all four axes, as reports carry them. -/
def positionsOf (s : State) : PerAxis Int :=
  ⟨(s.axis .A).position, (s.axis .B).position, (s.axis .C).position, (s.axis .D).position⟩

/-- A controlled stop of the MOVE `g` of lane `l` has reached its end state with `left` steps of it not taken: none left, and it
completed, its SEGMENT-DONE first; else it is cut (R89, R91, R92, R101). -/
structure StopEnds (l : LaneId) (g : Segment) (e : RampEnd) (left : Nat) (s t : State) : Prop where
  lane : t.lane l = (s.lane l).ended e.halt
  entry : t.sync.get l = none
  other : e = .idle ∨ s.sync.get (otherLane l) = none →
    t.lane (otherLane l) = s.lane (otherLane l) ∧ t.sync.get (otherLane l) = s.sync.get (otherLane l)
  broken : e = .haltedSilence → s.sync.get (otherLane l) ≠ none →
    t.lane (otherLane l) = (s.lane (otherLane l)).ended (some ⟨.syncBroken, none⟩) ∧ t.sync.get (otherLane l) = none
  reports : ChoosesFrom s.link
    (let q0 := if left = 0 ∧ g.notify = true then s.reports.hand (.segmentDone l g.tag .move 0 none (positionsOf t)) else s.reports
     let q1 := q0.hand (.laneStopped l e.halt (if left = 0 then none else some ⟨g.tag, some left⟩) (positionsOf t))
     if e = .haltedSilence ∧ s.sync.get (otherLane l) ≠ none then
       q1.hand (.laneStopped (otherLane l) (some ⟨.syncBroken, none⟩) (cutOf (s.lane (otherLane l))) (positionsOf t))
     else q1) t

/-! ### Captures -/

/-- The tag that a lane offers to the capture log: that of its active segment (R3). -/
def tagOffered (v : Lane) : Option Tag :=
  match v.state, v.queue with
  | .waiting, g :: _ | .running, g :: _ | .held, g :: _ | .stopping, g :: _ => some g.tag
  | _, _ => none

/-- The capture log after a capture that finds the part as `s`: it takes the next number, and with fewer than 8 records in the
log its record joins the tail, with the stamp, the positions, the active tags and the pending dropped count as they stand; else it
is dropped and counted (R126, R127). -/
def logAfter (source : CaptureSource) (edge : Option Edge) (s : State) : CaptureLog :=
  let c := s.captures
  if c.records.length < 8 then
    { records := c.records ++ [
        { number := c.next, source := source, edge := edge, stamp := s.time.stamp, positions := positionsOf s
          tags := ⟨tagOffered (s.lane .L0), tagOffered (s.lane .L1)⟩, droppedBefore := c.dropped }]
      next := c.next + 1, dropped := 0 }
  else { c with next := c.next + 1, dropped := c.dropped + 1 }

/-- The report queue after that capture: a record stored into an empty log queues CAPTURE-READY (R128). -/
def reportsAfterCapture (s : State) : ReportQueue :=
  if s.captures.records = [] then s.reports.hand (.captureReady 1) else s.reports

/-! ### Activation, the leaving of WAITING, and completion -/

/-- The homing run of a segment whose first interval begins: LEAVE where the home line is active, else SEEK; none but for a HOME
(R106, R107). -/
def runBegun (s : State) (g : Segment) : Option HomingRun :=
  match g.body with
  | .home a _ _ => some ⟨if (s.axis a).home.filtered = (s.axis a).homeLevel then .leave else .seek, false⟩
  | _ => none

/-- A lane that leaves WAITING with its active segment `g`: its first interval of I0 ticks begins, or is frozen whole by a hold
(R15, R26, R107). -/
def Lane.leftWaiting (v : Lane) (g : Segment) (run : Option HomingRun) (held atTick : Bool) : Lane :=
  { v with
    unmet := ⟨false, none, false⟩, settleTimer := none, homing := run
    state := if held then .held else .running
    stepTimer := if held then .frozen g.firstInterval else .counting g.firstInterval atTick }

/-- The activation of `g` on lane `l` takes SETTLE as a condition: a MOVE or HOME, a settle time that is not 0, and an axis of
the lane that is RELEASED (R13). -/
def takesSettle (s : State) (l : LaneId) (g : Segment) : Prop :=
  g.kind ≠ .dwell ∧ (s.lane l).settings.settle ≠ 0 ∧ ∃ a, (s.axis a).owner = some l ∧ (s.axis a).energised = false

/-- The line of a TRIGGER start condition. -/
def startLine (g : Segment) : Option TrgId :=
  match g.start with
  | .trigger n => some n
  | _ => none

/-- The activation of `g` on lane `l`, with `rest` behind it; `sync` says that its SYNC is left unmet (R13, R14, R17, R30, R51,
R107). It waits on its conditions, or with none unmet its first interval begins, or is frozen whole by a hold; `atTick` says
that the interval begins in this event. -/
structure Activated (l : LaneId) (g : Segment) (rest : List Segment) (sync atTick : Bool) (s t : State) : Prop where
  queue : (t.lane l).queue = g :: rest
  kept : (t.lane l).softHold = (s.lane l).softHold ∧ (t.lane l).settings = (s.lane l).settings ∧ (t.lane l).halt = none
  fresh : (t.lane l).started = true ∧ (t.lane l).interval = g.firstInterval ∧ (t.lane l).stepCount = 0 ∧ (t.lane l).ramp = none
  accumulators : ∀ entries i1 n, g.body = .move entries i1 n → ∀ a,
    (t.lane l).accumulators.get a = accumulatorAfter n 0 (countOf entries a)
  dwell : ∀ n, g.body = .dwell n → (t.lane l).dwellLeft = n
  settles : takesSettle s l g → (t.lane l).unmet = ⟨true, startLine g, sync⟩ ∧
    (t.lane l).settleTimer = some (s.msFor (s.lane l).settings.settle)
  settled : ¬takesSettle s l g → (t.lane l).unmet = ⟨false, startLine g, sync⟩ ∧ (t.lane l).settleTimer = none
  waits : (takesSettle s l g ∨ startLine g ≠ none ∨ sync = true) → (t.lane l).state = .waiting ∧ (t.lane l).stepTimer = .stopped ∧
    (t.lane l).homing = (runBegun t g).map fun _ => ⟨.notChosen, false⟩
  begins : ¬takesSettle s l g → startLine g = none → sync = false → (t.lane l).homing = runBegun t g ∧
    (s.holdAsserted l = true → (t.lane l).state = .held ∧ (t.lane l).stepTimer = .frozen g.firstInterval) ∧
    (s.holdAsserted l = false → (t.lane l).state = .running ∧ (t.lane l).stepTimer = .counting g.firstInterval atTick)

/-- The event of the activation of `g` on lane `l` energises the axis: an axis of the lane, for a MOVE or HOME; and an axis of
the other lane, where that lane's SYNC is met as its last condition and its active segment is a MOVE or HOME (R13, R51, R76). -/
def PowersUp (l : LaneId) (g : Segment) (s : State) (a : AxisId) : Prop :=
  let w := s.lane (otherLane l)
  (g.kind ≠ .dwell ∧ (s.axis a).owner = some l) ∨
  ((s.axis a).owner = some (otherLane l) ∧ (∃ k timer, g.start = .sync k ∧ s.sync.get (otherLane l) = some ⟨k, timer⟩) ∧
    w.unmet.settle = false ∧ w.unmet.trigger = none ∧ ∃ h ∈ w.queue.head?, h.kind ≠ .dwell)

/-- A sync wait for the number `k`, entered by the activation of `g` on lane `l` and decided against the other lane's entry (R74
to R77): with none standing the entry stands with its timeout; with the same number both waits are met, and each lane goes on by
its own conditions; with another number both lanes halt. -/
structure SyncDecided (l : LaneId) (g : Segment) (rest : List Segment) (k : Nat) (atTick : Bool) (s t : State) : Prop where
  stands : s.sync.get (otherLane l) = none → Activated l g rest true atTick s t ∧
    t.lane (otherLane l) = s.lane (otherLane l) ∧ t.sync = s.sync.set l (some ⟨k,
      if (s.lane l).settings.syncTimeout = 0 then none else some (s.msFor (s.lane l).settings.syncTimeout)⟩)
  met : ∀ timer, s.sync.get (otherLane l) = some ⟨k, timer⟩ →
    let w := s.lane (otherLane l)
    t.sync = ⟨none, none⟩ ∧ Activated l g rest false atTick s t ∧
    ((w.unmet.settle = true ∨ w.unmet.trigger ≠ none) →
      t.lane (otherLane l) = { w with unmet := { w.unmet with sync := false } }) ∧
    (w.unmet.settle = false → w.unmet.trigger = none → ∀ h ∈ w.queue.head?,
      t.lane (otherLane l) = w.leftWaiting h (runBegun t h) (s.holdAsserted (otherLane l)) atTick)
  mismatch : ∀ e, s.sync.get (otherLane l) = some e → e.number ≠ k → t.sync = ⟨none, none⟩ ∧
    t.lane l = (s.lane l).ended (some ⟨.syncMismatch, none⟩) ∧
    t.lane (otherLane l) = (s.lane (otherLane l)).ended (some ⟨.syncMismatch, none⟩)

/-- The report queue `q` after the activation of `g` on lane `l`: a sync mismatch hands over both LANE-STOPPED, the waiting
lane's first (R77, R101; the cut tag of the entering lane is log 6). -/
def activationReports (l : LaneId) (g : Segment) (s : State) (positions : PerAxis Int) (q : ReportQueue) : ReportQueue :=
  match g.start, s.sync.get (otherLane l) with
  | .sync k, some e =>
    if e.number = k then q
    else
      (q.hand (.laneStopped (otherLane l) (some ⟨.syncMismatch, none⟩) (cutOf (s.lane (otherLane l))) positions)).hand
        (.laneStopped l (some ⟨.syncMismatch, none⟩)
          (some ⟨g.tag, match g.body with
            | .move _ _ n => some n
            | _ => none⟩) positions)
  | _, _ => q

/-- An axis but for its energise state and its hold timer. -/
def Axis.unpowered (x : Axis) : Axis := { x with energised := false, holdTimer := none }

/-- The active segment `g` of lane `l` has completed, with `rest` behind it (R16 to R18): its SEGMENT-DONE is queued if it asks
for one; with nothing behind it the lane runs dry; else the next head is activated in the same event, on its own start condition
and with the settle of an axis that is RELEASED. `atTick` says that a first interval begins in this event. -/
structure Completed (l : LaneId) (g : Segment) (rest : List Segment) (home : Option HomeResult) (atTick : Bool) (s t : State) :
    Prop where
  reports :
    let q := if g.notify = true then s.reports.hand (.segmentDone l g.tag g.kind rest.length home (positionsOf t)) else s.reports
    ChoosesFrom s.link (match rest with
      | [] => q
      | g' :: _ => activationReports l g' s (positionsOf t) q) t
  dry : rest = [] → t.lane l = (s.lane l).ended none ∧ t.lane (otherLane l) = s.lane (otherLane l) ∧ t.sync = s.sync
  handover : ∀ g' more, rest = g' :: more → (∀ k, g'.start ≠ .sync k) →
    Activated l g' more false atTick s t ∧ t.lane (otherLane l) = s.lane (otherLane l) ∧ t.sync = s.sync
  entry : ∀ g' more k, rest = g' :: more → g'.start = .sync k → SyncDecided l g' more k atTick s t
  energised : ∀ a, ((∃ g' ∈ rest.head?, PowersUp l g' s a) → (t.axis a).energised = true) ∧
    ((∀ g' ∈ rest.head?, ¬PowersUp l g' s a) → (t.axis a).energised = (s.axis a).energised)

/-! ### Holds and a change of a trigger line -/

/-- What a change of the hold does to a lane: an asserted hold freezes the step timer of a RUNNING lane, with one tick or more
left, and a hold that has cleared lets the remainder of a HELD lane run out (R39, R40, R72). -/
def Lane.underHold (asserted onTick : Bool) (v : Lane) : Lane :=
  match v.state, v.stepTimer, asserted with
  | .running, .counting left _, true => { v with state := .held, stepTimer := .frozen (max left 1) }
  | .held, .frozen left, false => { v with state := .running, stepTimer := .counting left onTick }
  | _, _, _ => v

/-- The change of the filtered level to the raw one is an accepted edge for this record (R119). -/
def TrgLine.edgeAccepted (x : TrgLine) : Bool :=
  match x.edge, x.input.raw with
  | .both, _ | .rise, .high | .fall, .low => true
  | _, _ => false

/-- The lane waits on this line (R67). -/
def waitsOn (s : State) (l : LaneId) (n : TrgId) : Prop := (s.lane l).state = .waiting ∧ (s.lane l).unmet.trigger = some n

/-- An accepted edge of the line lets the lane leave WAITING with its active segment `g` (R15, R67). -/
def edgeReleases (s : State) (l : LaneId) (n : TrgId) (g : Segment) : Prop :=
  waitsOn s l n ∧ (s.lane l).unmet.settle = false ∧ (s.lane l).unmet.sync = false ∧ (s.lane l).queue.head? = some g

/-- What a change of the filtered level of line `n` under the record `x` does to the lanes, the sync unit and the axes, the holds
of the lanes then standing as `held` says (R51, R67, R72, R78, R82, R119): a START line meets the TRIGGER condition of each lane
that waits on it; a HALT line halts the lanes of its mask; every other lane is left to its hold. -/
structure LineActs (n : TrgId) (x : TrgLine) (held : LaneId → Bool) (s t : State) : Prop where
  others : x.role = .off ∨ x.role = .hold ∨ x.edgeAccepted = false ∨ (x.role = .halt ∧ x.mask = .none) →
    AxesKept s t ∧ t.sync = s.sync ∧ ∀ l, t.lane l = (s.lane l).underHold (held l) s.onTick
  start : x.role = .start → x.edgeAccepted = true → t.sync = s.sync ∧
    (∀ l, (¬waitsOn s l n → t.lane l = (s.lane l).underHold (held l) s.onTick) ∧
      (waitsOn s l n → ((s.lane l).unmet.settle = true ∨ (s.lane l).unmet.sync = true) →
        t.lane l = { s.lane l with unmet := { (s.lane l).unmet with trigger := none } }) ∧
      ∀ g, edgeReleases s l n g → t.lane l = (s.lane l).leftWaiting g (runBegun s g) (held l) s.onTick) ∧
    ∀ a, ((∃ l g, (s.axis a).owner = some l ∧ edgeReleases s l n g ∧ g.kind ≠ .dwell) →
        (t.axis a).untimed = { (s.axis a).untimed with energised := true }) ∧
      ((∀ l g, (s.axis a).owner = some l → edgeReleases s l n g → g.kind = .dwell) →
        (t.axis a).untimed = (s.axis a).untimed)
  haltsOne : ∀ l, x.role = .halt → x.edgeAccepted = true →
    x.mask = (match l with
      | .L0 => .l0
      | .L1 => .l1) → AxesKept s t ∧
    ((s.lane l).state = .halted → t.sync = s.sync ∧ ∀ m, t.lane m = (s.lane m).underHold (held m) s.onTick) ∧
    ((s.lane l).state ≠ .halted → t.sync = ⟨none, none⟩ ∧ t.lane l = (s.lane l).ended (some ⟨.lineHalt, none⟩) ∧
      t.lane (otherLane l) = (if s.sync.get (otherLane l) = none
        then (s.lane (otherLane l)).underHold (held (otherLane l)) s.onTick
        else (s.lane (otherLane l)).ended (some ⟨.syncBroken, none⟩)))
  haltsBoth : x.role = .halt → x.edgeAccepted = true → x.mask = .both → AxesKept s t ∧ t.sync = ⟨none, none⟩ ∧ ∀ l,
    t.lane l = if (s.lane l).state = .halted then s.lane l else (s.lane l).ended (some ⟨.lineHalt, none⟩)

/-- The report queue `q` after such a change: the halts of a HALT line hand over their LANE-STOPPED, of two lanes L0's first
(R78, R82). -/
def lineReports (x : TrgLine) (s : State) (q : ReportQueue) : ReportQueue :=
  let one := fun l => if (s.lane l).state = .halted then q else haltReports l ⟨.lineHalt, none⟩ s q
  let also := fun l (q : ReportQueue) =>
    if (s.lane l).state = .halted then q else q.hand (stoppedReport s l (some ⟨.lineHalt, none⟩))
  if x.role = .halt ∧ x.edgeAccepted = true then
    match x.mask with
    | .none => q
    | .l0 => one .L0
    | .l1 => one .L1
    | .both => also .L1 (also .L0 q)
  else q

/-! ### Steps -/

/-- One step of an axis (R47, R48): the position moves by one in the direction of the step; the phase index moves by one place,
modulo the pattern length, up for a forward step with sense NORMAL or a reverse step with sense INVERTED and else down; in PULSE
mode the direction level takes that direction and a pulse of 1 µs begins. -/
def oneStep (patterns : List Nat) (forward : Bool) (x : Axis) : Axis :=
  let up := decide (x.sense = .normal) == forward
  let n := match x.mode with
    | .wave | .pair => 4
    | .half => 8
    | .table => patterns.length
    | .pulse => 1
  let y := { x with position := if forward then x.position + 1 else x.position - 1 }
  if x.mode = .pulse then { y with dirLevel := if up then .high else .low, pulse := some 2 }
  else { y with phase := if up then (x.phase + 1) % n else (x.phase + n - 1) % n }

/-- The axis is due at the next step event of a MOVE of dominant count `n` (R31). -/
def isDue (v : Lane) (entries : List (AxisId × Int)) (n : Nat) (a : AxisId) : Prop :=
  ∃ c, v.accumulators.get a = some c ∧ n ≤ c + (countOf entries a).natAbs

/-- The guard check of a step in this direction fails: the guard is ON, the step is toward home and the home line is active
(R33, R114). -/
def guardBars (x : Axis) (forward : Bool) : Prop :=
  x.guard = true ∧ (forward = true ↔ x.homeDir = .forward) ∧ x.home.filtered = x.homeLevel

/-- The window check of a step in this direction fails (R33). -/
def windowBars (x : Axis) (forward : Bool) : Prop :=
  if forward then x.windowMax < x.position + 1 ∨ x.position + 1 < x.windowMin
  else x.position - 1 < x.windowMin ∨ x.windowMax < x.position - 1

/-- A step of the MOVE is in the sign of the count (R31). -/
def moveForward (entries : List (AxisId × Int)) (a : AxisId) : Bool := decide (0 < countOf entries a)

/-- Every due axis passes both of its checks (R34). -/
def allPass (s : State) (l : LaneId) (entries : List (AxisId × Int)) (n : Nat) : Prop :=
  ∀ a, isDue (s.lane l) entries n a → ¬guardBars (s.axis a) (moveForward entries a) ∧
    ¬windowBars (s.axis a) (moveForward entries a)

/-- The axes after a step event of a MOVE: every due axis has taken one step, and no other differs but in its hold timer
(R34). -/
def StepsTaken (l : LaneId) (entries : List (AxisId × Int)) (n : Nat) (s t : State) : Prop :=
  ∀ a, (isDue (s.lane l) entries n a →
      (t.axis a).untimed = (oneStep s.patterns (moveForward entries a) (s.axis a)).untimed) ∧
    (¬isDue (s.lane l) entries n a → (t.axis a).untimed = (s.axis a).untimed)

/-- The accumulators after a step event: each adds the magnitude of its count, and a sum of `n` or more loses `n` (R31). -/
def AccumulatorsStep (entries : List (AxisId × Int)) (n : Nat) (before after : PerAxis (Option Nat)) : Prop :=
  ∀ a, after.get a = (before.get a).map fun c =>
    if n ≤ c + (countOf entries a).natAbs then c + (countOf entries a).natAbs - n else c + (countOf entries a).natAbs

/-- The length of the interval before stop step event `j` of `steps` (R90). -/
def stopIntervalOf (r : StopRamp) (steps j : Nat) : Nat :=
  if r.fromInterval < r.stopInterval then r.fromInterval + (r.stopInterval - r.fromInterval) * j / steps else r.fromInterval

/-! ### Payloads as the host builds them (sections 11.3 and 11.7) -/

/-- The unsigned value of two bytes, most significant first (R187). -/
def word16 (hi lo : Byte) : Nat := (hi ++ lo : BitVec 16).toNat

/-- The signed value of four bytes, most significant first (R187). -/
def word32 (b3 b2 b1 b0 : Byte) : Int := (b3 ++ b2 ++ b1 ++ b0 : BitVec 32).toInt

def Sense.code : Sense → Nat
  | .normal => 0
  | .inverted => 1

def HomeDir.code : HomeDir → Nat
  | .forward => 0
  | .reverse => 1

/-- The settings that SET-AXIS admits (R58 step 1) and its payload can carry. -/
structure AxisSetting.Admitted (w : AxisSetting) : Prop where
  low : -boundMax ≤ w.windowMin
  order : w.windowMin ≤ w.windowMax
  high : w.windowMax ≤ boundMax
  holdTime : w.holdTime ≤ 65535
  homeFilter : w.homeFilter ≤ 255

/-- The payload of SET-AXIS (section 11.7). -/
def AxisSetting.payload (a : AxisId) (w : AxisSetting) : List Byte :=
  put8 (AxisId.code a) ++ put8 (ownerCode w.owner) ++ put8 w.mode.code ++ put8 w.sense.code ++ putI32 w.windowMin ++
    putI32 w.windowMax ++ put16 w.holdTime ++ put8 (Level.code w.homeLevel) ++ put8 w.homeDir.code ++ put8 w.guard.toNat ++
    put8 w.homeFilter

/-- What a QUEUE-SEGMENT asks for, before its record is completed (section 1.2). -/
inductive WantedKind where
  | move (entries : List (AxisId × Int)) (last : Option Nat)
  | dwell (count : Nat)
  | home (axis : AxisId) (limit : Nat) (preset : Int)
  deriving DecidableEq, Repr

structure WantedSegment where
  lane : LaneId
  tag : Tag
  notify : Bool
  first : Nat
  start : StartCond
  kind : WantedKind
  deriving DecidableEq, Repr

def WantedKind.code : WantedKind → Nat
  | .move .. => 0
  | .dwell _ => 1
  | .home .. => 2

def WantedKind.last : WantedKind → Option Nat
  | .move _ last => last
  | _ => none

/-- The kind part of the layout (section 11.3). -/
def WantedKind.bytes : WantedKind → List Byte
  | .move entries _ => put8 entries.length ++ entries.flatMap fun e => put8 (AxisId.code e.1) ++ putI32 e.2
  | .dwell n => put16 n
  | .home a limit preset => put8 (AxisId.code a) ++ put32 limit ++ putI32 preset

def startCode : StartCond → Nat
  | .none => 0
  | .trigger _ => 1
  | .sync _ => 2

def startBytes : StartCond → List Byte
  | .none => []
  | .trigger n => put8 (TrgId.code n)
  | .sync k => put8 k

/-- The payload of QUEUE-SEGMENT; `unread` stands in bits 4 to 7 of its flags (section 11.3, R187). -/
def WantedSegment.payload (w : WantedSegment) (unread : Nat) : List Byte :=
  put8 (LaneId.code w.lane) ++ put8 w.kind.code ++
    put8 (w.notify.toNat + 2 * w.kind.last.isSome.toNat + 4 * startCode w.start + 16 * unread) ++ put16 w.tag.toNat ++ put16 w.first ++
    ((w.kind.last.map put16).getD []) ++ startBytes w.start ++ w.kind.bytes

/-- Where the kind part of a QUEUE-SEGMENT payload begins, by its flags: behind I1 and the start condition, where they are
present (section 11.3). -/
def kindPartAt (p : List Byte) : Nat :=
  let flags := p.getD 2 0
  7 + 2 * (flags.getLsbD 1).toNat + (flags.getLsbD 2).toNat + (flags.getLsbD 3).toNat

/-- The payload length is the one that section 11.3 gives for the kind, the entry count and the optional fields in the payload
(R5 step 1). -/
def LayoutHolds (p : List Byte) : Prop :=
  let k := kindPartAt p
  let count := (p.getD k 0).toNat
  (p.getD 1 0 = 0 ∧ 1 ≤ count ∧ count ≤ 4 ∧ p.length = k + 1 + 5 * count) ∨ (p.getD 1 0 = 1 ∧ p.length = k + 2) ∨
    (p.getD 1 0 = 2 ∧ p.length = k + 9)

/-- A code in the payload names nothing, or it marks what its kind cannot have: an axis above 3 in a MOVE or HOME, a TRIGGER line
above 3, both start conditions, or an I1 with a DWELL or HOME (R6, section 11.3). -/
def NamesNothing (p : List Byte) : Prop :=
  let k := kindPartAt p
  let flags := p.getD 2 0
  (p.getD 1 0 = 0 ∧ ∃ j, j < (p.getD k 0).toNat ∧ 3 < (p.getD (k + 1 + 5 * j) 0).toNat) ∨
  (p.getD 1 0 = 2 ∧ 3 < (p.getD k 0).toNat) ∨
  (flags.getLsbD 2 = true ∧ flags.getLsbD 3 = false ∧ 3 < (p.getD (7 + 2 * (flags.getLsbD 1).toNat) 0).toNat) ∨
  (flags.getLsbD 2 = true ∧ flags.getLsbD 3 = true) ∨
  (p.getD 1 0 ≠ 0 ∧ flags.getLsbD 1 = true)

/-- The layout has a place for every value. -/
def WantedKind.fits : WantedKind → Prop
  | .move entries last =>
    1 ≤ entries.length ∧ entries.length ≤ 4 ∧ (∀ e ∈ entries, -2147483648 ≤ e.2 ∧ e.2 ≤ 2147483647) ∧
      ∀ i1, last = some i1 → i1 ≤ 65535
  | .dwell n => n ≤ 65535
  | .home _ limit preset => limit ≤ 4294967295 ∧ -2147483648 ≤ preset ∧ preset ≤ 2147483647

def WantedSegment.fits (w : WantedSegment) : Prop :=
  w.first ≤ 65535 ∧ (∀ k, w.start = .sync k → k ≤ 255) ∧ w.kind.fits

/-- The field checks of a kind (R6). -/
def WantedKind.passes (s : State) (l : LaneId) : WantedKind → Prop
  | .move entries last =>
    (entries.map (·.1)).Nodup ∧ (∀ e ∈ entries, (s.axis e.1).owner = some l ∧ e.2.natAbs ≤ 1048575) ∧
      (∃ e ∈ entries, e.2 ≠ 0) ∧ ∀ i1, last = some i1 → 8 ≤ i1
  | .dwell n => n ≠ 0
  | .home a limit _ => (s.axis a).owner = some l ∧ 1 ≤ limit ∧ limit ≤ 1048575

/-- The field checks (R6). -/
def WantedSegment.passes (s : State) (w : WantedSegment) : Prop :=
  8 ≤ w.first ∧ w.kind.passes s w.lane ∧ (∀ n, w.start = .trigger n → (s.line n).role = .start) ∧ w.start ≠ .sync 0

/-- The record as acceptance completes it: N is the largest magnitude of the counts, and an absent I1 is I0 (R4). -/
def WantedSegment.record (w : WantedSegment) : Segment where
  tag := w.tag
  lane := w.lane
  body := match w.kind with
    | .move entries last => .move entries (last.getD w.first) ((entries.map fun e => e.2.natAbs).foldr max 0)
    | .dwell n => .dwell n
    | .home a limit preset => .home a limit preset
  firstInterval := w.first
  start := w.start
  notify := w.notify

/-- The payload lengths that each request admits (section 11.2). -/
def lengthsAdmitted : Instr → Option (Nat × Nat)
  | .ping => some (0, 200)
  | .identify | .restart | .readLines | .mark | .fetchReport => some (0, 0)
  | .setLink => some (6, 6)
  | .setTick | .energise | .release | .startLane | .stopLane | .abortLane | .holdLane | .resumeLane | .clearLane | .readLane
  | .readAxis | .readCaptures | .ackReport => some (1, 1)
  | .setAxis => some (18, 18)
  | .setLane => some (9, 9)
  | .setLine => some (7, 7)
  | .loadPattern => some (1, 200)
  | .setPosition => some (5, 5)
  | .queueSegment => some (9, 32)
  | _ => none

/-! ### What an event leaves of the link -/

/-- The row is the executor's next take: no reset is in progress, no restart waits, the earliest PENDING slot is `i` with order
`o` and request `r`, whose KIND names the row (R147, R155). -/
structure Takes (row : Instr) (s : State) (i : SlotId) (o : Nat) (r : Request) : Prop where
  running : s.power = .running
  noRestart : s.restartWait = false
  next : s.link.nextRequest = some (i, o, r)
  kind : requestRow r.kind = row

/-- The same, and the request is not in the reply cache, so it is carried out (R148, R156). -/
structure Executes (row : Instr) (s : State) (i : SlotId) (o : Nat) (r : Request) : Prop extends Takes row s i o r where
  miss : ∀ e ∈ s.link.cache, ¬(e.seq = r.seq ∧ e.check = r.check)

/-- The transmitter after an event that has a reply ready to send: it goes on with its frame; held back after a break it stays
idle; else it has begun the frame of the earliest ANSWERING slot (R150). -/
def txAfterAnswer (k : Link) : Transmitter → Transmitter
  | .idle =>
    if k.breakHold then .idle
    else
      match k.nextAnswer with
      | some (j, f) => .sending (.slot j) f (f.length * 10 * bitWeight)
      | none => .idle
  | busy => busy

/-- What the executor's event leaves of a link `k`: the request's slot ANSWERING with the reply frame `f`, the reply in the
cache, the transmitter's choice, and all else as it was (R149, R150, R156). -/
def linkAnswered (k : Link) (i : SlotId) (o : Nat) (r : Request) (f : List Byte) (after : AfterReply) : Link :=
  let k1 : Link := { k.setSlot i (.answering o f after) with
    cache := (if k.cache.length < 2 then k.cache else k.cache.tail) ++ [⟨r.seq, r.check, f⟩] }
  { k1 with tx := txAfterAnswer k1 k.tx }

/-- A reply frame of a status and data (section 9.2): the request's SEQ, its code plus 0x80, and the CHECK over all of it. -/
def replyOf (r : Request) (status : Nat) (data : List Byte) : List Byte :=
  let body := BitVec.ofNat 8 (data.length + 1) :: r.seq :: (r.kind + 0x80) :: BitVec.ofNat 8 status :: data
  0xC3 :: body ++ [BitVec.ofNat 8 ((crc16 body).toNat / 256), BitVec.ofNat 8 (crc16 body).toNat]

/-- The part after the executor's event, where the request left it as `s` and is answered with a status and data (R149, R150,
R156). -/
def answeredWith (s : State) (i : SlotId) (o : Nat) (r : Request) (status : Nat) (data : List Byte) : State :=
  { s with link := linkAnswered s.link i o r (replyOf r status data) .nothing }

/-- A device reset is in progress (R188): the coil outputs and ATTN are low, TXD is high and the stamp clock holds 0; no frame is
being sent or assembled, no slot is held, no lane moves, and no report or capture is left (log 14). -/
structure InReset (t : State) : Prop where
  power : ∃ cause elapsed, t.power = .inReset cause elapsed
  coils : ∀ a, t.coilState a = 0
  txd : t.txd = .high
  attn : t.attn = .low
  stamp : t.time.stamp = 0
  lanes : ∀ l, t.lane l = Lane.atReset
  link : t.link.receiver = .hunt ∧ t.link.slot0 = .free ∧ t.link.slot1 = .free ∧ t.link.cache = [] ∧ t.link.tx = .idle
  reports : t.reports.list = []
  captures : t.captures.records = []

/-- A device reset has begun with this cause (R188). -/
structure ResetBegun (cause : ResetCause) (s t : State) : Prop extends InReset t where
  begun : t.power = .inReset cause 0
  pending : t.pending = s.pending

/-! ### What the part does of itself -/

/-- The step timer of a lane in this state, with an active segment of this kind, has run out (R26). -/
def RunsOut (s : State) (l : LaneId) (state : LaneState) (kind : SegmentKind) : Prop :=
  (∃ begun, (s.lane l).stepTimer = .counting 0 begun) ∧ (s.lane l).state = state ∧ ∃ g ∈ (s.lane l).queue.head?, g.kind = kind

/-- The row stands due in a running part: what it ends has reached its end. The step timer's expiry is the row that the lane's
state and segment make it (R26, R34, R38, R89, R91, R108); the five millisecond timers are at 0 (R124); a pulse has lasted 1 µs
(R48), a filter its time (R104, R118), a gap 5000 µs (R141), a break 10,000 µs (R137) and a frame its last stop bit (R151); or an
idle transmitter has a frame to begin (R139, R150, R178). No other row comes of itself at a moment of its own. -/
def StandsDue (s : State) : Instr → Prop
  | .stepEvent l => RunsOut s l .running .move
  | .inProgressStepEvent l => RunsOut s l .stopping .move ∧ ∀ r, (s.lane l).ramp = some r → r.steps = none
  | .stopRampStepEvent l => RunsOut s l .stopping .move ∧ ∃ r, (s.lane l).ramp = some r ∧ r.steps ≠ none
  | .dwellIntervalExpiry l => RunsOut s l .running .dwell
  | .homingStepEvent l => RunsOut s l .running .home ∧ ∀ h, (s.lane l).homing = some h → h.limitReached = false
  | .homeLimitIntervalExpiry l => RunsOut s l .running .home ∧ ∃ h, (s.lane l).homing = some h ∧ h.limitReached = true
  | .settleExpiry l => (s.lane l).settleTimer = some 0
  | .syncTimeoutExpiry l => ∃ number, s.sync.get l = some ⟨number, some 0⟩
  | .holdTimerExpiry a => (s.axis a).holdTimer = some 0
  | .silenceExpiry => s.link.silenceTimer = some 0
  | .resendTimerExpiry => s.reports.resendTimer = some 0
  | .pulseEnd a => (s.axis a).pulse = some 0
  | .homeFilteredChange a => ∃ e, (s.axis a).home.measure = some e ∧ 8 * (s.axis a).homeFilter ≤ e
  | .triggerFilteredChange n => ∃ e, (s.line n).input.measure = some e ∧ 8 * (s.line n).filterTime ≤ e
  | .gapExpiry => ∃ e, s.link.gap = some e ∧ 10000 ≤ e
  | .linkBreak => ∃ e, s.link.breakMeasure = some e ∧ 20000 ≤ e
  | .frameSent => ∃ source f, s.link.tx = .sending source f 0
  | .frameBegin => s.link.tx = .idle ∧ s.link.breakHold = false ∧
    ((∃ i o f a, s.link.slot i = .answering o f a) ∨
      (s.reports.mode = .push ∧ s.reports.suspended = false ∧ (s.reports.head = .unsent ∨ s.reports.head = .due) ∧
        s.reports.list ≠ []))
  | _ => False

end Sys2Proof.Machine
end

