-- ==== Sys2Proof/Certificates/Slice0/Obligations.lean ====
section
/-! DEFINITION. The statements for the provers. Reply statuses stand as their codes (section 9.2): 0 OK, 1 BAD-KIND,
2 BAD-LENGTH, 3 BAD-FIELD, 4 BAD-STATE, 5 QUEUE-FULL, 6 HALTED, 7 EMPTY, 8 STALE, 9 WINDOW, 10 LOG-FULL. -/

section

open Sys2Proof Sys2Proof.Machine

/-! ### Steps -/

/-- A step with commands waiting carries out the one at the front and leaves the rest. The queue of waiting commands, its one
sender and the take of the one in front are the model's choice (log 1), as is that it comes ahead of an internal event that stands
due (log 23). -/
def Obligations.StepRunsFrontCommand : Prop :=
  ∀ (c : Instr) (rest : List Instr) (s : State), s.pending = c :: rest →
    step s = exec c { s with pending := rest } ∧ ∀ t, step s = .next t → t.pending = rest

/-- No command stops the part: each ends in a next state, which leaves the queue of waiting commands alone. -/
def Obligations.NoCommandStops : Prop := ∀ (c : Instr) (s : State), ∃ t, exec c s = .next t ∧ t.pending = s.pending

/-! ### Requests: the executor -/

/-- A request found in the reply cache is answered with a copy of the cached reply and is not executed (R148), whichever of the
27 requests it is. -/
def Obligations.CachedRequestNotExecuted : Prop :=
  ∀ (row : Instr) (s : State) (i : SlotId) (o : Nat) (r : Request) (e : CacheEntry), Takes row s i o r →
    s.link.cache.find? (fun e => e.seq = r.seq && e.check = r.check) = some e →
    exec row s = .next { s with link :=
      let k := s.link.setSlot i (.answering o e.reply .nothing)
      { k with tx := txAfterAnswer k k.tx } }

/-- A request of known KIND with a payload length that the KIND does not admit is answered BAD-LENGTH, and nothing else happens
(R160). -/
def Obligations.WrongLengthRefused : Prop :=
  ∀ (row : Instr) (s : State) (i : SlotId) (o : Nat) (r : Request) (lo hi : Nat), Executes row s i o r →
    lengthsAdmitted row = some (lo, hi) → (r.payload.length < lo ∨ hi < r.payload.length) →
    exec row s = .next (answeredWith s i o r 2 [])

/-- PING and IDENTIFY change nothing and are answered OK with their data (R161, R162). -/
def Obligations.PingAndIdentifyAnswer : Prop :=
  ∀ (s : State) (i : SlotId) (o : Nat) (r : Request),
    (Executes .ping s i o r → r.payload.length ≤ 200 →
      exec .ping s = .next (answeredWith s i o r 0 (r.payload.take 199))) ∧
    (Executes .identify s i o r → r.payload = [] →
      exec .identify s = .next (answeredWith s i o r 0 [0x3A, 0x04, 1, 4, 2, 16, 16, 8]))

/-- SET-LINK: a field out of range is refused; else the settings are replaced, the silence timer starts afresh, and the reply
carries the rate change (R163, R152, R182). That a head in SENDING keeps its retry count at a switch to POLL is log 11. -/
def Obligations.SetLinkTakesSettings : Prop :=
  ∀ (s : State) (i : SlotId) (o : Nat) (r : Request) (rate mode p1 p0 limit silence : Byte), Executes .setLink s i o r →
    r.payload = [rate, mode, p1, p0, limit, silence] →
    let period := word16 p1 p0
    let bad := 5 < rate.toNat ∨ 1 < mode.toNat ∨ period = 0 ∨ 510 < period ∨ 15 < limit.toNat
    let q := s.reports
    let want : Delivery := if mode.toNat = 0 then .push else .poll
    (bad → exec .setLink s = .next (answeredWith s i o r 3 [])) ∧
    (¬bad → exec .setLink s = .next { s with
      reports := { q with
        mode := want, resendPeriod := period, resendLimit := limit.toNat
        head := if q.mode = want ∨ (want = .poll ∧ q.head = .sending) then q.head else .unsent
        retries := if q.mode = want ∨ (want = .poll ∧ q.head = .sending) then q.retries else 0
        resendTimer := if q.mode = want then q.resendTimer else none
        suspended := if q.mode = want then q.suspended else false }
      link := linkAnswered { s.link with
          silencePeriod := silence.toNat
          silenceTimer := if silence.toNat = 0 then none else some (s.msFor (10 * silence.toNat)) }
        i o r (replyOf r 0 [])
        (.changeRate ([.r19200, .r57600, .r115200, .r230400, .r460800, .r921600].getD rate.toNat .r19200)) })

/-- RESTART sets the restart wait and marks its reply with the device reset (R164); while the restart wait is set the executor
takes no request (R155). -/
def Obligations.RestartWaits : Prop :=
  (∀ (s : State) (i : SlotId) (o : Nat) (r : Request), Executes .restart s i o r → r.payload = [] →
    exec .restart s = .next { s with restartWait := true, link := linkAnswered s.link i o r (replyOf r 0 []) .deviceReset }) ∧
  ∀ (row : Instr) (kind : Byte) (s : State), requestRow kind = row → s.restartWait = true → exec row s = .next s

/-- A request of unknown KIND is answered BAD-KIND under KIND 0xFE, whatever its payload, and nothing else happens (R159). -/
def Obligations.UnknownKindAnswered : Prop :=
  ∀ (s : State) (i : SlotId) (o : Nat) (r : Request), Executes .unknownKindRequest s i o r →
    let check := crc16 [1, r.seq, 0xFE, 1]
    let reply := [0xC3, 1, r.seq, 0xFE, 1, BitVec.ofNat 8 (check.toNat / 256), BitVec.ofNat 8 check.toNat]
    exec .unknownKindRequest s = .next { s with link := linkAnswered s.link i o r reply .nothing }

/-! ### Requests: configuration -/

/-- SET-TICK (R41). Where the boundaries of a new tick fall is left open (log 5). -/
def Obligations.SetTickChecksAndTakes : Prop :=
  ∀ (s : State) (i : SlotId) (o : Nat) (r : Request) (p : Byte), Executes .setTick s i o r → r.payload = [p] →
    let busy := ∃ l, (s.lane l).state ∈ [LaneState.waiting, .running, .held, .stopping]
    (7 < p.toNat → exec .setTick s = .next (answeredWith s i o r 3 [])) ∧
    (p.toNat ≤ 7 → busy → exec .setTick s = .next (answeredWith s i o r 4 [])) ∧
    (p.toNat ≤ 7 → ¬busy → p.toNat = s.time.exponent → exec .setTick s = .next (answeredWith s i o r 0 [])) ∧
    (p.toNat ≤ 7 → ¬busy → p.toNat ≠ s.time.exponent → ∃ phase count, phase < 2 ^ p.toNat ∧
      exec .setTick s = .next (answeredWith
        { s with time := { s.time with exponent := p.toNat, tickPhase := phase }, freeCount := count } i o r 0 []))

/-- SET-LANE (R23). -/
def Obligations.SetLaneChecksAndTakes : Prop :=
  ∀ (s : State) (i : SlotId) (o : Nat) (r : Request) (lane a1 a0 d1 d0 n1 n0 y1 y0 : Byte), Executes .setLane s i o r →
    r.payload = [lane, a1, a0, d1, d0, n1, n0, y1, y0] →
    let busy := fun l => (s.lane l).state ∈ [LaneState.waiting, .running, .held, .stopping]
    (1 < lane.toNat → exec .setLane s = .next (answeredWith s i o r 3 [])) ∧
    ∀ l, lane.toNat = LaneId.code l →
      (busy l → exec .setLane s = .next (answeredWith s i o r 4 [])) ∧
      (¬busy l → (255 < word16 a1 a0 ∨ word16 n1 n0 < 8) → exec .setLane s = .next (answeredWith s i o r 3 [])) ∧
      (¬busy l → word16 a1 a0 ≤ 255 → 8 ≤ word16 n1 n0 →
        exec .setLane s = .next (answeredWith
          (s.setLane l { s.lane l with settings :=
            { settle := word16 a1 a0, stopDistance := word16 d1 d0, stopInterval := word16 n1 n0
              syncTimeout := word16 y1 y0 } }) i o r 0 []))

/-- SET-POSITION (R60). -/
def Obligations.SetPositionChecksAndTakes : Prop :=
  ∀ (s : State) (i : SlotId) (o : Nat) (r : Request) (axis b3 b2 b1 b0 : Byte), Executes .setPosition s i o r →
    r.payload = [axis, b3, b2, b1, b0] →
    let z := word32 b3 b2 b1 b0
    (3 < axis.toNat → exec .setPosition s = .next (answeredWith s i o r 3 [])) ∧
    ∀ a, axis.toNat = AxisId.code a →
      let x := s.axis a
      let busy := ∃ l, x.owner = some l ∧ (s.lane l).state ∈ [LaneState.waiting, .running, .held, .stopping]
      (busy → exec .setPosition s = .next (answeredWith s i o r 4 [])) ∧
      (¬busy → (z < x.windowMin ∨ x.windowMax < z) → exec .setPosition s = .next (answeredWith s i o r 9 [])) ∧
      (¬busy → x.windowMin ≤ z → z ≤ x.windowMax →
        exec .setPosition s = .next (answeredWith (s.setAxis a { x with position := z }) i o r 0 []))

/-- ENERGISE and RELEASE (R61, R62). An axis that is energised has its hold timer started, or started afresh, where its hold time
is not 0 (R53); an ENERGISED axis that is released goes to RELEASED with its hold timer stopped and its lines low (R52), and a
RELEASED one is unchanged. That a release ends a pulse in progress is log 16. -/
def Obligations.EnergiseAndReleaseAct : Prop :=
  ∀ (s : State) (i : SlotId) (o : Nat) (r : Request) (axis : Byte), r.payload = [axis] →
    (Executes .energise s i o r → HoldTimerLaw s →
      (3 < axis.toNat → exec .energise s = .next (answeredWith s i o r 3 [])) ∧
      ∀ a, axis.toNat = AxisId.code a →
        let x := s.axis a
        let refused := x.owner = none ∨
          ∃ l, x.owner = some l ∧ (s.lane l).state ∈ [LaneState.waiting, .running, .held, .stopping]
        (refused → exec .energise s = .next (answeredWith s i o r 4 [])) ∧
        (¬refused → exec .energise s = .next (answeredWith
          (s.setAxis a { x with energised := true, holdTimer := if x.holdTime = 0 then none else some (s.msFor x.holdTime) })
          i o r 0 []))) ∧
    (Executes .release s i o r →
      (3 < axis.toNat → exec .release s = .next (answeredWith s i o r 3 [])) ∧
      ∀ a, axis.toNat = AxisId.code a →
        let x := s.axis a
        let busy := ∃ l, x.owner = some l ∧ (s.lane l).state ∈ [LaneState.waiting, .running, .held, .stopping]
        (busy → exec .release s = .next (answeredWith s i o r 4 [])) ∧
        (¬busy → x.energised = false → exec .release s = .next (answeredWith s i o r 0 [])) ∧
        (¬busy → x.energised = true →
          let t := answeredWith (s.setAxis a { x with energised := false, holdTimer := none, pulse := none }) i o r 0 []
          exec .release s = .next t ∧ t.coilState a = 0))

/-- LOAD-PATTERN (R56, R57): the order of its checks, the new table, and the indices of the TABLE axes modulo its count. -/
def Obligations.LoadPatternChecksAndTakes : Prop :=
  ∀ (s : State) (i : SlotId) (o : Nat) (r : Request) (count : Byte) (table : List Byte), Executes .loadPattern s i o r →
    r.payload = count :: table → r.payload.length ≤ 200 →
    let n := count.toNat
    let badField := n < 2 ∨ 16 < n ∨ ∃ b ∈ table, 15 < b.toNat
    let busy := ∃ a l, (s.axis a).mode = .table ∧ (s.axis a).owner = some l ∧
      (s.lane l).state ∈ [LaneState.waiting, .running, .held, .stopping]
    let reduced := fun a : AxisId =>
      if (s.axis a).mode = .table then { s.axis a with phase := (s.axis a).phase % n } else s.axis a
    (table.length ≠ n → exec .loadPattern s = .next (answeredWith s i o r 2 [])) ∧
    (table.length = n → badField → exec .loadPattern s = .next (answeredWith s i o r 3 [])) ∧
    (table.length = n → ¬badField → busy → exec .loadPattern s = .next (answeredWith s i o r 4 [])) ∧
    (table.length = n → ¬badField → ¬busy →
      let t := answeredWith { s with
        patterns := table.map BitVec.toNat, axes := ⟨reduced .A, reduced .B, reduced .C, reduced .D⟩ } i o r 0 []
      exec .loadPattern s = .next t ∧
      ∀ a, (s.axis a).mode = .table → (s.axis a).energised = true →
        t.coilState a = (table.getD ((s.axis a).phase % n) 0).toNat)

/-- SET-AXIS (R58): the order of its checks. A payload that names no axis or no admitted setting is refused with BAD-FIELD; then
the lane states decide; then the window must contain the position. -/
def Obligations.SetAxisRefusals : Prop :=
  ∀ (s : State) (i : SlotId) (o : Nat) (r : Request), Executes .setAxis s i o r → r.payload.length = 18 →
    ((∀ a w, w.Admitted → r.payload ≠ AxisSetting.payload a w) → exec .setAxis s = .next (answeredWith s i o r 3 [])) ∧
    ∀ (a : AxisId) (w : AxisSetting), w.Admitted → r.payload = AxisSetting.payload a w →
      let x := s.axis a
      let closed := fun side => ∃ l, side = some l ∧ (s.lane l).state ≠ .idle ∧ (s.lane l).state ≠ .halted
      let busy := ∃ l, x.owner = some l ∧ (s.lane l).state ∈ [LaneState.waiting, .running, .held, .stopping]
      let barred := (w.owner ≠ x.owner ∧ (closed x.owner ∨ closed w.owner)) ∨
        ({ w with owner := x.owner } ≠ x.setting ∧ busy)
      (barred → exec .setAxis s = .next (answeredWith s i o r 4 [])) ∧
      (¬barred → (x.position < w.windowMin ∨ w.windowMax < x.position) →
        exec .setAxis s = .next (answeredWith s i o r 9 []))

/-- An accepted SET-AXIS (R59, R105): the ten fields are replaced together; a drive mode change sets the phase index to 0 and the
direction level LOW; a move to FREE releases; the position is kept; a home filter time already exceeded changes the filtered
level, and a measure that goes on keeps its starting moment; the hold timer starts afresh with a changed hold time or lane; no
lane, no other axis and no report is touched. That a pulse in progress ends at a release and at a drive mode change is log 16. -/
def Obligations.SetAxisTakes : Prop :=
  ∀ (s : State) (i : SlotId) (o : Nat) (r : Request) (a : AxisId) (w : AxisSetting), Executes .setAxis s i o r →
    r.payload = AxisSetting.payload a w → w.Admitted → HoldTimerLaw s →
    let x := s.axis a
    let closed := fun side => ∃ l, side = some l ∧ (s.lane l).state ≠ .idle ∧ (s.lane l).state ≠ .halted
    let busy := ∃ l, x.owner = some l ∧ (s.lane l).state ∈ [LaneState.waiting, .running, .held, .stopping]
    (w.owner = x.owner ∨ (¬closed x.owner ∧ ¬closed w.owner)) → ({ w with owner := x.owner } = x.setting ∨ ¬busy) →
    w.windowMin ≤ x.position → x.position ≤ w.windowMax →
    ∃ y, exec .setAxis s = .next (answeredWith (s.setAxis a y) i o r 0 []) ∧ y.setting = w ∧ y.position = x.position ∧
      y.phase = (if w.mode = x.mode then x.phase else 0) ∧ y.dirLevel = (if w.mode = x.mode then x.dirLevel else .low) ∧
      y.energised = (if w.owner = none ∧ x.owner ≠ none then false else x.energised) ∧
      y.pulse = (if (w.owner = none ∧ x.owner ≠ none) ∨ w.mode ≠ x.mode then none else x.pulse) ∧
      y.home = (if w.homeFilter ≠ x.homeFilter ∧ ∃ e, x.home.measure = some e ∧ 8 * w.homeFilter ≤ e
        then ⟨x.home.raw, x.home.raw, none⟩ else x.home) ∧
      (y.energised = true → (w.owner ≠ x.owner ∨ w.holdTime ≠ x.holdTime) →
        y.holdTimer = if w.holdTime = 0 then none else some (s.msFor w.holdTime)) ∧
      (y.energised = true → w.owner = x.owner → w.holdTime = x.holdTime → y.holdTimer = x.holdTimer) ∧
      (y.energised = false → y.holdTimer = none)

/-- SET-LINE (R120, R121): a code that names no value is refused; an accepted setting replaces the six fields together, a filter
time already exceeded changes the filtered level, which makes its capture, meets a TRIGGER condition or halts the lanes of a new
mask under the new record; then the hold sources of both lanes take effect, and where no level changes nothing else is touched.
That the reply is sent ahead of a report made ready in the same event is log 7. -/
def Obligations.SetLineChecksAndTakes : Prop :=
  ∀ (s : State) (i : SlotId) (o : Nat) (r : Request) (line role edge level mask filter capture : Byte),
    Executes .setLine s i o r → r.payload = [line, role, edge, level, mask, filter, capture] →
    ((3 < line.toNat ∨ 3 < role.toNat ∨ 2 < edge.toNat ∨ 1 < level.toNat ∨ 3 < mask.toNat ∨ 1 < capture.toNat) →
      exec .setLine s = .next (answeredWith s i o r 3 [])) ∧
    ∀ (n : TrgId) (t : TrgLine), line.toNat = TrgId.code n → role.toNat = t.role.code → edge.toNat = t.edge.code →
      level.toNat = Level.code t.activeLevel → mask.toNat = t.mask.code → filter.toNat = t.filterTime →
      capture.toNat = t.capture.toNat → t.input = (s.line n).input →
      let passes := ∃ e, t.input.measure = some e ∧ 8 * t.filterTime ≤ e
      let s1 := s.setLine n t
      (¬passes → exec .setLine s = .next (answeredWith { s1 with lanes :=
        ⟨(s.lane .L0).underHold (s1.holdAsserted .L0) s.onTick, (s.lane .L1).underHold (s1.holdAsserted .L1) s.onTick⟩ }
        i o r 0 [])) ∧
      (passes → LaneLaw s →
        let captured := t.capture = true ∧ t.edgeAccepted = true
        let edge := if t.input.raw = .high then Edge.rise else .fall
        let passed := s.setLine n { t with input := ⟨t.input.raw, t.input.raw, none⟩ }
        ∃ u, exec .setLine s = .next u ∧ u.link = linkAnswered s.link i o r (replyOf r 0 []) .nothing ∧
          u.lines = passed.lines ∧ u.captures = (if captured then logAfter (.line n) (some edge) s else s.captures) ∧
          u.reports = lineReports t s (if captured then reportsAfterCapture s else s.reports) ∧
          LineActs n t passed.holdAsserted s u ∧ HoldTimersSettled s u ∧ u.time = s.time ∧ u.patterns = s.patterns ∧
          u.pins = s.pins ∧ u.power = s.power ∧ u.restartWait = s.restartWait ∧ u.freeCount = s.freeCount ∧
          u.pending = s.pending)

/-! ### Requests: motion -/

/-- QUEUE-SEGMENT (R5, R6): the order of its checks, over all payloads of an admitted length. A length that is not the one of
section 11.3 comes first, then the lane number, the lane's state and its queue, and then the fields. -/
def Obligations.QueueSegmentRefusals : Prop :=
  ∀ (s : State) (i : SlotId) (o : Nat) (r : Request), Executes .queueSegment s i o r →
    9 ≤ r.payload.length → r.payload.length ≤ 32 →
    (¬LayoutHolds r.payload → exec .queueSegment s = .next (answeredWith s i o r 2 [])) ∧
    (LayoutHolds r.payload → 1 < (r.payload.getD 0 0).toNat → exec .queueSegment s = .next (answeredWith s i o r 3 [])) ∧
    ∀ l, LayoutHolds r.payload → (r.payload.getD 0 0).toNat = LaneId.code l →
      let v := s.lane l
      (v.state = .halted → exec .queueSegment s = .next (answeredWith s i o r 6 [])) ∧
      (v.state = .stopping → exec .queueSegment s = .next (answeredWith s i o r 4 [])) ∧
      (v.state ≠ .halted → v.state ≠ .stopping → 16 ≤ v.queue.length →
        exec .queueSegment s = .next (answeredWith s i o r 5 [])) ∧
      (v.state ≠ .halted → v.state ≠ .stopping → v.queue.length < 16 →
        (NamesNothing r.payload → exec .queueSegment s = .next (answeredWith s i o r 3 [])) ∧
        ∀ (w : WantedSegment) (unread : Nat), r.payload = w.payload unread → w.fits → ¬w.passes s →
          exec .queueSegment s = .next (answeredWith s i o r 3 []))

/-- An accepted QUEUE-SEGMENT appends the completed record at the tail, answers with the new depth, and makes an IDLE lane READY
(R4, R6, R7); bits 4 to 7 of its flags are not read (R187). -/
def Obligations.QueueSegmentAppends : Prop :=
  ∀ (s : State) (i : SlotId) (o : Nat) (r : Request) (w : WantedSegment) (unread : Nat), Executes .queueSegment s i o r →
    r.payload = w.payload unread → w.fits → w.passes s → LaneLaw s →
    let v := s.lane w.lane
    v.state ≠ .halted → v.state ≠ .stopping → v.queue.length < 16 →
    exec .queueSegment s = .next (answeredWith
      (s.setLane w.lane { v with queue := v.queue ++ [w.record], state := if v.state = .idle then .ready else v.state })
      i o r 0 [BitVec.ofNat 8 (v.queue.length + 1)])

/-- START-LANE outside READY (R12). -/
def Obligations.StartLaneElsewhere : Prop :=
  ∀ (s : State) (i : SlotId) (o : Nat) (r : Request) (lane : Byte), Executes .startLane s i o r → r.payload = [lane] →
    (1 < lane.toNat → exec .startLane s = .next (answeredWith s i o r 3 [])) ∧
    ∀ l, lane.toNat = LaneId.code l →
      ((s.lane l).state = .idle → exec .startLane s = .next (answeredWith s i o r 7 [])) ∧
      ((s.lane l).state ∈ [LaneState.waiting, .running, .held] → exec .startLane s = .next (answeredWith s i o r 0 [])) ∧
      ((s.lane l).state = .stopping → exec .startLane s = .next (answeredWith s i o r 4 [])) ∧
      ((s.lane l).state = .halted → exec .startLane s = .next (answeredWith s i o r 6 []))

/-- START-LANE in READY activates the head (R12 to R14, R30, R51, R107), for the start conditions NONE and TRIGGER: the lane's
axes are energised, with a settle where one was RELEASED, and with no condition unmet the first interval of I0 ticks begins, or
is frozen whole by a hold. -/
def Obligations.StartLaneActivates : Prop :=
  ∀ (s : State) (i : SlotId) (o : Nat) (r : Request) (l : LaneId) (g : Segment) (rest : List Segment),
    Executes .startLane s i o r → r.payload = put8 (LaneId.code l) → (s.lane l).state = .ready →
    (s.lane l).queue = g :: rest → (∀ k, g.start ≠ .sync k) →
    let v := s.lane l
    let settles := g.kind ≠ .dwell ∧ v.settings.settle ≠ 0 ∧ ∃ a, (s.axis a).owner = some l ∧ (s.axis a).energised = false
    let line := match g.start with
      | .trigger n => some n
      | _ => none
    ∃ t, exec .startLane s = .next t ∧ SameElsewhere s t ∧ HoldTimersSettled s t ∧
      t.link = linkAnswered s.link i o r (replyOf r 0 []) .nothing ∧ t.reports = s.reports ∧ t.sync = s.sync ∧
      t.lane (otherLane l) = s.lane (otherLane l) ∧
      (∀ a, (t.axis a).untimed =
        if g.kind ≠ .dwell ∧ (s.axis a).owner = some l then { (s.axis a).untimed with energised := true }
        else (s.axis a).untimed) ∧
      let u := t.lane l
      u.queue = v.queue ∧ u.started = true ∧ u.softHold = v.softHold ∧ u.settings = v.settings ∧ u.halt = v.halt ∧
      u.interval = g.firstInterval ∧ u.stepCount = 0 ∧ u.ramp = none ∧
      (∀ entries i1 n, g.body = .move entries i1 n → ∀ a, u.accumulators.get a = accumulatorAfter n 0 (countOf entries a)) ∧
      (∀ n, g.body = .dwell n → u.dwellLeft = n) ∧
      (settles → u.unmet = ⟨true, line, false⟩ ∧ u.settleTimer = some (s.msFor v.settings.settle)) ∧
      (¬settles → u.unmet = ⟨false, line, false⟩ ∧ u.settleTimer = none) ∧
      ((settles ∨ line ≠ none) → u.state = .waiting ∧ u.stepTimer = .stopped ∧
        ∀ a limit preset, g.body = .home a limit preset → u.homing = some ⟨.notChosen, false⟩) ∧
      (¬settles → line = none →
        (s.holdAsserted l = true → u.state = .held ∧ u.stepTimer = .frozen g.firstInterval) ∧
        (s.holdAsserted l = false → u.state = .running ∧ u.stepTimer = .counting g.firstInterval s.onTick) ∧
        ∀ a limit preset, g.body = .home a limit preset →
          u.homing = some ⟨if (s.axis a).home.filtered = (s.axis a).homeLevel then .leave else .seek, false⟩)

/-- The activation by START-LANE of a head with a SYNC, decided against the other lane's entry (R13, R30, R51, R75 to R77): with
none standing the entry stands with its timeout; with the same number both waits are met, and each lane begins its first interval
or goes on waiting for its SETTLE; with another number both lanes halt, the waiting lane's report first. The entering lane's cut
tag in the last case is log 6, and that the reply is sent ahead of those reports is log 7. -/
def Obligations.SyncEntryDecided : Prop :=
  ∀ (s : State) (i : SlotId) (o : Nat) (r : Request) (l : LaneId) (g : Segment) (rest : List Segment) (k : Nat),
    Executes .startLane s i o r → r.payload = put8 (LaneId.code l) → (s.lane l).state = .ready →
    (s.lane l).queue = g :: rest → g.start = .sync k → LaneLaw s →
    ∃ t, exec .startLane s = .next t ∧ SameElsewhere s t ∧ HoldTimersSettled s t ∧
      t.link = linkAnswered s.link i o r (replyOf r 0 []) .nothing ∧
      t.reports = activationReports l g s (positionsOf s) s.reports ∧ SyncDecided l g rest k s.onTick s t ∧
      ∀ a, (PowersUp l g s a → (t.axis a).untimed = { (s.axis a).untimed with energised := true }) ∧
        (¬PowersUp l g s a → (t.axis a).untimed = (s.axis a).untimed)

/-- STOP-LANE (R86 to R88): nothing in IDLE, STOPPING and HALTED; a RUNNING MOVE goes to STOPPING with the stop-ramp context set
up and the segments behind it flushed; every other lane ends in IDLE at once with its report, and neither the other lane, a
sync wait of its own, nor any axis is touched. That the reply is sent ahead of that report is log 7. -/
def Obligations.StopLaneActs : Prop :=
  ∀ (s : State) (i : SlotId) (o : Nat) (r : Request), Executes .stopLane s i o r →
    (∀ b, r.payload = [b] → 1 < b.toNat → exec .stopLane s = .next (answeredWith s i o r 3 [])) ∧
    ∀ l, r.payload = put8 (LaneId.code l) →
    let v := s.lane l
    let ramped := v.state = .running ∧ ∃ g ∈ v.queue.head?, g.kind = .move
    (v.state ∈ [LaneState.idle, .stopping, .halted] → exec .stopLane s = .next (answeredWith s i o r 0 [])) ∧
    (ramped → exec .stopLane s = .next (answeredWith (s.setLane l { v with
      queue := v.queue.take 1, state := .stopping
      ramp := some ⟨.idle, v.settings.stopDistance, v.settings.stopInterval, v.interval, none, 0⟩ }) i o r 0 [])) ∧
    (v.state ∈ [LaneState.ready, .waiting, .running, .held] → ¬ramped →
      ∃ t, exec .stopLane s = .next t ∧ SameElsewhere s t ∧ HoldTimersSettled s t ∧ AxesKept s t ∧
        t.lanes = s.lanes.set l (v.ended none) ∧ t.sync = s.sync.set l none ∧
        t.reports = s.reports.hand (stoppedReport s l none) ∧
        t.link = linkAnswered s.link i o r (replyOf r 0 []) .nothing)

/-- ABORT-LANE (R94, R97): a HALTED lane answers OK unchanged; every other lane halts with cause ABORT by the halt procedure,
which breaks a standing wait of the other lane (R78). That the reply is sent ahead of the reports is log 7. -/
def Obligations.AbortLaneHalts : Prop :=
  ∀ (s : State) (i : SlotId) (o : Nat) (r : Request), Executes .abortLane s i o r →
    (∀ b, r.payload = [b] → 1 < b.toNat → exec .abortLane s = .next (answeredWith s i o r 3 [])) ∧
    ∀ l, r.payload = put8 (LaneId.code l) → LaneLaw s →
    ((s.lane l).state = .halted → exec .abortLane s = .next (answeredWith s i o r 0 [])) ∧
    ((s.lane l).state ≠ .halted →
      ∃ t, exec .abortLane s = .next t ∧ SameElsewhere s t ∧ HoldTimersSettled s t ∧ AxesKept s t ∧
        HaltsLane l ⟨.abort, none⟩ s t ∧ t.reports = haltReports l ⟨.abort, none⟩ s s.reports ∧
        t.link = linkAnswered s.link i o r (replyOf r 0 []) .nothing)

/-- HOLD-LANE and RESUME-LANE (R39, R40, R70, R72): the soft hold takes its value, and the hold acts on a RUNNING or HELD lane at
once. -/
def Obligations.HoldAndResumeAct : Prop :=
  ∀ (s : State) (i : SlotId) (o : Nat) (r : Request),
    (∀ b, r.payload = [b] → 1 < b.toNat →
      (Executes .holdLane s i o r → exec .holdLane s = .next (answeredWith s i o r 3 [])) ∧
      (Executes .resumeLane s i o r → exec .resumeLane s = .next (answeredWith s i o r 3 []))) ∧
    ∀ l, r.payload = put8 (LaneId.code l) →
    let lines := allTrgs.any fun n =>
      (s.line n).role = .hold && (s.line n).mask.names l && (s.line n).input.filtered = (s.line n).activeLevel
    (Executes .holdLane s i o r →
      exec .holdLane s = .next (answeredWith
        (s.setLane l (Lane.underHold true s.onTick { s.lane l with softHold := true })) i o r 0 [])) ∧
    (Executes .resumeLane s i o r →
      exec .resumeLane s = .next (answeredWith
        (s.setLane l (Lane.underHold lines s.onTick { s.lane l with softHold := false })) i o r 0 []))

/-- CLEAR-LANE (R98). -/
def Obligations.ClearLaneClears : Prop :=
  ∀ (s : State) (i : SlotId) (o : Nat) (r : Request) (lane : Byte), Executes .clearLane s i o r → r.payload = [lane] →
    (1 < lane.toNat → exec .clearLane s = .next (answeredWith s i o r 3 [])) ∧
    ∀ l, lane.toNat = LaneId.code l →
      ((s.lane l).state ≠ .halted → exec .clearLane s = .next (answeredWith s i o r 0 [])) ∧
      ((s.lane l).state = .halted →
        exec .clearLane s = .next (answeredWith (s.setLane l { s.lane l with state := .idle, halt := none }) i o r 0 []))

/-! ### Requests: reading, captures and reports -/

/-- READ-LANE changes nothing and shows the lane, its waits, holds, halt, queue, active segment and settings at the offsets of
section 11.6 (R166, R167). -/
def Obligations.ReadLaneShows : Prop :=
  ∀ (s : State) (i : SlotId) (o : Nat) (r : Request), Executes .readLane s i o r →
    (∀ b, r.payload = [b] → 1 < b.toNat → exec .readLane s = .next (answeredWith s i o r 3 [])) ∧
    ∀ l, r.payload = put8 (LaneId.code l) →
    let v := s.lane l
    let remaining := match v.active with
      | some ⟨_, _, .move _ _ n, _, _, _⟩ => some (n - v.stepCount)
      | some ⟨_, _, .home _ limit _, _, _, _⟩ => some (limit - v.stepCount)
      | _ => none
    ∃ d, exec .readLane s = .next (answeredWith s i o r 0 d) ∧ d.length = 25 ∧
      byteAt d 0 = LaneId.code l ∧ byteAt d 1 = v.state.code ∧
      byteAt d 2 = v.unmet.settle.toNat + 2 * v.unmet.trigger.isSome.toNat + 4 * v.unmet.sync.toNat ∧
      byteAt d 3 = (v.unmet.trigger.map TrgId.code).getD 0 ∧ byteAt d 4 = v.softHold.toNat ∧
      byteAt d 5 = ((s.line .T0).holds l).toNat + 2 * ((s.line .T1).holds l).toNat + 4 * ((s.line .T2).holds l).toNat +
        8 * ((s.line .T3).holds l).toNat ∧
      byteAt d 7 = (v.halt.map fun h => h.cause.code).getD 0 ∧
      byteAt d 8 = ((v.halt.bind (·.axis)).map AxisId.code).getD 0 ∧
      byteAt d 9 = v.queue.length % 256 ∧ u16At d 10 = (v.activeTag.map BitVec.toNat).getD 0 ∧
      u32At d 12 = remaining.getD 0 % 4294967296 ∧ u16At d 16 = v.interval % 65536 ∧ byteAt d 18 = v.settings.settle % 256 ∧
      u16At d 19 = v.settings.stopDistance % 65536 ∧ u16At d 21 = v.settings.stopInterval % 65536 ∧
      u16At d 23 = v.settings.syncTimeout % 65536 ∧
      byteAt d 6 = v.halt.isSome.toNat + 2 * (v.halt.bind (·.axis)).isSome.toNat + 4 * v.active.isSome.toNat +
        8 * remaining.isSome.toNat

/-- READ-AXIS and READ-LINES change nothing and show the axis, and the lines with the stamp, at the offsets of section 11.6
(R122, R168). -/
def Obligations.ReadAxisAndLinesShow : Prop :=
  (∀ (s : State) (i : SlotId) (o : Nat) (r : Request), Executes .readAxis s i o r →
    (∀ b, r.payload = [b] → 3 < b.toNat → exec .readAxis s = .next (answeredWith s i o r 3 [])) ∧
    ∀ a, r.payload = put8 (AxisId.code a) → AxisLaw s →
    let x := s.axis a
    ∃ d, exec .readAxis s = .next (answeredWith s i o r 0 d) ∧ d.length = 18 ∧ byteAt d 0 = AxisId.code a ∧
      byteAt d 1 = ownerCode x.owner ∧ byteAt d 2 = x.mode.code ∧ i32At d 3 = x.position ∧ byteAt d 7 = x.phase ∧
      byteAt d 8 = x.energised.toNat ∧ byteAt d 9 = Level.code x.home.filtered ∧ i32At d 10 = x.windowMin ∧
      i32At d 14 = x.windowMax) ∧
  ∀ (s : State) (i : SlotId) (o : Nat) (r : Request), Executes .readLines s i o r → r.payload = [] →
    ∃ d, exec .readLines s = .next (answeredWith s i o r 0 d) ∧ d.length = 33 ∧
      (∀ n, let t := s.line n
        let at_ := 7 * TrgId.code n
        byteAt d at_ = Level.code t.input.filtered ∧ byteAt d (at_ + 1) = t.role.code ∧ byteAt d (at_ + 2) = t.edge.code ∧
        byteAt d (at_ + 3) = Level.code t.activeLevel ∧ byteAt d (at_ + 4) = t.mask.code ∧
        byteAt d (at_ + 5) = t.filterTime % 256 ∧ byteAt d (at_ + 6) = t.capture.toNat) ∧
      (∀ a, (byteAt d 28).testBit (AxisId.code a) = decide ((s.axis a).home.filtered = .high)) ∧
      u32At d 29 = s.time.stamp.toNat

/-- MARK and READ-CAPTURES (R126 to R130). That MARK's reply is sent ahead of the CAPTURE-READY of the same event is log 7. -/
def Obligations.CaptureRequestsAct : Prop :=
  (∀ (s : State) (i : SlotId) (o : Nat) (r : Request), Executes .mark s i o r → r.payload = [] →
    let c := s.captures
    let number := [BitVec.ofNat 8 (c.next.toNat / 256), BitVec.ofNat 8 c.next.toNat]
    (8 ≤ c.records.length → exec .mark s = .next (answeredWith
      { s with captures := { c with next := c.next + 1, dropped := c.dropped + 1 } } i o r 10 number)) ∧
    (c.records.length < 8 → exec .mark s = .next (answeredWith
      { s with
        captures :=
          { records := c.records ++ [
              { number := c.next, source := .host, edge := none, stamp := s.time.stamp
                positions := ⟨(s.axis .A).position, (s.axis .B).position, (s.axis .C).position, (s.axis .D).position⟩
                tags := ⟨(s.lane .L0).activeTag, (s.lane .L1).activeTag⟩, droppedBefore := c.dropped }]
            next := c.next + 1, dropped := 0 }
        reports := if c.records = [] then s.reports.hand (.captureReady 1) else s.reports } i o r 0 number))) ∧
  ∀ (s : State) (i : SlotId) (o : Nat) (r : Request) (b : Byte), Executes .readCaptures s i o r → r.payload = [b] →
    let n := b.toNat
    let c := s.captures
    ((n = 0 ∨ 4 < n) → exec .readCaptures s = .next (answeredWith s i o r 3 [])) ∧
    (1 ≤ n → n ≤ 4 → exec .readCaptures s = .next (answeredWith
      { s with captures := { c with records := c.records.drop n } } i o r 0
      (BitVec.ofNat 8 (min n c.records.length) :: (c.records.take n).flatMap CaptureRecord.data)))

/-- FETCH-REPORT, ACK-REPORT and the resend timer's expiry (R179 to R181). ATTN of a running part is low exactly while the report
queue is not empty, so it goes high where an ACK-REPORT removes the last report (R185). -/
def Obligations.ReportDeliveryActs : Prop :=
  (∀ (s : State) (i : SlotId) (o : Nat) (r : Request), Executes .fetchReport s i o r → r.payload = [] →
    let q := s.reports
    (q.list = [] → exec .fetchReport s = .next (answeredWith s i o r 7 [])) ∧
    ∀ h rest, q.list = h :: rest →
      let data := h.number :: BitVec.ofNat 8 h.body.code :: h.payload
      (q.mode = .poll → exec .fetchReport s = .next (answeredWith s i o r 0 data)) ∧
      (q.mode = .push → exec .fetchReport s = .next (answeredWith { s with reports := { q with
        suspended := false, head := .sent, retries := 0, resendTimer := some (s.msFor (5 * q.resendPeriod)) } } i o r 0 data))) ∧
  (∀ (s : State) (i : SlotId) (o : Nat) (r : Request) (b : Byte), Executes .ackReport s i o r → r.payload = [b] →
    let q := s.reports
    ((∀ h ∈ q.list.head?, h.number ≠ b) → exec .ackReport s = .next (answeredWith s i o r 8 [])) ∧
    ∀ h rest, q.list = h :: rest → h.number = b →
      let t := answeredWith { s with reports := { q with
        list := rest, head := .unsent, retries := 0, resendTimer := none, suspended := false } } i o r 0 []
      exec .ackReport s = .next t ∧ s.attn = .low ∧ t.attn = (if rest = [] then .high else .low)) ∧
  (∀ (s : State), s.power = .running → (s.attn = .low ↔ s.reports.list ≠ []) ∧
    ∀ b, { s with reports := s.reports.hand b }.attn = .low) ∧
  ∀ (s : State), s.power = .running → s.reports.resendTimer ≠ none →
    let q := s.reports
    (q.retries < q.resendLimit → ∃ t, exec .resendTimerExpiry s = .next t ∧
      Chooses { s with reports := { q with retries := q.retries + 1, head := .due, resendTimer := none } } t) ∧
    (q.resendLimit ≤ q.retries → ∃ t, exec .resendTimerExpiry s = .next t ∧
      Chooses { s with reports := { q with suspended := true, resendTimer := none } } t)

/-- A report handed to the report queue (R176, R177): an ordinary one is accepted below 12 reports and a vital one below 16, with
the next number and the pending lost count, at the tail, as a head in UNSENT where the list was empty; else it is lost and
counted, up to 255. Of reports handed over in turn, each finds the list and the lost count as the reports before it left them, so
no report is unaccounted for and the numbers of those accepted run on without a gap. -/
def Obligations.ReportsHandedOver : Prop :=
  ∀ q : ReportQueue,
    (∀ b : ReportBody,
      let places := match b with
        | .restarted .. | .laneStopped .. => 16
        | .segmentDone .. | .captureReady _ => 12
      (q.list.length < places → q.hand b = { q with
        list := q.list ++ [⟨q.next, q.lost, b⟩], next := q.next + 1, lost := 0
        head := if q.list = [] then .unsent else q.head
        retries := if q.list = [] then 0 else q.retries
        resendTimer := if q.list = [] then none else q.resendTimer
        suspended := if q.list = [] then false else q.suspended }) ∧
      (places ≤ q.list.length → q.hand b = { q with lost := if q.lost < 255 then q.lost + 1 else 255 })) ∧
    ∀ bs : List ReportBody, q.lost + bs.length ≤ 255 →
      let q' := bs.foldl ReportQueue.hand q
      ∃ accepted, q'.list = q.list ++ accepted ∧ (accepted.map (·.body)).Sublist bs ∧
        (accepted.map (·.lostBefore)).sum + q'.lost + accepted.length = q.lost + bs.length ∧
        accepted.map (·.number) = (List.range accepted.length).map fun j => q.next + BitVec.ofNat 8 j

/-- The bytes of a report frame and of its payload (sections 11.1, 11.2 and 11.5), and of a capture record (section 11.4), at
their offsets. -/
def Obligations.RecordBytes : Prop :=
  let positionsAt := fun (d : List Byte) (i : Nat) (p : PerAxis Int) =>
    (∀ a, -2147483648 ≤ p.get a ∧ p.get a ≤ 2147483647) → ∀ a, i32At d (i + 4 * AxisId.code a) = p.get a
  (∀ r : Report,
    let d := r.payload
    let kind : Byte := match r.body with
      | .restarted .. => 0x40
      | .segmentDone .. => 0x41
      | .laneStopped .. => 0x42
      | .captureReady _ => 0x43
    let body := BitVec.ofNat 8 d.length :: r.number :: kind :: d
    reportFrame r = 0xC3 :: body ++ [BitVec.ofNat 8 ((crc16 body).toNat / 256), BitVec.ofNat 8 (crc16 body).toNat] ∧
    byteAt d 0 = r.lostBefore % 256 ∧
    (∀ cause revision, r.body = .restarted cause revision → d.length = 3 ∧ byteAt d 2 = revision % 256 ∧
      byteAt d 1 = (match cause with
        | .power => 0
        | .pin => 1
        | .request => 2)) ∧
    (∀ n, r.body = .captureReady n → d.length = 2 ∧ byteAt d 1 = n % 256) ∧
    (∀ l tag kind depth home positions, r.body = .segmentDone l tag kind depth home positions →
      d.length = 31 ∧ byteAt d 1 = LaneId.code l ∧ u16At d 2 = tag.toNat ∧ byteAt d 5 = depth % 256 ∧
      byteAt d 4 = (match kind with
        | .move => 0
        | .dwell => 1
        | .home => 2) ∧
      (home = none → byteAt d 6 = 0 ∧ u32At d 7 = 0 ∧ u32At d 11 = 0) ∧
      (∀ h, home = some h → byteAt d 6 = 1 ∧ u32At d 7 = h.stepsTaken % 4294967296 ∧
        (-2147483648 ≤ h.detectedAt → h.detectedAt ≤ 2147483647 → i32At d 11 = h.detectedAt)) ∧
      positionsAt d 15 positions) ∧
    ∀ l halt cut positions, r.body = .laneStopped l halt cut positions →
      d.length = 28 ∧ byteAt d 1 = LaneId.code l ∧ byteAt d 2 = halt.isSome.toNat ∧
      byteAt d 3 = (match halt.map (·.cause) with
        | none => 0
        | some .abort => 1
        | some .lineHalt => 2
        | some .window => 3
        | some .limit => 4
        | some .silence => 5
        | some .syncMismatch => 6
        | some .syncBroken => 7
        | some .syncTimeout => 8
        | some .homeNotFound => 9
        | some .homeWindow => 10) ∧
      byteAt d 4 = (halt.bind (·.axis)).isSome.toNat + 2 * cut.isSome.toNat + 4 * (cut.bind (·.notTaken)).isSome.toNat ∧
      byteAt d 5 = ((halt.bind (·.axis)).map AxisId.code).getD 0 ∧ u16At d 6 = (cut.map (·.tag.toNat)).getD 0 ∧
      u32At d 8 = ((cut.bind (·.notTaken)).getD 0) % 4294967296 ∧ positionsAt d 12 positions) ∧
  ∀ c : CaptureRecord,
    let d := c.data
    d.length = 31 ∧ u16At d 0 = c.number.toNat ∧
    byteAt d 2 = (match c.source with
      | .line n => TrgId.code n
      | .host => 4) ∧
    byteAt d 3 = c.edge.isSome.toNat + 2 * c.tags.l0.isSome.toNat + 4 * c.tags.l1.isSome.toNat ∧
    byteAt d 4 = (match c.edge with
      | some .fall => 1
      | _ => 0) ∧
    u32At d 5 = c.stamp.toNat ∧ positionsAt d 9 c.positions ∧ u16At d 25 = (c.tags.l0.map BitVec.toNat).getD 0 ∧
    u16At d 27 = (c.tags.l1.map BitVec.toNat).getD 0 ∧ u16At d 29 = c.droppedBefore.toNat

/-! ### The link -/

/-- A byte takes the receiver on, and each byte of a frame starts the gap measure afresh (R140 to R142). A framing error, a LEN
above 200 and a gap expiry discard the frame in assembly, and nothing else: no slot, no cache entry, no silence timer and no frame
on TXD is touched (R136, R141, R142). -/
def Obligations.BytesAssembledOrDiscarded : Prop :=
  (∀ (s : State) (b : Byte), s.power = .running → s.link.awaitHigh = false →
    let goes := fun (ρ : Receiver) => { s with link := { s.link with receiver := ρ, gap := some 0 } }
    match s.link.receiver with
    | .hunt =>
      (b = 0xC3 → exec (.byteArrival b) s = .next (goes .headerLen)) ∧ (b ≠ 0xC3 → exec (.byteArrival b) s = .next s)
    | .headerLen =>
      (b.toNat ≤ 200 → exec (.byteArrival b) s = .next (goes (.headerSeq b))) ∧
      (200 < b.toNat → exec (.byteArrival b) s = .next { s with link := { s.link with receiver := .hunt, gap := none } })
    | .headerSeq len => exec (.byteArrival b) s = .next (goes (.headerKind len b))
    | .headerKind len seq =>
      (len = 0 → exec (.byteArrival b) s = .next (goes (.check len seq b []))) ∧
      (len ≠ 0 → exec (.byteArrival b) s = .next (goes (.body len seq b [])))
    | .body len seq kind p =>
      (p.length + 1 < len.toNat → exec (.byteArrival b) s = .next (goes (.body len seq kind (p ++ [b])))) ∧
      (len.toNat ≤ p.length + 1 → exec (.byteArrival b) s = .next (goes (.check len seq kind (p ++ [b]))))
    | .check len seq kind p => exec (.byteArrival b) s = .next (goes (.checkLow len seq kind p b))
    | .checkLow _ _ _ _ _ => exec (.byteArrival b) s = exec (.frameReceived b) s) ∧
  ∀ (s : State) (len : Byte), s.power = .running →
    (s.link.awaitHigh = false → exec .framingError s = .next { s with link :=
      { s.link with receiver := .hunt, gap := none, awaitHigh := true } }) ∧
    (s.link.awaitHigh = false → s.link.receiver = .headerLen → 200 < len.toNat → exec (.lenOver200 len) s = .next { s with link :=
      { s.link with receiver := .hunt, gap := none } }) ∧
    (s.link.gap ≠ none → exec .gapExpiry s = .next { s with link := { s.link with receiver := .hunt, gap := none } })

/-- The bytes of a good frame of any KIND and any payload of 0 to 200 bytes, arriving one after another at a receiver in HUNT
with slot 0 free, put the request in that slot with the next order of arrival and restart the silence timer (R140, R143, R144,
R146). -/
def Obligations.FrameBytesReachSlot : Prop :=
  ∀ (s : State) (seq kind : Byte) (payload : List Byte), payload.length ≤ 200 → s.power = .running →
    s.link.awaitHigh = false → s.link.receiver = .hunt → s.link.slot0 = .free →
    let bytes := frame seq kind payload
    let check := crc16 (BitVec.ofNat 8 payload.length :: seq :: kind :: payload)
    s.pending = bytes.map Instr.byteArrival →
    Sys2Proof.core.run bytes.length s = .next { s with
      pending := []
      link := { s.link with
        receiver := .hunt, gap := none, slot0 := .pending s.link.nextOrder ⟨seq, kind, payload, check⟩
        nextOrder := s.link.nextOrder + 1
        silenceTimer := if s.link.silencePeriod = 0 then none else some (s.msFor (10 * s.link.silencePeriod)) } }

/-- The second CHECK byte (R144, R146): a good frame restarts the silence timer and takes a FREE slot as PENDING; a bad one puts
a NAK of its SEQ in a FREE slot, which an idle transmitter may begin; with no slot FREE nothing is stored. -/
def Obligations.FrameReceivedJudged : Prop :=
  ∀ (s : State) (len seq kind high low : Byte) (p : List Byte), s.power = .running → s.link.awaitHigh = false →
    s.link.receiver = .checkLow len seq kind p high →
    let check : Word16 := high ++ low
    let good := check = crc16 (len :: seq :: kind :: p)
    let k := { s.link with receiver := .hunt, gap := none }
    let restarted := { k with
      silenceTimer := if k.silencePeriod = 0 then none else some (s.msFor (10 * k.silencePeriod)) }
    let free := s.link.slot0 = .free ∨ s.link.slot1 = .free
    let sum := crc16 [1, seq, 0xFF, 1]
    let nak : List Byte := [0xC3, 1, seq, 0xFF, 1, BitVec.ofNat 8 (sum.toNat / 256), BitVec.ofNat 8 sum.toNat]
    (good → ¬free → exec (.frameReceived low) s = .next { s with link := restarted }) ∧
    (¬good → ¬free → exec (.frameReceived low) s = .next { s with link := k }) ∧
    (good → free → ∃ i, s.link.slot i = .free ∧ exec (.frameReceived low) s = .next { s with link :=
      { restarted.setSlot i (.pending k.nextOrder ⟨seq, kind, p, check⟩) with nextOrder := k.nextOrder + 1 } }) ∧
    (¬good → free → ∃ i, s.link.slot i = .free ∧
      let k1 := { k.setSlot i (.answering k.nextOrder nak .nothing) with nextOrder := k.nextOrder + 1 }
      exec (.frameReceived low) s = .next { s with link := { k1 with tx := txAfterAnswer k1 k.tx } })

/-- A break and the levels of RXD (R136 to R139, R155, R183). RXD falls: the break measure begins. A break: the frame in assembly,
the slots, the cache and the frame on TXD are gone, but for the bit in progress there, the pin rate is back, the head report is
UNSENT, the silence timer starts afresh, and nothing else is touched. RXD rises: the measure ends, the receiver looks for bytes
again, and a transmitter that a break held back chooses its next frame. That the bit in progress keeps the rate it was begun at is
the model's choice (log 12); that a rise taken when 10,000 µs are reached, and before the break, still ends the measure is
log 23. -/
def Obligations.BreakAndRxdAct : Prop :=
  ∀ (s : State), s.power = .running →
    (s.link.breakMeasure ≠ none →
      let bit := match s.link.lastBit, s.link.tx with
        | some b, _ => some b
        | none, .sending _ _ (left + 1) => some ⟨s.txd, left % 2000000 + 1, s.link.rate⟩
        | none, _ => none
      exec .linkBreak s = .next { s with
        restartWait := false
        reports := { s.reports with head := .unsent, retries := 0, resendTimer := none, suspended := false }
        link := { s.link with
          receiver := .hunt, gap := none, awaitHigh := true, breakMeasure := none, breakHold := true, slot0 := .free
          slot1 := .free, cache := [], tx := .idle, lastBit := bit, rate := s.link.pinRate
          silenceTimer := if s.link.silencePeriod = 0 then none else some (s.msFor (10 * s.link.silencePeriod)) } }) ∧
    (s.pins.rxd = .high → exec (.rxdLevelChange .low) s = .next { s with
      pins := { s.pins with rxd := .low }, link := { s.link with breakMeasure := some 0 } }) ∧
    (s.pins.rxd = .low →
      let u := { s with
        pins := { s.pins with rxd := .high }
        link := { s.link with breakMeasure := none, awaitHigh := false, breakHold := false } }
      (s.link.breakHold = false → exec (.rxdLevelChange .high) s = .next u) ∧
      (s.link.breakHold = true → ∃ t, exec (.rxdLevelChange .high) s = .next t ∧ Chooses u t))

/-- FRAME_BEGIN and FRAME_SENT (R135, R150, R151, R164, R178): the transmitter's choice; the end of a reply frees its slot and
brings its rate change or device reset; the end of a report frame records the sending; then the transmitter chooses. That the
blocks stand at their reset values while a reset lasts is log 14. -/
def Obligations.TransmitterSends : Prop :=
  ∀ (s : State), s.power = .running →
    (∃ t, exec .frameBegin s = .next t ∧ Chooses s t) ∧
    (∀ i f left o, s.link.tx = .sending (.slot i) f left →
      let k := { s.link.setSlot i .free with tx := .idle, lastBit := none }
      (s.link.slot i = .answering o f .nothing → ∃ t, exec .frameSent s = .next t ∧ Chooses { s with link := k } t) ∧
      (∀ rate, s.link.slot i = .answering o f (.changeRate rate) →
        ∃ t, exec .frameSent s = .next t ∧ Chooses { s with link := { k with rate := rate } } t) ∧
      (s.link.slot i = .answering o f .deviceReset → ∃ t, exec .frameSent s = .next t ∧ ResetBegun .request s t)) ∧
    (∀ number f left, s.link.tx = .sending (.report number) f left →
      let k := { s.link with tx := .idle, lastBit := none }
      let q := s.reports
      let current := q.head = .sending ∧ ∃ r ∈ q.list.head?, r.number = number
      (¬current → ∃ t, exec .frameSent s = .next t ∧ Chooses { s with link := k } t) ∧
      (current → q.mode = .push → ∃ t, exec .frameSent s = .next t ∧ Chooses { s with link := k, reports :=
        { q with head := .sent, resendTimer := some (s.msFor (5 * q.resendPeriod)) } } t) ∧
      (current → q.mode = .poll → ∃ t, exec .frameSent s = .next t ∧ Chooses { s with link := k, reports :=
        { q with head := .unsent, resendTimer := none } } t))

/-! ### Device resets -/

/-- The supply and RSTN begin a device reset; an RSTN low that comes during one prolongs it, its cause then PIN but for a
power-on reset (R165, R188). While the reset lasts no byte is taken, no request executed, no report or capture made, the stamp
stands at 0 and the outputs stay as they are: a command that is none of the reset's own changes a pin alone, or nothing, and the
passing of time only the reset's length (R188). That POWER_ON acts so in every state is log 13, and that the blocks stand at their
reset values, with no report held, and a pin changes only its own level while the reset lasts is log 14. -/
def Obligations.ResetBegins : Prop :=
  ∀ (s : State),
    (∃ t, exec .powerOn s = .next t ∧ ResetBegun .power s t) ∧
    (s.power = .running → ∃ t, exec .rstnLow s = .next t ∧ ResetBegun .pin s t ∧ t.pins.rstn = .low) ∧
    (∀ cause elapsed, s.power = .inReset cause elapsed → exec .rstnLow s = .next { s with
      pins := { s.pins with rstn := .low }, power := .inReset (if cause = .power then .power else .pin) elapsed }) ∧
    (∀ cause elapsed, s.power = .inReset cause elapsed → advance s = { s with power := .inReset cause (elapsed + 1) } ∧
      ∀ c : Instr, match c with
        | .powerOn | .rstnLow | .deviceResetEnd _ _ => True
        | .rxdLevelChange level => exec c s = .next { s with pins := { s.pins with rxd := level } }
        | .triggerRawChange n level =>
          exec c s = .next (s.setLine n { s.line n with input := { (s.line n).input with raw := level } })
        | .homeRawChange a level =>
          exec c s = .next (s.setAxis a { s.axis a with home := { (s.axis a).home with raw := level } })
        | _ => exec c s = .next s) ∧
    (InReset s → InReset (advance s) ∧
      ∀ c t, (∀ rate1 rate0, c ≠ .deviceResetEnd rate1 rate0) → exec c s = .next t → InReset t)

/-- The end of a device reset (R1, R25, R44, R55, R117, R123 to R125, R134, R137, R145, R155, R165, R174, R188): every block holds
its reset values, the rate comes from the pins, the filtered levels from the raw ones, and RESTARTED 0 is the one report. That
its frame begins in the same event is log 7; the places within tick and half microsecond are log 5. -/
def Obligations.ResetEnds : Prop :=
  ∀ (s : State) (cause : ResetCause) (elapsed : Nat) (rate1 rate0 : Level), s.power = .inReset cause elapsed →
    let rate : LinkRate := match rate1, rate0 with
      | .low, .high => .r19200
      | .low, .low => .r115200
      | .high, .low => .r460800
      | .high, .high => .r921600
    let restarted : Report := ⟨0, 0, .restarted cause 1⟩
    let idle : Lane :=
      { queue := [], state := .idle, started := false, softHold := false, unmet := ⟨false, none, false⟩, settleTimer := none
        stepTimer := .stopped, accumulators := ⟨none, none, none, none⟩, interval := 0, stepCount := 0, dwellLeft := 0
        homing := none, ramp := none, halt := none
        settings := { settle := 20, stopDistance := 0, stopInterval := 4000, syncTimeout := 0 } }
    let axis := fun (a : AxisId) (l : LaneId) =>
      ({ owner := some l, mode := .half, sense := .normal, phase := 0, position := 0, windowMin := -2147483647
         windowMax := 2147483647, energised := false, holdTime := 500, homeLevel := .low, homeDir := .reverse, guard := false
         homeFilter := 25, dirLevel := .low, holdTimer := none, pulse := none
         home := ⟨(s.axis a).home.raw, (s.axis a).home.raw, none⟩ } : Axis)
    let line := fun (n : TrgId) =>
      ({ role := .off, edge := .rise, activeLevel := .high, mask := .none, filterTime := 0, capture := false
         input := ⟨(s.line n).input.raw, (s.line n).input.raw, none⟩ } : TrgLine)
    ∃ t, exec (.deviceResetEnd rate1 rate0) s = .next t ∧ t.power = .running ∧ t.lanes = ⟨idle, idle⟩ ∧ t.sync = ⟨none, none⟩ ∧
      t.axes = ⟨axis .A .L0, axis .B .L0, axis .C .L1, axis .D .L1⟩ ∧ t.lines = ⟨line .T0, line .T1, line .T2, line .T3⟩ ∧
      t.time.exponent = 1 ∧ t.time.stamp = 0 ∧ t.time.msPhase = 0 ∧ t.captures = ⟨[], 0, 0⟩ ∧
      t.patterns = [8, 12, 4, 6, 2, 3, 1, 9] ∧ t.restartWait = false ∧ t.pending = s.pending ∧
      t.reports =
        { list := [restarted], next := 1, lost := 0, mode := .push, resendPeriod := 20, resendLimit := 3, head := .sending
          retries := 0, resendTimer := none, suspended := false } ∧
      t.link.tx = .sending (.report 0) (reportFrame restarted) ((reportFrame restarted).length * 10 * bitWeight) ∧
      t.link.rate = rate ∧ t.link.pinRate = rate ∧ t.link.receiver = .hunt ∧ t.link.slot0 = .free ∧ t.link.slot1 = .free ∧
      t.link.cache = [] ∧ t.link.lastBit = none ∧ t.link.silencePeriod = 0 ∧ t.link.silenceTimer = none ∧
      t.link.breakMeasure = (if s.pins.rxd = .low then some 0 else none) ∧ t.attn = .low ∧ ∀ a, t.coilState a = 0

/-! ### Step events -/

/-- A step event of a RUNNING MOVE that takes effect short of its last step (R28, R31, R34, R47): every due axis steps, the
accumulators and the count take their new values, and the next ramp interval starts at once; nothing else is touched. That the
restart of a hold timer at a step shows when the lane stops executing is log 17. -/
def Obligations.StepEventTakes : Prop :=
  ∀ (s : State) (l : LaneId) (g : Segment) (rest : List Segment) (entries : List (AxisId × Int)) (i1 n left : Nat) (begun : Bool),
    s.power = .running → (s.lane l).state = .running → (s.lane l).queue = g :: rest → g.body = .move entries i1 n →
    (s.lane l).stepTimer = .counting left begun → allPass s l entries n → (s.lane l).stepCount + 1 < n →
    let v := s.lane l
    let k := v.stepCount + 1
    let next := ((g.firstInterval : Int) + (((i1 : Int) - g.firstInterval) * k).tdiv ((n : Int) - 1)).toNat
    ∃ t accumulators, exec (.stepEvent l) s = .next t ∧ LaneEvent s t ∧ ChoosesFrom s.link s.reports t ∧ t.sync = s.sync ∧
      StepsTaken l entries n s t ∧ AccumulatorsStep entries n v.accumulators accumulators ∧
      t.lanes = s.lanes.set l { v with
        accumulators := accumulators, stepCount := k, interval := next, stepTimer := .counting next true }

/-- A step event of which a due axis fails a check takes no effect and halts the lane (R35): LIMIT for the lowest axis that
fails its guard check, else WINDOW for the lowest that fails its window check; the same in STOPPING, before and within the
ramp. -/
def Obligations.StepEventFails : Prop :=
  ∀ (s : State) (l : LaneId) (g : Segment) (rest : List Segment) (entries : List (AxisId × Int)) (i1 n left : Nat) (begun : Bool)
    (a : AxisId) (cause : HaltCause),
    s.power = .running → LaneLaw s → (s.lane l).queue = g :: rest → g.body = .move entries i1 n →
    (s.lane l).stepTimer = .counting left begun →
    let bars := fun b => isDue (s.lane l) entries n b ∧ guardBars (s.axis b) (moveForward entries b)
    let leaves := fun b => isDue (s.lane l) entries n b ∧ windowBars (s.axis b) (moveForward entries b)
    ((cause = .limit ∧ bars a ∧ ∀ b, AxisId.code b < AxisId.code a → ¬bars b) ∨
      (cause = .window ∧ (∀ b, ¬bars b) ∧ leaves a ∧ ∀ b, AxisId.code b < AxisId.code a → ¬leaves b)) →
    let row := match (s.lane l).state, (s.lane l).ramp.bind (·.steps) with
      | .stopping, none => Instr.inProgressStepEvent l
      | .stopping, some _ => .stopRampStepEvent l
      | _, _ => .stepEvent l
    ∃ t, exec row s = .next t ∧ LaneEvent s t ∧ AxesKept s t ∧ HaltsLane l ⟨cause, some a⟩ s t ∧
      ChoosesFrom s.link (haltReports l ⟨cause, some a⟩ s s.reports) t

/-- The N-th step event of a RUNNING MOVE takes the steps of the due axes and completes it (R16 to R18, R34). Where the next head
makes a sync mismatch, the cut tag of this lane is log 6; that the restart of a hold timer at a step shows when the lane stops
executing is log 17. -/
def Obligations.MoveCompletes : Prop :=
  ∀ (s : State) (l : LaneId) (g : Segment) (rest : List Segment) (entries : List (AxisId × Int)) (i1 n left : Nat) (begun : Bool),
    s.power = .running → LaneLaw s → (s.lane l).state = .running → (s.lane l).queue = g :: rest → g.body = .move entries i1 n →
    (s.lane l).stepTimer = .counting left begun → allPass s l entries n → (s.lane l).stepCount + 1 = n →
    ∃ t, exec (.stepEvent l) s = .next t ∧ LaneEvent s t ∧ Completed l g rest none true s t ∧
      ∀ a, (isDue (s.lane l) entries n a →
          (t.axis a).unpowered = (oneStep s.patterns (moveForward entries a) (s.axis a)).unpowered) ∧
        (¬isDue (s.lane l) entries n a → (t.axis a).unpowered = (s.axis a).unpowered)

/-- The in-progress step event of a controlled stop and the step events of its ramp, where they take effect (R89 to R92): the
ramp goes on with the next stop-ramp interval, or the stop reaches its end state. That the restart of a hold timer at a step shows
when the lane stops executing is log 17. -/
def Obligations.StopStepsTake : Prop :=
  ∀ (s : State) (l : LaneId) (g : Segment) (entries : List (AxisId × Int)) (i1 n left : Nat) (begun : Bool) (r : StopRamp),
    s.power = .running → LaneLaw s → (s.lane l).state = .stopping → (s.lane l).queue = [g] → g.body = .move entries i1 n →
    (s.lane l).stepTimer = .counting left begun → (s.lane l).ramp = some r → allPass s l entries n →
    let v := s.lane l
    let k := v.stepCount + 1
    let goesOn := fun (t : State) (steps taken : Nat) =>
      ChoosesFrom s.link s.reports t ∧ t.sync = s.sync ∧ ∃ accumulators,
        AccumulatorsStep entries n v.accumulators accumulators ∧ t.lanes = s.lanes.set l { v with
          accumulators := accumulators, stepCount := k, ramp := some { r with steps := some steps, taken := taken }
          interval := stopIntervalOf r steps (taken + 1), stepTimer := .counting (stopIntervalOf r steps (taken + 1)) true }
    (r.steps = none → ∃ t, exec (.inProgressStepEvent l) s = .next t ∧ LaneEvent s t ∧ StepsTaken l entries n s t ∧
      (1 ≤ min r.distance (n - k) → goesOn t (min r.distance (n - k)) 0) ∧
      (min r.distance (n - k) = 0 → StopEnds l g r.endState (n - k) s t)) ∧
    (∀ steps, r.steps = some steps → ∃ t, exec (.stopRampStepEvent l) s = .next t ∧ LaneEvent s t ∧
      StepsTaken l entries n s t ∧
      (r.taken + 1 < steps → goesOn t steps (r.taken + 1)) ∧
      (steps ≤ r.taken + 1 → StopEnds l g r.endState (n - k) s t))

/-- The expiry of a dwell interval (R38): no axis steps; the next interval of I0 starts at once, or the DWELL completes. Where the
next head makes a sync mismatch, the cut tag of this lane is log 6. -/
def Obligations.DwellIntervalsRun : Prop :=
  ∀ (s : State) (l : LaneId) (g : Segment) (rest : List Segment) (n left : Nat) (begun : Bool),
    s.power = .running → LaneLaw s → (s.lane l).state = .running → (s.lane l).queue = g :: rest → g.body = .dwell n →
    (s.lane l).stepTimer = .counting left begun →
    let v := s.lane l
    ∃ t, exec (.dwellIntervalExpiry l) s = .next t ∧ LaneEvent s t ∧
      (2 ≤ v.dwellLeft → AxesKept s t ∧ ChoosesFrom s.link s.reports t ∧ t.sync = s.sync ∧ t.lanes = s.lanes.set l { v with
        dwellLeft := v.dwellLeft - 1, interval := g.firstInterval, stepTimer := .counting g.firstInterval true }) ∧
      (v.dwellLeft ≤ 1 → Completed l g rest none true s t ∧ ∀ a, (t.axis a).unpowered = (s.axis a).unpowered)

/-! ### Homing -/

/-- A homing step (R36, R108): away from home in LEAVE and toward it in SEEK, with the window check alone; the next interval of
I0 starts at once, and at the home limit limit reached becomes yes; the expiry of the interval after that halts the lane with
HOME-NOT-FOUND. That the restart of a hold timer at a step shows when the lane stops executing is log 17. -/
def Obligations.HomingStepsRun : Prop :=
  ∀ (s : State) (l : LaneId) (g : Segment) (rest : List Segment) (a : AxisId) (limit left : Nat) (preset : Int) (begun : Bool)
    (h : HomingRun),
    s.power = .running → LaneLaw s → (s.lane l).state = .running → (s.lane l).queue = g :: rest →
    g.body = .home a limit preset → (s.lane l).stepTimer = .counting left begun → (s.lane l).homing = some h →
    let v := s.lane l
    let forward := decide ((h.phase = .seek) ↔ ((s.axis a).homeDir = .forward))
    (h.limitReached = false → ¬windowBars (s.axis a) forward →
      ∃ t, exec (.homingStepEvent l) s = .next t ∧ LaneEvent s t ∧ ChoosesFrom s.link s.reports t ∧ t.sync = s.sync ∧
        t.axes = s.axes.set a (oneStep s.patterns forward (s.axis a)) ∧
        t.lanes = s.lanes.set l { v with
          stepCount := v.stepCount + 1, homing := some { h with limitReached := decide (limit ≤ v.stepCount + 1) }
          interval := g.firstInterval, stepTimer := .counting g.firstInterval true }) ∧
    (h.limitReached = false → windowBars (s.axis a) forward →
      ∃ t, exec (.homingStepEvent l) s = .next t ∧ LaneEvent s t ∧ AxesKept s t ∧ HaltsLane l ⟨.window, some a⟩ s t ∧
        ChoosesFrom s.link (haltReports l ⟨.window, some a⟩ s s.reports) t) ∧
    (h.limitReached = true →
      ∃ t, exec (.homeLimitIntervalExpiry l) s = .next t ∧ LaneEvent s t ∧ AxesKept s t ∧
        HaltsLane l ⟨.homeNotFound, some a⟩ s t ∧ ChoosesFrom s.link (haltReports l ⟨.homeNotFound, some a⟩ s s.reports) t)

/-- The filter of a home line (R104): a raw change starts the measure afresh, or loses it on a return; with a home filter of 0 it
becomes the filtered change in its own event; the filtered change takes the raw level, and a lane that runs no HOME of the axis
is not touched. That a return taken when the filter time is reached, and before the filtered change, still loses it is log 23. -/
def Obligations.HomeLineFiltered : Prop :=
  ∀ (s : State) (a : AxisId) (level : Level), s.power = .running →
    let x := s.axis a
    let measured := { s with axes := s.axes.set a { x with home := ⟨level, x.home.filtered, some 0⟩ } }
    (x.home.raw ≠ level → level = x.home.filtered →
      ∃ t, exec (.homeRawChange a level) s = .next t ∧
        Chooses { s with axes := s.axes.set a { x with home := ⟨level, level, none⟩ } } t) ∧
    (x.home.raw ≠ level → level ≠ x.home.filtered → x.homeFilter ≠ 0 →
      ∃ t, exec (.homeRawChange a level) s = .next t ∧ Chooses measured t) ∧
    (x.home.raw ≠ level → level ≠ x.home.filtered → x.homeFilter = 0 →
      exec (.homeRawChange a level) s = exec (.homeFilteredChange a) measured) ∧
    (x.home.measure ≠ none →
      (∀ l, x.owner = some l → (s.lane l).state ≠ .running ∧ (s.lane l).state ≠ .held ∨
        ∀ g ∈ (s.lane l).queue.head?, ∀ limit preset, g.body ≠ .home a limit preset) →
      ∃ t, exec (.homeFilteredChange a) s = .next t ∧
        Chooses { s with axes := s.axes.set a { x with home := ⟨x.home.raw, x.home.raw, none⟩ } } t)

/-- The home-line events of a homing run (R109 to R111): becoming inactive in LEAVE turns the phase to SEEK and cuts no interval;
becoming inactive in SEEK does nothing to the run; becoming active in SEEK is the detection, which sets the preset and completes
the HOME, or, with the preset outside the window, halts the lane with HOME-WINDOW. Where the next head makes a sync mismatch, the
cut tag of this lane is log 6. -/
def Obligations.HomeDetected : Prop :=
  ∀ (s : State) (l : LaneId) (g : Segment) (rest : List Segment) (a : AxisId) (limit : Nat) (preset : Int) (h : HomingRun),
    s.power = .running → LaneLaw s → ((s.lane l).state = .running ∨ (s.lane l).state = .held) → (s.lane l).queue = g :: rest →
    g.body = .home a limit preset → (s.lane l).homing = some h → (s.axis a).owner = some l → (s.axis a).home.measure ≠ none →
    let v := s.lane l
    let x := s.axis a
    let y := { x with home := ⟨x.home.raw, x.home.raw, none⟩ }
    let inside := x.windowMin ≤ preset ∧ preset ≤ x.windowMax
    ∃ t, exec (.homeFilteredChange a) s = .next t ∧ LaneEvent s t ∧
      (∀ b, b ≠ a → (t.axis b).unpowered = (s.axis b).unpowered) ∧
      (h.phase = .leave → x.home.raw ≠ x.homeLevel → t.axes = s.axes.set a y ∧ ChoosesFrom s.link s.reports t ∧
        t.lanes = s.lanes.set l { v with homing := some { h with phase := .seek } } ∧ t.sync = s.sync) ∧
      (h.phase = .seek → x.home.raw ≠ x.homeLevel → t.axes = s.axes.set a y ∧ ChoosesFrom s.link s.reports t ∧
        t.lanes = s.lanes ∧ t.sync = s.sync) ∧
      (h.phase = .seek → x.home.raw = x.homeLevel → inside →
        (t.axis a).unpowered = { y with position := preset }.unpowered ∧
        Completed l g rest (some ⟨v.stepCount, x.position⟩) s.onTick s t) ∧
      (h.phase = .seek → x.home.raw = x.homeLevel → ¬inside →
        (t.axis a).unpowered = y.unpowered ∧ HaltsLane l ⟨.homeWindow, some a⟩ s t ∧
        ChoosesFrom s.link (haltReports l ⟨.homeWindow, some a⟩ s s.reports) t)

/-! ### Timers -/

/-- The expiries of a waiting lane (R15, R51, R66, R79, R107): the settle timer's removes SETTLE, and the lane leaves WAITING if
that was the last condition, energising its axes for a MOVE or HOME and choosing the phase of a HOME by its home line; the sync
timeout's halts the lane, and the other lane is not touched. -/
def Obligations.WaitExpiriesAct : Prop :=
  ∀ (s : State) (l : LaneId), s.power = .running → LaneLaw s →
    let v := s.lane l
    (v.settleTimer ≠ none → (v.unmet.trigger ≠ none ∨ v.unmet.sync = true) →
      ∃ t, exec (.settleExpiry l) s = .next t ∧
        Chooses (s.setLane l { v with settleTimer := none, unmet := { v.unmet with settle := false } }) t) ∧
    (∀ g rest, v.settleTimer ≠ none → v.unmet.trigger = none → v.unmet.sync = false → v.queue = g :: rest →
      ∃ t, exec (.settleExpiry l) s = .next t ∧ LaneEvent s t ∧ ChoosesFrom s.link s.reports t ∧ t.sync = s.sync ∧
        (∀ a, (t.axis a).untimed =
          if g.kind ≠ .dwell ∧ (s.axis a).owner = some l then { (s.axis a).untimed with energised := true }
          else (s.axis a).untimed) ∧
        t.lanes = s.lanes.set l (v.leftWaiting g (runBegun s g) (s.holdAsserted l) s.onTick)) ∧
    (∀ number timer, s.sync.get l = some ⟨number, some timer⟩ →
      ∃ t, exec (.syncTimeoutExpiry l) s = .next t ∧ LaneEvent s t ∧ AxesKept s t ∧ HaltsLane l ⟨.syncTimeout, none⟩ s t ∧
        t.lane (otherLane l) = s.lane (otherLane l) ∧
        ChoosesFrom s.link (s.reports.hand (stoppedReport s l (some ⟨.syncTimeout, none⟩))) t)

/-- The four lines of an axis: all low while it is RELEASED; while ENERGISED the state at its phase index, by the values of section
3.2, or in PULSE mode the pulse in progress on line 1, the direction level on line 2, line 3 high and line 4 low (R46, R48). The
expiry of a hold timer releases its axis, all four lines low (R52, R54), and the end of a step pulse takes line 1 low (R48);
nothing else is touched. That the release ends a pulse in progress is log 16. -/
def Obligations.AxisTimersExpire : Prop :=
  ∀ (s : State) (a : AxisId), s.power = .running →
    ((s.axis a).energised = false → s.coilState a = 0) ∧
    ((s.axis a).energised = true →
      let shows := fun (states : List Nat) => ∀ v, states[(s.axis a).phase]? = some v → s.coilState a = v
      match (s.axis a).mode with
      | .wave => shows [8, 4, 2, 1]
      | .pair => shows [12, 6, 3, 9]
      | .half => shows [8, 12, 4, 6, 2, 3, 1, 9]
      | .table => shows s.patterns
      | .pulse => s.coilState a =
        (if (s.axis a).pulse ≠ none then 8 else 0) + (if (s.axis a).dirLevel = .high then 4 else 0) + 2) ∧
    (∀ n, (s.axis a).holdTimer = some n →
      let t := s.setAxis a { s.axis a with energised := false, holdTimer := none, pulse := none }
      exec (.holdTimerExpiry a) s = .next t ∧ t.coilState a = 0) ∧
    (∀ n, (s.axis a).pulse = some n →
      let t := s.setAxis a { s.axis a with pulse := none }
      exec (.pulseEnd a) s = .next t ∧
      ((s.axis a).energised = true → (s.axis a).mode = .pulse →
        t.coilState a = (if (s.axis a).dirLevel = .high then 4 else 0) + 2))

/-- A silence expiry (R99, R100, R152): each lane acts by its state, L0 before L1, and the timer stops. -/
def Obligations.SilenceActs : Prop :=
  ∀ (s : State) (n : Nat), s.power = .running → LaneLaw s → s.link.silenceTimer = some n →
    let ramped := fun l => (s.lane l).state = .running ∧ ∃ g ∈ (s.lane l).queue.head?, g.kind = .move
    let halted := fun l => (s.lane l).state ∈ [LaneState.ready, .waiting, .held] ∨ ((s.lane l).state = .running ∧ ¬ramped l)
    ∃ t, exec .silenceExpiry s = .next t ∧ SameElsewhere s t ∧ HoldTimersSettled s t ∧ AxesKept s t ∧
      (∀ l, (halted l → t.lane l = (s.lane l).ended (some ⟨.silence, none⟩) ∧ t.sync.get l = none) ∧
        (ramped l → t.lane l = { s.lane l with
          queue := (s.lane l).queue.take 1, state := .stopping
          ramp := some ⟨.haltedSilence, (s.lane l).settings.stopDistance, (s.lane l).settings.stopInterval, (s.lane l).interval,
            none, 0⟩ }) ∧
        (∀ r, (s.lane l).state = .stopping → (s.lane l).ramp = some r →
          t.lane l = { s.lane l with ramp := some { r with endState := .haltedSilence } }) ∧
        ((s.lane l).state = .idle ∨ (s.lane l).state = .halted → t.lane l = s.lane l)) ∧
      ∀ q0 q1, (halted .L0 → q0 = s.reports.hand (stoppedReport s .L0 (some ⟨.silence, none⟩))) →
        (¬halted .L0 → q0 = s.reports) → (halted .L1 → q1 = q0.hand (stoppedReport s .L1 (some ⟨.silence, none⟩))) →
        (¬halted .L1 → q1 = q0) → ChoosesFrom { s.link with silenceTimer := none } q1 t

/-! ### Trigger lines -/

/-- The filter of a trigger line and its capture (R118, R119, R126): a raw change starts the measure afresh, or loses it on a
return; with a filter time of 0 it becomes the filtered change in its own event; the filtered change takes the raw level and
makes a capture where the flag is ON and the edge is accepted, before any lane acts. The capture takes the next number; with fewer
than 8 records in the log its record of source line n is stored, and the first of them queues CAPTURE-READY; else it is dropped and
counted (R127, R128). A line with role OFF, or an edge not accepted by a START or HALT line, touches no lane. That a
return taken when the filter time is reached, and before the filtered change, still loses it is log 23. -/
def Obligations.TriggerLineFiltered : Prop :=
  ∀ (s : State) (n : TrgId) (level : Level), s.power = .running →
    let x := s.line n
    let measured := { s with lines := s.lines.set n { x with input := ⟨level, x.input.filtered, some 0⟩ } }
    (x.input.raw ≠ level → level = x.input.filtered →
      ∃ t, exec (.triggerRawChange n level) s = .next t ∧
        Chooses { s with lines := s.lines.set n { x with input := ⟨level, level, none⟩ } } t) ∧
    (x.input.raw ≠ level → level ≠ x.input.filtered → x.filterTime ≠ 0 →
      ∃ t, exec (.triggerRawChange n level) s = .next t ∧ Chooses measured t) ∧
    (x.input.raw ≠ level → level ≠ x.input.filtered → x.filterTime = 0 →
      exec (.triggerRawChange n level) s = exec (.triggerFilteredChange n) measured) ∧
    (x.input.measure ≠ none →
      let edge := if x.input.raw = .high then Edge.rise else .fall
      let accepted := x.edge = .both ∨ (x.edge = .rise ∧ edge = .rise) ∨ (x.edge = .fall ∧ edge = .fall)
      let u := { s with lines := s.lines.set n { x with input := ⟨x.input.raw, x.input.raw, none⟩ } }
      let captured := x.capture = true ∧ accepted
      let full := 8 ≤ s.captures.records.length
      let record : CaptureRecord :=
        { number := s.captures.next, source := .line n, edge := some edge, stamp := s.time.stamp, positions := positionsOf s
          tags := ⟨tagOffered (s.lane .L0), tagOffered (s.lane .L1)⟩, droppedBefore := s.captures.dropped }
      let dropped := { s.captures with next := s.captures.next + 1, dropped := s.captures.dropped + 1 }
      let stored : CaptureLog := ⟨s.captures.records ++ [record], s.captures.next + 1, 0⟩
      let ready := if s.captures.records = [] then s.reports.hand (.captureReady 1) else s.reports
      let untouched := x.role = .off ∨ ((x.role = .start ∨ x.role = .halt) ∧ ¬accepted)
      ∃ t, exec (.triggerFilteredChange n) s = .next t ∧ t.lines = u.lines ∧
        (∀ a, (t.axis a).position = (s.axis a).position) ∧
        (¬captured → t.captures = s.captures ∧ (untouched → Chooses u t)) ∧
        (captured → full → t.captures = dropped ∧ (untouched → Chooses { u with captures := dropped } t)) ∧
        (captured → ¬full → t.captures = stored ∧
          (untouched → Chooses { u with captures := stored, reports := ready } t)))

/-- What a change of the filtered level does by the role of its line (R51, R67, R72, R78, R82, R107): an accepted edge of a START
line meets the TRIGGER condition of each lane that waits on it; that of a HALT line halts the lanes of its mask, of two lanes L0
first and neither breaking the other's wait, and none where the mask names none; a HOLD line acts by its level on both lanes. Its
capture, if it makes one, comes before that, and nothing else is touched. -/
def Obligations.TriggerRolesAct : Prop :=
  ∀ (s : State) (n : TrgId), s.power = .running → LaneLaw s → (s.line n).input.measure ≠ none →
    let x := s.line n
    let edge := if x.input.raw = .high then Edge.rise else .fall
    let passed := s.setLine n { x with input := ⟨x.input.raw, x.input.raw, none⟩ }
    let captured := x.capture = true ∧ x.edgeAccepted = true
    let log := if captured then logAfter (.line n) (some edge) s else s.captures
    let q := if captured then reportsAfterCapture s else s.reports
    ∃ t, exec (.triggerFilteredChange n) s = .next t ∧ SameElsewhere { passed with captures := log } t ∧ HoldTimersSettled s t ∧
      LineActs n x passed.holdAsserted s t ∧ ChoosesFrom s.link (lineReports x s q) t

/-- With no command waiting, an event that stands due comes before any time passes; with none due, one that is free to come may
come, or half a microsecond passes; with neither, it passes (log 3; which of several comes is log 4). What stands due in a running
part is `StandsDue`, and no other row; free to come is the executor's take of the earliest PENDING request while no restart waits
(R147, R155). Of the device resets only one begun by RESTART ends of itself, with RSTN high: free to within 100 µs, due then, and so
within 100 µs (R188). -/
def Obligations.DueEventsComeFirst : Prop :=
  ∀ s : State,
    (s.pending = [] → dueRows s = [] → freeRows s = [] → step s = .next (advance s)) ∧
    (s.pending = [] → dueRows s = [] → freeRows s ≠ [] → ∃ count, step s = .next (advance { s with freeCount := count }) ∨
      ∃ i ∈ freeRows s, step s = exec i { s with freeCount := count }) ∧
    (s.pending = [] → dueRows s ≠ [] →
      ∃ i ∈ dueRows s ++ freeRows s, ∃ count, step s = exec i { s with freeCount := count }) ∧
    (s.power = .running → (∀ i, i ∈ dueRows s ↔ StandsDue s i) ∧
      (LinkLaw s.link → ∀ i, i ∈ freeRows s ↔ s.restartWait = false ∧ ∃ j o r, s.link.slot j = .pending o r ∧
        (∀ o' r', s.link.slot (otherSlot j) = .pending o' r' → o < o') ∧ i = requestRow r.kind)) ∧
    ∀ cause elapsed, s.power = .inReset cause elapsed →
      let ofItself := cause = .request ∧ s.pins.rstn = .high
      let ends := Instr.deviceResetEnd s.pins.rate1 s.pins.rate0
      (∀ i, i ∈ dueRows s ↔ ofItself ∧ 200 ≤ elapsed ∧ i = ends) ∧
      (∀ i, i ∈ freeRows s ↔ ofItself ∧ elapsed < 200 ∧ i = ends) ∧
      (ofItself → elapsed ≤ 200 → s.pending = [] →
        ∃ k t, k ≤ 201 - elapsed ∧ Sys2Proof.core.run k s = .next t ∧ t.power = .running)

/-- In the half microseconds that pass (log 3) the timers run as the rules give: an interval that begins at a tick boundary lasts
its full count of ticks, one that an event elsewhere started begins at the next boundary (R25 to R27); each of the five timers
that count millisecond marks, started with `ms` milliseconds, expires no earlier than that and less than 1 ms after it (R124); the
stamp clock counts microseconds (R123). -/
def Obligations.TimersRunOut : Prop :=
  ∀ (s : State) (l : LaneId) (a : AxisId), s.power = .running →
    let later := fun k => Nat.repeat advance k s
    let tick := 2 ^ s.time.exponent
    (∀ n, (s.lane l).stepTimer = .counting n true → s.time.tickPhase = 0 →
      ∀ k, ((later k).lane l).stepTimer = .counting (n - k / tick) true) ∧
    (∀ n, (s.lane l).stepTimer = .counting n false → 0 < s.time.tickPhase → s.time.tickPhase < tick →
      ∀ k, ((later k).lane l).stepTimer =
        if k < tick - s.time.tickPhase then .counting n false else .counting (n - (k - (tick - s.time.tickPhase)) / tick) true) ∧
    (let expires := fun (row : Instr) (timer : MsTimer) => ∀ ms, timer = some (s.msFor ms) → s.time.msPhase < 2000 →
      ∀ k, (row ∈ dueRows (later k) → 2000 * ms ≤ k) ∧ (2000 * ms + 1999 ≤ k → row ∈ dueRows (later k))
    expires (.settleExpiry l) (s.lane l).settleTimer ∧ expires (.holdTimerExpiry a) (s.axis a).holdTimer ∧
      expires (.syncTimeoutExpiry l) ((s.sync.get l).bind (·.timer)) ∧ expires .silenceExpiry s.link.silenceTimer ∧
      expires .resendTimerExpiry s.reports.resendTimer) ∧
    ∀ k, (later (2 * k)).time.stamp = s.time.stamp + BitVec.ofNat 32 k

/-- The measures in half microseconds (log 3): a filter passes a level at 4 µs a unit (R104, R118), a gap expires at 5000 µs
(R141), a break is there at 10,000 µs (R137) and a pulse ends at 1 µs (R48). TXD shows each byte of a frame as a start bit, eight
data bits from the least significant and a stop bit, each lasting one bit time of the link rate, and the frame ends with the last
(R133, R151); after a break it shows the bit in progress to its end, and then rests high (R138). That this bit ends at the rate it
was begun at is the model's choice (log 12). -/
def Obligations.MeasuresRunOut : Prop :=
  ∀ s : State, s.power = .running →
    let later := fun k => Nat.repeat advance k s
    let bitsASecond := fun (rate : LinkRate) => match rate with
      | .r19200 => 19200
      | .r57600 => 57600
      | .r115200 => 115200
      | .r230400 => 230400
      | .r460800 => 460800
      | .r921600 => 921600
    (∀ n, (s.line n).input.measure = some 0 → ∀ k, .triggerFilteredChange n ∈ dueRows (later k) ↔ 8 * (s.line n).filterTime ≤ k) ∧
    (∀ a, (s.axis a).home.measure = some 0 → ∀ k, .homeFilteredChange a ∈ dueRows (later k) ↔ 8 * (s.axis a).homeFilter ≤ k) ∧
    (s.link.gap = some 0 → ∀ k, .gapExpiry ∈ dueRows (later k) ↔ 10000 ≤ k) ∧
    (s.link.breakMeasure = some 0 → ∀ k, .linkBreak ∈ dueRows (later k) ↔ 20000 ≤ k) ∧
    (∀ a, (s.axis a).pulse = some 2 → ∀ k, .pulseEnd a ∈ dueRows (later k) ↔ 2 ≤ k) ∧
    (∀ source f, s.link.tx = .sending source f (f.length * 10 * 2000000) → s.link.lastBit = none →
      (∀ k, .frameSent ∈ dueRows (later k) ↔ f.length * 10 * 2000000 ≤ k * bitsASecond s.link.rate) ∧
      ∀ k i j b, f[i]? = some b → j < 10 → (10 * i + j) * 2000000 ≤ k * bitsASecond s.link.rate →
        k * bitsASecond s.link.rate < (10 * i + j + 1) * 2000000 →
        (later k).txd = (if j = 0 then .low else if j = 9 then .high else if b.getLsbD (j - 1) then .high else .low)) ∧
    ∀ b, s.link.lastBit = some b → 1 ≤ b.left → s.link.tx = .idle →
      ∀ k, (later k).txd = if k * bitsASecond b.rate < b.left then b.level else .high

/-! ### Laws -/

/-- The accumulator of an axis with a count that is not 0 makes it due floor((floor(N/2) + k·|count|) / N) times in the first `k`
step events, which is |count| times in N of them (R30 to R32). -/
def Obligations.StepsSpreadExactly : Prop :=
  ∀ (n k : Nat) (count : Int), 1 ≤ n → count ≠ 0 → count.natAbs ≤ n →
    let event := fun (p : Nat × Option Nat) => (p.1 + (accumulate n count p.2).1.toNat, (accumulate n count p.2).2)
    let taken := fun k => (Nat.repeat event k (0, some (n / 2))).1
    taken k = (n / 2 + k * count.natAbs) / n ∧ taken n = count.natAbs ∧
      (Nat.repeat event k (0, some (n / 2))).2 = accumulatorAfter n k count

/-- Every law of Safety.lean holds right after reset. -/
def Obligations.ResetMeetsLaws : Prop :=
  AxisLaw State.reset ∧ HoldTimerLaw State.reset ∧ LaneLaw State.reset ∧ OwnershipLaw State.reset ∧ ProgressLaw State.reset ∧
    ReportLaw State.reset.reports ∧ CaptureLaw State.reset.captures ∧ LinkLaw State.reset.link

/-- Every step keeps the law of the axes, whose positions stay in their windows, whose FREE axes stay RELEASED and whose phase
indices stay in their patterns (R45, R46, R50, R55), and the law that a hold timer runs exactly under its three conditions
(R53). -/
def Obligations.AxisLawsKept : Prop :=
  ∀ (s t : State), step s = .next t → (AxisLaw s → AxisLaw t) ∧ (HoldTimerLaw s → HoldTimerLaw t)

/-- Every step keeps the law of the lanes and the sync unit (R2, R3, R9, R20, R26, R65, R72, R74, R85, R106). -/
def Obligations.LaneLawKept : Prop := ∀ (s t : State), step s = .next t → LaneLaw s → LaneLaw t

/-- Every step keeps the laws that each queued segment is complete and names axes of its own lane, and that the progress of the
active segment, and of a stop ramp, agrees with its step-event count (R4, R7, R29 to R32, R38, R89, R106). -/
def Obligations.SegmentLawsKept : Prop :=
  ∀ (s t : State), step s = .next t → LaneLaw s → OwnershipLaw s ∧ ProgressLaw s → OwnershipLaw t ∧ ProgressLaw t

/-- Every step keeps the laws of the report queue, the capture log and the link (R125, R127, R138, R145, R148, R174, R176), and
stores a capture record by the account of R127: its number follows that of the record stored before it, whether or not that has
been removed, and equals its own dropped count for the first since a reset. -/
def Obligations.QueueLawsKept : Prop :=
  ∀ (s t : State), step s = .next t → (ReportLaw s.reports → ReportLaw t.reports) ∧
    (CaptureLaw s.captures → CaptureLaw t.captures) ∧ (LinkLaw s.link → LinkLaw t.link) ∧
    ∀ m, CapturesContinue m s.captures t.captures

end
end

