-- ==== Sys2Proof/Laws/State.lean ====
section
/-! SUPPORT. The small lemmas of State and its families: what each accessor reads after each update. -/

namespace Sys2Proof.Machine

open Sys2Proof

/-! ### Families -/

@[simp] theorem PerLane.get_set_self (p : PerLane α) (i : LaneId) (v : α) : (p.set i v).get i = v := by cases i <;> rfl

theorem PerLane.get_set (p : PerLane α) (i j : LaneId) (v : α) : (p.set i v).get j = if j = i then v else p.get j := by
  cases i <;> cases j <;> rfl

@[simp] theorem PerLane.get_set_of_ne (p : PerLane α) {i j : LaneId} (v : α) (h : j ≠ i) : (p.set i v).get j = p.get j := by
  rw [PerLane.get_set, if_neg h]

@[simp] theorem PerLane.set_get (p : PerLane α) (i : LaneId) : p.set i (p.get i) = p := by cases i <;> rfl

@[simp] theorem PerLane.set_set (p : PerLane α) (i : LaneId) (v w : α) : (p.set i v).set i w = p.set i w := by cases i <;> rfl

@[simp] theorem PerLane.get_mapWith (f : LaneId → α → β) (p : PerLane α) (i : LaneId) : (p.mapWith f).get i = f i (p.get i) := by
  cases i <;> rfl

theorem PerLane.eq_of_get {p q : PerLane α} (h : ∀ i, p.get i = q.get i) : p = q := by
  cases p; cases q; simp only [PerLane.mk.injEq]; exact ⟨h .L0, h .L1⟩

@[simp] theorem PerAxis.get_set_self (p : PerAxis α) (i : AxisId) (v : α) : (p.set i v).get i = v := by cases i <;> rfl

theorem PerAxis.get_set (p : PerAxis α) (i j : AxisId) (v : α) : (p.set i v).get j = if j = i then v else p.get j := by
  cases i <;> cases j <;> rfl

@[simp] theorem PerAxis.get_set_of_ne (p : PerAxis α) {i j : AxisId} (v : α) (h : j ≠ i) : (p.set i v).get j = p.get j := by
  rw [PerAxis.get_set, if_neg h]

@[simp] theorem PerAxis.set_get (p : PerAxis α) (i : AxisId) : p.set i (p.get i) = p := by cases i <;> rfl

@[simp] theorem PerAxis.set_set (p : PerAxis α) (i : AxisId) (v w : α) : (p.set i v).set i w = p.set i w := by cases i <;> rfl

@[simp] theorem PerAxis.get_mapWith (f : AxisId → α → β) (p : PerAxis α) (i : AxisId) : (p.mapWith f).get i = f i (p.get i) := by
  cases i <;> rfl

theorem PerAxis.eq_of_get {p q : PerAxis α} (h : ∀ i, p.get i = q.get i) : p = q := by
  cases p; cases q; simp only [PerAxis.mk.injEq]; exact ⟨h .A, h .B, h .C, h .D⟩

@[simp] theorem PerTrg.get_set_self (p : PerTrg α) (i : TrgId) (v : α) : (p.set i v).get i = v := by cases i <;> rfl

theorem PerTrg.get_set (p : PerTrg α) (i j : TrgId) (v : α) : (p.set i v).get j = if j = i then v else p.get j := by
  cases i <;> cases j <;> rfl

@[simp] theorem PerTrg.get_set_of_ne (p : PerTrg α) {i j : TrgId} (v : α) (h : j ≠ i) : (p.set i v).get j = p.get j := by
  rw [PerTrg.get_set, if_neg h]

@[simp] theorem PerTrg.set_get (p : PerTrg α) (i : TrgId) : p.set i (p.get i) = p := by cases i <;> rfl

@[simp] theorem PerTrg.set_set (p : PerTrg α) (i : TrgId) (v w : α) : (p.set i v).set i w = p.set i w := by cases i <;> rfl

@[simp] theorem PerTrg.get_mapWith (f : TrgId → α → β) (p : PerTrg α) (i : TrgId) : (p.mapWith f).get i = f i (p.get i) := by
  cases i <;> rfl

theorem PerTrg.eq_of_get {p q : PerTrg α} (h : ∀ i, p.get i = q.get i) : p = q := by
  cases p; cases q; simp only [PerTrg.mk.injEq]; exact ⟨h .T0, h .T1, h .T2, h .T3⟩

@[simp] theorem otherLane_ne (l : LaneId) : otherLane l ≠ l := by cases l <;> decide

@[simp] theorem ne_otherLane (l : LaneId) : l ≠ otherLane l := by cases l <;> decide

@[simp] theorem otherLane_otherLane (l : LaneId) : otherLane (otherLane l) = l := by cases l <;> rfl

theorem eq_or_eq_otherLane (l l' : LaneId) : l' = l ∨ l' = otherLane l := by cases l <;> cases l' <;> decide

@[simp] theorem mem_allAxes (a : AxisId) : a ∈ allAxes := by cases a <;> decide

@[simp] theorem mem_allTrgs (n : TrgId) : n ∈ allTrgs := by cases n <;> decide

/-! ### One lane, axis, line or entry after an update of one -/

@[simp] theorem State.lane_setLane_self (s : State) (l : LaneId) (v : Lane) : (s.setLane l v).lane l = v :=
  PerLane.get_set_self ..

theorem State.lane_setLane (s : State) (l l' : LaneId) (v : Lane) :
    (s.setLane l v).lane l' = if l' = l then v else s.lane l' := PerLane.get_set ..

@[simp] theorem State.lane_setLane_of_ne (s : State) {l l' : LaneId} (v : Lane) (h : l' ≠ l) :
    (s.setLane l v).lane l' = s.lane l' := PerLane.get_set_of_ne _ _ h

@[simp] theorem State.axis_setAxis_self (s : State) (a : AxisId) (x : Axis) : (s.setAxis a x).axis a = x :=
  PerAxis.get_set_self ..

theorem State.axis_setAxis (s : State) (a b : AxisId) (x : Axis) :
    (s.setAxis a x).axis b = if b = a then x else s.axis b := PerAxis.get_set ..

@[simp] theorem State.axis_setAxis_of_ne (s : State) {a b : AxisId} (x : Axis) (h : b ≠ a) :
    (s.setAxis a x).axis b = s.axis b := PerAxis.get_set_of_ne _ _ h

@[simp] theorem State.line_setLine_self (s : State) (n : TrgId) (t : TrgLine) : (s.setLine n t).line n = t :=
  PerTrg.get_set_self ..

theorem State.line_setLine (s : State) (n m : TrgId) (t : TrgLine) :
    (s.setLine n t).line m = if m = n then t else s.line m := PerTrg.get_set ..

@[simp] theorem State.setLane_lane (s : State) (l : LaneId) : s.setLane l (s.lane l) = s := by
  simp [State.setLane, State.lane]

@[simp] theorem State.setLane_setLane (s : State) (l : LaneId) (v w : Lane) :
    (s.setLane l v).setLane l w = s.setLane l w := by simp [State.setLane]

/-! ### What `setLane` leaves -/

@[simp] theorem State.setLane_power (s : State) (l : LaneId) (v : Lane) : (s.setLane l v).power = s.power := rfl
@[simp] theorem State.setLane_pins (s : State) (l : LaneId) (v : Lane) : (s.setLane l v).pins = s.pins := rfl
@[simp] theorem State.setLane_sync (s : State) (l : LaneId) (v : Lane) : (s.setLane l v).sync = s.sync := rfl
@[simp] theorem State.setLane_axes (s : State) (l : LaneId) (v : Lane) : (s.setLane l v).axes = s.axes := rfl
@[simp] theorem State.setLane_lines (s : State) (l : LaneId) (v : Lane) : (s.setLane l v).lines = s.lines := rfl
@[simp] theorem State.setLane_time (s : State) (l : LaneId) (v : Lane) : (s.setLane l v).time = s.time := rfl
@[simp] theorem State.setLane_captures (s : State) (l : LaneId) (v : Lane) : (s.setLane l v).captures = s.captures := rfl
@[simp] theorem State.setLane_reports (s : State) (l : LaneId) (v : Lane) : (s.setLane l v).reports = s.reports := rfl
@[simp] theorem State.setLane_patterns (s : State) (l : LaneId) (v : Lane) : (s.setLane l v).patterns = s.patterns := rfl
@[simp] theorem State.setLane_link (s : State) (l : LaneId) (v : Lane) : (s.setLane l v).link = s.link := rfl
@[simp] theorem State.setLane_restartWait (s : State) (l : LaneId) (v : Lane) : (s.setLane l v).restartWait = s.restartWait := rfl
@[simp] theorem State.setLane_freeCount (s : State) (l : LaneId) (v : Lane) : (s.setLane l v).freeCount = s.freeCount := rfl
@[simp] theorem State.setLane_pending (s : State) (l : LaneId) (v : Lane) : (s.setLane l v).pending = s.pending := rfl
@[simp] theorem State.setLane_axis (s : State) (l : LaneId) (v : Lane) (b : AxisId) : (s.setLane l v).axis b = s.axis b := rfl
@[simp] theorem State.setLane_line (s : State) (l : LaneId) (v : Lane) (m : TrgId) : (s.setLane l v).line m = s.line m := rfl
@[simp] theorem State.setLane_running (s : State) (l : LaneId) (v : Lane) : (s.setLane l v).running = s.running := rfl

/-! ### What `setAxis` leaves -/

@[simp] theorem State.setAxis_power (s : State) (a : AxisId) (x : Axis) : (s.setAxis a x).power = s.power := rfl
@[simp] theorem State.setAxis_pins (s : State) (a : AxisId) (x : Axis) : (s.setAxis a x).pins = s.pins := rfl
@[simp] theorem State.setAxis_lanes (s : State) (a : AxisId) (x : Axis) : (s.setAxis a x).lanes = s.lanes := rfl
@[simp] theorem State.setAxis_sync (s : State) (a : AxisId) (x : Axis) : (s.setAxis a x).sync = s.sync := rfl
@[simp] theorem State.setAxis_lines (s : State) (a : AxisId) (x : Axis) : (s.setAxis a x).lines = s.lines := rfl
@[simp] theorem State.setAxis_time (s : State) (a : AxisId) (x : Axis) : (s.setAxis a x).time = s.time := rfl
@[simp] theorem State.setAxis_captures (s : State) (a : AxisId) (x : Axis) : (s.setAxis a x).captures = s.captures := rfl
@[simp] theorem State.setAxis_reports (s : State) (a : AxisId) (x : Axis) : (s.setAxis a x).reports = s.reports := rfl
@[simp] theorem State.setAxis_patterns (s : State) (a : AxisId) (x : Axis) : (s.setAxis a x).patterns = s.patterns := rfl
@[simp] theorem State.setAxis_link (s : State) (a : AxisId) (x : Axis) : (s.setAxis a x).link = s.link := rfl
@[simp] theorem State.setAxis_restartWait (s : State) (a : AxisId) (x : Axis) : (s.setAxis a x).restartWait = s.restartWait := rfl
@[simp] theorem State.setAxis_freeCount (s : State) (a : AxisId) (x : Axis) : (s.setAxis a x).freeCount = s.freeCount := rfl
@[simp] theorem State.setAxis_pending (s : State) (a : AxisId) (x : Axis) : (s.setAxis a x).pending = s.pending := rfl
@[simp] theorem State.setAxis_lane (s : State) (a : AxisId) (x : Axis) (l' : LaneId) : (s.setAxis a x).lane l' = s.lane l' := rfl
@[simp] theorem State.setAxis_line (s : State) (a : AxisId) (x : Axis) (m : TrgId) : (s.setAxis a x).line m = s.line m := rfl
@[simp] theorem State.setAxis_running (s : State) (a : AxisId) (x : Axis) : (s.setAxis a x).running = s.running := rfl

/-! ### What `setLine` leaves -/

@[simp] theorem State.setLine_power (s : State) (n : TrgId) (t : TrgLine) : (s.setLine n t).power = s.power := rfl
@[simp] theorem State.setLine_pins (s : State) (n : TrgId) (t : TrgLine) : (s.setLine n t).pins = s.pins := rfl
@[simp] theorem State.setLine_lanes (s : State) (n : TrgId) (t : TrgLine) : (s.setLine n t).lanes = s.lanes := rfl
@[simp] theorem State.setLine_sync (s : State) (n : TrgId) (t : TrgLine) : (s.setLine n t).sync = s.sync := rfl
@[simp] theorem State.setLine_axes (s : State) (n : TrgId) (t : TrgLine) : (s.setLine n t).axes = s.axes := rfl
@[simp] theorem State.setLine_time (s : State) (n : TrgId) (t : TrgLine) : (s.setLine n t).time = s.time := rfl
@[simp] theorem State.setLine_captures (s : State) (n : TrgId) (t : TrgLine) : (s.setLine n t).captures = s.captures := rfl
@[simp] theorem State.setLine_reports (s : State) (n : TrgId) (t : TrgLine) : (s.setLine n t).reports = s.reports := rfl
@[simp] theorem State.setLine_patterns (s : State) (n : TrgId) (t : TrgLine) : (s.setLine n t).patterns = s.patterns := rfl
@[simp] theorem State.setLine_link (s : State) (n : TrgId) (t : TrgLine) : (s.setLine n t).link = s.link := rfl
@[simp] theorem State.setLine_restartWait (s : State) (n : TrgId) (t : TrgLine) : (s.setLine n t).restartWait = s.restartWait := rfl
@[simp] theorem State.setLine_freeCount (s : State) (n : TrgId) (t : TrgLine) : (s.setLine n t).freeCount = s.freeCount := rfl
@[simp] theorem State.setLine_pending (s : State) (n : TrgId) (t : TrgLine) : (s.setLine n t).pending = s.pending := rfl
@[simp] theorem State.setLine_lane (s : State) (n : TrgId) (t : TrgLine) (l' : LaneId) : (s.setLine n t).lane l' = s.lane l' := rfl
@[simp] theorem State.setLine_axis (s : State) (n : TrgId) (t : TrgLine) (b : AxisId) : (s.setLine n t).axis b = s.axis b := rfl
@[simp] theorem State.setLine_running (s : State) (n : TrgId) (t : TrgLine) : (s.setLine n t).running = s.running := rfl

/-! ### What `setSync` leaves -/

@[simp] theorem State.setSync_power (s : State) (l : LaneId) (e : Option SyncEntry) : (s.setSync l e).power = s.power := rfl
@[simp] theorem State.setSync_pins (s : State) (l : LaneId) (e : Option SyncEntry) : (s.setSync l e).pins = s.pins := rfl
@[simp] theorem State.setSync_lanes (s : State) (l : LaneId) (e : Option SyncEntry) : (s.setSync l e).lanes = s.lanes := rfl
@[simp] theorem State.setSync_axes (s : State) (l : LaneId) (e : Option SyncEntry) : (s.setSync l e).axes = s.axes := rfl
@[simp] theorem State.setSync_lines (s : State) (l : LaneId) (e : Option SyncEntry) : (s.setSync l e).lines = s.lines := rfl
@[simp] theorem State.setSync_time (s : State) (l : LaneId) (e : Option SyncEntry) : (s.setSync l e).time = s.time := rfl
@[simp] theorem State.setSync_captures (s : State) (l : LaneId) (e : Option SyncEntry) : (s.setSync l e).captures = s.captures := rfl
@[simp] theorem State.setSync_reports (s : State) (l : LaneId) (e : Option SyncEntry) : (s.setSync l e).reports = s.reports := rfl
@[simp] theorem State.setSync_patterns (s : State) (l : LaneId) (e : Option SyncEntry) : (s.setSync l e).patterns = s.patterns := rfl
@[simp] theorem State.setSync_link (s : State) (l : LaneId) (e : Option SyncEntry) : (s.setSync l e).link = s.link := rfl
@[simp] theorem State.setSync_restartWait (s : State) (l : LaneId) (e : Option SyncEntry) : (s.setSync l e).restartWait = s.restartWait := rfl
@[simp] theorem State.setSync_freeCount (s : State) (l : LaneId) (e : Option SyncEntry) : (s.setSync l e).freeCount = s.freeCount := rfl
@[simp] theorem State.setSync_pending (s : State) (l : LaneId) (e : Option SyncEntry) : (s.setSync l e).pending = s.pending := rfl
@[simp] theorem State.setSync_lane (s : State) (l : LaneId) (e : Option SyncEntry) (l' : LaneId) : (s.setSync l e).lane l' = s.lane l' := rfl
@[simp] theorem State.setSync_axis (s : State) (l : LaneId) (e : Option SyncEntry) (b : AxisId) : (s.setSync l e).axis b = s.axis b := rfl
@[simp] theorem State.setSync_line (s : State) (l : LaneId) (e : Option SyncEntry) (m : TrgId) : (s.setSync l e).line m = s.line m := rfl
@[simp] theorem State.setSync_running (s : State) (l : LaneId) (e : Option SyncEntry) : (s.setSync l e).running = s.running := rfl

/-! ### What `enqueue` leaves -/

@[simp] theorem enqueue_power (b : ReportBody) (s : State) : (enqueue b s).power = s.power := rfl
@[simp] theorem enqueue_pins (b : ReportBody) (s : State) : (enqueue b s).pins = s.pins := rfl
@[simp] theorem enqueue_lanes (b : ReportBody) (s : State) : (enqueue b s).lanes = s.lanes := rfl
@[simp] theorem enqueue_sync (b : ReportBody) (s : State) : (enqueue b s).sync = s.sync := rfl
@[simp] theorem enqueue_axes (b : ReportBody) (s : State) : (enqueue b s).axes = s.axes := rfl
@[simp] theorem enqueue_lines (b : ReportBody) (s : State) : (enqueue b s).lines = s.lines := rfl
@[simp] theorem enqueue_time (b : ReportBody) (s : State) : (enqueue b s).time = s.time := rfl
@[simp] theorem enqueue_captures (b : ReportBody) (s : State) : (enqueue b s).captures = s.captures := rfl
@[simp] theorem enqueue_reports (b : ReportBody) (s : State) : (enqueue b s).reports = s.reports.hand b := rfl
@[simp] theorem enqueue_patterns (b : ReportBody) (s : State) : (enqueue b s).patterns = s.patterns := rfl
@[simp] theorem enqueue_link (b : ReportBody) (s : State) : (enqueue b s).link = s.link := rfl
@[simp] theorem enqueue_restartWait (b : ReportBody) (s : State) : (enqueue b s).restartWait = s.restartWait := rfl
@[simp] theorem enqueue_freeCount (b : ReportBody) (s : State) : (enqueue b s).freeCount = s.freeCount := rfl
@[simp] theorem enqueue_pending (b : ReportBody) (s : State) : (enqueue b s).pending = s.pending := rfl
@[simp] theorem enqueue_lane (b : ReportBody) (s : State) (l' : LaneId) : (enqueue b s).lane l' = s.lane l' := rfl
@[simp] theorem enqueue_axis (r : ReportBody) (s : State) (b : AxisId) : (enqueue r s).axis b = s.axis b := rfl
@[simp] theorem enqueue_line (b : ReportBody) (s : State) (m : TrgId) : (enqueue b s).line m = s.line m := rfl
@[simp] theorem enqueue_running (b : ReportBody) (s : State) : (enqueue b s).running = s.running := rfl

/-! ### Lanes -/

@[simp] theorem Lane.cleared_queue (v : Lane) : v.cleared.queue = v.queue := rfl
@[simp] theorem Lane.cleared_state (v : Lane) : v.cleared.state = v.state := rfl
@[simp] theorem Lane.cleared_started (v : Lane) : v.cleared.started = v.started := rfl
@[simp] theorem Lane.cleared_softHold (v : Lane) : v.cleared.softHold = v.softHold := rfl
@[simp] theorem Lane.cleared_settings (v : Lane) : v.cleared.settings = v.settings := rfl
@[simp] theorem Lane.cleared_halt (v : Lane) : v.cleared.halt = v.halt := rfl
@[simp] theorem Lane.flushed_queue (v : Lane) : v.flushed.queue = [] := rfl
@[simp] theorem Lane.flushed_softHold (v : Lane) : v.flushed.softHold = v.softHold := rfl
@[simp] theorem Lane.flushed_settings (v : Lane) : v.flushed.settings = v.settings := rfl

/-! ### Axes -/

@[simp] theorem Axis.released_owner (x : Axis) : x.released.owner = x.owner := rfl
@[simp] theorem Axis.released_position (x : Axis) : x.released.position = x.position := rfl
@[simp] theorem Axis.released_phase (x : Axis) : x.released.phase = x.phase := rfl
@[simp] theorem Axis.released_energised (x : Axis) : x.released.energised = false := rfl
@[simp] theorem Axis.released_holdTimer (x : Axis) : x.released.holdTimer = none := rfl

@[simp] theorem Axis.takeStep_owner (p : List Nat) (fwd : Bool) (x : Axis) : (x.takeStep p fwd).owner = x.owner := by
  unfold Axis.takeStep; split <;> rfl
@[simp] theorem Axis.takeStep_mode (p : List Nat) (fwd : Bool) (x : Axis) : (x.takeStep p fwd).mode = x.mode := by
  unfold Axis.takeStep; split <;> rfl
@[simp] theorem Axis.takeStep_sense (p : List Nat) (fwd : Bool) (x : Axis) : (x.takeStep p fwd).sense = x.sense := by
  unfold Axis.takeStep; split <;> rfl
@[simp] theorem Axis.takeStep_windowMin (p : List Nat) (fwd : Bool) (x : Axis) : (x.takeStep p fwd).windowMin = x.windowMin := by
  unfold Axis.takeStep; split <;> rfl
@[simp] theorem Axis.takeStep_windowMax (p : List Nat) (fwd : Bool) (x : Axis) : (x.takeStep p fwd).windowMax = x.windowMax := by
  unfold Axis.takeStep; split <;> rfl
@[simp] theorem Axis.takeStep_energised (p : List Nat) (fwd : Bool) (x : Axis) : (x.takeStep p fwd).energised = x.energised := by
  unfold Axis.takeStep; split <;> rfl
@[simp] theorem Axis.takeStep_holdTime (p : List Nat) (fwd : Bool) (x : Axis) : (x.takeStep p fwd).holdTime = x.holdTime := by
  unfold Axis.takeStep; split <;> rfl
@[simp] theorem Axis.takeStep_homeLevel (p : List Nat) (fwd : Bool) (x : Axis) : (x.takeStep p fwd).homeLevel = x.homeLevel := by
  unfold Axis.takeStep; split <;> rfl
@[simp] theorem Axis.takeStep_homeDir (p : List Nat) (fwd : Bool) (x : Axis) : (x.takeStep p fwd).homeDir = x.homeDir := by
  unfold Axis.takeStep; split <;> rfl
@[simp] theorem Axis.takeStep_guard (p : List Nat) (fwd : Bool) (x : Axis) : (x.takeStep p fwd).guard = x.guard := by
  unfold Axis.takeStep; split <;> rfl
@[simp] theorem Axis.takeStep_homeFilter (p : List Nat) (fwd : Bool) (x : Axis) : (x.takeStep p fwd).homeFilter = x.homeFilter := by
  unfold Axis.takeStep; split <;> rfl
@[simp] theorem Axis.takeStep_holdTimer (p : List Nat) (fwd : Bool) (x : Axis) : (x.takeStep p fwd).holdTimer = x.holdTimer := by
  unfold Axis.takeStep; split <;> rfl
@[simp] theorem Axis.takeStep_home (p : List Nat) (fwd : Bool) (x : Axis) : (x.takeStep p fwd).home = x.home := by
  unfold Axis.takeStep; split <;> rfl
@[simp] theorem Axis.takeStep_position (p : List Nat) (fwd : Bool) (x : Axis) : (x.takeStep p fwd).position = x.stepped fwd := by
  unfold Axis.takeStep; split <;> rfl

end Sys2Proof.Machine
end

