-- ==== Sys2Proof/Laws/Ops.lean ====
section
/-! SUPPORT. What the shared operations below the lanes do, said once: the report queue, the capture log and the hold
timers. -/

namespace Sys2Proof.Machine

open Sys2Proof

/-! ### The report queue -/

theorem ReportBody.places_le (b : ReportBody) : b.places ≤ 16 := by
  unfold ReportBody.places; split <;> decide

/-- With a place free for it, the report joins the tail with the next number and the lost count (R176). -/
theorem ReportQueue.hand_list_of_lt (q : ReportQueue) (b : ReportBody) (h : q.list.length < b.places) :
    (q.hand b).list = q.list ++ [⟨q.next, q.lost, b⟩] ∧ (q.hand b).next = q.next + 1 ∧ (q.hand b).lost = 0 := by
  unfold ReportQueue.hand
  simp only [h, if_true]
  split <;> simp

/-- With no place free for it, the report is counted as lost, and nothing else of the queue changes (R176). -/
theorem ReportQueue.hand_of_ge (q : ReportQueue) (b : ReportBody) (h : b.places ≤ q.list.length) :
    q.hand b = { q with lost := min (q.lost + 1) 255 } := by
  unfold ReportQueue.hand
  rw [if_neg (by omega)]

/-- A queue with reports in it keeps its delivery state when a report is handed to it (R176). -/
theorem ReportQueue.hand_delivery (q : ReportQueue) (b : ReportBody) (h : q.list ≠ []) :
    (q.hand b).head = q.head ∧ (q.hand b).retries = q.retries ∧ (q.hand b).resendTimer = q.resendTimer ∧
      (q.hand b).suspended = q.suspended := by
  unfold ReportQueue.hand
  have : q.list.isEmpty = false := by simpa using h
  simp only [this]
  split <;> simp

@[simp] theorem ReportQueue.hand_mode (q : ReportQueue) (b : ReportBody) : (q.hand b).mode = q.mode := by
  unfold ReportQueue.hand; dsimp only; repeat' split
  all_goals rfl

@[simp] theorem ReportQueue.hand_resendPeriod (q : ReportQueue) (b : ReportBody) :
    (q.hand b).resendPeriod = q.resendPeriod := by
  unfold ReportQueue.hand; dsimp only; repeat' split
  all_goals rfl

@[simp] theorem ReportQueue.hand_resendLimit (q : ReportQueue) (b : ReportBody) :
    (q.hand b).resendLimit = q.resendLimit := by
  unfold ReportQueue.hand; dsimp only; repeat' split
  all_goals rfl

theorem numbersBefore_length (next : Byte) (n : Nat) : (numbersBefore next n).length = n := by
  induction n with
  | zero => rfl
  | succ n ih => simp [numbersBefore, ih]

/-- One more number behind a consecutive run. -/
theorem numbersBefore_snoc (next : Byte) (n : Nat) :
    numbersBefore (next + 1) (n + 1) = numbersBefore next n ++ [next] := by
  induction n with
  | zero =>
    have : next + 1 - BitVec.ofNat 8 (0 + 1) = next := by bv_omega
    rw [numbersBefore, numbersBefore, numbersBefore, this]; rfl
  | succ n ih =>
    have e : next + 1 - BitVec.ofNat 8 (n + 1 + 1) = next - BitVec.ofNat 8 (n + 1) := by
      have : BitVec.ofNat 8 (n + 1 + 1) = BitVec.ofNat 8 (n + 1) + 1 := by
        apply BitVec.eq_of_toNat_eq; simp [BitVec.toNat_add]
      rw [this]; bv_omega
    rw [numbersBefore, e, ih, numbersBefore]; rfl

theorem numbersBefore_tail (next : Byte) (n : Nat) : (numbersBefore next n).tail = numbersBefore next (n - 1) := by
  cases n <;> rfl

/-- The report law survives a report handed over (R176). -/
theorem ReportLaw.hand {q : ReportQueue} (h : ReportLaw q) (b : ReportBody) : ReportLaw (q.hand b) := by
  by_cases hp : q.list.length < b.places
  · obtain ⟨hl, hn, h0⟩ := q.hand_list_of_lt b hp
    refine ⟨?_, ?_, ?_, by omega, by simpa using h.limit, ?_⟩
    · have := b.places_le; simp [hl]; omega
    · rw [hl, List.filter_append, List.length_append]
      have := h.ordinary
      by_cases hv : b.vital
      · simp [hv]; exact this
      · have : (q.list.filter fun r => !r.body.vital).length ≤ q.list.length := List.length_filter_le ..
        simp [ReportBody.places, hv, Config.ordinaryDepth] at hp
        simp [hv]; omega
    · rw [hl, hn, List.length_append, List.map_append, h.numbers]
      exact (numbersBefore_snoc ..).symm
    · by_cases he : q.list = []
      · unfold ReportQueue.hand; simp [he]
        simp [he] at hp; simp [hp]
      · rw [(q.hand_delivery b he).2.1]; exact h.retries
  · rw [q.hand_of_ge b (by omega)]
    exact ⟨h.depth, h.ordinary, h.numbers, Nat.min_le_right .., h.limit, h.retries⟩

/-- The report law survives the removal of the head (R180). -/
theorem ReportLaw.removeHead {q : ReportQueue} (h : ReportLaw q) : ReportLaw q.removeHead := by
  refine ⟨?_, ?_, ?_, h.lost, h.limit, by simp [ReportQueue.removeHead]⟩
  · have := h.depth; simp [ReportQueue.removeHead]; omega
  · have := h.ordinary
    cases hq : q.list with
    | nil => simp [ReportQueue.removeHead, hq]
    | cons r rest =>
      rw [hq, List.filter_cons] at this
      simp only [ReportQueue.removeHead, hq, List.tail_cons]
      split at this
      · simp only [List.length_cons] at this; omega
      · exact this
  · have := h.numbers
    simp only [ReportQueue.removeHead, List.map_tail, this, List.length_tail, numbersBefore_tail]

/-! ### The capture log -/

/-- With a place free, the record joins the log; a record stored into an empty log queues CAPTURE-READY (R127, R128). -/
theorem makeCapture_of_not_full (source : CaptureSource) (edge : Option Edge) (s : State) (h : s.captures.full = false) :
    (makeCapture source edge s).captures =
      { records := s.captures.records ++ [captureRecord source edge s], next := s.captures.next + 1, dropped := 0 } := by
  unfold makeCapture
  simp only [h, Bool.false_eq_true, if_false]
  split <;> rfl

/-- With no place free, the capture takes its number and is counted as dropped, and nothing else changes (R127). -/
theorem makeCapture_of_full (source : CaptureSource) (edge : Option Edge) (s : State) (h : s.captures.full = true) :
    makeCapture source edge s =
      { s with captures := { s.captures with next := s.captures.next + 1, dropped := s.captures.dropped + 1 } } := by
  simp [makeCapture, h]

theorem Lane.activeTag_eq (v : Lane) : v.activeTag = tagOffered v := by
  unfold Lane.activeTag Lane.active tagOffered
  cases v.queue <;> cases v.state <;> rfl

/-- All that a capture does: the log and the report queue after it (R126 to R128). -/
theorem makeCapture_spec (source : CaptureSource) (edge : Option Edge) (s : State) :
    (makeCapture source edge s).captures = logAfter source edge s ∧
      (makeCapture source edge s).reports = reportsAfterCapture s := by
  by_cases h : s.captures.records.length < 8
  · have hf : s.captures.full = false := decide_eq_false (by unfold Config.captureDepth; omega)
    refine ⟨?_, ?_⟩
    · rw [makeCapture_of_not_full _ _ _ hf, logAfter, captureRecord, State.lane, State.lane, ← Lane.activeTag_eq,
        ← Lane.activeTag_eq, if_pos h]
      rfl
    · unfold makeCapture reportsAfterCapture
      by_cases h0 : s.captures.records = [] <;> simp [hf, h0, enqueue]
  · have hf : s.captures.full = true := decide_eq_true (by unfold Config.captureDepth; omega)
    have h0 : s.captures.records ≠ [] := fun k => h (by simp [k])
    simp [makeCapture_of_full _ _ _ hf, logAfter, reportsAfterCapture, h, h0]

/-- A capture changes the log and the report queue alone. -/
theorem makeCapture_frame (source : CaptureSource) (edge : Option Edge) (s : State) :
    makeCapture source edge s =
      { s with captures := (makeCapture source edge s).captures, reports := (makeCapture source edge s).reports } := by
  unfold makeCapture; dsimp only; repeat' split
  all_goals rfl

theorem makeCapture_lane (source : CaptureSource) (edge : Option Edge) (s : State) (l : LaneId) :
    (makeCapture source edge s).lane l = s.lane l := by rw [makeCapture_frame]; rfl

theorem makeCapture_axis (source : CaptureSource) (edge : Option Edge) (s : State) (a : AxisId) :
    (makeCapture source edge s).axis a = s.axis a := by rw [makeCapture_frame]; rfl

theorem makeCapture_line (source : CaptureSource) (edge : Option Edge) (s : State) (n : TrgId) :
    (makeCapture source edge s).line n = s.line n := by rw [makeCapture_frame]; rfl

theorem makeCapture_reports (source : CaptureSource) (edge : Option Edge) (s : State) :
    (makeCapture source edge s).reports = s.reports ∨ (makeCapture source edge s).reports = s.reports.hand (.captureReady 1) := by
  unfold makeCapture; dsimp only; repeat' split
  · exact .inl rfl
  · exact .inr rfl
  · exact .inl rfl

/-- A record put behind the last one, whose dropped count is the pending one (R126, R127). -/
theorem numbersFollow_snoc {next dropped : Word16} {records : List CaptureRecord} (h : numbersFollow next dropped records)
    (c : CaptureRecord) (hn : c.number = next) (hd : c.droppedBefore = dropped) :
    numbersFollow (next + 1) 0 (records ++ [c]) := by
  induction records with
  | nil => simp [numbersFollow, hn]
  | cons r rest ih =>
    cases rest with
    | nil =>
      refine ⟨?_, ?_⟩
      · rw [hn, hd]; exact h
      · simp [numbersFollow, hn]
    | cons r' rest => exact ⟨h.1, ih h.2⟩

/-- A discarded capture takes a number and raises the dropped count (R127). -/
theorem numbersFollow_drop {next dropped : Word16} {records : List CaptureRecord} (h : numbersFollow next dropped records) :
    numbersFollow (next + 1) (dropped + 1) records := by
  induction records with
  | nil => trivial
  | cons r rest ih =>
    cases rest with
    | nil => simp only [numbersFollow] at h ⊢; rw [h]; bv_omega
    | cons r' rest => exact ⟨h.1, ih h.2⟩

theorem numbersFollow_tail {next dropped : Word16} {records : List CaptureRecord} (h : numbersFollow next dropped records) :
    numbersFollow next dropped records.tail := by
  match records with
  | [] => trivial
  | [_] => trivial
  | _ :: _ :: _ => exact h.2

theorem CaptureLaw.makeCapture {s : State} (h : CaptureLaw s.captures) (source : CaptureSource) (edge : Option Edge) :
    CaptureLaw (makeCapture source edge s).captures := by
  cases hf : s.captures.full with
  | true =>
    rw [makeCapture_of_full _ _ _ hf]
    exact ⟨h.depth, numbersFollow_drop h.numbers⟩
  | false =>
    rw [makeCapture_of_not_full _ _ _ hf]
    refine ⟨?_, numbersFollow_snoc h.numbers _ rfl rfl⟩
    have : s.captures.records.length < 8 := Nat.not_le.mp (of_decide_eq_false hf)
    rw [List.length_append]; exact this

/-! ### Hold timers (R53) -/

/-- Whether a hold timer runs depends on its axis and on whether each lane executes. -/
theorem holdRuns_congr {s t : State} (a : AxisId) (ha : (s.axis a).energised = (t.axis a).energised)
    (hh : (s.axis a).holdTime = (t.axis a).holdTime) (ho : (s.axis a).owner = (t.axis a).owner)
    (hl : ∀ l, (s.lane l).executing = (t.lane l).executing) : s.holdRuns a = t.holdRuns a := by
  simp only [State.holdRuns, State.ownerExecutes, ha, hh, ho]
  cases (t.axis a).owner <;> simp [hl]

theorem settleHoldTimers_axis (before after : State) (a : AxisId) :
    (settleHoldTimers before after).axis a =
      match before.holdRuns a, after.holdRuns a with
      | false, true => { after.axis a with holdTimer := after.holdStart (after.axis a) }
      | true, false => { after.axis a with holdTimer := none }
      | _, _ => after.axis a := by
  cases a <;> rfl

/-- Where the three conditions of every axis stand as before the event, no hold timer starts or stops with it. -/
theorem settleHoldTimers_of_holdRuns_eq {before after : State} (h : ∀ a, before.holdRuns a = after.holdRuns a) :
    settleHoldTimers before after = after := by
  have : (settleHoldTimers before after).axes = after.axes := by
    apply PerAxis.eq_of_get
    intro a
    have := settleHoldTimers_axis before after a
    rw [h a] at this
    change (settleHoldTimers before after).axis a = after.axis a
    rw [this]; cases after.holdRuns a <;> rfl
  calc settleHoldTimers before after = { after with axes := (settleHoldTimers before after).axes } := rfl
    _ = after := by rw [this]

@[simp] theorem settleHoldTimers_self (s : State) : settleHoldTimers s s = s :=
  settleHoldTimers_of_holdRuns_eq fun _ => rfl

/-- The hold timers settle with nothing else of an axis changed. -/
theorem settleHoldTimers_axis_eq (before after : State) (a : AxisId) :
    (settleHoldTimers before after).axis a =
      { after.axis a with holdTimer := ((settleHoldTimers before after).axis a).holdTimer } := by
  rw [settleHoldTimers_axis]; split <;> rfl

@[simp] theorem settleHoldTimers_power (b t : State) : (settleHoldTimers b t).power = t.power := rfl
@[simp] theorem settleHoldTimers_pins (b t : State) : (settleHoldTimers b t).pins = t.pins := rfl
@[simp] theorem settleHoldTimers_lanes (b t : State) : (settleHoldTimers b t).lanes = t.lanes := rfl
@[simp] theorem settleHoldTimers_sync (b t : State) : (settleHoldTimers b t).sync = t.sync := rfl
@[simp] theorem settleHoldTimers_lines (b t : State) : (settleHoldTimers b t).lines = t.lines := rfl
@[simp] theorem settleHoldTimers_time (b t : State) : (settleHoldTimers b t).time = t.time := rfl
@[simp] theorem settleHoldTimers_captures (b t : State) : (settleHoldTimers b t).captures = t.captures := rfl
@[simp] theorem settleHoldTimers_reports (b t : State) : (settleHoldTimers b t).reports = t.reports := rfl
@[simp] theorem settleHoldTimers_patterns (b t : State) : (settleHoldTimers b t).patterns = t.patterns := rfl
@[simp] theorem settleHoldTimers_link (b t : State) : (settleHoldTimers b t).link = t.link := rfl
@[simp] theorem settleHoldTimers_restartWait (b t : State) : (settleHoldTimers b t).restartWait = t.restartWait := rfl
@[simp] theorem settleHoldTimers_freeCount (b t : State) : (settleHoldTimers b t).freeCount = t.freeCount := rfl
@[simp] theorem settleHoldTimers_pending (b t : State) : (settleHoldTimers b t).pending = t.pending := rfl
@[simp] theorem settleHoldTimers_lane (b t : State) (l : LaneId) : (settleHoldTimers b t).lane l = t.lane l := rfl

/-- The hold timers settle with nothing else of the part changed. -/
theorem settleHoldTimers_frame (before after : State) :
    settleHoldTimers before after = { after with axes := (settleHoldTimers before after).axes } := rfl

/-- After the event the timers run exactly where their conditions hold, if they did before it and the event itself touched
the timer of no axis whose conditions it left as they were (R53). -/
theorem HoldTimerLaw.settle {before after : State}
    (hkeep : ∀ a, before.holdRuns a = after.holdRuns a → (after.axis a).holdTimer.isSome = after.holdRuns a) :
    HoldTimerLaw (settleHoldTimers before after) := by
  intro a
  have hr : (settleHoldTimers before after).holdRuns a = after.holdRuns a := by
    apply holdRuns_congr
    · rw [settleHoldTimers_axis_eq]
    · rw [settleHoldTimers_axis_eq]
    · rw [settleHoldTimers_axis_eq]
    · intro l; rfl
  rw [hr, settleHoldTimers_axis]
  cases hb : before.holdRuns a <;> cases ha : after.holdRuns a
  · simpa [ha] using hkeep a (by rw [hb, ha])
  · rfl
  · rfl
  · simpa [ha] using hkeep a (by rw [hb, ha])

end Sys2Proof.Machine
end

