-- ==== Sys2Proof/Laws/Frames.lean ====
section
/-! SUPPORT. What the shared operations of the link do, said once: the executor's event as a whole, and the transmitter's
choice. -/

namespace Sys2Proof.Machine

open Sys2Proof

/-! ### Slots -/

@[simp] theorem Link.slot_setSlot_self (k : Link) (i : SlotId) (v : Slot) : (k.setSlot i v).slot i = v := by cases i <;> rfl

@[simp] theorem Link.slot_setSlot_other (k : Link) (i : SlotId) (v : Slot) :
    (k.setSlot i v).slot (otherSlot i) = k.slot (otherSlot i) := by cases i <;> rfl

theorem Link.setSlot_frame (k : Link) (i : SlotId) (v : Slot) :
    k.setSlot i v = { k with slot0 := (k.setSlot i v).slot0, slot1 := (k.setSlot i v).slot1 } := by cases i <;> rfl

@[simp] theorem Link.setSlot_tx (k : Link) (i : SlotId) (v : Slot) : (k.setSlot i v).tx = k.tx := by cases i <;> rfl
@[simp] theorem Link.setSlot_cache (k : Link) (i : SlotId) (v : Slot) : (k.setSlot i v).cache = k.cache := by cases i <;> rfl
@[simp] theorem Link.setSlot_breakHold (k : Link) (i : SlotId) (v : Slot) : (k.setSlot i v).breakHold = k.breakHold := by
  cases i <;> rfl
@[simp] theorem Link.setSlot_nextOrder (k : Link) (i : SlotId) (v : Slot) : (k.setSlot i v).nextOrder = k.nextOrder := by
  cases i <;> rfl
@[simp] theorem Link.setSlot_receiver (k : Link) (i : SlotId) (v : Slot) : (k.setSlot i v).receiver = k.receiver := by
  cases i <;> rfl
@[simp] theorem Link.setSlot_gap (k : Link) (i : SlotId) (v : Slot) : (k.setSlot i v).gap = k.gap := by cases i <;> rfl
@[simp] theorem Link.setSlot_rate (k : Link) (i : SlotId) (v : Slot) : (k.setSlot i v).rate = k.rate := by cases i <;> rfl
@[simp] theorem Link.setSlot_lastBit (k : Link) (i : SlotId) (v : Slot) : (k.setSlot i v).lastBit = k.lastBit := by
  cases i <;> rfl

/-- What a break leaves of a frame is the bit that TXD shows, for one bit time at most (R138). -/
theorem Link.bitInProgress_spec {s : State} {b : LastBit} (h : s.link.bitInProgress = some b) :
    b.level = s.txd ∧ (s.link.lastBit = some b ∨ s.link.lastBit = none ∧ b.rate = s.link.rate ∧ 1 ≤ b.left ∧ b.left ≤ bitWeight) := by
  unfold Link.bitInProgress at h
  unfold State.txd
  split at h
  · rename_i h0; cases h; rw [h0]; exact ⟨rfl, .inl rfl⟩
  · rename_i h0 h1; cases h; rw [h0, h1]
    exact ⟨rfl, .inr ⟨rfl, rfl, Nat.le_add_left .., Nat.mod_lt _ (by decide)⟩⟩
  · cases h

/-- A link with an ANSWERING slot has a frame for the transmitter (R150). -/
theorem Link.nextAnswer_isSome {k : Link} {i : SlotId} {o : Nat} {f : List Byte} {a : AfterReply}
    (h : k.slot i = .answering o f a) : k.nextAnswer.isSome = true := by
  have h0 : k.slot .S0 = k.slot0 := rfl
  have h1 : k.slot .S1 = k.slot1 := rfl
  unfold Link.nextAnswer
  cases i <;> cases e0 : k.slot0 <;> cases e1 : k.slot1 <;> simp_all [Slot.answeringOrder, earlier]
  all_goals
    rename_i o1 _ _ o2 _ _
    by_cases ho : o2 < o1
    · simp_all
    · rw [if_neg ho]; simp_all

/-- The slot the transmitter sends next is ANSWERING with that frame. -/
theorem Link.slot_of_nextAnswer {k : Link} {i : SlotId} {f : List Byte} (h : k.nextAnswer = some (i, f)) :
    ∃ o a, k.slot i = .answering o f a := by
  unfold Link.nextAnswer at h
  split at h
  · rename_i j _
    split at h
    · rename_i hs
      simp only [Option.some.injEq, Prod.mk.injEq] at h
      obtain ⟨rfl, rfl⟩ := h
      exact ⟨_, _, hs⟩
    · exact absurd h (by simp)
  · exact absurd h (by simp)

/-- The slot the executor takes next is PENDING with that request. -/
theorem Link.slot_of_nextRequest {k : Link} {i : SlotId} {o : Nat} {r : Request} (h : k.nextRequest = some (i, o, r)) :
    k.slot i = .pending o r := by
  unfold Link.nextRequest at h
  split at h
  · split at h
    · rename_i hs
      simp only [Option.some.injEq, Prod.mk.injEq] at h
      obtain ⟨rfl, rfl, rfl⟩ := h
      exact hs
    · exact absurd h (by simp)
  · exact absurd h (by simp)

/-! ### The transmitter's choice -/

/-- With a slot ANSWERING, the choice of the transmitter is a reply or NAK, and touches the link alone (R150). -/
theorem beginFrame_of_answering {s : State} {i : SlotId} {o : Nat} {f : List Byte} {a : AfterReply}
    (hr : s.power = .running) (h : s.link.slot i = .answering o f a) :
    beginFrame s = { s with link := { s.link with tx := txAfterAnswer s.link s.link.tx } } := by
  obtain ⟨⟨j, g⟩, hj⟩ := Option.isSome_iff_exists.mp (Link.nextAnswer_isSome h)
  have hrun : s.running = true := by simp [State.running, hr]
  have keep : txAfterAnswer s.link s.link.tx = s.link.tx →
      s = { s with link := { s.link with tx := txAfterAnswer s.link s.link.tx } } := fun e => by rw [e]
  unfold beginFrame
  rw [hrun, hj]
  cases ht : s.link.tx with
  | idle =>
    rw [ht] at keep
    cases hb : s.link.breakHold
    · simp [txAfterAnswer, hb, hj, frameSpan]
    · simpa [hb] using keep (by simp [txAfterAnswer, hb])
  | sending source frame left =>
    rw [ht] at keep
    simpa using keep rfl

/-- What the choice of the transmitter leaves: everything but the frame on TXD and the head state of the report queue
(R150). -/
theorem beginFrame_frame (s : State) :
    beginFrame s = { s with
      link := { s.link with tx := (beginFrame s).link.tx }, reports := { s.reports with head := (beginFrame s).reports.head } } := by
  unfold beginFrame
  repeat' split
  all_goals rfl

@[simp] theorem beginFrame_power (s : State) : (beginFrame s).power = s.power := by rw [beginFrame_frame]
@[simp] theorem beginFrame_pins (s : State) : (beginFrame s).pins = s.pins := by rw [beginFrame_frame]
@[simp] theorem beginFrame_lanes (s : State) : (beginFrame s).lanes = s.lanes := by rw [beginFrame_frame]
@[simp] theorem beginFrame_sync (s : State) : (beginFrame s).sync = s.sync := by rw [beginFrame_frame]
@[simp] theorem beginFrame_axes (s : State) : (beginFrame s).axes = s.axes := by rw [beginFrame_frame]
@[simp] theorem beginFrame_lines (s : State) : (beginFrame s).lines = s.lines := by rw [beginFrame_frame]
@[simp] theorem beginFrame_time (s : State) : (beginFrame s).time = s.time := by rw [beginFrame_frame]
@[simp] theorem beginFrame_captures (s : State) : (beginFrame s).captures = s.captures := by rw [beginFrame_frame]
@[simp] theorem beginFrame_patterns (s : State) : (beginFrame s).patterns = s.patterns := by rw [beginFrame_frame]
@[simp] theorem beginFrame_restartWait (s : State) : (beginFrame s).restartWait = s.restartWait := by rw [beginFrame_frame]
@[simp] theorem beginFrame_freeCount (s : State) : (beginFrame s).freeCount = s.freeCount := by rw [beginFrame_frame]
@[simp] theorem beginFrame_pending (s : State) : (beginFrame s).pending = s.pending := by rw [beginFrame_frame]
@[simp] theorem beginFrame_lane (s : State) (l : LaneId) : (beginFrame s).lane l = s.lane l := by rw [beginFrame_frame]; rfl
@[simp] theorem beginFrame_axis (s : State) (a : AxisId) : (beginFrame s).axis a = s.axis a := by rw [beginFrame_frame]; rfl

/-- The slot that came first is the next the transmitter sends (R150). -/
theorem nextAnswer_first {k : Link} {i o f a} (h : k.slot i = .answering o f a) (hm : ∀ o' f' a', k.slot (otherSlot i) =
    .answering o' f' a' → o < o') :
   k.nextAnswer = some (i, f) := by
  have h0 : k.slot .S0 = k.slot0 := rfl
  have h1 : k.slot .S1 = k.slot1 := rfl
  unfold Link.nextAnswer
  cases i <;> cases e0 : k.slot0 <;> cases e1 : k.slot1 <;> simp_all [Slot.answeringOrder, earlier, otherSlot]
  · rw [if_neg (by omega)]; simp [h]

/-- With no slot ANSWERING there is no reply to send (R150). -/
theorem nextAnswer_none {k : Link} (h : ∀ i o f a, k.slot i ≠ .answering o f a) : k.nextAnswer = none := by
  cases e : k.nextAnswer with
  | none => rfl
  | some p => obtain ⟨o, a, he⟩ := Link.slot_of_nextAnswer (i := p.1) (f := p.2) e; exact absurd he (h _ _ _ _)

/-- The choice of an idle transmitter (R139, R150, R178). -/
theorem beginFrame_chooses {s : State} (hr : s.power = .running) : Chooses s (beginFrame s) := by
  have hrun : s.running = true := by simp [State.running, hr]
  refine ⟨beginFrame_frame s, ?_, ?_, ?_, ?_⟩
  · rintro (h | h)
    · simp [beginFrame, h]
    · simp [beginFrame, h]
  · intro i o f a h1 h2 h3 h4
    simp [beginFrame, hrun, h1, h2, nextAnswer_first h3 h4, frameSpan]
  · intro r rest h1 h2 h3 h4 h5 h6 h7
    have : s.reports.asks = true := by simp [ReportQueue.asks, h4, h5, h7, h6]
    simp [beginFrame, hrun, h1, h2, nextAnswer_none h3, this, h7, frameSpan]
  · intro h3 h
    have : s.reports.asks = false := by
      rcases h with h | h | h | h | h <;> simp [ReportQueue.asks, h]
    simp [beginFrame, nextAnswer_none h3, this]

/-! ### The executor's event -/

theorem cachedReply_eq_none {cache : List CacheEntry} {r : Request} (h : ∀ e ∈ cache, ¬(e.seq = r.seq ∧ e.check = r.check)) :
    cachedReply cache r = none := by
  simp only [cachedReply, Option.map_eq_none_iff, List.find?_eq_none]
  intro e he
  simpa using h e he

theorem storeReply_eq (cache : List CacheEntry) (e : CacheEntry) :
    storeReply cache e = (if cache.length < 2 then cache else cache.tail) ++ [e] := by
  unfold storeReply Config.cacheDepth; split <;> rfl

theorem replyFrame_eq (r : Request) (p : Reply) : replyFrame r.seq r.kind p.payload = replyOf r p.status.code p.data := by
  simp [replyFrame, frame, replyOf, Reply.payload, put8, put16, syncByte, Nat.add_comm]

/-- The executor's event where the request is not in the cache: the effects, the hold timers that start and stop with them,
and the reply (R147, R149, R150, R156). -/
theorem takeRequest_execute {row : Instr} {s : State} {i : SlotId} {o : Nat} {r : Request} (h : Executes row s i o r)
    (f : Byte → Byte → List Byte → List Byte) (m : Meaning) (hp : (m r s).1.power = .running) :
    takeRequest row f m s = { settleHoldTimers s (m r s).1 with
      link := linkAnswered (m r s).1.link i o r (f r.seq r.kind (m r s).2.payload) (m r s).2.after } := by
  have hrun : (s.running && !s.restartWait) = true := by simp [State.running, h.running, h.noRestart]
  unfold takeRequest
  rw [hrun, h.next]
  simp only [h.kind, if_true, cachedReply_eq_none h.miss]
  change beginFrame (answer i o r (f r.seq r.kind (m r s).2.payload) (m r s).2.after (settleHoldTimers s (m r s).1)) = _
  rw [beginFrame_of_answering
    (s := answer i o r (f r.seq r.kind (m r s).2.payload) (m r s).2.after (settleHoldTimers s (m r s).1)) (i := i) (o := o)
    (f := f r.seq r.kind (m r s).2.payload) (a := (m r s).2.after) hp (by cases i <;> rfl)]
  simp only [answer, linkAnswered, storeReply_eq, Link.setSlot_tx, settleHoldTimers_link]

/-- The executor's event of a request of known KIND, as a whole. -/
theorem execRequest_execute {row : Instr} {s : State} {i : SlotId} {o : Nat} {r : Request} (h : Executes row s i o r)
    (m : Meaning) (hp : (m r s).1.power = .running) :
    execRequest row m s = .next { settleHoldTimers s (m r s).1 with
      link := linkAnswered (m r s).1.link i o r (replyOf r (m r s).2.status.code (m r s).2.data) (m r s).2.after } := by
  rw [execRequest, takeRequest_execute h replyFrame m hp, replyFrame_eq]

/-- The same for a request that changes no lane or axis, so that no hold timer starts or stops. -/
theorem execRequest_execute_still {row : Instr} {s s1 : State} {i : SlotId} {o : Nat} {r : Request} {p : Reply}
    (h : Executes row s i o r) (m : Meaning) (hm : m r s = (s1, p)) (hp : s1.power = s.power) (hl : s1.lanes = s.lanes)
    (ha : s1.axes = s.axes) :
    execRequest row m s = .next { s1 with link := linkAnswered s1.link i o r (replyOf r p.status.code p.data) p.after } := by
  rw [execRequest_execute h m (by rw [hm, hp]; exact h.running), hm]
  rw [settleHoldTimers_of_holdRuns_eq]
  intro a
  apply holdRuns_congr <;> simp [State.axis, State.lane, hl, ha]

end Sys2Proof.Machine
end

