-- ==== Sys2Proof/Laws/Lanes.lean ====
section
/-! SUPPORT. What the shared operations of the lanes do, said once: the ends of a lane's work, the holds, activation,
completion, the step of a MOVE, and the event that each of them belongs to. -/

namespace Sys2Proof.Machine

open Sys2Proof

/-! ### What a lane operation leaves -/

/-- Nothing differs outside the lanes, the sync unit, the axes and the report queue, and no hold timer has been touched. -/
structure LaneFrame (s t : State) : Prop extends SameElsewhere s t where
  link : t.link = s.link
  timers : ∀ a, (t.axis a).holdTimer = (s.axis a).holdTimer

theorem SameElsewhere.refl (s : State) : SameElsewhere s s := ⟨rfl, rfl, rfl, rfl, rfl, rfl, rfl, rfl, rfl⟩

theorem SameElsewhere.trans {s t u : State} (h : SameElsewhere s t) (k : SameElsewhere t u) : SameElsewhere s u :=
  ⟨k.power.trans h.power, k.pins.trans h.pins, k.lines.trans h.lines, k.time.trans h.time, k.captures.trans h.captures,
    k.patterns.trans h.patterns, k.restartWait.trans h.restartWait, k.freeCount.trans h.freeCount, k.pending.trans h.pending⟩

theorem LaneFrame.refl (s : State) : LaneFrame s s := ⟨.refl s, rfl, fun _ => rfl⟩

theorem LaneFrame.trans {s t u : State} (h : LaneFrame s t) (k : LaneFrame t u) : LaneFrame s u :=
  ⟨h.toSameElsewhere.trans k.toSameElsewhere, k.link.trans h.link, fun a => (k.timers a).trans (h.timers a)⟩

/-- A state that is written as such an update of another. -/
theorem LaneFrame.of_eq {s t : State} (lanes : PerLane Lane) (sync : PerLane (Option SyncEntry)) (axes : PerAxis Axis)
    (reports : ReportQueue) (h : t = { s with lanes := lanes, sync := sync, axes := axes, reports := reports })
    (ha : ∀ a, (axes.get a).holdTimer = (s.axis a).holdTimer) : LaneFrame s t := by
  subst h; exact ⟨⟨rfl, rfl, rfl, rfl, rfl, rfl, rfl, rfl, rfl⟩, rfl, ha⟩

theorem LaneFrame.setLane (s : State) (l : LaneId) (v : Lane) : LaneFrame s (s.setLane l v) :=
  .of_eq _ _ _ _ rfl fun _ => rfl

theorem LaneFrame.setSync (s : State) (l : LaneId) (e : Option SyncEntry) : LaneFrame s (s.setSync l e) :=
  .of_eq _ _ _ _ rfl fun _ => rfl

theorem LaneFrame.enqueue (b : ReportBody) (s : State) : LaneFrame s (enqueue b s) :=
  .of_eq _ _ _ _ rfl fun _ => rfl

/-- The hold of a lane reads its soft hold and the lines alone. -/
theorem holdAsserted_congr {s t : State} (l : LaneId) (hs : (t.lane l).softHold = (s.lane l).softHold) (hl : t.lines = s.lines) :
    t.holdAsserted l = s.holdAsserted l := by
  simp only [State.holdAsserted, hs, State.line, hl]

/-! ### Ends of a lane's work -/

theorem Lane.cut_eq (v : Lane) : v.cut = cutOf v := by
  unfold Lane.cut Lane.active cutOf
  cases v.queue with
  | nil => cases v.state <;> rfl
  | cons g rest =>
    obtain ⟨tag, lane, body, _, _, _⟩ := g
    cases v.state <;> cases body <;> rfl

theorem State.positions_eq (s : State) : s.positions = positionsOf s := rfl

/-- The end of a lane's work, as a whole (R11, R87, R92, R94, R101). -/
theorem endLane_eq (l : LaneId) (h : Option HaltInfo) (s : State) :
    endLane l h s = { s with
      lanes := s.lanes.set l ((s.lane l).ended h), sync := s.sync.set l none, reports := s.reports.hand (stoppedReport s l h) } := by
  unfold endLane stoppedReport
  rw [← Lane.cut_eq]
  rfl

theorem endLane_frame (l : LaneId) (h : Option HaltInfo) (s : State) : LaneFrame s (endLane l h s) :=
  .of_eq _ _ _ _ (endLane_eq l h s) fun _ => rfl

theorem endLane_lane (l : LaneId) (h : Option HaltInfo) (s : State) (l' : LaneId) :
    (endLane l h s).lane l' = if l' = l then (s.lane l).ended h else s.lane l' := by
  rw [endLane_eq]; exact PerLane.get_set ..

theorem endLane_sync (l : LaneId) (h : Option HaltInfo) (s : State) (l' : LaneId) :
    (endLane l h s).sync.get l' = if l' = l then none else s.sync.get l' := by
  rw [endLane_eq]; exact PerLane.get_set ..

/-- What a halt of one lane alone does (R94, R95). -/
theorem haltOnly_of_halted {l : LaneId} {s : State} (h : HaltInfo) (hs : (s.lane l).state = .halted) : haltOnly l h s = s := by
  simp [haltOnly, hs]

theorem haltOnly_eq {l : LaneId} {s : State} (h : HaltInfo) (hs : (s.lane l).state ≠ .halted) :
    haltOnly l h s = endLane l (some h) s := by simp [haltOnly, hs]

theorem halt_of_halted {l : LaneId} {s : State} (h : HaltInfo) (hs : (s.lane l).state = .halted) : halt l h s = s := by
  simp [halt, hs]

/-- The halt procedure, as a whole: this lane ends in HALTED, and with it the standing wait of the other lane (R78, R94). -/
theorem halt_eq {l : LaneId} {s : State} (h : HaltInfo) (hs : (s.lane l).state ≠ .halted)
    (ho : s.sync.get (otherLane l) ≠ none → (s.lane (otherLane l)).state ≠ .halted) :
    halt l h s = if s.sync.get (otherLane l) = none then endLane l (some h) s
      else endLane (otherLane l) (some ⟨.syncBroken, none⟩) (endLane l (some h) s) := by
  have e : (endLane l (some h) s).sync.get (otherLane l) = s.sync.get (otherLane l) := by
    rw [endLane_sync, if_neg (otherLane_ne l)]
  unfold halt
  rw [if_neg hs]
  by_cases hn : s.sync.get (otherLane l) = none
  · simp [e, hn]
  · have : ((endLane l (some h) s).sync.get (otherLane l)).isSome = true := by
      rw [e]; exact Option.isSome_iff_ne_none.mpr hn
    simp only [this, if_true, if_neg hn]
    rw [haltOnly_eq]
    rw [endLane_lane, if_neg (otherLane_ne l)]
    exact ho hn

theorem haltOnly_frame (l : LaneId) (h : HaltInfo) (s : State) : LaneFrame s (haltOnly l h s) := by
  unfold haltOnly; split
  · exact .refl s
  · exact endLane_frame ..

theorem halt_frame (l : LaneId) (h : HaltInfo) (s : State) : LaneFrame s (halt l h s) := by
  unfold halt; dsimp only; repeat' split
  · exact .refl s
  · exact (endLane_frame ..).trans (haltOnly_frame ..)
  · exact endLane_frame ..

theorem reachStopEnd_frame (l : LaneId) (e : RampEnd) (s : State) : LaneFrame s (reachStopEnd l e s) := by
  cases e
  · exact endLane_frame ..
  · exact halt_frame ..

theorem beginStop_frame (l : LaneId) (e : RampEnd) (s : State) : LaneFrame s (beginStop l e s) := .setLane ..

@[simp] theorem endLane_axes (l : LaneId) (h : Option HaltInfo) (s : State) : (endLane l h s).axes = s.axes := rfl

@[simp] theorem haltOnly_axes (l : LaneId) (h : HaltInfo) (s : State) : (haltOnly l h s).axes = s.axes := by
  unfold haltOnly; split <;> rfl

@[simp] theorem halt_axes (l : LaneId) (h : HaltInfo) (s : State) : (halt l h s).axes = s.axes := by
  unfold halt; dsimp only; repeat' split
  · rfl
  · rw [haltOnly_axes, endLane_axes]
  · rfl

/-- The other lane's part in a halt. -/
theorem stoppedReport_endLane_other (l : LaneId) (h h' : Option HaltInfo) (s : State) :
    stoppedReport (endLane l h s) (otherLane l) h' = stoppedReport s (otherLane l) h' := by
  simp only [stoppedReport, endLane_lane, if_neg (otherLane_ne l)]; rfl

/-- What a halt leaves of both lanes, the entries and the reports (R78, R94, R101). -/
theorem halt_spec {l : LaneId} {s : State} (h : HaltInfo) (hs : (s.lane l).state ≠ .halted)
    (ho : s.sync.get (otherLane l) ≠ none → (s.lane (otherLane l)).state ≠ .halted) :
    HaltsLane l h s (halt l h s) ∧ (halt l h s).reports = haltReports l h s s.reports := by
  rw [halt_eq h hs ho]
  unfold haltReports
  by_cases hn : s.sync.get (otherLane l) = none
  · rw [if_pos hn]
    refine ⟨⟨?_, ?_, ?_, ?_⟩, ?_⟩
    · rw [endLane_lane, if_pos rfl]
    · apply PerLane.eq_of_get; intro i
      rw [endLane_sync]
      rcases eq_or_eq_otherLane l i with rfl | rfl
      · cases i <;> simp [PerLane.get]
      · rw [if_neg (otherLane_ne l), hn]; cases l <;> rfl
    · intro _; rw [endLane_lane, if_neg (otherLane_ne l)]
    · intro hb; exact absurd hn hb
    · simp only [hn, ne_eq, not_true_eq_false, if_false]; rw [endLane_eq]
  · rw [if_neg hn]
    refine ⟨⟨?_, ?_, ?_, ?_⟩, ?_⟩
    · rw [endLane_lane, if_neg (ne_otherLane l), endLane_lane, if_pos rfl]
    · apply PerLane.eq_of_get; intro i
      rw [endLane_sync, endLane_sync]
      rcases eq_or_eq_otherLane l i with rfl | rfl
      · rw [if_neg (ne_otherLane i)]; cases i <;> simp [PerLane.get]
      · cases l <;> simp [PerLane.get, otherLane]
    · intro hb; exact absurd hb hn
    · intro _; rw [endLane_lane, if_pos rfl, endLane_lane, if_neg (otherLane_ne l)]
    · simp only [hn, ne_eq, not_false_eq_true, if_true]
      rw [endLane_eq, stoppedReport_endLane_other, endLane_eq]

/-! ### Holds and intervals -/

/-- The hold takes effect on its own lane alone (R39, R40, R72). -/
theorem applyHold_eq (l : LaneId) (s : State) :
    applyHold l s = s.setLane l ((s.lane l).underHold (s.holdAsserted l) s.onTick) := by
  unfold applyHold Lane.underHold
  cases e : (s.lane l).state <;> cases s.holdAsserted l <;> cases e' : (s.lane l).stepTimer <;> simp [e, e']

theorem Lane.underHold_softHold (b c : Bool) (v : Lane) : (v.underHold b c).softHold = v.softHold := by
  unfold Lane.underHold; split <;> rfl

theorem applyHolds_eq (s : State) :
    applyHolds s = { s with lanes :=
      ⟨(s.lane .L0).underHold (s.holdAsserted .L0) s.onTick, (s.lane .L1).underHold (s.holdAsserted .L1) s.onTick⟩ } := by
  unfold applyHolds
  rw [applyHold_eq .L0, applyHold_eq .L1]
  rw [holdAsserted_congr (s := s) .L1 rfl rfl]
  rfl

theorem startInterval_lane (l : LaneId) (n : Nat) (b : Bool) (s : State) :
    (startInterval l n b s).lane l = { s.lane l with stepTimer := .counting n b, interval := n } := by
  simp [startInterval]

/-! ### Activation -/

theorem energiseLane_axis (l : LaneId) (s : State) (a : AxisId) :
    (energiseLane l s).axis a = if (s.axis a).owner = some l then { s.axis a with energised := true } else s.axis a := by
  unfold energiseLane State.axis; simp

theorem energiseLane_frame (l : LaneId) (s : State) : LaneFrame s (energiseLane l s) :=
  .of_eq _ _ _ _ rfl fun a => by
    change ((energiseLane l s).axis a).holdTimer = _
    rw [energiseLane_axis]; split <;> rfl

/-- The first interval of the active segment begins (R14, R15, R51, R107). -/
theorem beginSegment_eq {l : LaneId} {s : State} {g : Segment} {rest : List Segment} (atTick : Bool)
    (hq : (s.lane l).queue = g :: rest) :
    beginSegment l atTick s = (if g.isMotion then energiseLane l s else s).setLane l { s.lane l with
      state := if s.holdAsserted l then .held else .running
      stepTimer := if s.holdAsserted l then .frozen g.firstInterval else .counting g.firstInterval atTick
      homing := startPhase s g } := by
  unfold beginSegment
  rw [hq]
  have hp : startPhase (if g.isMotion then energiseLane l s else s) g = startPhase s g := by
    unfold startPhase
    split
    · rename_i a _ _ _
      have : ((if g.isMotion then energiseLane l s else s).axis a).homeActive = (s.axis a).homeActive := by
        split
        · rw [energiseLane_axis]; split <;> rfl
        · rfl
      rw [this]
    · rfl
  simp only [hp]
  cases g.isMotion <;> rfl

theorem beginSegment_frame (l : LaneId) (atTick : Bool) (s : State) : LaneFrame s (beginSegment l atTick s) := by
  cases hq : (s.lane l).queue with
  | nil => unfold beginSegment; rw [hq]; exact .refl s
  | cons g rest =>
    rw [beginSegment_eq atTick hq]
    split
    · exact (energiseLane_frame l s).trans (.setLane ..)
    · exact .setLane ..

theorem leaveIfMet_frame (l : LaneId) (atTick : Bool) (s : State) : LaneFrame s (leaveIfMet l atTick s) := by
  unfold leaveIfMet; split
  · exact beginSegment_frame ..
  · exact .refl s

theorem prepareActivation_frame (l : LaneId) (g : Segment) (s : State) : LaneFrame s (prepareActivation l g s) := by
  unfold prepareActivation; dsimp only
  split
  · exact (energiseLane_frame l s).trans (.setLane ..)
  · exact .setLane ..

theorem enterSync_frame (l : LaneId) (k : Nat) (atTick : Bool) (s : State) : LaneFrame s (enterSync l k atTick s) := by
  unfold enterSync; dsimp only
  split
  · exact (LaneFrame.setLane ..).trans (.setSync ..)
  split
  · exact ((LaneFrame.setLane ..).trans (.setSync ..)).trans ((leaveIfMet_frame ..).trans (leaveIfMet_frame ..))
  · exact (haltOnly_frame ..).trans (haltOnly_frame ..)

theorem activate_frame (l : LaneId) (atTick : Bool) (s : State) : LaneFrame s (activate l atTick s) := by
  unfold activate; dsimp only
  split
  · exact .refl s
  split
  · exact (prepareActivation_frame ..).trans (enterSync_frame ..)
  · exact (prepareActivation_frame ..).trans (leaveIfMet_frame ..)

/-! ### Completion -/

theorem removeActive_frame (l : LaneId) (home : Option HomeResult) (s : State) : LaneFrame s (removeActive l home s) := by
  unfold removeActive; dsimp only
  split
  · exact .refl s
  split
  · exact (LaneFrame.setLane ..).trans (.enqueue ..)
  · exact .setLane ..

theorem complete_frame (l : LaneId) (home : Option HomeResult) (atTick : Bool) (s : State) :
    LaneFrame s (complete l home atTick s) := by
  unfold complete; dsimp only
  split
  · exact (removeActive_frame ..).trans (.setLane ..)
  · exact (removeActive_frame ..).trans (activate_frame ..)

/-- The active segment leaves the queue, as a whole (R16). -/
theorem removeActive_eq {l : LaneId} {s : State} {g : Segment} {rest : List Segment} (home : Option HomeResult)
    (hq : (s.lane l).queue = g :: rest) :
    removeActive l home s = { s with
      lanes := s.lanes.set l { (s.lane l).cleared with queue := rest }
      reports := if g.notify = true then s.reports.hand (.segmentDone l g.tag g.kind rest.length home (positionsOf s))
        else s.reports } := by
  unfold removeActive
  rw [hq]
  cases hn : g.notify <;> simp only [hn, Bool.false_eq_true, if_false, if_true] <;> rfl

/-- With nothing behind it the completed segment leaves the lane dry (R18). -/
theorem complete_dry {l : LaneId} {s : State} {g : Segment} (home : Option HomeResult) (atTick : Bool)
    (hq : (s.lane l).queue = [g]) (hh : (s.lane l).halt = none) :
    complete l home atTick s = { s with
      lanes := s.lanes.set l ((s.lane l).ended none)
      reports := if g.notify = true then s.reports.hand (.segmentDone l g.tag g.kind 0 home (positionsOf s)) else s.reports } := by
  unfold complete
  rw [removeActive_eq home hq]
  have e : (s.lane l).ended none = { (s.lane l).cleared with queue := [], state := .idle, started := false } := by
    simp [Lane.ended, Lane.cleared, Unmet.empty, hh]
  rw [e]
  simp [State.lane, State.setLane]

/-- With a segment behind it, the completed segment hands over to it (R16, R17). -/
theorem complete_next {l : LaneId} {s : State} {g g' : Segment} {rest : List Segment} (home : Option HomeResult) (atTick : Bool)
    (hq : (s.lane l).queue = g :: g' :: rest) :
    complete l home atTick s = activate l atTick { s with
      lanes := s.lanes.set l { (s.lane l).cleared with queue := g' :: rest }
      reports := if g.notify = true
        then s.reports.hand (.segmentDone l g.tag g.kind (rest.length + 1) home (positionsOf s)) else s.reports } := by
  unfold complete
  rw [removeActive_eq home hq]
  simp [State.lane]

/-- Whether an activation of this segment settles (R13). -/
def settles (l : LaneId) (g : Segment) (s : State) : Bool :=
  g.isMotion && s.hasReleased l && (s.lane l).settings.settle != 0

/-- The lane as an activation prepares it (R13). -/
theorem prepareActivation_eq (l : LaneId) (g : Segment) (s : State) :
    prepareActivation l g s = (if g.isMotion then energiseLane l s else s).setLane l { s.lane l with
      state := .waiting
      started := true
      unmet := ⟨settles l g s, g.triggerLine, false⟩
      settleTimer := if settles l g s then some (s.msFor (s.lane l).settings.settle) else none
      stepTimer := .stopped
      accumulators := g.startAccumulators
      interval := g.firstInterval
      stepCount := 0
      dwellLeft := g.dwellCount
      homing := g.startRun
      ramp := none } := by
  unfold prepareActivation settles
  cases g.isMotion <;> rfl

/-- Which axes an activation, or the leaving of WAITING, energises (R13, R51). -/
theorem energiseIf_axis (b : Bool) (l : LaneId) (s : State) (a : AxisId) :
    (if b then energiseLane l s else s).axis a =
      if b = true ∧ (s.axis a).owner = some l then { s.axis a with energised := true } else s.axis a := by
  cases b
  · simp
  · simp [energiseLane_axis]

theorem energiseIf_fields (b : Bool) (l : LaneId) (s : State) :
    (if b then energiseLane l s else s) = { s with axes := (if b then energiseLane l s else s).axes } := by
  cases b <;> rfl

theorem energiseLane_energiseLane (l : LaneId) (s : State) (v : Lane) :
    energiseLane l ((energiseLane l s).setLane l v) = (energiseLane l s).setLane l v := by
  have : (energiseLane l ((energiseLane l s).setLane l v)).axes = (energiseLane l s).axes := by
    apply PerAxis.eq_of_get
    intro a
    change (energiseLane l ((energiseLane l s).setLane l v)).axis a = (energiseLane l s).axis a
    rw [energiseLane_axis, State.setLane_axis, energiseLane_axis]
    split <;> simp_all
  calc energiseLane l ((energiseLane l s).setLane l v)
      = { (energiseLane l s).setLane l v with axes := (energiseLane l ((energiseLane l s).setLane l v)).axes } := rfl
    _ = (energiseLane l s).setLane l v := by rw [this]; rfl

theorem startPhase_of_home {s t : State} {g : Segment} (h : ∀ a, (t.axis a).homeActive = (s.axis a).homeActive) :
    startPhase t g = startPhase s g := by
  unfold startPhase; split
  · rw [h]
  · rfl

/-- The lane as an activation with no start condition SYNC leaves it, `wait` saying whether a condition is unmet (R13, R14). -/
def activatedLane (l : LaneId) (g : Segment) (atTick : Bool) (s : State) : Lane :=
  let wait := settles l g s || g.triggerLine.isSome
  { s.lane l with
    state := if wait then .waiting else if s.holdAsserted l then .held else .running
    started := true
    unmet := ⟨settles l g s, g.triggerLine, false⟩
    settleTimer := if settles l g s then some (s.msFor (s.lane l).settings.settle) else none
    stepTimer := if wait then .stopped else if s.holdAsserted l then .frozen g.firstInterval else .counting g.firstInterval atTick
    accumulators := g.startAccumulators
    interval := g.firstInterval
    stepCount := 0
    dwellLeft := g.dwellCount
    homing := if wait then g.startRun else startPhase s g
    ramp := none }

/-- An activation with no start condition SYNC, as a whole (R13, R14, R51, R107). -/
theorem activate_eq {l : LaneId} {s : State} {g : Segment} {rest : List Segment} (atTick : Bool) (hq : (s.lane l).queue = g :: rest)
    (hs : ∀ k, g.start ≠ .sync k) :
    activate l atTick s = (if g.isMotion then energiseLane l s else s).setLane l (activatedLane l g atTick s) := by
  have hact : activate l atTick s = leaveIfMet l atTick (prepareActivation l g s) := by
    unfold activate; rw [hq]; dsimp only
    split
    · rename_i k hk; exact absurd hk (hs k)
    · rfl
  rw [hact, prepareActivation_eq]
  generalize hE : (if g.isMotion then energiseLane l s else s) = e
  have hlane : e.lane l = s.lane l := by rw [← hE]; cases g.isMotion <;> rfl
  have hlines : e.lines = s.lines := by rw [← hE]; cases g.isMotion <;> rfl
  have hhome : ∀ a, (e.axis a).homeActive = (s.axis a).homeActive := by
    intro a; rw [← hE, energiseIf_axis]; split <;> rfl
  unfold leaveIfMet
  simp only [State.lane_setLane_self, decide_true, Bool.true_and]
  cases hw : settles l g s <;> cases ht : g.triggerLine
  · simp only [Unmet.isEmpty, Unmet.empty, decide_true, if_true]
    rw [beginSegment_eq (g := g) (rest := rest) atTick (by simp [hq])]
    have hh : ∀ v : Lane, v.softHold = (s.lane l).softHold → (e.setLane l v).holdAsserted l = s.holdAsserted l := by
      intro v hv; exact holdAsserted_congr l (by simpa using hv) hlines
    have hp : ∀ v, startPhase (e.setLane l v) g = startPhase s g := fun v => startPhase_of_home hhome
    have he : ∀ v, (if g.isMotion then energiseLane l (e.setLane l v) else e.setLane l v) = e.setLane l v := by
      intro v; subst hE
      cases g.isMotion
      · rfl
      · exact energiseLane_energiseLane ..
    rw [he, hp, hh]
    · simp [activatedLane, hw, ht]
    · rfl
  · simp [Unmet.isEmpty, Unmet.empty, activatedLane, hw, ht]
  · simp [Unmet.isEmpty, Unmet.empty, activatedLane, hw, ht]
  · simp [Unmet.isEmpty, Unmet.empty, activatedLane, hw, ht]

/-! ### What these operations do to the axes: they energise axes of a lane, and no more -/

/-- No axis differs but that it may have been energised, and then it belongs to a lane (R13, R51). -/
structure EnergisesOnly (s t : State) : Prop where
  axis : ∀ a, t.axis a = { s.axis a with energised := (t.axis a).energised } ∧
    ((s.axis a).energised = true → (t.axis a).energised = true) ∧
    ((t.axis a).energised = true → (s.axis a).energised = true ∨ (s.axis a).owner ≠ none)

theorem EnergisesOnly.of_axes {s t : State} (h : t.axes = s.axes) : EnergisesOnly s t := by
  refine ⟨fun a => ?_⟩
  have : t.axis a = s.axis a := by simp only [State.axis, h]
  rw [this]; exact ⟨rfl, id, .inl⟩

theorem EnergisesOnly.trans {s t u : State} (h : EnergisesOnly s t) (k : EnergisesOnly t u) : EnergisesOnly s u := by
  refine ⟨fun a => ?_⟩
  have ho : (t.axis a).owner = (s.axis a).owner := by rw [(h.axis a).1]
  refine ⟨?_, fun e => (k.axis a).2.1 ((h.axis a).2.1 e), fun e => ?_⟩
  · rw [(k.axis a).1, (h.axis a).1]
  · rcases (k.axis a).2.2 e with e | e
    · exact (h.axis a).2.2 e
    · rw [ho] at e; exact .inr e

theorem energiseIf_energises (b : Bool) (l : LaneId) (s : State) : EnergisesOnly s (if b then energiseLane l s else s) := by
  refine ⟨fun a => ?_⟩
  rw [energiseIf_axis]
  split
  · rename_i h; exact ⟨rfl, fun _ => rfl, fun _ => .inr (by rw [h.2]; exact Option.some_ne_none _)⟩
  · exact ⟨rfl, id, .inl⟩

theorem beginSegment_energises (l : LaneId) (atTick : Bool) (s : State) : EnergisesOnly s (beginSegment l atTick s) := by
  cases hq : (s.lane l).queue with
  | nil => unfold beginSegment; rw [hq]; exact .of_axes rfl
  | cons g rest => rw [beginSegment_eq atTick hq]; exact EnergisesOnly.trans (energiseIf_energises _ _ _) (.of_axes rfl)

theorem leaveIfMet_energises (l : LaneId) (atTick : Bool) (s : State) : EnergisesOnly s (leaveIfMet l atTick s) := by
  unfold leaveIfMet; split
  · exact beginSegment_energises _ _ _
  · exact .of_axes rfl

theorem prepareActivation_energises (l : LaneId) (g : Segment) (s : State) : EnergisesOnly s (prepareActivation l g s) := by
  rw [prepareActivation_eq]; exact EnergisesOnly.trans (energiseIf_energises _ _ _) (.of_axes rfl)

theorem enterSync_energises (l : LaneId) (k : Nat) (atTick : Bool) (s : State) : EnergisesOnly s (enterSync l k atTick s) := by
  unfold enterSync; dsimp only
  split
  · exact .of_axes rfl
  split
  · refine EnergisesOnly.trans ?_ (leaveIfMet_energises _ _ _)
    refine EnergisesOnly.trans ?_ (leaveIfMet_energises _ _ _)
    exact .of_axes rfl
  · exact .of_axes (by rw [haltOnly_axes, haltOnly_axes])

theorem activate_energises (l : LaneId) (atTick : Bool) (s : State) : EnergisesOnly s (activate l atTick s) := by
  unfold activate; dsimp only
  split
  · exact .of_axes rfl
  split
  · exact EnergisesOnly.trans (prepareActivation_energises _ _ _) (enterSync_energises _ _ _ _)
  · exact EnergisesOnly.trans (prepareActivation_energises _ _ _) (leaveIfMet_energises _ _ _)

theorem removeActive_axes (l : LaneId) (home : Option HomeResult) (s : State) : (removeActive l home s).axes = s.axes := by
  unfold removeActive; dsimp only
  split
  · rfl
  split <;> rfl

theorem complete_energises (l : LaneId) (home : Option HomeResult) (atTick : Bool) (s : State) :
    EnergisesOnly s (complete l home atTick s) := by
  unfold complete; dsimp only
  split
  · exact .of_axes (removeActive_axes _ _ _)
  · exact EnergisesOnly.trans (.of_axes (removeActive_axes _ _ _)) (activate_energises _ _ _)

/-! ### The step of a MOVE -/

theorem takeMoveStep_frame (l : LaneId) (entries : List (AxisId × Int)) (n : Nat) (s : State) :
    LaneFrame s (takeMoveStep l entries n s) := by
  refine .of_eq _ _ _ _ rfl fun a => ?_
  rw [PerAxis.get_mapWith]
  change (if _ then _ else s.axis a).holdTimer = _
  split
  · exact Axis.takeStep_holdTimer ..
  · rfl

/-- One step of an axis, as the model takes it and as the laws say it (R47, R48). -/
theorem takeStep_eq_oneStep (patterns : List Nat) (forward : Bool) (x : Axis) :
    x.takeStep patterns forward = oneStep patterns forward x := by
  unfold Axis.takeStep oneStep Axis.stepped Axis.phaseUp
  cases x.mode <;> cases x.sense <;> cases forward <;> simp [patternLength]

theorem forwardCount_eq (entries : List (AxisId × Int)) (a : AxisId) : forwardCount entries a = moveForward entries a := rfl

theorem due_iff (v : Lane) (entries : List (AxisId × Int)) (n : Nat) (a : AxisId) :
    v.due entries n a = true ↔ isDue v entries n a := by
  unfold Lane.due accumulate isDue
  cases v.accumulators.get a with
  | none => simp
  | some c => by_cases h : n ≤ c + (countOf entries a).natAbs <;> simp [h]

theorem guardFails_iff (x : Axis) (forward : Bool) : x.guardFails forward = true ↔ guardBars x forward := by
  unfold Axis.guardFails guardBars Axis.homeActive
  cases x.guard <;> cases forward <;> simp

theorem windowFails_iff (x : Axis) (forward : Bool) : x.windowFails forward = true ↔ windowBars x forward := by
  unfold Axis.windowFails windowBars Axis.stepped
  cases forward <;> simp [or_comm]

/-- The lowest axis that satisfies a test. -/
theorem find_allAxes {p : AxisId → Bool} {a : AxisId} (h : p a = true) (hl : ∀ b, AxisId.code b < AxisId.code a → p b = false) :
    allAxes.find? p = some a := by
  have hA := hl .A
  have hB := hl .B
  have hC := hl .C
  cases a <;> simp_all [allAxes, AxisId.code]

theorem find_allAxes_none {p : AxisId → Bool} (h : ∀ a, p a = false) : allAxes.find? p = none := by
  simp [allAxes, h]

/-- Where every due axis passes both checks, the step event takes effect (R34). -/
theorem moveFailure_none {l : LaneId} {entries : List (AxisId × Int)} {n : Nat} {s : State} (h : allPass s l entries n) :
    moveFailure l entries n s = none := by
  have hg : ∀ a, ((s.lane l).due entries n a && (s.axis a).guardFails (forwardCount entries a)) = false := by
    intro a
    rw [Bool.eq_false_iff]; intro hc
    rw [Bool.and_eq_true, due_iff, guardFails_iff, forwardCount_eq] at hc
    exact (h a hc.1).1 hc.2
  have hw : ∀ a, ((s.lane l).due entries n a && (s.axis a).windowFails (forwardCount entries a)) = false := by
    intro a
    rw [Bool.eq_false_iff]; intro hc
    rw [Bool.and_eq_true, due_iff, windowFails_iff, forwardCount_eq] at hc
    exact (h a hc.1).2 hc.2
  simp only [moveFailure, find_allAxes_none hg, find_allAxes_none hw]

/-- LIMIT, with the lowest due axis that fails its guard check (R35). -/
theorem moveFailure_limit {l : LaneId} {entries : List (AxisId × Int)} {n : Nat} {s : State} {a : AxisId}
    (h : isDue (s.lane l) entries n a ∧ guardBars (s.axis a) (moveForward entries a))
    (hl : ∀ b, AxisId.code b < AxisId.code a → ¬(isDue (s.lane l) entries n b ∧ guardBars (s.axis b) (moveForward entries b))) :
    moveFailure l entries n s = some ⟨.limit, some a⟩ := by
  have ha : ((s.lane l).due entries n a && (s.axis a).guardFails (forwardCount entries a)) = true := by
    rw [Bool.and_eq_true, due_iff, guardFails_iff, forwardCount_eq]; exact h
  have hb : ∀ b, AxisId.code b < AxisId.code a →
      ((s.lane l).due entries n b && (s.axis b).guardFails (forwardCount entries b)) = false := by
    intro b hc
    rw [Bool.eq_false_iff]; intro hd
    rw [Bool.and_eq_true, due_iff, guardFails_iff, forwardCount_eq] at hd
    exact hl b hc hd
  simp only [moveFailure, find_allAxes ha hb]

/-- WINDOW, with the lowest due axis that fails its window check, where no due axis fails its guard (R35). -/
theorem moveFailure_window {l : LaneId} {entries : List (AxisId × Int)} {n : Nat} {s : State} {a : AxisId}
    (hg : ∀ b, ¬(isDue (s.lane l) entries n b ∧ guardBars (s.axis b) (moveForward entries b)))
    (h : isDue (s.lane l) entries n a ∧ windowBars (s.axis a) (moveForward entries a))
    (hl : ∀ b, AxisId.code b < AxisId.code a → ¬(isDue (s.lane l) entries n b ∧ windowBars (s.axis b) (moveForward entries b))) :
    moveFailure l entries n s = some ⟨.window, some a⟩ := by
  have h0 : ∀ b, ((s.lane l).due entries n b && (s.axis b).guardFails (forwardCount entries b)) = false := by
    intro b
    rw [Bool.eq_false_iff]; intro hd
    rw [Bool.and_eq_true, due_iff, guardFails_iff, forwardCount_eq] at hd
    exact hg b hd
  have ha : ((s.lane l).due entries n a && (s.axis a).windowFails (forwardCount entries a)) = true := by
    rw [Bool.and_eq_true, due_iff, windowFails_iff, forwardCount_eq]; exact h
  have hb : ∀ b, AxisId.code b < AxisId.code a →
      ((s.lane l).due entries n b && (s.axis b).windowFails (forwardCount entries b)) = false := by
    intro b hc
    rw [Bool.eq_false_iff]; intro hd
    rw [Bool.and_eq_true, due_iff, windowFails_iff, forwardCount_eq] at hd
    exact hl b hc hd
  simp only [moveFailure, find_allAxes_none h0, find_allAxes ha hb]

/-- Every due axis takes its step, and no other axis differs (R34). -/
theorem takeMoveStep_axis (l : LaneId) (entries : List (AxisId × Int)) (n : Nat) (s : State) (a : AxisId) :
    (takeMoveStep l entries n s).axis a =
      if (s.lane l).due entries n a then oneStep s.patterns (moveForward entries a) (s.axis a) else s.axis a := by
  unfold takeMoveStep State.axis
  rw [PerAxis.get_mapWith]
  rw [takeStep_eq_oneStep]; rfl

/-- The lane's accumulators and count take their new values (R31, R34). -/
theorem takeMoveStep_lane (l : LaneId) (entries : List (AxisId × Int)) (n : Nat) (s : State) (l' : LaneId) :
    (takeMoveStep l entries n s).lane l' =
      if l' = l then { s.lane l with
        accumulators := (s.lane l).accumulators.mapWith fun a c => (accumulate n (countOf entries a) c).2
        stepCount := (s.lane l).stepCount + 1 }
      else s.lane l' := PerLane.get_set ..

theorem accumulators_step (entries : List (AxisId × Int)) (n : Nat) (before : PerAxis (Option Nat)) :
    AccumulatorsStep entries n before (before.mapWith fun a c => (accumulate n (countOf entries a) c).2) := by
  intro a
  rw [PerAxis.get_mapWith]
  unfold accumulate
  cases before.get a with
  | none => rfl
  | some c =>
    by_cases h : n ≤ c + (countOf entries a).natAbs <;> simp [h]

/-! ### The event as a whole -/

/-- The hold timers settle with an event that touched none of them (R53). -/
theorem settleHoldTimers_settled {s t : State} (h : ∀ a, (t.axis a).holdTimer = (s.axis a).holdTimer) :
    HoldTimersSettled s (settleHoldTimers s t) := by
  have hr : ∀ a, (settleHoldTimers s t).holdRuns a = t.holdRuns a := by
    intro a
    apply holdRuns_congr
    · rw [settleHoldTimers_axis_eq]
    · rw [settleHoldTimers_axis_eq]
    · rw [settleHoldTimers_axis_eq]
    · intro l; rfl
  constructor
  · intro a e; rw [hr] at e; rw [settleHoldTimers_axis, e]; cases t.holdRuns a <;> exact h a
  · intro a e e'; rw [hr] at e'; rw [settleHoldTimers_axis, e, e']; rfl
  · intro a e e'; rw [hr] at e'; rw [settleHoldTimers_axis, e, e']

theorem settleHoldTimers_untimed (s t : State) (a : AxisId) :
    ((settleHoldTimers s t).axis a).untimed = (t.axis a).untimed := by
  rw [settleHoldTimers_axis_eq]; rfl

/-- The transmitter's choice after an event whose effect is `t`, said over the link and the report queue that `t` leaves. -/
theorem beginFrame_choosesFrom {s t : State} (hr : t.power = .running) :
    ChoosesFrom t.link t.reports (beginFrame (settleHoldTimers s t)) := by
  have h := beginFrame_chooses (s := settleHoldTimers s t) hr
  have e : { beginFrame (settleHoldTimers s t) with link := t.link, reports := t.reports } = settleHoldTimers s t := by
    rw [beginFrame_frame]; rfl
  rwa [ChoosesFrom, e]

/-- An event of a lane, whose effect is `t`: the hold timers settle, and the transmitter chooses (R53, R150). -/
theorem onEvent_spec {f : State → Option State} {s t : State} (hr : s.power = .running) (hf : f s = some t) (h : LaneFrame s t) :
    ∃ u, onEvent f s = .next u ∧ LaneEvent s u ∧ u.lanes = t.lanes ∧ u.sync = t.sync ∧ ChoosesFrom s.link t.reports u ∧
      (∀ a, (u.axis a).untimed = (t.axis a).untimed) ∧ ((∀ a, s.holdRuns a = t.holdRuns a) → u.axes = t.axes) := by
  have hc : ChoosesFrom s.link t.reports (beginFrame (settleHoldTimers s t)) := by
    rw [← h.link]; exact beginFrame_choosesFrom (h.power.trans hr)
  refine ⟨beginFrame (settleHoldTimers s t), ?_, ⟨⟨?_, ?_, ?_, ?_, ?_, ?_, ?_, ?_, ?_⟩, ⟨_, hc⟩, ?_⟩, ?_, ?_, hc, ?_, ?_⟩
  · simp [onEvent, State.running, hr, hf]
  · simpa using h.power
  · simpa using h.pins
  · simpa using h.lines
  · simpa using h.time
  · simpa using h.captures
  · simpa using h.patterns
  · simpa using h.restartWait
  · simpa using h.freeCount
  · simpa using h.pending
  · have k := settleHoldTimers_settled h.timers
    have e : ∀ a, (beginFrame (settleHoldTimers s t)).holdRuns a = (settleHoldTimers s t).holdRuns a := by
      intro a; rw [beginFrame_frame]; rfl
    constructor
    · intro a e'; rw [e] at e'; rw [beginFrame_axis]; exact k.kept a e'
    · intro a e1 e2; rw [e] at e2; rw [beginFrame_axis, State.msFor, beginFrame_time]; exact k.started a e1 e2
    · intro a e1 e2; rw [e] at e2; rw [beginFrame_axis]; exact k.stopped a e1 e2
  · simp
  · simp
  · intro a; rw [beginFrame_axis]; exact settleHoldTimers_untimed ..
  · intro e; rw [beginFrame_axes, settleHoldTimers_of_holdRuns_eq e]

end Sys2Proof.Machine
end

