-- ==== Sys2Proof/Laws/Requests.lean ====
section
/-! SUPPORT. What the requests have in common, said once: the lane states that refuse them, the codes and numbers of their
payloads, and the executor's event for each shape of effect. -/

namespace Sys2Proof.Machine

open Sys2Proof

/-- The states that refuse most settings (section 3.7). -/
theorem Lane.busy_iff (v : Lane) : v.busy = true ↔ v.state ∈ [LaneState.waiting, .running, .held, .stopping] := by
  unfold Lane.busy; cases v.state <;> simp

/-- A lane is busy (R41). -/
theorem anyBusy_iff (s : State) : s.anyBusy = true ↔ ∃ l, (s.lane l).state ∈ [LaneState.waiting, .running, .held,
    .stopping] := by
  unfold State.anyBusy
  rw [Bool.or_eq_true, Lane.busy_iff, Lane.busy_iff]
  constructor
  · rintro (h | h)
    · exact ⟨_, h⟩
    · exact ⟨_, h⟩
  · rintro ⟨l, h⟩
    cases l
    · exact .inl h
    · exact .inr h

/-- The lane of an axis is busy (R58, R60 to R62). -/
theorem ownerAllows_iff (s : State) (x : Option LaneId) :
    s.ownerAllows x = false ↔ ∃ l, x = some l ∧ (s.lane l).state ∈ [LaneState.waiting, .running, .held, .stopping] := by
  cases x with
  | none => simp [State.ownerAllows]
  | some l =>
    have := Lane.busy_iff (s.lane l)
    simp [State.ownerAllows] at this ⊢; exact this

/-- An axis may not leave or join this side (R58). -/
theorem sideOpen_iff (s : State) (x : Option LaneId) : s.sideOpen x = false ↔ ∃ l, x = some l ∧
    (s.lane l).state ≠ .idle ∧ (s.lane l).state ≠ .halted := by
  cases x with
  | none => simp [State.sideOpen]
  | some l => simp [State.sideOpen, Lane.emptyState]

/-- An axis in TABLE mode belongs to a busy lane (R56). -/
theorem tableBusy_iff (s : State) : s.tableBusy = true ↔ ∃ a l, (s.axis a).mode = .table ∧ (s.axis a).owner = some l ∧
      (s.lane l).state ∈ [LaneState.waiting, .running, .held, .stopping] := by
  unfold State.tableBusy
  rw [List.any_eq_true]
  constructor
  · rintro ⟨a, _, h⟩
    rw [Bool.and_eq_true, decide_eq_true_eq, Bool.not_eq_true', ownerAllows_iff] at h
    obtain ⟨h1, l, h2, h3⟩ := h
    exact ⟨a, l, h1, h2, h3⟩
  · rintro ⟨a, l, h1, h2, h3⟩
    refine ⟨a, by cases a <;> simp [allAxes], ?_⟩
    rw [Bool.and_eq_true, decide_eq_true_eq, Bool.not_eq_true', ownerAllows_iff]
    exact ⟨h1, l, h2, h3⟩

/-- When the state checks of SET-AXIS refuse (R58 step 2). -/
theorem axisStateAllows_iff (s : State) (x w) : axisStateAllows s x w = false ↔
   (w.owner ≠ x.owner ∧ ((∃ l, x.owner = some l ∧ (s.lane l).state ≠ .idle ∧ (s.lane l).state ≠ .halted) ∨ (∃ l,
       w.owner = some l ∧ (s.lane l).state ≠ .idle ∧ (s.lane l).state ≠ .halted))) ∨
    ({ w with owner := x.owner } ≠ x.setting ∧ ∃ l, x.owner = some l ∧ (s.lane l).state ∈ [LaneState.waiting, .running,
        .held, .stopping]) := by
  unfold axisStateAllows
  rw [← sideOpen_iff, ← sideOpen_iff, ← ownerAllows_iff]
  simp only [Bool.and_eq_false_iff, Bool.or_eq_false_iff, decide_eq_false_iff_not, ne_eq]

/-- A lane code names its lane. -/
theorem laneOfCode_code (l : LaneId) : laneOfCode (LaneId.code l) = some l := by cases l <;> rfl

/-- An axis code names its axis. -/
theorem axisOfCode_code (a : AxisId) : axisOfCode (AxisId.code a) = some a := by cases a <;> rfl

/-- No other code names a lane. -/
theorem laneOfCode_none {n : Nat} (h : 1 < n) : laneOfCode n = none := by
  match n, h with | n + 2, _ => rfl

/-- No other code names an axis. -/
theorem axisOfCode_none {n : Nat} (h : 3 < n) : axisOfCode n = none := by
  match n, h with | n + 4, _ => rfl

/-- The byte of a lane code. -/
theorem byteAt_put8_laneCode (l : LaneId) : byteAt (put8 (LaneId.code l)) 0 = LaneId.code l := by cases l <;> rfl

/-- The byte of an axis code. -/
theorem byteAt_put8_axisCode (l : AxisId) : byteAt (put8 (AxisId.code l)) 0 = AxisId.code l := by cases l <;> rfl

/-- The code of an axis side names it. -/
theorem ownerOfCode_code (x) : ownerOfCode (ownerCode x) = some x := by rcases x with _ | _ | _ <;> rfl

/-- The code of a drive mode names it. -/
theorem modeOfCode_code (x) : modeOfCode (DriveMode.code x) = some x := by cases x <;> rfl

/-- The code of a sense names it. -/
theorem senseOfCode_code (x) : senseOfCode (Sense.code x) = some x := by cases x <;> rfl

/-- The code of a level names it. -/
theorem levelOfCode_code (x) : levelOfCode (Level.code x) = some x := by cases x <;> rfl

/-- The code of a home direction names it. -/
theorem homeDirOfCode_code (x) : homeDirOfCode (HomeDir.code x) = some x := by cases x <;> rfl

/-- The code of a flag names it. -/
theorem flagOfCode_code (x : Bool) : flagOfCode x.toNat = some x := by cases x <;> rfl

/-- Two bytes as an unsigned number (R187). -/
theorem word16_eq (b1 b0 : Byte) : b1.toNat * 256 + b0.toNat = word16 b1 b0 := by
  have := b0.isLt
  rw [word16, BitVec.toNat_append, Nat.shiftLeft_eq, Nat.mul_comm _ (2 ^ 8), ← Nat.two_pow_add_eq_or_of_lt b0.isLt]; omega

/-- The number of two words side by side. -/
theorem toNat_append_eq {n m} (x : BitVec n) (y : BitVec m) : (x ++ y).toNat = x.toNat * 2 ^ m + y.toNat := by
  rw [BitVec.toNat_append, Nat.shiftLeft_eq, Nat.mul_comm _ (2 ^ m), ← Nat.two_pow_add_eq_or_of_lt y.isLt]

/-- Four bytes as a signed number (R187). -/
theorem i32At_eq_word32 (b3 b2 b1 b0 : Byte) (p : List Byte) (i : Nat) (h3 : byteAt p i = b3.toNat) (h2 :
    byteAt p (i+1) = b2.toNat)
  (h1 : byteAt p (i+2) = b1.toNat) (h0 : byteAt p (i+3) = b0.toNat) : i32At p i = word32 b3 b2 b1 b0 := by
  simp only [i32At, u32At, u16At, h3, h2, h1, h0, word32]
  rw [BitVec.toInt_eq_toNat_cond]
  have := b3.isLt
  have := b2.isLt
  have := b1.isLt
  have := b0.isLt
  simp only [toNat_append_eq]
  split <;> split <;> omega

/-- The four bytes of a signed number give it back (R187). -/
theorem i32At_of_putI32 (z : Int) (h : -2147483648 ≤ z) (h' : z < 2147483648) (p : List Byte) (i : Nat)
   (e : ∀ k, k < 4 → byteAt p (i + k) = byteAt (putI32 z) k) : i32At p i = z := by
  have e0 := e 0 (by omega)
  have e1 := e 1 (by omega)
  have e2 := e 2 (by omega)
  have e3 := e 3 (by omega)
  have z0 : (z % 4294967296).toNat < 4294967296 := by omega
  have r0 : byteAt (putI32 z) 0 = (z % 4294967296).toNat / 16777216 := by simp [putI32, put32, put16, byteAt]; omega
  have r1 : byteAt (putI32 z) 1 = (z % 4294967296).toNat / 65536 % 256 := by simp [putI32, put32, put16, byteAt]
  have r2 : byteAt (putI32 z) 2 = (z % 4294967296).toNat / 256 % 256 := by simp [putI32, put32, put16, byteAt]
  have r3 : byteAt (putI32 z) 3 = (z % 4294967296).toNat % 256 := by simp [putI32, put32, put16, byteAt]
  rw [r0] at e0
  rw [r1] at e1
  rw [r2] at e2
  rw [r3] at e3
  simp only [i32At, u32At, u16At, Nat.add_assoc, Nat.reduceAdd] at *
  rw [Nat.add_zero] at e0
  rw [e0, e1, e2, e3]
  split <;> omega

/-- A byte is the byte of its number. -/
theorem ofNat_of_toNat_eq {b : Byte} {n : Nat} (h : b.toNat = n) : BitVec.ofNat 8 n = b := by
  subst h; simp

/-- The bytes of the payload of SET-AXIS (section 11.7). -/
theorem AxisSetting.payload_bytes (a : AxisId) (w : AxisSetting) :
    AxisSetting.payload a w = BitVec.ofNat 8 (AxisId.code a) :: BitVec.ofNat 8 (ownerCode w.owner) ::
      BitVec.ofNat 8 w.mode.code :: BitVec.ofNat 8 w.sense.code :: (putI32 w.windowMin ++ (putI32 w.windowMax ++
        [BitVec.ofNat 8 (w.holdTime / 256), BitVec.ofNat 8 w.holdTime, BitVec.ofNat 8 (Level.code w.homeLevel),
          BitVec.ofNat 8 w.homeDir.code, BitVec.ofNat 8 w.guard.toNat, BitVec.ofNat 8 w.homeFilter])) := by
  simp [AxisSetting.payload, put8, put16]

theorem u16At_le (p : List Byte) (i : Nat) : u16At p i ≤ 65535 := by
  have h1 : byteAt p i < 256 := (p.getD i 0).isLt
  have h0 : byteAt p (i + 1) < 256 := (p.getD (i + 1) 0).isLt
  unfold u16At; omega

theorem two_bytes {n : Nat} (h : n ≤ 65535) : n / 256 % 256 * 256 + n % 256 = n := by omega

/-- The two bytes of an unsigned number. -/
theorem put16_of_bytes {n : Nat} (b1 b0 : Byte) (h : n = b1.toNat * 256 + b0.toNat) : put16 n = [b1, b0] := by
  have h1 := b1.isLt
  have h0 := b0.isLt
  subst h
  have e1 : (b1.toNat * 256 + b0.toNat) / 256 = b1.toNat := by omega
  have e0 : BitVec.ofNat 8 (b1.toNat * 256 + b0.toNat) = b0 := by
    apply BitVec.eq_of_toNat_eq; rw [BitVec.toNat_ofNat]; omega
  rw [put16, e1, e0, BitVec.ofNat_toNat, BitVec.setWidth_eq]

theorem signed_of_halves (h l : Nat) (hh : h ≤ 65535) (hl : l ≤ 65535) :
    ((if h * 65536 + l < 2147483648 then ((h * 65536 + l : Nat) : Int) else ((h * 65536 + l : Nat) : Int) - 4294967296) %
      4294967296).toNat = h * 65536 + l := by
  split <;> omega

theorem put32_of_halves (h l : Nat) (hl : l ≤ 65535) : put32 (h * 65536 + l) = put16 h ++ put16 l := by
  have e : (h * 65536 + l) / 65536 = h := by omega
  have e1 : BitVec.ofNat 8 ((h * 65536 + l) / 256) = BitVec.ofNat 8 (l / 256) := by
    apply BitVec.eq_of_toNat_eq; simp only [BitVec.toNat_ofNat]; omega
  have e0 : BitVec.ofNat 8 (h * 65536 + l) = BitVec.ofNat 8 l := by
    apply BitVec.eq_of_toNat_eq; simp only [BitVec.toNat_ofNat]; omega
  rw [put32, e, put16, put16, e1, e0]; rfl

/-- The four bytes of a signed number (R187). -/
theorem putI32_of_bytes (b3 b2 b1 b0 : Byte) (p : List Byte) (i : Nat) (e3 : byteAt p i = b3.toNat)
    (e2 : byteAt p (i + 1) = b2.toNat) (e1 : byteAt p (i + 2) = b1.toNat) (e0 : byteAt p (i + 3) = b0.toNat) :
    putI32 (i32At p i) = [b3, b2, b1, b0] := by
  rw [putI32, i32At, u32At, signed_of_halves _ _ (u16At_le ..) (u16At_le ..), put32_of_halves _ _ (u16At_le ..),
    put16_of_bytes b3 b2 (by rw [u16At, e3, e2]), put16_of_bytes b1 b0 (by rw [u16At, e1, e0])]
  rfl

/-- The payload of an admitted setting gives its axis and the setting back (R58, section 11.7). -/
theorem axisSettingOf_payload (a : AxisId) (w : AxisSetting) (h : w.Admitted) :
    axisOfCode (byteAt (AxisSetting.payload a w) 0) = some a ∧ axisSettingOf (AxisSetting.payload a w) = some w := by
  obtain ⟨h1, h2, h3, h4, h5⟩ := h
  have b1 : -2147483647 ≤ w.windowMin := h1
  have b3 : w.windowMax ≤ 2147483647 := h3
  have q4 : i32At (AxisSetting.payload a w) 4 = w.windowMin := i32At_of_putI32 _ (by omega) (by omega) _ _ (by
    rw [AxisSetting.payload_bytes]; intro k hk; match k, hk with | 0, _ | 1, _ | 2, _ | 3, _ => rfl)
  have q8 : i32At (AxisSetting.payload a w) 8 = w.windowMax := i32At_of_putI32 _ (by omega) (by omega) _ _ (by
    rw [AxisSetting.payload_bytes]; intro k hk; match k, hk with | 0, _ | 1, _ | 2, _ | 3, _ => rfl)
  have q0 : byteAt (AxisSetting.payload a w) 0 = AxisId.code a := by rw [AxisSetting.payload_bytes]; cases a <;> rfl
  have q1 : byteAt (AxisSetting.payload a w) 1 = ownerCode w.owner := by
    rw [AxisSetting.payload_bytes]; rcases w.owner with _ | _ | _ <;> rfl
  have q2 : byteAt (AxisSetting.payload a w) 2 = w.mode.code := by
    rw [AxisSetting.payload_bytes]; cases w.mode <;> rfl
  have q3 : byteAt (AxisSetting.payload a w) 3 = w.sense.code := by
    rw [AxisSetting.payload_bytes]; cases w.sense <;> rfl
  have q14 : byteAt (AxisSetting.payload a w) 14 = Level.code w.homeLevel := by
    rw [AxisSetting.payload_bytes]; cases w.homeLevel <;> rfl
  have q15 : byteAt (AxisSetting.payload a w) 15 = w.homeDir.code := by
    rw [AxisSetting.payload_bytes]; cases w.homeDir <;> rfl
  have q16 : byteAt (AxisSetting.payload a w) 16 = w.guard.toNat := by
    rw [AxisSetting.payload_bytes]; cases w.guard <;> rfl
  have q17 : byteAt (AxisSetting.payload a w) 17 = w.homeFilter := by
    rw [AxisSetting.payload_bytes]; exact Nat.mod_eq_of_lt (Nat.lt_succ_of_le h5)
  have q12 : u16At (AxisSetting.payload a w) 12 = w.holdTime := by
    rw [AxisSetting.payload_bytes]; exact two_bytes h4
  refine ⟨by rw [q0, axisOfCode_code], ?_⟩
  unfold axisSettingOf
  rw [q1, q2, q3, q14, q15, q16, q17, q12, q4, q8, ownerOfCode_code, modeOfCode_code, senseOfCode_code, levelOfCode_code,
    homeDirOfCode_code, flagOfCode_code]
  simp only [Option.bind_eq_bind, Option.bind_some, Bool.and_eq_true, decide_eq_true_eq]
  rw [if_pos ⟨⟨h1, h3⟩, h2⟩]

/-- A payload that names an axis and an admitted setting is the payload of them (R58, section 11.7). -/
theorem payload_of_axisSettingOf (p : List Byte) (hl : p.length = 18) (a : AxisId) (w : AxisSetting)
    (ha : axisOfCode (byteAt p 0) = some a) (hw : axisSettingOf p = some w) : w.Admitted ∧ p = AxisSetting.payload a w := by
  match p, hl with
  | [b0, b1, b2, b3, b4, b5, b6, b7, b8, b9, b10, b11, b12, b13, b14, b15, b16, b17], _ =>
  unfold axisSettingOf at hw
  simp only [Option.bind_eq_bind, Option.bind_eq_some_iff] at hw
  obtain ⟨owner, h1, mode, h2, sense, h3, homeLevel, h14, homeDir, h15, guard, h16, hw⟩ := hw
  split at hw
  · rename_i hb
    simp only [Option.some.injEq] at hw
    have k0 : b0.toNat = AxisId.code a := by unfold axisOfCode at ha; split at ha <;> cases ha <;> assumption
    have k1 : b1.toNat = ownerCode owner := by unfold ownerOfCode at h1; split at h1 <;> cases h1 <;> assumption
    have k2 : b2.toNat = mode.code := by unfold modeOfCode at h2; split at h2 <;> cases h2 <;> assumption
    have k3 : b3.toNat = sense.code := by unfold senseOfCode at h3; split at h3 <;> cases h3 <;> assumption
    have k14 : b14.toNat = Level.code homeLevel := by unfold levelOfCode at h14; split at h14 <;> cases h14 <;> assumption
    have k15 : b15.toNat = homeDir.code := by unfold homeDirOfCode at h15; split at h15 <;> cases h15 <;> assumption
    have k16 : b16.toNat = guard.toNat := by unfold flagOfCode at h16; split at h16 <;> cases h16 <;> assumption
    subst hw
    simp only [Bool.and_eq_true, decide_eq_true_eq] at hb
    refine ⟨⟨hb.1.1, hb.2, hb.1.2, u16At_le .., Nat.le_of_lt_succ b17.isLt⟩, ?_⟩
    simp only [AxisSetting.payload]
    rw [putI32_of_bytes b4 b5 b6 b7 _ 4 rfl rfl rfl rfl, putI32_of_bytes b8 b9 b10 b11 _ 8 rfl rfl rfl rfl,
      show put16 (u16At [b0, b1, b2, b3, b4, b5, b6, b7, b8, b9, b10, b11, b12, b13, b14, b15, b16, b17] 12) = [b12, b13]
        from put16_of_bytes b12 b13 rfl]
    simp only [put8, ofNat_of_toNat_eq k0, ofNat_of_toNat_eq k1, ofNat_of_toNat_eq k2, ofNat_of_toNat_eq k3,
      ofNat_of_toNat_eq k14, ofNat_of_toNat_eq k15, ofNat_of_toNat_eq k16, List.cons_append, List.nil_append,
      show BitVec.ofNat 8 (byteAt [b0, b1, b2, b3, b4, b5, b6, b7, b8, b9, b10, b11, b12, b13, b14, b15, b16, b17] 17) = b17
        from ofNat_of_toNat_eq rfl]
  · cases hw

/-- A payload of an admitted length passes on to the request (R157). -/
theorem withLength_eq {lo hi m r s} (h : lo ≤ r.payload.length) (h' : r.payload.length ≤ hi) : withLength lo hi m r s =
    m r s := by
  simp [withLength, h, h']

/-- A request that names a lane reaches it. -/
theorem onLane_code {m r s l} (h : r.payload = put8 (LaneId.code l)) : withLength 1 1 (onLane m) r s = m l r s := by
  rw [withLength_eq (by rw [h]; simp [put8]) (by rw [h]; simp [put8])]
  simp [onLane, h, byteAt_put8_laneCode, laneOfCode_code]

/-- A request that names no lane is refused with BAD-FIELD. -/
theorem onLane_bad {m} {r : Request} {s} {b : Byte} (h : r.payload = [b]) (hb : 1 < b.toNat) :
    withLength 1 1 (onLane m) r s = (s, Reply.only .badField) := by
  rw [withLength_eq (by rw [h]; simp) (by rw [h]; simp)]
  simp [onLane, h, byteAt, laneOfCode_none hb]

/-- A request that names an axis reaches it. -/
theorem onAxis_code {m : AxisId → Request → State → State × Reply} {r : Request} {s} {b : Byte} {a} (h : r.payload =
    [b]) (hb : b.toNat = AxisId.code a) : withLength 1 1 (onAxis m) r s = m a r s := by
  rw [withLength_eq (by rw [h]; simp) (by rw [h]; simp)]
  simp [onAxis, h, byteAt, hb, axisOfCode_code]

/-- A request that names no axis is refused with BAD-FIELD. -/
theorem onAxis_bad {m} {r : Request} {s} {b : Byte} (h : r.payload = [b]) (hb : 3 < b.toNat) :
    withLength 1 1 (onAxis m) r s = (s, Reply.only .badField) := by
  rw [withLength_eq (by rw [h]; simp) (by rw [h]; simp)]
  simp [onAxis, h, byteAt, axisOfCode_none hb]

/-- An answered request that changes no lane and no axis. -/
theorem answered_still {row : Instr} {s s1 : State} {i o r p} (h : Executes row s i o r) (m : Meaning) (hm : m r s = (s1, p))
    (hp : s1.power = s.power) (hl : s1.lanes = s.lanes)
    (ha : s1.axes = s.axes) (haft : p.after = .nothing) :
    execRequest row m s = .next (answeredWith s1 i o r p.status.code p.data) := by
  rw [execRequest_execute_still h m hm hp hl ha, haft]; rfl

/-- An answered request that leaves the conditions of every hold timer as they were. -/
theorem answered_runs {row : Instr} {s s1 : State} {i o r p} (h : Executes row s i o r) (m : Meaning) (hm : m r s = (s1, p))
    (hp : s1.power = s.power) (hr : ∀ a, s.holdRuns a = s1.holdRuns a) (haft : p.after = .nothing) :
    execRequest row m s = .next (answeredWith s1 i o r p.status.code p.data) := by
  rw [execRequest_execute h m (by rw [hm, hp]; exact h.running), hm, settleHoldTimers_of_holdRuns_eq hr, haft]; rfl

/-- An answered request, with the hold timers it starts and stops (R53). -/
theorem answered_settle {row : Instr} {s s1 : State} {i o r p} (h : Executes row s i o r) (m : Meaning) (hm : m r s = (s1, p))
    (hp : s1.power = s.power) (haft : p.after = .nothing) :
    execRequest row m s = .next (answeredWith (settleHoldTimers s s1) i o r p.status.code p.data) := by
  rw [execRequest_execute h m (by rw [hm, hp]; exact h.running), hm, haft]; rfl

/-- An answered request that acts on the lanes as an event does (R53, R156). -/
theorem answered_lane {row : Instr} {s s1 : State} {i o r p} (h : Executes row s i o r) (m : Meaning) (hm : m r s = (s1, p))
    (haft : p.after = .nothing) (fr : LaneFrame s s1) :
    ∃ t, execRequest row m s = .next t ∧ SameElsewhere s t ∧ HoldTimersSettled s t ∧
      t.link = linkAnswered s.link i o r (replyOf r p.status.code p.data) .nothing ∧ t.lanes = s1.lanes ∧ t.sync =
          s1.sync ∧ t.reports = s1.reports ∧
      (∀ a, (t.axis a).untimed = (s1.axis a).untimed) := by
  refine ⟨_, answered_settle h m hm fr.power haft, ?_, ?_, ?_, rfl, rfl, rfl, ?_⟩
  · exact ⟨fr.power, fr.pins, fr.lines, fr.time, fr.captures, fr.patterns, fr.restartWait, fr.freeCount, fr.pending⟩
  · have k := settleHoldTimers_settled fr.timers
    exact ⟨k.kept, k.started, k.stopped⟩
  · simp [answeredWith, fr.link]
  · intro a; exact settleHoldTimers_untimed ..

/-- A change of a lane that leaves what it executes starts and stops no hold timer. -/
theorem holdRuns_setLane {s : State} {l v} (h : v.executing = (s.lane l).executing) (a) : s.holdRuns a =
    (s.setLane l v).holdRuns a := by
  refine holdRuns_congr (s := s) (t := s.setLane l v) a rfl rfl rfl fun l' => ?_
  rw [State.lane_setLane]; split
  · subst l'; exact h.symm
  · rfl

/-- A change of an axis outside the conditions of R53 starts and stops no hold timer. -/
theorem holdRuns_setAxis {s : State} {a x} (h1 : x.energised = (s.axis a).energised) (h2 : x.holdTime =
    (s.axis a).holdTime) (h3 : x.owner = (s.axis a).owner) (b) :
   s.holdRuns b = (s.setAxis a x).holdRuns b := by
  have : (s.setAxis a x).axis b = if b = a then x else s.axis b := State.axis_setAxis ..
  apply holdRuns_congr
  · rw [this]; split
    · subst b; exact h1.symm
    · rfl
  · rw [this]; split
    · subst b; exact h2.symm
    · rfl
  · rw [this]; split
    · subst b; exact h3.symm
    · rfl
  · intro l; rfl

/-- A lane that is not busy executes nothing. -/
theorem executing_of_not_busy {v : Lane} (h : v.busy = false) : v.executing = false := by
  unfold Lane.busy at h; unfold Lane.executing; split at h <;> simp_all

/-- A hold changes nothing of what a lane executes (R53). -/
theorem underHold_executing (b c : Bool) (v : Lane) : (v.underHold b c).executing = v.executing := by
  unfold Lane.underHold; split
  · rename_i h _; simp [Lane.executing, h]
  · rename_i h _; simp [Lane.executing, h]
  · rfl

/-- The hold timers settle with a change of one axis alone (R53). -/
theorem settleHoldTimers_setAxis {s : State} {a : AxisId} {x y : Axis}
   (hy : (match s.holdRuns a, (s.setAxis a x).holdRuns a with
      | false, true => { x with holdTimer := (s.setAxis a x).holdStart x }
      | true, false => { x with holdTimer := none }
      | _, _ => x) = y) : settleHoldTimers s (s.setAxis a x) = s.setAxis a y := by
  have e : (settleHoldTimers s (s.setAxis a x)).axes = (s.setAxis a y).axes := by
    apply PerAxis.eq_of_get
    intro b
    have := settleHoldTimers_axis s (s.setAxis a x) b
    change (settleHoldTimers s (s.setAxis a x)).axis b = (s.setAxis a y).axis b
    rw [this, State.axis_setAxis, State.axis_setAxis]
    by_cases hb : b = a
    · subst hb; simp only [if_true]; exact hy
    · have hr : s.holdRuns b = (s.setAxis a x).holdRuns b := by
        apply holdRuns_congr <;> simp [hb]
      rw [← hr]; simp only [if_neg hb]; cases s.holdRuns b <;> rfl
  calc settleHoldTimers s (s.setAxis a x) = { s.setAxis a x with axes := (settleHoldTimers s (s.setAxis a x)).axes } := rfl
    _ = s.setAxis a y := by rw [e]; rfl

/-- The report queue under an accepted SET-LINK, field by field (R163, R182). -/
theorem switchTo_eq (q : ReportQueue) (want : Delivery) (p l : Nat) :
   ({ q.switchTo want with resendPeriod := p, resendLimit := l } : ReportQueue) =  { q with
        mode := want, resendPeriod := p, resendLimit := l
        head := if q.mode = want ∨ (want = .poll ∧ q.head = .sending) then q.head else .unsent
        retries := if q.mode = want ∨ (want = .poll ∧ q.head = .sending) then q.retries else 0
        resendTimer := if q.mode = want then q.resendTimer else none
        suspended := if q.mode = want then q.suspended else false } := by
  obtain ⟨_, _, _, mode, _, _, head, _, _, _⟩ := q
  cases mode <;> cases want <;> cases head <;> rfl

end Sys2Proof.Machine
end

