-- ==== Sys2Proof/Laws/Events.lean ====
section
/-! SUPPORT. What the events have in common, said once: the transmitter's choice at their end, and what the input lines do to
the lanes. -/

namespace Sys2Proof.Machine

open Sys2Proof

/-- An event that starts and stops no hold timer ends in the choice of the transmitter. -/
theorem onEvent_chooses {f} {s t : State} (hr : s.power = .running) (hf : f s = some t) (hp : t.power = s.power) (h :
    ∀ a, s.holdRuns a = t.holdRuns a) :
   ∃ u, onEvent f s = .next u ∧ Chooses t u := by
  refine ⟨beginFrame t, ?_, beginFrame_chooses (by rw [hp, hr])⟩
  simp [onEvent, State.running, hr, hf, settleHoldTimers_of_holdRuns_eq h]

/-- An event of the transmitter ends in its choice. -/
theorem onLinkEvent_chooses {f} {s u : State} (hr : s.power = .running) (hf : f s = some u) (hp : u.power = s.power) :
    ∃ t, onLinkEvent f s = .next t ∧ Chooses u t :=
  ⟨beginFrame u, by simp [onLinkEvent, State.running, hr, hf], beginFrame_chooses (hp.trans hr)⟩

/-- An event with nothing for the transmitter ends in its own effect. -/
theorem onQuietEvent_eq {f} {s u : State} (hr : s.power = .running) (hf : f s = some u) : onQuietEvent f s = .next u := by
  simp [onQuietEvent, State.running, hr, hf]

/-- The slot found is FREE (R146). -/
theorem slot_of_freeSlot {k : Link} {i} (h : k.freeSlot = some i) : k.slot i = .free := by
  unfold Link.freeSlot at h; split at h
  · cases h; assumption
  split at h
  · cases h; assumption
  · cases h

/-- No slot is FREE (R146). -/
theorem freeSlot_eq_none {k : Link} : k.freeSlot = none ↔ ¬(k.slot0 = .free ∨ k.slot1 = .free) := by
  unfold Link.freeSlot; split
  · simp [*]
  split
  · simp [*]
  · simp [*]

/-- The hold timers settle by the conditions before the event alone (R53). -/
theorem settleHoldTimers_congr {s s' t : State} (h : ∀ a, s.holdRuns a = s'.holdRuns a) : settleHoldTimers s t =
    settleHoldTimers s' t := by
  unfold settleHoldTimers
  congr 1
  apply PerAxis.eq_of_get; intro a
  rw [PerAxis.get_mapWith, PerAxis.get_mapWith, h]

/-- A lane with a condition unmet is WAITING (R65). -/
theorem LaneLaw.waiting_of_unmet {s l} (law : LaneLaw s) (h : (s.lane l).unmet ≠ Unmet.empty) : (s.lane l).state =
    .waiting := (law.lanes l).unmetIff.1 h

/-- A lane with a standing entry is WAITING (R74). -/
theorem LaneLaw.waiting_of_entry {s l} (law : LaneLaw s) (h : s.sync.get l ≠ none) : (s.lane l).state = .waiting := by
  have := law.entryIff l
  rw [Option.isSome_iff_ne_none.2 h] at this
  exact LaneLaw.waiting_of_unmet law (by intro k; rw [k] at this; cases this)

/-- A lane that is not HALTED has no halt record (R85). -/
theorem LaneLaw.halt_none {s l} (law : LaneLaw s) (h : (s.lane l).state ≠ .halted) : (s.lane l).halt = none := by
  cases e : (s.lane l).halt with
  | none => rfl
  | some x => exact absurd ((law.lanes l).haltIff.1 (by rw [e]; rfl)) h

/-- Some axis of the lane is RELEASED (R13). -/
theorem hasReleased_iff (s : State) (l : LaneId) : s.hasReleased l = true ↔ ∃ a, (s.axis a).owner = some l ∧
    (s.axis a).energised = false := by
  simp [State.hasReleased, allAxes, List.any]
  constructor
  · rintro (h | h | h | h)
    · exact ⟨_, h⟩
    · exact ⟨_, h⟩
    · exact ⟨_, h⟩
    · exact ⟨_, h⟩
  · rintro ⟨a, h⟩; cases a
    · exact .inl h
    · exact .inr (.inl h)
    · exact .inr (.inr (.inl h))
    · exact .inr (.inr (.inr h))

/-- A MOVE or a HOME. -/
theorem isMotion_iff (g : Segment) : g.isMotion = true ↔ g.kind ≠ .dwell := by simp [Segment.isMotion]

/-- When an activation settles (R13). -/
theorem settles_iff (l g) (s : State) : settles l g s = true ↔ (g.kind ≠ .dwell ∧ (s.lane l).settings.settle ≠ 0 ∧ ∃ a,
    (s.axis a).owner = some l ∧ (s.axis a).energised = false) := by
  unfold settles
  rw [Bool.and_eq_true, Bool.and_eq_true, isMotion_iff, hasReleased_iff, bne_iff_ne]
  exact ⟨fun ⟨⟨a, b⟩, c⟩ => ⟨a, c, b⟩, fun ⟨a, c, b⟩ => ⟨⟨a, b⟩, c⟩⟩

/-- A home-line event of a lane that runs no HOME of the axis touches nothing (R104). -/
theorem homeEvent_of_no_homing {l a b} {s : State} (h : (s.lane l).state ≠ .running ∧ (s.lane l).state ≠ .held ∨
        ∀ g ∈ (s.lane l).queue.head?, ∀ limit preset, g.body ≠ .home a limit preset) : homeEvent l a b s = s := by
  unfold homeEvent; dsimp only
  split
  · rename_i h0
    simp at h0
    rcases h with h | h
    · rcases h0 with h0 | h0
      · exact absurd h0 h.1
      · exact absurd h0 h.2
    · split
      · rename_i b' _ preset hrun e1 e2
        split
        · subst b'
          exfalso
          cases hq : (s.lane l).queue with
          | nil => rw [hq] at e1; simp at e1
          | cons g r =>
            rw [hq] at e1 h; simp at e1; exact h g rfl _ _ e1
        · rfl
      · rfl
  · rfl

/-- A home-line event of a lane that is neither RUNNING nor HELD touches nothing (R104). -/
theorem homeEvent_of_not_running {l a b} {s : State} (h : (s.lane l).state ≠ .running) (h' : (s.lane l).state ≠ .held) :
    homeEvent l a b s = s := by
  simp [homeEvent, h, h']

/-- What an edge of a START line leaves (R67). -/
theorem meetTrigger_frame (n l) (s : State) : LaneFrame s (meetTrigger n l s) := by
  unfold meetTrigger; dsimp only; split
  · exact (LaneFrame.setLane ..).trans (leaveIfMet_frame ..)
  · exact .refl s

/-- What a hold leaves (R72). -/
theorem applyHold_frame (l) (s : State) : LaneFrame s (applyHold l s) := by
  rw [applyHold_eq]; exact .setLane ..

/-- What an edge of a HALT line leaves (R82). -/
theorem haltMasked_frame (m) (s : State) : LaneFrame s (haltMasked m s) := by
  cases m
  · exact .refl s
  · exact halt_frame ..
  · exact halt_frame ..
  · exact (haltOnly_frame ..).trans (haltOnly_frame ..)

/-- What a change of a trigger line leaves (R119). -/
theorem roleEffect_frame (n b) (s : State) : LaneFrame s (roleEffect n b s) := by
  unfold roleEffect; split
  · exact (meetTrigger_frame ..).trans (meetTrigger_frame ..)
  · exact (applyHold_frame ..).trans (applyHold_frame ..)
  · exact haltMasked_frame ..
  · exact .refl s

/-- What an edge of a START line does to the axes (R51, R67). -/
theorem meetTrigger_energises (n l) (s : State) : EnergisesOnly s (meetTrigger n l s) := by
  unfold meetTrigger; dsimp only; split
  · refine .trans ?_ (leaveIfMet_energises _ _ _)
    exact .of_axes rfl
  · exact .of_axes rfl

/-- What a change of a trigger line does to the axes (R51, R119). -/
theorem roleEffect_energises (n b) (s : State) : EnergisesOnly s (roleEffect n b s) := by
  unfold roleEffect; split
  · exact .trans (meetTrigger_energises _ _ _) (meetTrigger_energises _ _ _)
  · exact .of_axes (by rw [applyHolds_eq])
  · cases (s.line n).mask
    · exact .of_axes rfl
    · exact .of_axes (halt_axes ..)
    · exact .of_axes (halt_axes ..)
    · exact .of_axes (by simp [haltMasked])
  · exact .of_axes rfl

/-- No axis moves. -/
theorem EnergisesOnly.position {s t : State} (h : EnergisesOnly s t) (a) : (t.axis a).position = (s.axis a).position := by
  rw [(h.axis a).1]

/-- The edge of a change to a level (R119). -/
theorem edgeTo_eq (v : Level) : edgeTo v = if v = .high then .rise else .fall := by cases v <;> rfl

/-- The accepted edges of an edge setting (R119). -/
theorem accepts_iff (e : EdgeSetting) (d : Edge) : e.accepts d = true ↔ (e = .both ∨ (e = .rise ∧ d = .rise) ∨ (e =
    .fall ∧ d = .fall)) := by
  cases e <;> cases d <;> decide

/-- A capture reads the log, the stamp, the lanes, the positions and the report queue alone (R126). -/
theorem makeCapture_congr {source edge} {s t : State} (hc : t.captures = s.captures) (ht : t.time = s.time) (hl :
    t.lanes = s.lanes) (ha : t.positions = s.positions) (hr : t.reports = s.reports) :
   (makeCapture source edge t).captures = (makeCapture source edge s).captures ∧ (makeCapture source edge t).reports =
       (makeCapture source edge s).reports := by
  have e : captureRecord source edge t = captureRecord source edge s := by simp [captureRecord, hc, ht, hl, ha]
  unfold makeCapture
  simp only [hc, e]
  split
  · exact ⟨rfl, hr⟩
  split
  · simp [enqueue, hr]
  · exact ⟨rfl, hr⟩

/-- A capture that may be made changes the log and the report queue alone. -/
theorem captureIf_frame (b : Bool) (src e) (u : State) :
    (if b then makeCapture src e u else u) = { u with
      captures := (if b then makeCapture src e u else u).captures
      reports := (if b then makeCapture src e u else u).reports } := by
  cases b
  · rfl
  · simp only [if_true]; exact makeCapture_frame ..

/-- The filtered change of a trigger line in its order: the level, the capture, the lanes (R118, R119). -/
theorem passTriggerFilter_eq (n) (s : State) : passTriggerFilter n s =
   let t := s.line n
   let u := s.setLine n { t with input := ⟨t.input.raw, t.input.raw, none⟩ }
   let c := if t.capture && t.edge.accepts (edgeTo t.input.raw) then makeCapture (.line n)
       (some (edgeTo t.input.raw)) u else u
   roleEffect n (t.edge.accepts (edgeTo t.input.raw)) c := rfl

/-- The edge of a START line touches neither the other lane nor the sync unit (R67). -/
theorem meetTrigger_other (n l) (z : State) : (meetTrigger n l z).lane (otherLane l) = z.lane (otherLane l) ∧
    (meetTrigger n l z).sync = z.sync ∧ (meetTrigger n l z).reports = z.reports := by
  unfold meetTrigger; dsimp only
  split
  · unfold leaveIfMet; split
    · generalize hz : z.setLane l _ = z'
      have h1 : z'.lane (otherLane l) = z.lane (otherLane l) := by rw [← hz, State.lane_setLane, if_neg (otherLane_ne l)]
      have h2 : z'.sync = z.sync := by rw [← hz]; rfl
      have h3 : z'.reports = z.reports := by rw [← hz]; rfl
      cases hq : (z'.lane l).queue with
      | nil => unfold beginSegment; rw [hq]; exact ⟨h1, h2, h3⟩
      | cons g r =>
        rw [beginSegment_eq _ hq]
        refine ⟨?_, ?_, ?_⟩
        · rw [State.lane_setLane, if_neg (otherLane_ne l), ← h1]; split <;> rfl
        · rw [← h2]; cases g.isMotion <;> rfl
        · rw [← h3]; cases g.isMotion <;> rfl
    · exact ⟨by rw [State.lane_setLane, if_neg (otherLane_ne l)], rfl, rfl⟩
  · exact ⟨rfl, rfl, rfl⟩

/-! ### Device resets -/

/-- A device reset that has begun holds the part as R188 says. -/
theorem inReset_beginReset (c : ResetCause) (s : State) : InReset (beginReset c s) :=
  ⟨⟨_, _, rfl⟩, fun a => by cases a <;> rfl, rfl, rfl, rfl, fun l => by cases l <;> rfl, ⟨rfl, rfl, rfl, rfl, rfl⟩, rfl, rfl⟩

/-- While a device reset lasts no request is taken (R188). -/
theorem takeRequest_of_inReset {row : Instr} {f : Byte → Byte → List Byte → List Byte} {m : Meaning} {s : State}
    (h : s.running = false) : takeRequest row f m s = s := by
  unfold takeRequest; rw [h]; rfl

/-- While a device reset lasts a command that is none of its own changes an input pin alone, or nothing (R188, log 14). -/
theorem exec_inReset {s : State} {cause : ResetCause} {e : Nat} (h : s.power = .inReset cause e) (c : Instr) :
    match c with
        | .powerOn | .rstnLow | .deviceResetEnd _ _ => True
        | .rxdLevelChange level => exec c s = .next { s with pins := { s.pins with rxd := level } }
        | .triggerRawChange n level =>
          exec c s = .next (s.setLine n { s.line n with input := { (s.line n).input with raw := level } })
        | .homeRawChange a level =>
          exec c s = .next (s.setAxis a { s.axis a with home := { (s.axis a).home with raw := level } })
        | _ => exec c s = .next s := by
  have hr : s.running = false := by simp [State.running, h]
  cases c
  all_goals first
    | trivial
    | (simp [exec, execRxdLevelChange, execTriggerRawChange, execHomeRawChange, execByteArrival, execFrameReceived,
        execFramingError, execLenOver200, execGapExpiry, execLinkBreak, execFrameSent, execFrameBegin, execStepEvent,
        execInProgressStepEvent, execStopRampStepEvent, execDwellIntervalExpiry, execHomingStepEvent,
        execHomeLimitIntervalExpiry, execSettleExpiry, execHoldTimerExpiry, execSyncTimeoutExpiry, execSilenceExpiry,
        execResendTimerExpiry, execTriggerFilteredChange, execHomeFilteredChange, execPulseEnd, onEvent, onLinkEvent,
        onQuietEvent, hr]; done)
    | exact congrArg _ (takeRequest_of_inReset hr)

end Sys2Proof.Machine
end

