-- ==== Sys2Proof/Laws/Activation.lean ====
section
/-! SUPPORT. All that an activation, the decision of a sync wait and a completion do, said once in the terms of Safety.lean. -/

namespace Sys2Proof.Machine

open Sys2Proof

/-! ### Activation and sync -/

/-- The line of a TRIGGER condition, as the model finds it and as the laws say it. -/
theorem triggerLine_eq (g : Segment) : g.triggerLine = startLine g := by
  unfold Segment.triggerLine startLine; cases g.start <;> rfl

/-- The homing run that begins with the first interval (R107). -/
theorem startPhase_eq (s : State) (g : Segment) : startPhase s g = runBegun s g := by
  unfold startPhase runBegun Axis.homeActive; cases g.body <;> simp

/-- The homing run of a lane that waits, its phase not chosen (R106). -/
theorem startRun_eq (s : State) (g : Segment) : g.startRun = (runBegun s g).map fun _ => ⟨.notChosen, false⟩ := by
  unfold Segment.startRun runBegun; cases g.body <;> rfl

/-- The accumulators that an activation starts (R30). -/
theorem startAccumulators_get {g : Segment} {entries : List (AxisId × Int)} {i1 n : Nat} (hb : g.body = .move entries i1 n)
    (a : AxisId) : g.startAccumulators.get a = accumulatorAfter n 0 (countOf entries a) := by
  have h : n / 2 % n = n / 2 := by
    rcases Nat.eq_zero_or_pos n with rfl | h
    · rfl
    · exact Nat.mod_eq_of_lt (Nat.div_lt_self h (by omega))
  simp [Segment.startAccumulators, hb, accumulatorAfter, h]

/-- A lane that an activation has prepared, with `v` before it, is `Activated` by what decides its conditions. -/
theorem activated_of_lane {l : LaneId} {g : Segment} {rest : List Segment} {sync atTick : Bool} {s t : State}
    (hq : (s.lane l).queue = g :: rest) (hh : (s.lane l).halt = none)
    (hr : runBegun t g = runBegun s g)
    (ht : t.lane l =
      let wait := settles l g s || g.triggerLine.isSome || sync
      { s.lane l with
        state := if wait then .waiting else if s.holdAsserted l then .held else .running
        started := true
        unmet := ⟨settles l g s, g.triggerLine, sync⟩
        settleTimer := if settles l g s then some (s.msFor (s.lane l).settings.settle) else none
        stepTimer := if wait then .stopped else if s.holdAsserted l then .frozen g.firstInterval else .counting g.firstInterval atTick
        accumulators := g.startAccumulators
        interval := g.firstInterval
        stepCount := 0
        dwellLeft := g.dwellCount
        homing := if wait then g.startRun else startPhase s g
        ramp := none }) : Activated l g rest sync atTick s t := by
  dsimp only at ht
  constructor
  · rw [ht]; exact hq
  · rw [ht]; exact ⟨rfl, rfl, hh⟩
  · rw [ht]; exact ⟨rfl, rfl, rfl, rfl⟩
  · intro entries i1 n hb a; rw [ht]; exact startAccumulators_get hb a
  · intro n hb; rw [ht]; simp [Segment.dwellCount, hb]
  · intro h; rw [ht]; simp [(settles_iff l g s).2 h, triggerLine_eq]
  · intro h; rw [ht]; simp [Bool.eq_false_iff.2 (fun y => h ((settles_iff l g s).1 y)), triggerLine_eq]
  · intro h
    have : (settles l g s || g.triggerLine.isSome || sync) = true := by
      rw [Bool.or_eq_true, Bool.or_eq_true, settles_iff, triggerLine_eq, Option.isSome_iff_ne_none, or_assoc]; exact h
    rw [ht]; simp only [this, if_true]
    exact ⟨trivial, trivial, startRun_eq t g⟩
  · intro h1 h2 h3
    have : (settles l g s || g.triggerLine.isSome || sync) = false := by
      rw [triggerLine_eq, h2, h3, Bool.eq_false_iff.2 (fun y => h1 ((settles_iff l g s).1 y))]; rfl
    rw [ht]; simp only [this, Bool.false_eq_true, if_false, hr, startPhase_eq]
    exact ⟨trivial, fun k => by simp [k], fun k => by simp [k]⟩

/-- A homing run begins by the home lines alone (R107). -/
theorem runBegun_congr {s t : State} (g : Segment)
    (h : ∀ a, (t.axis a).home = (s.axis a).home ∧ (t.axis a).homeLevel = (s.axis a).homeLevel) : runBegun t g = runBegun s g := by
  unfold runBegun; split
  · rename_i a _ _ _; rw [(h a).1, (h a).2]
  · rfl

/-- Energising an axis changes no homing run. -/
theorem EnergisesOnly.runBegun {s t : State} (h : EnergisesOnly s t) (g : Segment) : runBegun t g = runBegun s g :=
  runBegun_congr g fun a => by rw [(h.axis a).1]; exact ⟨rfl, rfl⟩

/-- The leaving of WAITING by a lane that waits with no condition left (R15, R51, R107). -/
theorem leaveIfMet_of_met {l : LaneId} {s : State} {g : Segment} {rest : List Segment} (atTick : Bool)
    (hs : (s.lane l).state = .waiting) (hq : (s.lane l).queue = g :: rest) (hu : (s.lane l).unmet = ⟨false, none, false⟩) :
    leaveIfMet l atTick s = (if g.isMotion then energiseLane l s else s).setLane l { s.lane l with
      state := if s.holdAsserted l then .held else .running
      stepTimer := if s.holdAsserted l then .frozen g.firstInterval else .counting g.firstInterval atTick
      homing := startPhase s g } := by
  rw [← beginSegment_eq atTick hq]
  unfold leaveIfMet; simp [hs, hu, Unmet.isEmpty, Unmet.empty]

/-- A lane with a condition unmet goes on waiting (R15). -/
theorem leaveIfMet_of_unmet {l : LaneId} {s : State} (atTick : Bool) (hu : (s.lane l).unmet ≠ ⟨false, none, false⟩) :
    leaveIfMet l atTick s = s := by
  unfold leaveIfMet; simp [Unmet.isEmpty, Unmet.empty, hu]

/-- What an activation on lane `l` finds: the lane has halted with nothing and waits on no other lane, and a lane whose entry
stands waits with it. -/
structure MayActivate (l : LaneId) (s : State) : Prop where
  halt : (s.lane l).halt = none
  entry : s.sync.get l = none
  other : ∀ e, s.sync.get (otherLane l) = some e → (s.lane (otherLane l)).state = .waiting ∧
    (s.lane (otherLane l)).unmet.sync = true ∧ (s.lane (otherLane l)).queue ≠ [] ∧
    (s.lane (otherLane l)).settleTimer.isSome = (s.lane (otherLane l)).unmet.settle

/-- A lane that keeps its law and neither waits nor has halted may activate its next segment. -/
theorem LaneLaw.mayActivate {s : State} (law : LaneLaw s) {l : LaneId} (hs : (s.lane l).state ≠ .halted)
    (hw : (s.lane l).state ≠ .waiting) : MayActivate l s := by
  refine ⟨law.halt_none hs, ?_, fun e he => ?_⟩
  · cases h : s.sync.get l with
    | none => rfl
    | some e => exact absurd (law.waiting_of_entry (l := l) (by rw [h]; exact Option.some_ne_none _)) hw
  · have w := law.waiting_of_entry (l := otherLane l) (by rw [he]; exact Option.some_ne_none _)
    refine ⟨w, ?_, ?_, (law.lanes _).settleIff⟩
    · rw [← law.entryIff, he]; rfl
    · intro hq; have := (law.lanes _).emptyIff.1 hq; rw [w] at this; simp at this

theorem MayActivate.congr {l : LaneId} {s t : State} (m : MayActivate l s) (h1 : (t.lane l).halt = (s.lane l).halt)
    (h2 : t.sync = s.sync) (h3 : t.lane (otherLane l) = s.lane (otherLane l)) : MayActivate l t :=
  ⟨h1.trans m.halt, by rw [h2]; exact m.entry, by rw [h2, h3]; exact m.other⟩

/-- With no entry of the other lane standing, the lane's own entry stands (R75). -/
theorem enterSync_stands {l : LaneId} {s : State} (k : Nat) (b : Bool) (h : s.sync.get (otherLane l) = none) :
    enterSync l k b s = { s with
      lanes := s.lanes.set l { s.lane l with unmet := { (s.lane l).unmet with sync := true } }
      sync := s.sync.set l (some ⟨k, if (s.lane l).settings.syncTimeout = 0 then none
        else some (s.msFor (s.lane l).settings.syncTimeout)⟩) } := by
  unfold enterSync; dsimp only; rw [h]; rfl

/-- With an entry of the same number standing, both waits are met (R76). -/
theorem enterSync_met {l : LaneId} {s : State} {k : Nat} {timer : MsTimer} (b : Bool)
    (h : s.sync.get (otherLane l) = some ⟨k, timer⟩) :
    enterSync l k b s = leaveIfMet (otherLane l) b (leaveIfMet l b
      ((s.setLane (otherLane l) { s.lane (otherLane l) with
        unmet := { (s.lane (otherLane l)).unmet with sync := false } }).setSync (otherLane l) none)) := by
  unfold enterSync; dsimp only; rw [h]; simp

/-- With an entry of another number standing, both lanes halt, the waiting lane first (R77). -/
theorem enterSync_mismatch {l : LaneId} {s : State} {k : Nat} {e : SyncEntry} (b : Bool)
    (h : s.sync.get (otherLane l) = some e) (hn : e.number ≠ k) (hs : (s.lane l).state ≠ .halted)
    (ho : (s.lane (otherLane l)).state ≠ .halted) :
    enterSync l k b s = endLane l (some ⟨.syncMismatch, none⟩) (endLane (otherLane l) (some ⟨.syncMismatch, none⟩) s) := by
  unfold enterSync; dsimp only; rw [h]; dsimp only
  rw [if_neg hn, haltOnly_eq _ ho, haltOnly_eq]
  rw [endLane_lane, if_neg (ne_otherLane l)]; exact hs

/-- The state in which the sync wait of an activation is decided, by what differs from the state before. -/
structure Prepared (l : LaneId) (g : Segment) (s P : State) : Prop where
  frame : LaneFrame s P
  lane : P.lane l = { s.lane l with
      state := .waiting
      started := true
      unmet := ⟨settles l g s, g.triggerLine, false⟩
      settleTimer := if settles l g s then some (s.msFor (s.lane l).settings.settle) else none
      stepTimer := .stopped
      accumulators := g.startAccumulators
      interval := g.firstInterval
      stepCount := 0
      dwellLeft := g.dwellCount
      homing := g.startRun
      ramp := none }
  other : P.lane (otherLane l) = s.lane (otherLane l)
  sync : P.sync = s.sync
  reports : P.reports = s.reports
  axis : ∀ a, P.axis a = if g.isMotion = true ∧ (s.axis a).owner = some l then { s.axis a with energised := true } else s.axis a

theorem prepared (l : LaneId) (g : Segment) (s : State) : Prepared l g s (prepareActivation l g s) := by
  have e := prepareActivation_eq l g s
  refine ⟨prepareActivation_frame l g s, ?_, ?_, ?_, ?_, ?_⟩
  · rw [e]; simp
  · rw [e, State.lane_setLane, if_neg (otherLane_ne l)]; cases g.isMotion <;> rfl
  · rw [e]; cases g.isMotion <;> rfl
  · rw [e]; cases g.isMotion <;> rfl
  · intro a; rw [e]; exact energiseIf_axis g.isMotion l s a

/-- The leaving of WAITING, lane by lane and axis by axis. -/
theorem leaveIfMet_spec {l : LaneId} {s : State} {g : Segment} {rest : List Segment} (atTick : Bool)
    (hs : (s.lane l).state = .waiting) (hq : (s.lane l).queue = g :: rest) :
    let t := leaveIfMet l atTick s
    let leaves := (s.lane l).unmet = ⟨false, none, false⟩
    (¬leaves → t = s) ∧
    (leaves → t.lane l = { s.lane l with
        state := if s.holdAsserted l then .held else .running
        stepTimer := if s.holdAsserted l then .frozen g.firstInterval else .counting g.firstInterval atTick
        homing := runBegun s g }) ∧
    t.lane (otherLane l) = s.lane (otherLane l) ∧ t.sync = s.sync ∧ t.reports = s.reports ∧
    ∀ a, t.axis a = if leaves ∧ g.kind ≠ .dwell ∧ (s.axis a).owner = some l then { s.axis a with energised := true } else s.axis a := by
  dsimp only
  by_cases h : (s.lane l).unmet = ⟨false, none, false⟩
  · have e := leaveIfMet_of_met atTick hs hq h
    refine ⟨fun k => absurd h k, fun _ => ?_, ?_, ?_, ?_, ?_⟩
    · rw [e]; simp [startPhase_eq]
    · rw [e, State.lane_setLane, if_neg (otherLane_ne l)]; cases g.isMotion <;> rfl
    · rw [e]; cases g.isMotion <;> rfl
    · rw [e]; cases g.isMotion <;> rfl
    · intro a; rw [e]
      refine (energiseIf_axis g.isMotion l s a).trans ?_
      simp [h, ← isMotion_iff]
  · have e := leaveIfMet_of_unmet atTick h
    rw [e]
    exact ⟨fun _ => rfl, fun k => absurd k h, rfl, rfl, rfl, fun a => by simp [h]⟩

/-- All that an activation does (R13, R14, R30, R51, R75 to R77, R107). -/
theorem activate_spec {l : LaneId} {s : State} {g : Segment} {rest : List Segment} (atTick : Bool)
    (hq : (s.lane l).queue = g :: rest) (h : MayActivate l s) :
    let t := activate l atTick s
    (∀ k, g.start = .sync k → SyncDecided l g rest k atTick s t) ∧
    ((∀ k, g.start ≠ .sync k) →
      Activated l g rest false atTick s t ∧ t.lane (otherLane l) = s.lane (otherLane l) ∧ t.sync = s.sync) ∧
    t.reports = activationReports l g s (positionsOf s) s.reports ∧
    ∀ a, (PowersUp l g s a → t.axis a = { s.axis a with energised := true }) ∧ (¬PowersUp l g s a → t.axis a = s.axis a) := by
  have p := prepared l g s
  have hrun : ∀ t, t = activate l atTick s → ∀ g', runBegun t g' = runBegun s g' := by
    rintro t rfl g'; exact (activate_energises l atTick s).runBegun g'
  have hact : activate l atTick s = match g.start with
      | .sync k => enterSync l k atTick (prepareActivation l g s)
      | _ => leaveIfMet l atTick (prepareActivation l g s) := by unfold activate; rewrite [hq]; rfl
  generalize activate l atTick s = t at hrun hact
  generalize prepareActivation l g s = P at p hact
  have hrun := hrun t rfl
  have hms : ∀ n, P.msFor n = s.msFor n := fun n => by simp [State.msFor, p.frame.time]
  have hPl : (P.lane l).queue = g :: rest := by rw [p.lane]; exact hq
  have hPs : (P.lane l).state = .waiting := by rw [p.lane]
  have hold : P.holdAsserted l = s.holdAsserted l := holdAsserted_congr l (by rw [p.lane]) p.frame.lines
  have hPb : ∀ g', runBegun P g' = runBegun s g' := fun g' => runBegun_congr g' fun a => by
    rw [p.axis]; split <;> exact ⟨rfl, rfl⟩
  have hpw1 : ∀ a, (g.isMotion = true ∧ (s.axis a).owner = some l) → PowersUp l g s a := fun a k =>
    .inl ⟨(isMotion_iff g).1 k.1, k.2⟩
  dsimp only
  by_cases hsync : ∃ k, g.start = .sync k
  · obtain ⟨k, hk⟩ := hsync
    have hnt : g.triggerLine = none := by simp [Segment.triggerLine, hk]
    rw [hk] at hact; dsimp only at hact
    have hset : ∀ k', g.start = .sync k' → k' = k := fun k' hk' => by rw [hk] at hk'; cases hk'; rfl
    cases ho : s.sync.get (otherLane l) with
    | none =>
      rw [enterSync_stands k atTick (by rw [p.sync]; exact ho)] at hact
      have tl : t.lane l = { P.lane l with unmet := { (P.lane l).unmet with sync := true } } := by
        rw [hact]; exact PerLane.get_set_self ..
      refine ⟨fun k' hk' => ?_, fun hn => absurd hk (hn k), ?_, fun a => ?_⟩
      · cases hset k' hk'
        refine ⟨fun _ => ⟨activated_of_lane hq h.halt (hrun g) ?_, ?_, ?_⟩, fun timer e => ?_, fun e e' => ?_⟩
        · rw [tl, p.lane]; simp
        · rw [hact]; exact (PerLane.get_set_of_ne _ _ (otherLane_ne l)).trans p.other
        · rw [hact, p.sync, p.lane]; simp only [hms]
        · rw [ho] at e; cases e
        · rw [ho] at e'; cases e'
      · rw [hact]; simp [activationReports, ho, p.reports]
      · have e : t.axis a = P.axis a := by rw [hact]; rfl
        rw [e, p.axis]
        constructor
        · rintro (⟨h1, h2⟩ | ⟨_, ⟨_, _, _, h3⟩, _⟩)
          · rw [if_pos ⟨(isMotion_iff g).2 h1, h2⟩]
          · rw [ho] at h3; cases h3
        · intro hn; rw [if_neg fun k => hn (hpw1 a k)]
    | some e =>
      obtain ⟨w1, w2, w3, w4⟩ := h.other e ho
      obtain ⟨h', more, w3⟩ := List.exists_cons_of_ne_nil w3
      by_cases hn : e.number = k
      · obtain ⟨number, timer⟩ := e
        cases hn
        rw [enterSync_met atTick (timer := timer) (by rw [p.sync]; exact ho)] at hact
        generalize hT : (P.setLane (otherLane l) { P.lane (otherLane l) with
          unmet := { (P.lane (otherLane l)).unmet with sync := false } }).setSync (otherLane l) none = T at hact
        have tl : T.lane l = P.lane l := by
          rw [← hT]; exact (State.lane_setLane ..).trans (if_neg (ne_otherLane l))
        have tOther : T.lane (otherLane l) = { s.lane (otherLane l) with
            unmet := { (s.lane (otherLane l)).unmet with sync := false } } := by
          rw [← hT, ← p.other]; exact State.lane_setLane_self ..
        have ts : T.sync = ⟨none, none⟩ := by
          apply PerLane.eq_of_get; intro i
          have e : T.sync.get i = if i = otherLane l then none else P.sync.get i := by rw [← hT]; exact PerLane.get_set ..
          rw [e, p.sync]
          rcases eq_or_eq_otherLane l i with rfl | rfl
          · rw [if_neg (ne_otherLane _), h.entry]; cases i <;> rfl
          · rw [if_pos rfl]; cases l <;> rfl
        have ta : ∀ a, T.axis a = P.axis a := fun a => by rw [← hT]; rfl
        have ti : T.lines = s.lines := by rw [← hT]; exact p.frame.lines
        have tr : T.reports = s.reports := by rw [← hT]; exact p.reports
        have hA : T.holdAsserted l = s.holdAsserted l := holdAsserted_congr l (by rw [tl, p.lane]) ti
        have hAo : T.holdAsserted (otherLane l) = s.holdAsserted (otherLane l) := holdAsserted_congr _ (by rw [tOther]) ti
        obtain ⟨a1, a2, a3, a4, a5, a6⟩ := leaveIfMet_spec (l := l) (s := T) atTick (by rw [tl, hPs]) (by rw [tl, hPl])
        have fU : (leaveIfMet l atTick T).lines = T.lines := (leaveIfMet_frame ..).lines
        generalize leaveIfMet l atTick T = U at *
        have hTb : ∀ g', runBegun T g' = runBegun s g' := fun g' => by
          rw [← hPb]; exact runBegun_congr g' fun a => by rw [ta]; exact ⟨rfl, rfl⟩
        have hUb : ∀ g', runBegun U g' = runBegun s g' := fun g' => by
          rw [← hTb]; exact runBegun_congr g' fun a => by rw [a6]; split <;> exact ⟨rfl, rfl⟩
        obtain ⟨b1, b2, b3, b4, b5, b6⟩ := leaveIfMet_spec (l := otherLane l) (s := U) (g := h') (rest := more) atTick
          (by rw [a3, tOther]; exact w1) (by rw [a3, tOther]; exact w3)
        rw [← hact] at b1 b2 b3 b4 b5 b6
        rw [otherLane_otherLane] at b3
        have hu : U.holdAsserted (otherLane l) = s.holdAsserted (otherLane l) := by
          rw [← hAo]; exact holdAsserted_congr _ (by rw [a3]) fU
        refine ⟨fun k' hk' => ?_, fun hn => absurd hk (hn _), ?_, fun a => ?_⟩
        · cases hset k' hk'
          refine ⟨fun e => ?_, fun timer' _ => ⟨b4.trans (a4.trans ts), ?_, ?_, ?_⟩, fun e e1 e2 => ?_⟩
          rotate_right
          · rw [ho] at e1; cases e1; exact absurd rfl e2
          · rw [ho] at e; cases e
          · refine activated_of_lane hq h.halt (hrun g) ?_
            rw [b3]
            by_cases hl : (T.lane l).unmet = ⟨false, none, false⟩
            · have : settles l g s = false := by rw [tl, p.lane] at hl; exact congrArg Unmet.settle hl
              rw [a2 hl, tl, p.lane]
              simp [this, hnt, hA, hTb, startPhase_eq]
            · have : settles l g s = true := by
                rw [tl, p.lane, hnt] at hl; cases e : settles l g s
                · rw [e] at hl; exact absurd rfl hl
                · rfl
              rw [a1 hl, tl, p.lane]; simp [this]
          · intro hc
            rw [b1 (by
              rw [a3, tOther]; intro hu
              rcases hc with hc | hc
              · rw [show (s.lane (otherLane l)).unmet.settle = false from congrArg Unmet.settle hu] at hc; cases hc
              · exact hc (congrArg Unmet.trigger hu)), a3, tOther]
          · intro c1 c2 h0 hh0
            rw [w3] at hh0; cases hh0
            have hu0 : (U.lane (otherLane l)).unmet = ⟨false, none, false⟩ := by
              rw [a3, tOther]; simp [c1, c2]
            have ht : (s.lane (otherLane l)).settleTimer = none := by
              rw [c1] at w4; exact Option.not_isSome_iff_eq_none.1 (by rw [w4]; decide)
            rw [b2 hu0, a3, tOther, hu, hUb, hrun]
            simp [Lane.leftWaiting, ht, c1, c2]
        · rw [b5, a5, tr]; simp [activationReports, hk, ho]
        · have hu : (U.lane (otherLane l)).unmet = ⟨false, none, false⟩ ↔
              (s.lane (otherLane l)).unmet.settle = false ∧ (s.lane (otherLane l)).unmet.trigger = none := by
            rw [a3, tOther]; simp
          rw [b6, a6, ta, p.axis]
          have hP : PowersUp l g s a ↔ (g.isMotion = true ∧ (s.axis a).owner = some l) ∨
              ((U.lane (otherLane l)).unmet = ⟨false, none, false⟩ ∧ h'.kind ≠ .dwell ∧
                (s.axis a).owner = some (otherLane l)) := by
            rw [hu, isMotion_iff]
            constructor
            · rintro (k | ⟨k1, -, k2, k3, h0, k4, k5⟩)
              · exact .inl k
              · rw [w3] at k4; cases k4; exact .inr ⟨⟨k2, k3⟩, k5, k1⟩
            · rintro (k | ⟨⟨k2, k3⟩, k5, k1⟩)
              · exact .inl k
              · exact .inr ⟨k1, ⟨_, timer, hk, ho⟩, k2, k3, h', by rw [w3]; rfl, k5⟩
          rw [hP]
          by_cases m : g.isMotion = true ∧ (s.axis a).owner = some l
          · refine ⟨fun _ => ?_, fun k => absurd (.inl m) k⟩
            rw [if_pos m]; dsimp only
            split <;> split <;> rfl
          · rw [if_neg m]
            have m' : ∀ x, (x ∧ g.kind ≠ SegmentKind.dwell ∧ (s.axis a).owner = some l) ↔ False := fun x =>
              ⟨fun ⟨_, a, b⟩ => m ⟨(isMotion_iff g).2 a, b⟩, False.elim⟩
            simp only [m', if_false]
            constructor
            · rintro (k | k)
              · exact absurd k m
              · rw [if_pos k]
            · intro k; rw [if_neg fun k' => k (.inr k')]
      · rw [enterSync_mismatch atTick (by rw [p.sync]; exact ho) hn (by rw [hPs]; decide) (by rw [p.other, w1]; decide)] at hact
        have lanes : ∀ l', t.lane l' = if l' = l then (P.lane l).ended (some ⟨.syncMismatch, none⟩)
            else (s.lane (otherLane l)).ended (some ⟨.syncMismatch, none⟩) := by
          intro l'; rw [hact, endLane_lane, endLane_lane, endLane_lane, p.other]
          rcases eq_or_eq_otherLane l l' with rfl | rfl
          · rw [if_pos rfl, if_pos rfl, if_neg (ne_otherLane _)]
          · rw [if_neg (otherLane_ne _), if_pos rfl, if_neg (otherLane_ne _)]
        refine ⟨fun k' hk' => ?_, fun hn => absurd hk (hn _), ?_, fun a => ?_⟩
        · cases hset k' hk'
          refine ⟨fun e => ?_, fun timer' e' => ?_, fun e e1 e2 => ⟨?_, ?_, ?_⟩⟩
          · rw [ho] at e; cases e
          · rw [ho] at e'; cases e'; exact absurd rfl hn
          · apply PerLane.eq_of_get; intro i
            rw [hact, endLane_sync, endLane_sync]
            rcases eq_or_eq_otherLane l i with rfl | rfl
            · rw [if_pos rfl]; cases i <;> rfl
            · rw [if_neg (otherLane_ne _), if_pos rfl]; cases l <;> rfl
          · rw [lanes, if_pos rfl, p.lane]; rfl
          · rw [lanes, if_neg (otherLane_ne l)]
        · have e1 : stoppedReport (endLane (otherLane l) (some ⟨.syncMismatch, none⟩) P) l (some ⟨.syncMismatch, none⟩) =
              .laneStopped l (some ⟨.syncMismatch, none⟩) (cutOf (P.lane l)) (positionsOf P) := by
            simp only [stoppedReport, endLane_lane, if_neg (ne_otherLane l)]; rfl
          have e2 : positionsOf P = positionsOf s := by
            have : ∀ a, (P.axis a).position = (s.axis a).position := fun a => by rw [p.axis]; split <;> rfl
            simp only [positionsOf, this]
          have e3 : cutOf (P.lane l) = some ⟨g.tag, match g.body with
              | .move _ _ n => some n
              | _ => none⟩ := by
            rw [p.lane]; unfold cutOf; simp only [hq]; cases g.body <;> rfl
          rw [hact, endLane_eq, endLane_eq]
          simp only [activationReports, hk, ho, if_neg hn]
          rw [← endLane_eq, e1, e2, e3, ← p.reports]
          simp only [stoppedReport, p.other]
          rewrite [show (⟨(P.axis .A).position, (P.axis .B).position, (P.axis .C).position, (P.axis .D).position⟩ : PerAxis Int) =
            positionsOf P from rfl, e2]
          cases g.body <;> rfl
        · have e' : t.axis a = P.axis a := by rw [hact]; rfl
          rw [e', p.axis]
          constructor
          · rintro (⟨h1, h2⟩ | ⟨_, ⟨k', timer, h3, h4⟩, _⟩)
            · rw [if_pos ⟨(isMotion_iff g).2 h1, h2⟩]
            · rw [ho] at h4; cases h4; rw [hk] at h3; cases h3; exact absurd rfl hn
          · intro hn; rw [if_neg fun k => hn (hpw1 a k)]
  · have hns : ∀ k, g.start ≠ .sync k := fun k hk => hsync ⟨k, hk⟩
    have hact : t = leaveIfMet l atTick P := by
      rw [hact]; cases e : g.start <;> first | rfl | exact absurd e (hns _)
    obtain ⟨l1, l2, l3, l4, l5, l6⟩ := leaveIfMet_spec atTick hPs hPl
    rw [← hact] at l1 l2 l3 l4 l5 l6
    refine ⟨fun k hk => absurd hk (hns k), fun _ => ⟨?_, l3.trans p.other, l4.trans p.sync⟩, ?_, ?_⟩
    · refine activated_of_lane hq h.halt (hrun g) ?_
      by_cases hl : (P.lane l).unmet = ⟨false, none, false⟩
      · have h1 : settles l g s = false := by rw [p.lane] at hl; exact congrArg Unmet.settle hl
        have h2 : g.triggerLine = none := by rw [p.lane] at hl; exact congrArg Unmet.trigger hl
        rw [l2 hl, p.lane]; simp [h1, h2, hold, hPb, startPhase_eq]
      · have h1 : (settles l g s || g.triggerLine.isSome) = true := by
          rw [p.lane] at hl; cases e : settles l g s
          · rw [e] at hl; cases e' : g.triggerLine
            · rw [e'] at hl; exact absurd rfl hl
            · rfl
          · rfl
        rw [l1 hl, p.lane]; simp [h1]
    · rw [l5, p.reports]; unfold activationReports
      split
      · rename_i k _ hk _; exact absurd hk (hns k)
      · rfl
    · intro a
      have hP : PowersUp l g s a ↔ g.isMotion = true ∧ (s.axis a).owner = some l := by
        rw [isMotion_iff]; exact ⟨fun k => by
          rcases k with k | ⟨_, ⟨k', _, h3, _⟩, _⟩
          · exact k
          · exact absurd h3 (hns k'), .inl⟩
      rw [l6, p.axis, hP]
      by_cases m : g.isMotion = true ∧ (s.axis a).owner = some l
      · exact ⟨fun _ => by rw [if_pos m]; dsimp only; split <;> rfl, fun k => absurd m k⟩
      · exact ⟨fun k => absurd k m, fun _ => by
          rw [if_neg m]; split
          · rename_i k; exact absurd ⟨(isMotion_iff g).2 k.2.1, k.2.2⟩ m
          · rfl⟩

/-- What the edge of a START line does to a lane and its axes (R15, R51, R67, R107). -/
theorem meetTrigger_spec (n : TrgId) (l : LaneId) (s : State) :
    let v := s.lane l
    let t := meetTrigger n l s
    (¬waitsOn s l n → t = s) ∧
    (waitsOn s l n → (v.unmet.settle = true ∨ v.unmet.sync = true) →
      t = s.setLane l { v with unmet := { v.unmet with trigger := none } }) ∧
    ∀ g, edgeReleases s l n g → v.settleTimer = none →
      t.lane l = v.leftWaiting g (runBegun s g) (s.holdAsserted l) s.onTick ∧
      ∀ a, t.axis a = if g.kind ≠ .dwell ∧ (s.axis a).owner = some l then { s.axis a with energised := true } else s.axis a := by
  dsimp only
  have ho : waitsOn s l n → meetTrigger n l s =
      leaveIfMet l s.onTick (s.setLane l { s.lane l with unmet := { (s.lane l).unmet with trigger := none } }) := by
    intro h; unfold meetTrigger; simp [h.1, h.2]
  refine ⟨fun h => ?_, fun h k => ?_, fun g h ht => ?_⟩
  · unfold meetTrigger; exact if_neg (by simpa [waitsOn] using h)
  · rw [ho h]
    refine leaveIfMet_of_unmet _ ?_
    rw [State.lane_setLane_self]; rintro e
    rcases k with k | k
    · exact absurd (congrArg Unmet.settle e) (by simp [k])
    · exact absurd (congrArg Unmet.sync e) (by simp [k])
  · obtain ⟨h, k1, k2, hg⟩ := h
    obtain ⟨rest, hq⟩ : ∃ rest, (s.lane l).queue = g :: rest := by
      cases hq : (s.lane l).queue with
      | nil => rw [hq] at hg; cases hg
      | cons g' r => rw [hq] at hg; cases hg; exact ⟨r, rfl⟩
    rw [ho h]
    generalize hz : s.setLane l { s.lane l with unmet := { (s.lane l).unmet with trigger := none } } = z
    have zl : z.lane l = { s.lane l with unmet := { (s.lane l).unmet with trigger := none } } := by rw [← hz]; simp
    obtain ⟨-, c2, -, -, -, c6⟩ := leaveIfMet_spec (l := l) (s := z) (g := g) (rest := rest) s.onTick
      (by rw [zl]; exact h.1) (by rw [zl]; exact hq)
    have zu : (z.lane l).unmet = ⟨false, none, false⟩ := by rw [zl]; simp [k1, k2]
    have zh : z.holdAsserted l = s.holdAsserted l := holdAsserted_congr l (by rw [zl]) (by rw [← hz]; rfl)
    have za : ∀ a, z.axis a = s.axis a := fun a => by rw [← hz]; rfl
    refine ⟨?_, fun a => ?_⟩
    · have hb : runBegun z g = runBegun s g := runBegun_congr g fun a => by rw [za]; exact ⟨rfl, rfl⟩
      rw [c2 zu, zl, zh, hb]
      simp [Lane.leftWaiting, ht, k1, k2]
    · rw [c6, za]; simp [zu]

/-! ### Completion -/

/-- What an activation on lane `l` reads is the same in both states. -/
structure ActsAlike (l : LaneId) (s X : State) : Prop where
  softHold : (X.lane l).softHold = (s.lane l).softHold
  settings : (X.lane l).settings = (s.lane l).settings
  other : X.lane (otherLane l) = s.lane (otherLane l)
  sync : X.sync = s.sync
  lines : X.lines = s.lines
  time : X.time = s.time
  axis : ∀ a, (X.axis a).owner = (s.axis a).owner ∧ (X.axis a).energised = (s.axis a).energised

theorem ActsAlike.powersUp {l : LaneId} {s X : State} (h : ActsAlike l s X) (g : Segment) (a : AxisId) :
    PowersUp l g X a ↔ PowersUp l g s a := by
  simp only [PowersUp, h.other, h.sync, (h.axis a).1]

theorem ActsAlike.takesSettle {l : LaneId} {s X : State} (h : ActsAlike l s X) (g : Segment) :
    takesSettle X l g ↔ takesSettle s l g := by
  simp only [Machine.takesSettle, h.settings, (h.axis _).1, (h.axis _).2]

theorem ActsAlike.msFor {l : LaneId} {s X : State} (h : ActsAlike l s X) (n : Nat) : X.msFor n = s.msFor n := by
  simp only [State.msFor, h.time]

theorem ActsAlike.hold {l : LaneId} {s X : State} (h : ActsAlike l s X) (m : LaneId) : X.holdAsserted m = s.holdAsserted m := by
  rcases eq_or_eq_otherLane l m with rfl | rfl
  · exact holdAsserted_congr _ h.softHold h.lines
  · exact holdAsserted_congr _ (by rw [h.other]) h.lines

theorem ActsAlike.ended {l : LaneId} {s X : State} (h : ActsAlike l s X) (i : Option HaltInfo) :
    (X.lane l).ended i = (s.lane l).ended i := by
  simp only [Lane.ended, h.softHold, h.settings]

theorem ActsAlike.reports {l : LaneId} {s X : State} (h : ActsAlike l s X) (g : Segment) (p : PerAxis Int) (q : ReportQueue) :
    activationReports l g X p q = activationReports l g s p q := by
  unfold activationReports; rw [h.sync, h.other]

theorem ActsAlike.activated {l : LaneId} {g : Segment} {rest : List Segment} {sync b : Bool} {s X t u : State}
    (h : ActsAlike l s X) (k : Activated l g rest sync b X t) (hl : u.lane l = t.lane l) (hr : runBegun u g = runBegun t g) :
    Activated l g rest sync b s u := by
  obtain ⟨k1, k2, k3, k4, k5, k6, k7, k8, k9⟩ := k
  rw [h.takesSettle, h.msFor, h.settings] at k6
  rw [h.takesSettle] at k7 k8 k9
  rw [h.hold] at k9
  rw [h.softHold, h.settings] at k2
  constructor <;> (try rw [hl]) <;> (try rw [hr]) <;> assumption

theorem ActsAlike.syncDecided {l : LaneId} {g : Segment} {rest : List Segment} {k : Nat} {b : Bool} {s X t u : State}
    (h : ActsAlike l s X) (d : SyncDecided l g rest k b X t) (hl : u.lanes = t.lanes) (hs : u.sync = t.sync)
    (hr : ∀ g, runBegun u g = runBegun t g) : SyncDecided l g rest k b s u := by
  have e : ∀ m, u.lane m = t.lane m := fun m => by simp only [State.lane, hl]
  refine ⟨fun h0 => ?_, fun timer h0 => ?_, fun e' h0 h1 => ?_⟩
  · rw [← h.sync] at h0
    obtain ⟨d1, d2, d3⟩ := d.stands h0
    exact ⟨h.activated d1 (e l) (hr g), by rw [e, d2, h.other], by rw [hs, d3, h.sync, h.settings, h.msFor]⟩
  · rw [← h.sync] at h0
    obtain ⟨d1, d2, d3, d4⟩ := d.met timer h0
    dsimp only
    rw [h.other] at d3 d4
    refine ⟨hs.trans d1, h.activated d2 (e l) (hr g), fun c => (e _).trans (d3 c), fun c1 c2 g' c3 => ?_⟩
    rw [e, hr, d4 c1 c2 g' c3, h.hold]
  · rw [← h.sync] at h0
    obtain ⟨d1, d2, d3⟩ := d.mismatch e' h0 h1
    exact ⟨hs.trans d1, by rw [e, d2, h.ended], by rw [e, d3, h.other]⟩

/-- A completion, said of the state `s0` before the step that brought it and of the state `u` that the event leaves. -/
theorem completed_of {l : LaneId} {s0 s u : State} {g : Segment} {rest : List Segment} {home : Option HomeResult} {b : Bool}
    (hq : (s.lane l).queue = g :: rest) (hm : MayActivate l s) (h0 : ActsAlike l s0 s) (h1 : s0.reports = s.reports)
    (hl : u.lanes = (complete l home b s).lanes) (hs : u.sync = (complete l home b s).sync)
    (hr : ChoosesFrom s0.link (complete l home b s).reports u)
    (ha : ∀ a, (u.axis a).untimed = ((complete l home b s).axis a).untimed) :
    Completed l g rest home b s0 u ∧ ∀ a, (u.axis a).unpowered = (s.axis a).unpowered := by
  have hpos : positionsOf u = positionsOf (complete l home b s) := by
    have : ∀ a, (u.axis a).position = ((complete l home b s).axis a).position := fun a =>
      show (u.axis a).untimed.position = ((complete l home b s).axis a).untimed.position by rw [ha]
    simp only [positionsOf, this]
  have hen : ∀ a, (u.axis a).energised = ((complete l home b s).axis a).energised := fun a =>
    show (u.axis a).untimed.energised = ((complete l home b s).axis a).untimed.energised by rw [ha]
  have hbeg : ∀ g, runBegun u g = runBegun (complete l home b s) g := fun g => runBegun_congr g fun a =>
    ⟨show (u.axis a).untimed.home = ((complete l home b s).axis a).untimed.home by rw [ha],
      show (u.axis a).untimed.homeLevel = ((complete l home b s).axis a).untimed.homeLevel by rw [ha]⟩
  have hpos' : positionsOf (complete l home b s) = positionsOf s := by
    have k := complete_energises l home b s
    have : ∀ a, ((complete l home b s).axis a).position = (s.axis a).position := fun a => by rw [(k.axis a).1]
    simp only [positionsOf, this]
  have hunp : ∀ a, (u.axis a).unpowered = (s.axis a).unpowered := fun a => by
    have k := (complete_energises l home b s).axis a
    have : ∀ x : Axis, x.untimed.unpowered = x.unpowered := fun _ => rfl
    rw [← this, ha, this, k.1]; rfl
  refine ⟨?_, hunp⟩
  have el : ∀ m, u.lane m = (complete l home b s).lane m := fun m => by simp only [State.lane, hl]
  cases rest with
  | nil =>
    rw [complete_dry home b hq hm.halt] at hl hs hr el hen
    refine ⟨?_, fun _ => ⟨?_, ?_, ?_⟩, fun _ _ h => (by cases h), fun _ _ _ h => (by cases h), fun a => ⟨?_, fun _ => ?_⟩⟩
    · rw [hpos, hpos', h1]; exact hr
    · rw [el, ← h0.ended]; exact PerLane.get_set_self ..
    · rw [el, ← h0.other]; exact PerLane.get_set_of_ne _ _ (otherLane_ne l)
    · rw [hs, ← h0.sync]
    · rintro ⟨_, k, _⟩; cases k
    · rw [hen, ← (h0.axis a).2]; rfl
  | cons g' more =>
    rw [hpos'] at hpos
    have hc := complete_next home b hq
    generalize hX : ({ s with
      lanes := s.lanes.set l { (s.lane l).cleared with queue := g' :: more }
      reports := if g.notify = true
        then s.reports.hand (.segmentDone l g.tag g.kind (more.length + 1) home (positionsOf s)) else s.reports } : State) = X at hc
    have xl : X.lane l = { (s.lane l).cleared with queue := g' :: more } := by rw [← hX]; exact PerLane.get_set_self ..
    have xo : X.lane (otherLane l) = s.lane (otherLane l) := by
      rw [← hX]; exact PerLane.get_set_of_ne _ _ (otherLane_ne l)
    have xa : ∀ a, X.axis a = s.axis a := fun a => by rw [← hX]; rfl
    have hx : ActsAlike l s0 X := ⟨by rw [xl]; exact h0.softHold, by rw [xl]; exact h0.settings, xo.trans h0.other,
      by rw [← hX]; exact h0.sync, by rw [← hX]; exact h0.lines, by rw [← hX]; exact h0.time, fun a => by rw [xa]; exact h0.axis a⟩
    have mx : MayActivate l X := ⟨by rw [xl]; exact hm.halt, by rw [← hX]; exact hm.entry, by rw [xo, ← hX]; exact hm.other⟩
    obtain ⟨c1, c2, c3, c4⟩ := activate_spec (l := l) (s := X) (g := g') (rest := more) b (by rw [xl]) mx
    rw [← hc] at c1 c2 c3 c4
    refine ⟨?_, fun h => (by cases h), fun g1 m1 h hn => ?_, fun g1 m1 k h hk => ?_, fun a => ⟨?_, fun hn => ?_⟩⟩
    · have hpx : positionsOf X = positionsOf s := by rw [← hX]; rfl
      have e : activationReports l g' X (positionsOf X) X.reports = activationReports l g' s0 (positionsOf u)
          (if g.notify = true then s0.reports.hand (.segmentDone l g.tag g.kind (g' :: more).length home (positionsOf u))
            else s0.reports) := by
        rw [hx.reports, hpx, ← hpos, h1, ← hX, hpos]; rfl
      rw [c3, e] at hr
      exact hr
    · cases h
      obtain ⟨d1, d2, d3⟩ := c2 hn
      exact ⟨hx.activated d1 (el l) (hbeg _), by rw [el, d2, hx.other], by rw [hs, d3, hx.sync]⟩
    · cases h
      exact hx.syncDecided (c1 k hk) hl hs hbeg
    · rintro ⟨g1, h, hp⟩
      cases h
      rw [hen, (c4 a).1 ((hx.powersUp g' a).2 hp)]
    · have := hn g' rfl
      rw [← hx.powersUp] at this
      rw [hen, (c4 a).2 this, (hx.axis a).2]

end Sys2Proof.Machine
end

