-- ==== Sys2Proof/Laws/Lines.lean ====
section
/-! SUPPORT. All that a change of the filtered level of a trigger line does to the lanes, said once in the terms of
Safety.lean. -/

namespace Sys2Proof.Machine

open Sys2Proof

/-! ### Holds -/

/-- A lane that keeps its law stands as its hold leaves it (R72). -/
theorem LaneLaw.underHold_eq {s : State} (law : LaneLaw s) (l : LaneId) (b : Bool) :
    (s.lane l).underHold (s.holdAsserted l) b = s.lane l := by
  unfold Lane.underHold
  split
  · rename_i h1 _ h2; rw [law.runningFree l h1] at h2; cases h2
  · rename_i h1 _ h2; rw [law.heldHeld l h1] at h2; cases h2
  · rfl

theorem underHold_of_state {v : Lane} (a b : Bool) (h : v.state ≠ .running) (h' : v.state ≠ .held) : v.underHold a b = v := by
  unfold Lane.underHold
  cases e : v.state <;> first | rfl | exact absurd e h | exact absurd e h'

theorem underHold_underHold (v : Lane) (a b : Bool) : (v.underHold a b).underHold a b = v.underHold a b := by
  unfold Lane.underHold
  cases a <;> cases e : v.state <;> cases e' : v.stepTimer <;> simp [e, e']

theorem ended_underHold (v : Lane) (h : Option HaltInfo) (a b : Bool) : (v.ended h).underHold a b = v.ended h :=
  underHold_of_state a b (by cases h <;> simp [Lane.ended]) (by cases h <;> simp [Lane.ended])

theorem leftWaiting_underHold (v : Lane) (g : Segment) (run : Option HomingRun) (a b : Bool) :
    (v.leftWaiting g run a b).underHold a b = v.leftWaiting g run a b := by
  cases a <;> simp [Lane.leftWaiting, Lane.underHold]

/-! ### What the role of a line does -/

theorem edgeAccepted_eq (x : TrgLine) : x.edge.accepts (edgeTo x.input.raw) = x.edgeAccepted := by
  unfold TrgLine.edgeAccepted EdgeSetting.accepts edgeTo
  cases x.edge <;> cases x.input.raw <;> rfl

theorem haltOnly_lane (l l' : LaneId) (h : HaltInfo) (s : State) :
    (haltOnly l h s).lane l' = if l' = l ∧ (s.lane l).state ≠ .halted then (s.lane l).ended (some h) else s.lane l' := by
  by_cases e : (s.lane l).state = .halted
  · rw [haltOnly_of_halted _ e, if_neg (by simp [e])]
  · rw [haltOnly_eq _ e, endLane_lane]; simp [e]

theorem haltOnly_sync (l : LaneId) (h : HaltInfo) (s : State) (hs : (s.lane l).state ≠ .halted ∨ s.sync.get l = none) (l' : LaneId) :
    (haltOnly l h s).sync.get l' = if l' = l then none else s.sync.get l' := by
  by_cases e : (s.lane l).state = .halted
  · rw [haltOnly_of_halted _ e]; split
    · rename_i k; subst k; exact hs.resolve_left (fun k => k e)
    · rfl
  · rw [haltOnly_eq _ e, endLane_sync]

theorem haltOnly_reports (l : LaneId) (h : HaltInfo) (s : State) : (haltOnly l h s).reports =
    if (s.lane l).state = .halted then s.reports else s.reports.hand (stoppedReport s l (some h)) := by
  by_cases e : (s.lane l).state = .halted
  · rw [haltOnly_of_halted _ e, if_pos e]
  · rw [haltOnly_eq _ e, if_neg e, endLane_eq]

/-- What the role of a line other than HOLD does, and it touches no other lane; `c` is the part with the line's filter and its
capture done (R67, R78, R82, R119). -/
structure RoleActs (n : TrgId) (x : TrgLine) (held : LaneId → Bool) (s t : State) : Prop where
  others : x.role = .off ∨ x.edgeAccepted = false ∨ (x.role = .halt ∧ x.mask = .none) →
    t.axes = s.axes ∧ t.sync = s.sync ∧ ∀ l, t.lane l = s.lane l
  start : x.role = .start → x.edgeAccepted = true → t.sync = s.sync ∧
    (∀ l, (¬waitsOn s l n → t.lane l = s.lane l) ∧
      (waitsOn s l n → ((s.lane l).unmet.settle = true ∨ (s.lane l).unmet.sync = true) →
        t.lane l = { s.lane l with unmet := { (s.lane l).unmet with trigger := none } }) ∧
      ∀ g, edgeReleases s l n g → t.lane l = (s.lane l).leftWaiting g (runBegun s g) (held l) s.onTick) ∧
    ∀ a, ((∃ l g, (s.axis a).owner = some l ∧ edgeReleases s l n g ∧ g.kind ≠ .dwell) →
        t.axis a = { s.axis a with energised := true }) ∧
      ((∀ l g, (s.axis a).owner = some l → edgeReleases s l n g → g.kind = .dwell) → t.axis a = s.axis a)
  haltsOne : ∀ l, x.role = .halt → x.edgeAccepted = true →
    x.mask = (match l with
      | .L0 => .l0
      | .L1 => .l1) → t.axes = s.axes ∧
    ((s.lane l).state = .halted → t.sync = s.sync ∧ ∀ m, t.lane m = s.lane m) ∧
    ((s.lane l).state ≠ .halted → t.sync = ⟨none, none⟩ ∧ t.lane l = (s.lane l).ended (some ⟨.lineHalt, none⟩) ∧
      t.lane (otherLane l) = (if s.sync.get (otherLane l) = none then s.lane (otherLane l)
        else (s.lane (otherLane l)).ended (some ⟨.syncBroken, none⟩)))
  haltsBoth : x.role = .halt → x.edgeAccepted = true → x.mask = .both → t.axes = s.axes ∧ t.sync = ⟨none, none⟩ ∧ ∀ l,
    t.lane l = if (s.lane l).state = .halted then s.lane l else (s.lane l).ended (some ⟨.lineHalt, none⟩)

/-- What the edge of a START line does to an axis (R51). -/
theorem meetTrigger_axis {n : TrgId} {l : LaneId} {s : State}
    (ht : (s.lane l).unmet.settle = false → (s.lane l).settleTimer = none) (hq : waitsOn s l n → (s.lane l).queue ≠ []) (a : AxisId) :
    (∀ g, (s.axis a).owner = some l → edgeReleases s l n g → g.kind ≠ .dwell →
      (meetTrigger n l s).axis a = { s.axis a with energised := true }) ∧
    ((∀ g, (s.axis a).owner = some l → edgeReleases s l n g → g.kind = .dwell) → (meetTrigger n l s).axis a = s.axis a) := by
  obtain ⟨m1, m2, m3⟩ := meetTrigger_spec n l s
  refine ⟨fun g h1 h2 h3 => ?_, fun h => ?_⟩
  · rw [(m3 g h2 (ht h2.2.1)).2, if_pos ⟨h3, h1⟩]
  · by_cases w : waitsOn s l n
    · by_cases u : (s.lane l).unmet.settle = true ∨ (s.lane l).unmet.sync = true
      · rw [m2 w u]; rfl
      · obtain ⟨g, rest, hq⟩ := List.exists_cons_of_ne_nil (hq w)
        have u1 : (s.lane l).unmet.settle = false := Bool.eq_false_iff.2 fun k => u (.inl k)
        have u2 : (s.lane l).unmet.sync = false := Bool.eq_false_iff.2 fun k => u (.inr k)
        have e : edgeReleases s l n g := ⟨w, u1, u2, by rw [hq]; rfl⟩
        rw [(m3 g e (ht u1)).2, if_neg fun k => k.1 (h g k.2 e)]
    · rw [m1 w]

theorem roleEffect_spec {n : TrgId} {x : TrgLine} {s c : State} (law : LaneLaw s) (hl : c.lanes = s.lanes) (hs : c.sync = s.sync)
    (ha : c.axes = s.axes) (ht : c.time = s.time) (hr : (c.line n).role = x.role) (hm : (c.line n).mask = x.mask)
    (hh : x.role ≠ .hold) :
    RoleActs n x c.holdAsserted s (roleEffect n x.edgeAccepted c) ∧
      (roleEffect n x.edgeAccepted c).reports = lineReports x s c.reports := by
  have el : ∀ l, c.lane l = s.lane l := fun l => by simp only [State.lane, hl]
  have ea : ∀ a, c.axis a = s.axis a := fun a => by simp only [State.axis, ha]
  have ek : c.onTick = s.onTick := by simp only [State.onTick, ht]
  have hnone : ∀ l, (s.lane l).state ≠ .halted ∨ s.sync.get l = none := fun l => by
    cases h : s.sync.get l with
    | none => exact .inr rfl
    | some e => left; rw [law.waiting_of_entry (l := l) (by rw [h]; simp)]; decide
  have rep : ∀ l h, stoppedReport c l h = stoppedReport s l h := fun l h => by simp only [stoppedReport, el, ea]
  have hset : ∀ l, (s.lane l).unmet.settle = false → (s.lane l).settleTimer = none := fun l h => by
    have := (law.lanes l).settleIff; rw [h] at this; simpa using this
  unfold roleEffect
  cases hro : x.role with
  | hold => exact absurd hro hh
  | off =>
    rw [hr, hro]; dsimp only
    refine ⟨⟨fun _ => ⟨ha, hs, el⟩, fun h => ?_, fun _ h => ?_, fun h => ?_⟩, ?_⟩
    · rw [hro] at h; cases h
    · rw [hro] at h; cases h
    · rw [hro] at h; cases h
    · simp [lineReports, hro]
  | start =>
    rw [hr, hro]
    cases hac : x.edgeAccepted with
    | false =>
      refine ⟨⟨fun _ => ⟨ha, hs, el⟩, fun _ h => ?_, fun _ h => ?_, fun h => ?_⟩, ?_⟩
      · rw [hac] at h; cases h
      · rw [hro] at h; cases h
      · rw [hro] at h; cases h
      · simp [lineReports, hro]
    | true =>
      dsimp only
      have w : ∀ l, waitsOn c l n ↔ waitsOn s l n := fun l => by simp only [waitsOn, el]
      have hqu : ∀ l, waitsOn s l n → (s.lane l).queue ≠ [] := fun l h k => by
        have := (law.lanes l).emptyIff.1 k; rw [h.1] at this; simp at this
      have f0 := meetTrigger_frame n .L0 c
      obtain ⟨a1, a2, a3⟩ := meetTrigger_other n .L0 c
      obtain ⟨m1, m2, m3⟩ := meetTrigger_spec n .L0 c
      have x0 : ∀ a, _ := meetTrigger_axis (n := n) (l := .L0) (s := c) (by rw [el]; exact hset _)
        (fun h => by rw [el]; exact hqu _ ((w _).1 h))
      have n0 := meetTrigger_energises n .L0 c
      generalize meetTrigger n .L0 c = d at *
      obtain ⟨b1, b2, b3⟩ := meetTrigger_other n .L1 d
      obtain ⟨k1, k2, k3⟩ := meetTrigger_spec n .L1 d
      have x1 : ∀ a, _ := meetTrigger_axis (n := n) (l := .L1) (s := d) (by
          rw [show d.lane .L1 = s.lane .L1 from a1.trans (el _)]; exact hset _)
        (fun h => by
          rw [show d.lane .L1 = s.lane .L1 from a1.trans (el _)]; refine hqu .L1 ?_
          simpa only [waitsOn, show d.lane .L1 = s.lane .L1 from a1.trans (el _)] using h)
      generalize meetTrigger n .L1 d = T at *
      simp only [otherLane] at a1 b1
      have lane0 : T.lane .L0 = d.lane .L0 := b1
      have lane1 : d.lane .L1 = s.lane .L1 := a1.trans (el _)
      have dk : d.onTick = s.onTick := by rw [← ek]; simp only [State.onTick, f0.time]
      have dh : d.holdAsserted .L1 = c.holdAsserted .L1 := holdAsserted_congr _ (by rw [a1]) f0.lines
      have cb : ∀ g, runBegun c g = runBegun s g := fun g => runBegun_congr g fun a => by rw [ea]; exact ⟨rfl, rfl⟩
      have db : ∀ g, runBegun d g = runBegun s g := fun g => (n0.runBegun g).trans (cb g)
      have w1 : waitsOn d .L1 n ↔ waitsOn s .L1 n := by simp only [waitsOn, lane1]
      have e0 : ∀ g, edgeReleases c .L0 n g ↔ edgeReleases s .L0 n g := fun g => by simp only [edgeReleases, w, el]
      have e1 : ∀ g, edgeReleases d .L1 n g ↔ edgeReleases s .L1 n g := fun g => by simp only [edgeReleases, w1, lane1]
      rw [w] at m1 m2
      simp only [e0] at m3
      rw [w1] at k1 k2
      simp only [e1] at k3
      have x0 : ∀ a, _ := fun a => x0 a
      simp only [e0, ea] at x0
      have do_ : ∀ a, (d.axis a).owner = (s.axis a).owner := fun a => by rw [(n0.axis a).1, ea]
      simp only [e1, do_] at x1
      refine ⟨⟨fun h => ?_, fun _ _ => ⟨(b2.trans a2).trans hs, fun l => ⟨fun h => ?_, fun h h' => ?_, fun g h => ?_⟩, fun a => ⟨?_, ?_⟩⟩,
        fun _ h => ?_, fun h => ?_⟩, ?_⟩
      · rw [hro, hac] at h; simp at h
      · cases l
        · rw [lane0, m1 h, el]
        · rw [k1 h, lane1]
      · cases l
        · rw [lane0, m2 h (by rw [el]; exact h'), el, State.lane_setLane_self]
        · rw [k2 h (by rw [lane1]; exact h'), lane1, State.lane_setLane_self]
      · cases l
        · rw [lane0, (m3 g h (by rw [el]; exact hset _ h.2.1)).1, el, cb, ek]
        · rw [(k3 g h (by rw [lane1]; exact hset _ h.2.1)).1, lane1, db, dk, dh]
      · rintro ⟨l, g, h1, h2, h3⟩
        cases l
        · have hd := (x0 a).1 g h1 h2 h3
          rw [(x1 a).2 fun g' h' => (by rw [h1] at h'; cases h'), hd]
        · have hd : d.axis a = s.axis a := (x0 a).2 fun g' h' => by rw [h1] at h'; cases h'
          rw [(x1 a).1 g h1 h2 h3, hd]
      · intro h
        rw [(x1 a).2 fun g' h1 h2 => h _ g' h1 h2, (x0 a).2 fun g' h1 h2 => h _ g' h1 h2]
      · rw [hro] at h; cases h
      · rw [hro] at h; cases h
      · rw [b3, a3]; simp [lineReports, hro]
  | halt =>
    rw [hr, hro]
    cases hac : x.edgeAccepted with
    | false =>
      refine ⟨⟨fun _ => ⟨ha, hs, el⟩, fun _ h => ?_, fun _ _ h => ?_, fun _ h => ?_⟩, ?_⟩
      · rw [hac] at h; cases h
      · rw [hac] at h; cases h
      · rw [hac] at h; cases h
      · simp [lineReports, hac]
    | true =>
      dsimp only
      rw [hm]
      have one : ∀ l, x.mask = (match l with
            | .L0 => .l0
            | .L1 => .l1) →
          RoleActs n x c.holdAsserted s (halt l ⟨.lineHalt, none⟩ c) ∧
            (halt l ⟨.lineHalt, none⟩ c).reports = lineReports x s c.reports := by
        intro l hmk
        have hrep : lineReports x s c.reports =
            if (s.lane l).state = .halted then c.reports else haltReports l ⟨.lineHalt, none⟩ s c.reports := by
          unfold lineReports; dsimp only; rw [if_pos ⟨hro, hac⟩, hmk]; cases l <;> rfl
        refine ⟨⟨fun h => ?_, fun h => ?_, fun l' _ _ h => ⟨by rw [halt_axes, ha], fun hh => ?_, fun hh => ?_⟩, fun _ _ h => ?_⟩, ?_⟩
        · rw [hro, hac, hmk] at h; cases l <;> simp at h
        · rw [hro] at h; cases h
        · obtain rfl : l = l' := by rw [hmk] at h; cases l <;> cases l' <;> first | rfl | cases h
          rw [halt_of_halted _ (by rw [el]; exact hh)]; exact ⟨hs, el⟩
        · obtain rfl : l = l' := by rw [hmk] at h; cases l <;> cases l' <;> first | rfl | cases h
          obtain ⟨k1, k2⟩ := halt_spec (l := l) (s := c) ⟨.lineHalt, none⟩ (by rw [el]; exact hh) (by
            rw [hs, el]; intro k; rw [law.waiting_of_entry k]; decide)
          refine ⟨k1.entries, by rw [k1.lane, el], ?_⟩
          split
          · rename_i k; rw [k1.other (by rw [hs]; exact k), el]
          · rename_i k; rw [k1.broken (by rw [hs]; exact k), el]
        · rw [hmk] at h; cases l <;> cases h
        · rw [hrep]; split
          · rename_i k; rw [halt_of_halted _ (by rw [el]; exact k)]
          · rename_i k
            obtain ⟨-, k2⟩ := halt_spec (l := l) (s := c) ⟨.lineHalt, none⟩ (by rw [el]; exact k) (by
              rw [hs, el]; intro k; rw [law.waiting_of_entry k]; decide)
            rw [k2]; simp only [haltReports, rep, hs]
      cases hmk : x.mask with
      | none =>
        refine ⟨⟨fun _ => ⟨ha, hs, el⟩, fun h => ?_, fun l _ _ h => ?_, fun _ _ h => ?_⟩, ?_⟩
        · rw [hro] at h; cases h
        · rw [hmk] at h; cases l <;> cases h
        · rw [hmk] at h; cases h
        · simp [lineReports, hmk, haltMasked]
      | both =>
        simp only [haltMasked]
        refine ⟨⟨fun h => ?_, fun h => ?_, fun l _ _ h => ?_, fun _ _ _ => ⟨?_, ?_, fun l => ?_⟩⟩, ?_⟩
        · rw [hro, hac, hmk] at h; simp at h
        · rw [hro] at h; cases h
        · rw [hmk] at h; cases l <;> cases h
        · rw [haltOnly_axes, haltOnly_axes, ha]
        · have h0 : ∀ l', _ := haltOnly_sync .L0 ⟨.lineHalt, none⟩ c (by rw [el, hs]; exact hnone _)
          have h1 : ∀ l', _ := haltOnly_sync .L1 ⟨.lineHalt, none⟩ (haltOnly .L0 ⟨.lineHalt, none⟩ c) (by
            rw [h0, haltOnly_lane, if_neg (fun k => absurd k.1 (by decide)), if_neg (by decide), el, hs]; exact hnone _)
          apply PerLane.eq_of_get; intro i
          rw [h1, h0]; cases i <;> simp [PerLane.get]
        · rw [haltOnly_lane, haltOnly_lane, haltOnly_lane, el, el, el]
          cases l <;> by_cases z0 : (s.lane .L0).state = .halted <;> by_cases z1 : (s.lane .L1).state = .halted <;> simp [z0, z1]
        · have hl1 : (haltOnly .L0 ⟨.lineHalt, none⟩ c).lane .L1 = s.lane .L1 := by
            rw [haltOnly_lane, if_neg (fun k => absurd k.1 (by decide)), el]
          have hr1 : ∀ h, stoppedReport (haltOnly .L0 ⟨.lineHalt, none⟩ c) .L1 h = stoppedReport s .L1 h := fun h => by
            simp only [stoppedReport, hl1, State.axis, haltOnly_axes, ha]
          rw [haltOnly_reports, haltOnly_reports, hl1, hr1, rep, el]
          simp only [lineReports, hro, hac, hmk]; rfl
      | l0 => exact one .L0 hmk
      | l1 => exact one .L1 hmk

/-- Every lane stands as it was, goes on waiting, leaves WAITING or has ended. -/
theorem RoleActs.lane_cases {n : TrgId} {x : TrgLine} {held : LaneId → Bool} {s t : State} (h : RoleActs n x held s t)
    (law : LaneLaw s) (hx : x.role ≠ .hold) (l : LaneId) :
    t.lane l = s.lane l ∨ ((s.lane l).state = .waiting ∧ ∃ u, t.lane l = { s.lane l with unmet := u }) ∨
      (∃ g run, t.lane l = (s.lane l).leftWaiting g run (held l) s.onTick) ∨ ∃ i, t.lane l = (s.lane l).ended i := by
  cases hac : x.edgeAccepted with
  | false => exact .inl ((h.others (.inr (.inl hac))).2.2 l)
  | true =>
    cases hro : x.role with
    | hold => exact absurd hro hx
    | off => exact .inl ((h.others (.inl hro)).2.2 l)
    | start =>
      obtain ⟨-, h2, -⟩ := h.start hro hac
      by_cases w : waitsOn s l n
      · by_cases u : (s.lane l).unmet.settle = true ∨ (s.lane l).unmet.sync = true
        · exact .inr (.inl ⟨w.1, _, (h2 l).2.1 w u⟩)
        · have hq : (s.lane l).queue ≠ [] := fun k => by
            have := (law.lanes l).emptyIff.1 k; rw [w.1] at this; simp at this
          obtain ⟨g, rest, hq⟩ := List.exists_cons_of_ne_nil hq
          exact .inr (.inr (.inl ⟨g, _, (h2 l).2.2 g ⟨w, Bool.eq_false_iff.2 fun k => u (.inl k),
            Bool.eq_false_iff.2 fun k => u (.inr k), by rw [hq]; rfl⟩⟩))
      · exact .inl ((h2 l).1 w)
    | halt =>
      have one : ∀ m : LaneId, x.mask = (match m with
            | .L0 => .l0
            | .L1 => .l1) → t.lane l = s.lane l ∨ ∃ i, t.lane l = (s.lane l).ended i := by
        intro m hm
        obtain ⟨-, h2, h3⟩ := h.haltsOne m hro hac hm
        by_cases e : (s.lane m).state = .halted
        · exact .inl ((h2 e).2 l)
        · obtain ⟨-, k1, k2⟩ := h3 e
          rcases eq_or_eq_otherLane m l with rfl | rfl
          · exact .inr ⟨_, k1⟩
          · rw [k2]; split
            · exact .inl rfl
            · exact .inr ⟨_, rfl⟩
      have two : t.lane l = s.lane l ∨ ∃ i, t.lane l = (s.lane l).ended i := by
        cases hmk : x.mask with
        | none => exact .inl ((h.others (.inr (.inr ⟨hro, hmk⟩))).2.2 l)
        | l0 => exact one .L0 hmk
        | l1 => exact one .L1 hmk
        | both =>
          obtain ⟨-, -, h3⟩ := h.haltsBoth hro hac hmk
          rw [h3]; split
          · exact .inl rfl
          · exact .inr ⟨_, rfl⟩
      rcases two with k | k
      · exact .inl k
      · exact .inr (.inr (.inr k))

/-- The event goes on to read the lanes, the sync unit and the axes alone, and to start and stop hold timers. -/
theorem LineActs.congr {n : TrgId} {x : TrgLine} {held held' : LaneId → Bool} {s t u : State} (h : LineActs n x held s t)
    (hh : ∀ l, held' l = held l) (hl : u.lanes = t.lanes) (hs : u.sync = t.sync)
    (ha : ∀ a, (u.axis a).untimed = (t.axis a).untimed) : LineActs n x held' s u := by
  obtain rfl : held' = held := funext hh
  have el : ∀ l, u.lane l = t.lane l := fun l => by simp only [State.lane, hl]
  have ek : AxesKept s t → AxesKept s u := fun k a => (ha a).trans (k a)
  refine ⟨fun k => ?_, fun k k' => ?_, fun l k k' k2 => ?_, fun k k' k2 => ?_⟩
  · obtain ⟨h1, h2, h3⟩ := h.others k
    exact ⟨ek h1, hs.trans h2, fun l => (el l).trans (h3 l)⟩
  · obtain ⟨h1, h2, h3⟩ := h.start k k'
    exact ⟨hs.trans h1, fun l => by rw [el]; exact h2 l, fun a => by rw [ha]; exact h3 a⟩
  · obtain ⟨h1, h2, h3⟩ := h.haltsOne l k k' k2
    exact ⟨ek h1, fun e => ⟨hs.trans (h2 e).1, fun m => (el m).trans ((h2 e).2 m)⟩, fun e => by rw [hs, el, el]; exact h3 e⟩
  · obtain ⟨h1, h2, h3⟩ := h.haltsBoth k k' k2
    exact ⟨ek h1, hs.trans h2, fun l => (el l).trans (h3 l)⟩

/-- What the role does and then the holds of both lanes: `held` is how these stand (R72, R119, R121). -/
theorem RoleActs.lineActs {n : TrgId} {x : TrgLine} {held : LaneId → Bool} {s t u : State} (h : RoleActs n x held s t)
    (hx : x.role ≠ .hold) (ha : u.axes = t.axes) (hs : u.sync = t.sync)
    (hl : ∀ l, u.lane l = (t.lane l).underHold (held l) s.onTick) : LineActs n x held s u := by
  have ax : ∀ a, u.axis a = t.axis a := fun a => by simp only [State.axis, ha]
  have ek : t.axes = s.axes → AxesKept s u := fun k a => by simp only [State.axis, ha, k]
  have hw : ∀ l (v : Lane), (s.lane l).state = .waiting → v.state = (s.lane l).state → v.underHold (held l) s.onTick = v := fun l v k k' =>
    underHold_of_state _ _ (by rw [k', k]; decide) (by rw [k', k]; decide)
  refine ⟨fun k => ?_, fun k k' => ?_, fun l k k' k2 => ?_, fun k k' k2 => ?_⟩
  · obtain ⟨h1, h2, h3⟩ := h.others (by
      rcases k with k | k | k | k
      · exact .inl k
      · exact absurd k hx
      · exact .inr (.inl k)
      · exact .inr (.inr k))
    exact ⟨ek h1, hs.trans h2, fun l => by rw [hl, h3]⟩
  · obtain ⟨h1, h2, h3⟩ := h.start k k'
    refine ⟨hs.trans h1, fun l => ⟨fun e => ?_, fun e e' => ?_, fun g e => ?_⟩, fun a => ⟨fun e => ?_, fun e => ?_⟩⟩
    · rw [hl, (h2 l).1 e]
    · rw [hl, (h2 l).2.1 e e']; exact hw l _ e.1 rfl
    · rw [hl, (h2 l).2.2 g e, leftWaiting_underHold]
    · rw [ax, (h3 a).1 e]; rfl
    · rw [ax, (h3 a).2 e]
  · obtain ⟨h1, h2, h3⟩ := h.haltsOne l k k' k2
    refine ⟨ek h1, fun e => ⟨hs.trans (h2 e).1, fun m => by rw [hl, (h2 e).2]⟩, fun e => ⟨hs.trans (h3 e).1, ?_, ?_⟩⟩
    · rw [hl, (h3 e).2.1, ended_underHold]
    · rw [hl, (h3 e).2.2]; split
      · rfl
      · exact ended_underHold ..
  · obtain ⟨h1, h2, h3⟩ := h.haltsBoth k k' k2
    refine ⟨ek h1, hs.trans h2, fun l => ?_⟩
    rw [hl, h3]; split
    · rename_i e; exact underHold_of_state _ _ (by rw [e]; decide) (by rw [e]; decide)
    · exact ended_underHold ..

/-- A HOLD line leaves each lane to its hold (R72). -/
theorem lineActs_of_hold {n : TrgId} {x : TrgLine} {held : LaneId → Bool} {s u : State} (hx : x.role = .hold) (ha : u.axes = s.axes)
    (hs : u.sync = s.sync) (hl : ∀ l, u.lane l = (s.lane l).underHold (held l) s.onTick) : LineActs n x held s u := by
  refine ⟨fun _ => ⟨fun a => by simp only [State.axis, ha], hs, hl⟩, fun k => ?_, fun l k => ?_, fun k => ?_⟩ <;>
    (rw [hx] at k; cases k)

/-- The same of a change of the filtered level, with the holds of both lanes taking effect after it or not: after it they
change nothing, unless the line's setting has changed with it (R119, R121). -/
theorem roleEffect_acts {n : TrgId} {x : TrgLine} {s c : State} (law : LaneLaw s) (hl : c.lanes = s.lanes) (hs : c.sync = s.sync)
    (ha : c.axes = s.axes) (ht : c.time = s.time) (hr : (c.line n).role = x.role) (hm : (c.line n).mask = x.mask) :
    (LineActs n x c.holdAsserted s (applyHolds (roleEffect n x.edgeAccepted c)) ∧
      (applyHolds (roleEffect n x.edgeAccepted c)).reports = lineReports x s c.reports) ∧
    ((x.role ≠ .hold → ∀ l, c.holdAsserted l = s.holdAsserted l) →
      LineActs n x c.holdAsserted s (roleEffect n x.edgeAccepted c) ∧
        (roleEffect n x.edgeAccepted c).reports = lineReports x s c.reports) := by
  have el : ∀ l, c.lane l = s.lane l := fun l => by simp only [State.lane, hl]
  have ek : c.onTick = s.onTick := by simp only [State.onTick, ht]
  have fr := roleEffect_frame n x.edgeAccepted c
  have lanes : ∀ z : State, ∀ l, (applyHolds z).lane l = (z.lane l).underHold (z.holdAsserted l) z.onTick := fun z l => by
    rw [applyHolds_eq]; cases l <;> rfl
  have soft : ∀ l, ((roleEffect n x.edgeAccepted c).lane l).softHold = (c.lane l).softHold := fun l => by
    by_cases hx : x.role = .hold
    · have e : roleEffect n x.edgeAccepted c = applyHolds c := by unfold roleEffect; rw [hr, hx]
      rw [e, lanes, Lane.underHold_softHold]
    · rcases (roleEffect_spec law hl hs ha ht hr hm hx).1.lane_cases law hx l with k | ⟨_, _, k⟩ | ⟨_, _, k⟩ | ⟨_, k⟩ <;>
        rw [k, el] <;> rfl
  have hold : ∀ l, (roleEffect n x.edgeAccepted c).holdAsserted l = c.holdAsserted l := fun l =>
    holdAsserted_congr l (soft l) fr.lines
  have tick : (roleEffect n x.edgeAccepted c).onTick = s.onTick := by simp only [State.onTick, fr.time, ht]
  by_cases hx : x.role = .hold
  · have e : roleEffect n x.edgeAccepted c = applyHolds c := by unfold roleEffect; rw [hr, hx]
    have hrep : lineReports x s c.reports = c.reports := by simp [lineReports, hx]
    refine ⟨⟨lineActs_of_hold hx ?_ ?_ fun l => ?_, ?_⟩, fun _ => ⟨lineActs_of_hold hx ?_ ?_ fun l => ?_, ?_⟩⟩
    · rw [applyHolds_eq, e, applyHolds_eq]; exact ha
    · rw [applyHolds_eq, e, applyHolds_eq]; exact hs
    · rw [lanes, hold, tick, e, lanes, el, ek, underHold_underHold]
    · rw [hrep, applyHolds_eq, e, applyHolds_eq]
    · rw [e, applyHolds_eq]; exact ha
    · rw [e, applyHolds_eq]; exact hs
    · rw [e, lanes, el, ek]
    · rw [hrep, e, applyHolds_eq]
  · obtain ⟨r1, r2⟩ := roleEffect_spec law hl hs ha ht hr hm hx
    refine ⟨⟨r1.lineActs hx ?_ ?_ fun l => ?_, ?_⟩, fun hh => ⟨r1.lineActs hx rfl rfl fun l => ?_, r2⟩⟩
    · rw [applyHolds_eq]
    · rw [applyHolds_eq]
    · rw [lanes, hold, tick]
    · rw [applyHolds_eq]; exact r2
    · rcases r1.lane_cases law hx l with k | ⟨w, _, k⟩ | ⟨_, _, k⟩ | ⟨_, k⟩ <;> rw [k]
      · rw [hh hx, law.underHold_eq]
      · rw [underHold_of_state] <;> (rw [w]; decide)
      · rw [leftWaiting_underHold]
      · rw [ended_underHold]

end Sys2Proof.Machine
end

