-- ==== Sys2Proof/Laws/Payloads.lean ====
section
/-! SUPPORT. The bytes of payloads, said once: a field put at an offset and read there again, and all that the field checks of
QUEUE-SEGMENT make of a payload as the host builds it. -/

namespace Sys2Proof.Machine

open Sys2Proof

/-! ### Fields at offsets (R187) -/

theorem byteAt_append (pre q : List Byte) (k : Nat) : byteAt (pre ++ q) (pre.length + k) = byteAt q k := by
  have : ¬pre.length + k < pre.length := by omega
  simp [byteAt, List.getElem?_append, this]

theorem byteAt_left {p q : List Byte} {k : Nat} (h : k < p.length) : byteAt (p ++ q) k = byteAt p k := by
  simp [byteAt, List.getElem?_append, h]

/-- A two-byte field by its bytes. -/
theorem u16At_of_bytes (n : Nat) (p : List Byte) (i : Nat) (e0 : byteAt p i = n / 256 % 256) (e1 : byteAt p (i + 1) = n % 256) :
    u16At p i = n % 65536 := by
  unfold u16At; rw [e0, e1]; omega

/-- A four-byte field by its bytes. -/
theorem u32At_of_bytes (n : Nat) (p : List Byte) (i : Nat) (e0 : byteAt p i = n / 65536 / 256 % 256)
    (e1 : byteAt p (i + 1) = n / 65536 % 256) (e2 : byteAt p (i + 2) = n / 256 % 256) (e3 : byteAt p (i + 3) = n % 256) :
    u32At p i = n % 4294967296 := by
  unfold u32At u16At; rw [e0, e1, e2, e3]; omega

theorem u16At_put16 (pre post : List Byte) (n : Nat) : u16At (pre ++ (put16 n ++ post)) pre.length = n % 65536 :=
  u16At_of_bytes n _ _ (byteAt_append pre _ 0) (byteAt_append pre _ 1)

theorem u32At_put32 (pre post : List Byte) (n : Nat) : u32At (pre ++ (put32 n ++ post)) pre.length = n % 4294967296 :=
  u32At_of_bytes n _ _ (byteAt_append pre _ 0) (byteAt_append pre _ 1) (byteAt_append pre _ 2) (byteAt_append pre _ 3)

theorem i32At_putI32 (pre post : List Byte) {z : Int} (h : -2147483648 ≤ z) (h' : z ≤ 2147483647) :
    i32At (pre ++ (putI32 z ++ post)) pre.length = z := by
  apply i32At_of_putI32 z h (by omega)
  intro k hk
  rw [byteAt_append, byteAt_left (show k < (putI32 z).length from hk)]

/-- The four positions of a report or a capture record. -/
theorem i32At_putPositions (pre post : List Byte) (p : PerAxis Int) (hp : ∀ a, -2147483648 ≤ p.get a ∧ p.get a ≤ 2147483647)
    (a : AxisId) : i32At (pre ++ (putPositions p ++ post)) (pre.length + 4 * AxisId.code a) = p.get a := by
  have e : ∀ j, j < 4 → byteAt (putPositions p) (4 * AxisId.code a + j) = byteAt (putI32 (p.get a)) j := by
    intro j hj
    match j, hj with
    | 0, _ | 1, _ | 2, _ | 3, _ => cases a <;> rfl
  apply i32At_of_putI32 _ (hp a).1 (by have := (hp a).2; omega)
  intro k hk
  rw [Nat.add_assoc, byteAt_append, byteAt_left, e k hk]
  rw [show (putPositions p).length = 16 from rfl]
  cases a <;> simp [AxisId.code] <;> omega

/-! ### QUEUE-SEGMENT: length and codes (R5, R6) -/

/-- The flags by their bits. -/
theorem flag_bits (b : Byte) : decide (b.toNat / 2 % 2 = 1) = b.getLsbD 1 ∧
    b.toNat / 4 % 4 = (b.getLsbD 2).toNat + 2 * (b.getLsbD 3).toNat := by
  have all : ∀ n : Fin 256, let b : Byte := BitVec.ofFin n
      decide (b.toNat / 2 % 2 = 1) = b.getLsbD 1 ∧ b.toNat / 4 % 4 = (b.getLsbD 2).toNat + 2 * (b.getLsbD 3).toNat := by
    decide +kernel
  exact all b.toFin

theorem segmentHasLast_eq (p : List Byte) : segmentHasLast p = (p.getD 2 0).getLsbD 1 := (flag_bits _).1

theorem segmentStartCode_eq (p : List Byte) :
    segmentStartCode p = ((p.getD 2 0).getLsbD 2).toNat + 2 * ((p.getD 2 0).getLsbD 3).toNat := (flag_bits _).2

theorem segmentStartAt_eq (p : List Byte) : segmentStartAt p = 7 + 2 * (segmentHasLast p).toNat := by
  unfold segmentStartAt; cases segmentHasLast p <;> rfl

theorem segmentKindAt_eq (p : List Byte) : segmentKindAt p = kindPartAt p := by
  unfold segmentKindAt kindPartAt
  rw [segmentStartAt_eq, segmentHasLast_eq, segmentStartCode_eq]
  dsimp only
  cases (p.getD 2 0).getLsbD 1 <;> cases (p.getD 2 0).getLsbD 2 <;> cases (p.getD 2 0).getLsbD 3 <;> rfl

theorem getD_eq_iff (p : List Byte) (i : Nat) {n : Nat} (hn : n < 256) : p.getD i 0 = BitVec.ofNat 8 n ↔ byteAt p i = n := by
  unfold byteAt
  exact ⟨fun h => by rw [h]; exact Nat.mod_eq_of_lt hn, fun h => (ofNat_of_toNat_eq h).symm⟩

/-- The length check of R5 step 1 is that of section 11.3. -/
theorem segmentLength_iff (p : List Byte) : segmentLength p = some p.length ↔ LayoutHolds p := by
  unfold segmentLength LayoutHolds
  rw [segmentKindAt_eq]
  have h0 := getD_eq_iff p 1 (n := 0) (by omega)
  have h1 := getD_eq_iff p 1 (n := 1) (by omega)
  have h2 := getD_eq_iff p 1 (n := 2) (by omega)
  simp only [show (0 : Byte) = BitVec.ofNat 8 0 from rfl, show (1 : Byte) = BitVec.ofNat 8 1 from rfl,
    show (2 : Byte) = BitVec.ofNat 8 2 from rfl] at *
  rw [h0, h1, h2]
  change _ ↔ (_ ∧ 1 ≤ byteAt p (kindPartAt p) ∧ byteAt p (kindPartAt p) ≤ 4 ∧
    p.length = _ + 1 + 5 * byteAt p (kindPartAt p)) ∨ _
  generalize kindPartAt p = k
  generalize byteAt p k = c
  generalize byteAt p 1 = kind
  match kind with
  | 0 =>
    simp only [Nat.zero_ne_one, false_and, or_false, true_and, Bool.and_eq_true, decide_eq_true_eq, reduceCtorEq]
    split
    · simp; omega
    · simp only [reduceCtorEq, false_iff]; simp; omega
  | 1 => simp; omega
  | 2 => simp; omega
  | n + 3 => simp

theorem entriesAt_none {p : List Byte} {n i j : Nat} (hj : j < n) (h : 3 < byteAt p (i + 5 * j)) : entriesAt p i n = none := by
  induction n generalizing i j with
  | zero => omega
  | succ n ih =>
    unfold entriesAt
    cases j with
    | zero => rw [Nat.mul_zero, Nat.add_zero] at h; rw [axisOfCode_none h]; rfl
    | succ j =>
      rw [ih (i := i + 5) (j := j) (by omega) (by rw [show i + 5 + 5 * j = i + 5 * (j + 1) by omega]; exact h)]
      cases axisOfCode (byteAt p i) <;> rfl

theorem trgOfCode_none {n : Nat} (h : 3 < n) : trgOfCode n = none := by
  match n, h with | n + 4, _ => rfl

/-- A payload in which a code names nothing fails the field checks (R6). -/
theorem segmentOf_of_namesNothing {p : List Byte} (s : State) (l : LaneId) (h : NamesNothing p) : segmentOf s l p = none := by
  have h0 := getD_eq_iff p 1 (n := 0) (by omega)
  have h2 := getD_eq_iff p 1 (n := 2) (by omega)
  have noBody : segmentBody s l p = none → segmentOf s l p = none := fun h => by unfold segmentOf; rw [h]; rfl
  have noStart : segmentStart s p = none → segmentOf s l p = none := fun h => by
    unfold segmentOf; rw [h]; cases segmentBody s l p <;> rfl
  unfold NamesNothing at h
  dsimp only at h
  rw [← segmentHasLast_eq] at h
  rcases h with ⟨a, j, b, c⟩ | ⟨a, b⟩ | ⟨a, b, c⟩ | ⟨a, b⟩ | ⟨a, b⟩
  · apply noBody
    unfold segmentBody
    rw [h0.1 a, segmentKindAt_eq]; dsimp only
    rw [entriesAt_none (p := p) (n := byteAt p (kindPartAt p)) b c]; rfl
  · apply noBody
    unfold segmentBody
    rw [h2.1 a, segmentKindAt_eq]; dsimp only
    rw [show axisOfCode (byteAt p (kindPartAt p)) = none from axisOfCode_none b]; rfl
  · apply noStart
    unfold segmentStart
    rw [segmentStartCode_eq, a, b, segmentStartAt_eq]
    have : trgOfCode (byteAt p (7 + 2 * (segmentHasLast p).toNat)) = none := trgOfCode_none c
    simp [this]
  · apply noStart
    unfold segmentStart
    rw [segmentStartCode_eq, a, b]; rfl
  · apply noBody
    unfold segmentBody
    rw [b]
    have : byteAt p 1 ≠ 0 := fun h => a (h0.2 h)
    generalize byteAt p 1 = kind at this
    match kind, this with
    | 1, _ => rfl
    | 2, _ => dsimp only; cases axisOfCode (byteAt p (segmentKindAt p)) <;> rfl
    | n + 3, _ => rfl

/-! ### QUEUE-SEGMENT: a payload as the host builds it (section 11.3) -/

theorem flag_parts (a b : Bool) (c u : Nat) (hc : c < 4) :
    let n := (BitVec.ofNat 8 (a.toNat + 2 * b.toNat + 4 * c + 16 * u)).toNat
    decide (n % 2 = 1) = a ∧ decide (n / 2 % 2 = 1) = b ∧ n / 4 % 4 = c := by
  intro n
  have : n = (a.toNat + 2 * b.toNat + 4 * c + 16 * u) % 256 := by simp [n]
  rw [this]
  cases a <;> cases b <;> simp <;> omega

/-- The fields of the payload `p` are those of `w`. -/
structure SegmentFields (w : WantedSegment) (p : List Byte) : Prop where
  lane : byteAt p 0 = LaneId.code w.lane
  kind : byteAt p 1 = w.kind.code
  notify : segmentNotify p = w.notify
  last : segmentHasLast p = w.kind.last.isSome
  start : segmentStartCode p = startCode w.start
  tag : u16At p 3 = w.tag.toNat
  first : w.first ≤ 65535 → u16At p 5 = w.first
  kindAt : segmentKindAt p = 7 + 2 * w.kind.last.isSome.toNat + (startBytes w.start).length
  i1 : ∀ i1, w.kind.last = some i1 → i1 ≤ 65535 → u16At p 7 = i1
  line : ∀ n, w.start = .trigger n → byteAt p (segmentStartAt p) = TrgId.code n
  number : ∀ k, w.start = .sync k → k ≤ 255 → byteAt p (segmentStartAt p) = k
  split : ∃ pre, p = pre ++ w.kind.bytes ∧ pre.length = segmentKindAt p

theorem WantedSegment.fields (w : WantedSegment) (unread : Nat) : SegmentFields w (w.payload unread) := by
  have e : w.payload unread = BitVec.ofNat 8 (LaneId.code w.lane) :: BitVec.ofNat 8 w.kind.code ::
      BitVec.ofNat 8 (w.notify.toNat + 2 * w.kind.last.isSome.toNat + 4 * startCode w.start + 16 * unread) ::
      BitVec.ofNat 8 (w.tag.toNat / 256) :: BitVec.ofNat 8 w.tag.toNat :: BitVec.ofNat 8 (w.first / 256) ::
      BitVec.ofNat 8 w.first :: ((w.kind.last.map put16).getD [] ++ (startBytes w.start ++ w.kind.bytes)) := by
    simp [WantedSegment.payload, put8, put16]
  rw [e]
  obtain ⟨h1, h2, h3⟩ := flag_parts w.notify w.kind.last.isSome (startCode w.start) unread
    (by cases w.start <;> simp [startCode])
  generalize BitVec.ofNat 8 (w.notify.toNat + 2 * w.kind.last.isSome.toNat + 4 * startCode w.start + 16 * unread) = flags at *
  have last : ∀ p : List Byte, byteAt p 2 = flags.toNat → segmentHasLast p = w.kind.last.isSome := fun p h => by
    unfold segmentHasLast; rw [h]; exact h2
  have start : ∀ p : List Byte, byteAt p 2 = flags.toNat → segmentStartCode p = startCode w.start := fun p h => by
    unfold segmentStartCode; rw [h]; exact h3
  have startAt : ∀ p : List Byte, byteAt p 2 = flags.toNat → segmentStartAt p = 7 + 2 * w.kind.last.isSome.toNat := fun p h => by
    rw [segmentStartAt_eq, last p h]
  have kindAt : ∀ p : List Byte, byteAt p 2 = flags.toNat →
      segmentKindAt p = 7 + 2 * w.kind.last.isSome.toNat + (startBytes w.start).length := fun p h => by
    unfold segmentKindAt; rw [startAt p h, start p h]; cases w.start <;> rfl
  have two : ∀ n (p : List Byte) i, n ≤ 65535 → byteAt p i = n / 256 % 256 → byteAt p (i + 1) = n % 256 → u16At p i = n :=
    fun n p i h e0 e1 => (u16At_of_bytes n p i e0 e1).trans (Nat.mod_eq_of_lt (Nat.lt_succ_of_le h))
  refine ⟨?_, ?_, h1, last _ rfl, start _ rfl, ?_, ?_, kindAt _ rfl, ?_, ?_, ?_, ?_⟩
  · cases w.lane <;> rfl
  · cases w.kind <;> rfl
  · exact two _ _ _ (Nat.le_of_lt_succ w.tag.isLt) rfl rfl
  · intro h; exact two _ _ _ h rfl rfl
  · intro i1 h hi; rw [h]; exact two _ _ _ hi rfl rfl
  · intro n h; rw [startAt _ rfl, h]; rcases w.kind.last with _ | x <;> cases n <;> rfl
  · intro k h hk; rw [startAt _ rfl, h]; rcases w.kind.last with _ | x <;> exact Nat.mod_eq_of_lt (Nat.lt_succ_of_le hk)
  · refine ⟨BitVec.ofNat 8 (LaneId.code w.lane) :: BitVec.ofNat 8 w.kind.code :: flags :: BitVec.ofNat 8 (w.tag.toNat / 256) ::
      BitVec.ofNat 8 w.tag.toNat :: BitVec.ofNat 8 (w.first / 256) :: BitVec.ofNat 8 w.first ::
      ((w.kind.last.map put16).getD [] ++ startBytes w.start), by simp, ?_⟩
    rw [kindAt _ rfl]; cases w.kind.last <;> simp [put16] <;> omega

theorem entriesAt_put (es : List (AxisId × Int)) (hb : ∀ e ∈ es, -2147483648 ≤ e.2 ∧ e.2 ≤ 2147483647) (pre : List Byte) :
    entriesAt (pre ++ es.flatMap fun e => put8 (AxisId.code e.1) ++ putI32 e.2) pre.length es.length = some es := by
  induction es generalizing pre with
  | nil => rfl
  | cons e es ih =>
    rw [List.length_cons, entriesAt]
    have axis : byteAt (pre ++ (e :: es).flatMap fun e => put8 (AxisId.code e.1) ++ putI32 e.2) pre.length =
        AxisId.code e.1 := by
      have := byteAt_append pre ((e :: es).flatMap fun e => put8 (AxisId.code e.1) ++ putI32 e.2) 0
      rw [Nat.add_zero] at this; rw [this]
      obtain ⟨a, z⟩ := e; cases a <;> rfl
    have he := hb e (List.mem_cons_self ..)
    have count : i32At (pre ++ (e :: es).flatMap fun e => put8 (AxisId.code e.1) ++ putI32 e.2) (pre.length + 1) = e.2 := by
      have := i32At_putI32 (pre ++ put8 (AxisId.code e.1)) (es.flatMap fun e => put8 (AxisId.code e.1) ++ putI32 e.2) he.1 he.2
      simpa [put8] using this
    have rest := ih (fun x hx => hb x (List.mem_cons_of_mem _ hx)) (pre ++ (put8 (AxisId.code e.1) ++ putI32 e.2))
    rw [show (pre ++ (put8 (AxisId.code e.1) ++ putI32 e.2)).length = pre.length + 5 from by simp [put8, putI32, put32, put16],
      List.append_assoc] at rest
    rw [axis, axisOfCode_code, count, List.flatMap_cons, rest]; rfl

theorem dominantOf_eq (es : List (AxisId × Int)) : dominantOf es = (es.map fun e => e.2.natAbs).foldr max 0 := by
  have : ∀ (es : List (AxisId × Int)) m,
      es.foldl (fun m e => max m e.2.natAbs) m = max m ((es.map fun e => e.2.natAbs).foldr max 0) := by
    intro es
    induction es with
    | nil => intro m; simp
    | cons e es ih => intro m; simp only [List.foldl_cons, List.map_cons, List.foldr_cons]; rw [ih]; omega
  rw [dominantOf, this]; omega

theorem entriesValid_iff (s : State) (l : LaneId) (es : List (AxisId × Int)) : entriesValid s l es = true ↔
    (es.map (·.1)).Nodup ∧ (∀ e ∈ es, (s.axis e.1).owner = some l ∧ e.2.natAbs ≤ 1048575) ∧ ∃ e ∈ es, e.2 ≠ 0 := by
  unfold entriesValid countMax
  simp only [Bool.and_eq_true, decide_eq_true_eq, List.all_eq_true, List.any_eq_true, and_assoc]

/-- The kind part passes its checks, or fails them (R4, R6). -/
theorem segmentBody_payload (w : WantedSegment) (unread : Nat) (hf : w.fits) (s : State) (l : LaneId) :
    (8 ≤ w.first → w.kind.passes s l → segmentBody s l (w.payload unread) = some w.record.body) ∧
    (¬w.kind.passes s l → segmentBody s l (w.payload unread) = none) := by
  have P := w.fields unread
  obtain ⟨f1, f2, f3⟩ := hf
  generalize w.payload unread = p at *
  obtain ⟨pre, hp, hl⟩ := P.split
  unfold segmentBody
  rw [P.kind, P.last]
  dsimp only
  rw [← hl]
  have k1 := P.i1
  have k2 := P.first f1
  obtain ⟨lane, tag, notify, first, start, kind⟩ := w
  dsimp only at hp
  have at0 : byteAt p pre.length = byteAt kind.bytes 0 := by rw [hp]; exact byteAt_append pre _ 0
  cases kind with
  | move es last =>
    obtain ⟨g1, g2, g3, g4⟩ := f3
    dsimp only [WantedKind.code]
    dsimp only [WantedKind.last] at *
    have count : byteAt p pre.length = es.length := by rw [at0]; exact Nat.mod_eq_of_lt (by omega)
    have e := entriesAt_put es g3 (pre ++ put8 es.length)
    rw [show (pre ++ put8 es.length).length = pre.length + 1 from by simp [put8], List.append_assoc] at e
    rw [show pre ++ (put8 es.length ++ es.flatMap fun e => put8 (AxisId.code e.1) ++ putI32 e.2) = p from hp.symm] at e
    have hlast : (if last.isSome = true then u16At p 7 else u16At p 5) = last.getD first := by
      cases last with
      | none => exact k2
      | some i1 => exact k1 i1 rfl (g4 i1 rfl)
    rw [count, e]
    let body := fun n => if (entriesValid s l es && decide (8 ≤ n)) = true
      then some (SegmentBody.move es n (dominantOf es)) else none
    change (_ → _ → body (if last.isSome = true then u16At p 7 else u16At p 5) = _) ∧
      (_ → body (if last.isSome = true then u16At p 7 else u16At p 5) = _)
    rw [hlast]
    dsimp only [body]
    constructor
    · rintro h8 ⟨a, b, c, d⟩
      rw [if_pos, dominantOf_eq]
      · rfl
      · rw [Bool.and_eq_true, entriesValid_iff, decide_eq_true_eq]
        refine ⟨⟨a, b, c⟩, ?_⟩
        cases last with
        | none => exact h8
        | some i1 => exact d i1 rfl
    · intro h
      rw [if_neg]
      rw [Bool.and_eq_true, entriesValid_iff, decide_eq_true_eq]
      rintro ⟨⟨a, b, c⟩, d⟩
      exact h ⟨a, b, c, fun i1 hi => by subst hi; exact d⟩
  | dwell n =>
    dsimp only [WantedKind.code]
    have count : u16At p pre.length = n := by
      have := u16At_put16 pre [] n
      rw [Nat.mod_eq_of_lt (Nat.lt_succ_of_le f3), List.append_nil] at this
      rw [hp]; exact this
    let body := fun n => if (!false && decide (n ≠ 0)) = true then some (SegmentBody.dwell n) else none
    change (_ → _ → body (u16At p pre.length) = some (.dwell n)) ∧ (_ → body (u16At p pre.length) = none)
    rw [count]
    dsimp only [body]
    constructor
    · intro _ h; rw [if_pos]; simpa using (show n ≠ 0 from h)
    · intro h; rw [if_neg]; intro k; exact h (show n ≠ 0 by simpa using k)
  | home a limit preset =>
    obtain ⟨g1, g2, g3⟩ := f3
    have axis : byteAt p pre.length = AxisId.code a := by rw [at0]; cases a <;> rfl
    have hlimit : u32At p (pre.length + 1) = limit := by
      have := u32At_put32 (pre ++ put8 (AxisId.code a)) (putI32 preset) limit
      rw [Nat.mod_eq_of_lt (Nat.lt_succ_of_le g1)] at this
      rw [hp]; simpa [WantedKind.bytes, put8] using this
    have hpreset : i32At p (pre.length + 5) = preset := by
      have := i32At_putI32 (pre ++ put8 (AxisId.code a) ++ put32 limit) [] g2 g3
      rw [hp]; simpa [WantedKind.bytes, put8, put32, put16] using this
    dsimp only [WantedKind.code]
    rw [axis, hlimit, hpreset, axisOfCode_code]
    let body := if (!false && decide ((s.axis a).owner = some l) && decide (1 ≤ limit) && decide (limit ≤ countMax)) = true
      then some (SegmentBody.home a limit preset) else none
    change (_ → _ → body = some (.home a limit preset)) ∧ (_ → body = none)
    dsimp only [body]
    constructor
    · rintro _ ⟨a, b, c⟩
      rw [if_pos]; simp [a, b, countMax, c]
    · intro h; rw [if_neg]; intro k; apply h
      simp only [countMax, Bool.and_eq_true, decide_eq_true_eq, and_assoc] at k
      exact ⟨k.2.1, k.2.2.1, of_decide_eq_true k.2.2.2⟩

/-- All that the field checks make of a payload as the host builds it: the completed record where they pass, and a refusal where
they fail (R4, R6). -/
theorem segmentOf_payload (w : WantedSegment) (unread : Nat) (hf : w.fits) (s : State) :
    (w.passes s → segmentOf s w.lane (w.payload unread) = some w.record) ∧
    (¬w.passes s → segmentOf s w.lane (w.payload unread) = none) := by
  obtain ⟨hb1, hb2⟩ := segmentBody_payload w unread hf s w.lane
  have P := w.fields unread
  obtain ⟨f1, f2, f3⟩ := hf
  let starts := (∀ n, w.start = .trigger n → (s.line n).role = .start) ∧ w.start ≠ .sync 0
  have hs : (starts → segmentStart s (w.payload unread) = some w.start) ∧
      (¬starts → segmentStart s (w.payload unread) = none) := by
    unfold segmentStart
    rw [P.start]
    have line := P.line
    have number := P.number
    obtain ⟨lane, tag, notify, first, start, kind⟩ := w
    dsimp only [starts] at *
    cases start with
    | none => simp [startCode]
    | trigger n =>
      dsimp only [startCode]
      rw [line n rfl, show trgOfCode (TrgId.code n) = some n by cases n <;> rfl]
      by_cases h : (s.line n).role = .start <;> simp [h]
    | sync k =>
      dsimp only [startCode]
      rw [number k rfl (f2 k rfl)]
      by_cases h : k = 0 <;> simp [h]
  unfold segmentOf
  rw [P.first f1]
  constructor
  · rintro ⟨h1, h2, h3, h4⟩
    rw [hb1 h1 h2, hs.1 ⟨h3, h4⟩]
    simp only [Option.bind_eq_bind, Option.bind_some]
    rw [if_pos h1, show BitVec.ofNat 16 (u16At (w.payload unread) 3) = w.tag by rw [P.tag]; simp, P.notify]
    rfl
  · intro h
    by_cases h1 : 8 ≤ w.first
    · by_cases h2 : w.kind.passes s w.lane
      · rw [hs.2 fun ⟨h3, h4⟩ => h ⟨h1, h2, h3, h4⟩]
        cases segmentBody s w.lane (w.payload unread) <;> rfl
      · rw [hb2 h2]; rfl
    · simp only [if_neg h1]
      cases segmentBody s w.lane (w.payload unread) <;> cases segmentStart s (w.payload unread) <;> rfl

/-- A payload as the host builds it has the length of its layout (section 11.3). -/
theorem segmentLength_payload (w : WantedSegment) (unread : Nat) (hf : w.fits) :
    segmentLength (w.payload unread) = some (w.payload unread).length := by
  have P := w.fields unread
  obtain ⟨f1, f2, f3⟩ := hf
  generalize w.payload unread = p at *
  obtain ⟨pre, hp, hl⟩ := P.split
  unfold segmentLength
  rw [P.kind, ← hl]
  have at0 : byteAt p pre.length = byteAt w.kind.bytes 0 := by rw [hp]; exact byteAt_append pre _ 0
  obtain ⟨lane, tag, notify, first, start, kind⟩ := w
  dsimp only at *
  cases kind with
  | move es last =>
    obtain ⟨g1, g2, g3, g4⟩ := f3
    have count : byteAt p pre.length = es.length := by rw [at0]; exact Nat.mod_eq_of_lt (by omega)
    have len : ∀ es : List (AxisId × Int),
        (es.flatMap fun e => put8 (AxisId.code e.1) ++ putI32 e.2).length = 5 * es.length := by
      intro es; induction es with
      | nil => rfl
      | cons e es ih =>
        rw [List.flatMap_cons, List.length_append, ih, List.length_cons]; simp [put8, putI32, put32, put16]; omega
    have hpl : p.length = pre.length + 1 + 5 * es.length := by
      rw [hp]; simp only [WantedKind.bytes, List.length_append, len]; simp [put8]; omega
    dsimp only [WantedKind.code]
    rw [count, hpl, if_pos]
    · rfl
    · simp only [Bool.and_eq_true, decide_eq_true_eq]; exact ⟨⟨by omega, g1⟩, g2⟩
  | dwell n => dsimp only [WantedKind.code]; rw [hp]; simp [WantedKind.bytes, put16]
  | home a limit preset => dsimp only [WantedKind.code]; rw [hp]; simp [WantedKind.bytes, put8, put16, put32, putI32]

end Sys2Proof.Machine
end

