-- ==== Sys2Proof/Laws/Time.lean ====
section
/-! SUPPORT. The passing of time: which events stand due, said once in terms of the timers and measures, and what each timer and
measure shows after so many half microseconds. -/

namespace Sys2Proof.Machine

open Sys2Proof

/-! ### The events that stand due -/

theorem mem_rowIf {b : Bool} {i j : Instr} : i ∈ rowIf b j ↔ b = true ∧ i = j := by
  unfold rowIf; cases b <;> simp

/-- The rows that a step timer's expiry may be. -/
theorem Lane.expiryRow_cases {v : Lane} {l : LaneId} {i : Instr} (h : i ∈ (v.expiryRow l).toList) :
    i = .stepEvent l ∨ i = .dwellIntervalExpiry l ∨ i = .homeLimitIntervalExpiry l ∨ i = .homingStepEvent l ∨
      i = .stopRampStepEvent l ∨ i = .inProgressStepEvent l := by
  unfold Lane.expiryRow at h
  split at h <;> simp at h
  · simp [h]
  · simp [h]
  · subst h; split <;> simp
  · subst h; split <;> simp

theorem InputFilter.passed_iff (f : InputFilter) (units : Nat) :
    f.passed units = true ↔ ∃ e, f.measure = some e ∧ 8 * units ≤ e := by
  unfold InputFilter.passed filterSpan; rcases f.measure with _ | e <;> simp

theorem mem_laneRows (s : State) (l : LaneId) (i : Instr) : i ∈ laneRows s l ↔
    ((s.lane l).stepTimer.expired = true ∧ i ∈ ((s.lane l).expiryRow l).toList) ∨
    ((s.lane l).settleTimer = some 0 ∧ i = .settleExpiry l) ∨
    ((∃ n, s.sync.get l = some ⟨n, some 0⟩) ∧ i = .syncTimeoutExpiry l) := by
  have e : (s.sync.get l).any (fun e => decide (e.timer = some 0)) = true ↔ ∃ n, s.sync.get l = some ⟨n, some 0⟩ := by
    rcases s.sync.get l with _ | ⟨n, t⟩ <;> simp
  unfold laneRows
  simp only [List.mem_append, mem_rowIf, decide_eq_true_eq, or_assoc]
  rw [e]
  refine or_congr ?_ Iff.rfl
  split <;> simp_all

theorem mem_axisRows (s : State) (a : AxisId) (i : Instr) : i ∈ axisRows s a ↔
    ((s.axis a).holdTimer = some 0 ∧ i = .holdTimerExpiry a) ∨ ((s.axis a).pulse = some 0 ∧ i = .pulseEnd a) ∨
    ((∃ e, (s.axis a).home.measure = some e ∧ 8 * (s.axis a).homeFilter ≤ e) ∧ i = .homeFilteredChange a) := by
  unfold axisRows
  simp only [List.mem_append, mem_rowIf, decide_eq_true_eq, or_assoc]
  rw [InputFilter.passed_iff]

theorem mem_linkRows (s : State) (i : Instr) : i ∈ linkRows s ↔
    ((∃ e, s.link.gap = some e ∧ 10000 ≤ e) ∧ i = .gapExpiry) ∨
    ((∃ e, s.link.breakMeasure = some e ∧ 20000 ≤ e) ∧ i = .linkBreak) ∨
    ((∃ source f, s.link.tx = .sending source f 0) ∧ i = .frameSent) ∨ (s.canBegin = true ∧ i = .frameBegin) ∨
    (s.link.silenceTimer = some 0 ∧ i = .silenceExpiry) ∨ (s.reports.resendTimer = some 0 ∧ i = .resendTimerExpiry) := by
  have anyIff : ∀ (m : Option Nat) (n : Nat), m.any (fun e => decide (n ≤ e)) = true ↔ ∃ e, m = some e ∧ n ≤ e := by
    intro m n; rcases m with _ | e <;> simp
  have sent : ∀ b, b = (match s.link.tx with
      | .sending _ _ 0 => true
      | _ => false) → (b = true ↔ ∃ source f, s.link.tx = .sending source f 0) := by
    intro b hb; subst hb; split
    · rename_i h; simp [h]
    · rename_i h; simp; intro x y hh; exact h _ _ hh
  unfold linkRows
  simp only [List.mem_append, mem_rowIf, decide_eq_true_eq, or_assoc]
  rw [anyIff, anyIff]
  exact or_congr Iff.rfl (or_congr Iff.rfl (or_congr (and_congr_left' (sent _ rfl)) Iff.rfl))

/-- All that stands due in a part that runs. -/
theorem mem_dueRows {s : State} (hp : s.power = .running) (i : Instr) : i ∈ dueRows s ↔
    (∃ l, (s.lane l).stepTimer.expired = true ∧ i ∈ ((s.lane l).expiryRow l).toList) ∨
    (∃ l, (s.lane l).settleTimer = some 0 ∧ i = .settleExpiry l) ∨
    (∃ l, (∃ n, s.sync.get l = some ⟨n, some 0⟩) ∧ i = .syncTimeoutExpiry l) ∨
    (∃ a, (s.axis a).holdTimer = some 0 ∧ i = .holdTimerExpiry a) ∨ (∃ a, (s.axis a).pulse = some 0 ∧ i = .pulseEnd a) ∨
    (∃ a, (∃ e, (s.axis a).home.measure = some e ∧ 8 * (s.axis a).homeFilter ≤ e) ∧ i = .homeFilteredChange a) ∨
    (∃ n, (∃ e, (s.line n).input.measure = some e ∧ 8 * (s.line n).filterTime ≤ e) ∧ i = .triggerFilteredChange n) ∨
    i ∈ linkRows s := by
  have lanes : ∀ p : LaneId → Prop, p .L0 ∨ p .L1 ↔ ∃ l, p l := fun p =>
    ⟨fun h => h.elim (fun h => ⟨_, h⟩) fun h => ⟨_, h⟩, fun ⟨l, h⟩ => by cases l; exact .inl h; exact .inr h⟩
  have axes : ∀ p : AxisId → Prop, (∃ a, a ∈ allAxes ∧ p a) ↔ ∃ a, p a := fun p =>
    ⟨fun ⟨a, _, h⟩ => ⟨a, h⟩, fun ⟨a, h⟩ => ⟨a, by cases a <;> simp [allAxes], h⟩⟩
  have lines : ∀ p : TrgId → Prop, (∃ n, n ∈ allTrgs ∧ p n) ↔ ∃ n, p n := fun p =>
    ⟨fun ⟨n, _, h⟩ => ⟨n, h⟩, fun ⟨n, h⟩ => ⟨n, by cases n <;> simp [allTrgs], h⟩⟩
  unfold dueRows; rw [hp]
  simp only [List.mem_append, List.mem_flatMap, mem_rowIf, InputFilter.passed_iff]
  rw [lanes fun l => i ∈ laneRows s l, axes, lines]
  simp only [mem_laneRows, mem_axisRows, exists_or, or_assoc]

/-- The row that a step timer's expiry is, by the lane's state and its active segment. -/
theorem Lane.mem_expiryRow (v : Lane) (l : LaneId) (i : Instr) : i ∈ (v.expiryRow l).toList ↔ ∃ g rest, v.queue = g :: rest ∧
    ((v.state = .running ∧ g.kind = .move ∧ i = .stepEvent l) ∨ (v.state = .running ∧ g.kind = .dwell ∧ i = .dwellIntervalExpiry l) ∨
     (v.state = .running ∧ g.kind = .home ∧ (∃ h, v.homing = some h ∧ h.limitReached = true) ∧ i = .homeLimitIntervalExpiry l) ∨
     (v.state = .running ∧ g.kind = .home ∧ (∀ h, v.homing = some h → h.limitReached = false) ∧ i = .homingStepEvent l) ∨
     (v.state = .stopping ∧ g.kind = .move ∧ (∃ r, v.ramp = some r ∧ r.steps ≠ none) ∧ i = .stopRampStepEvent l) ∨
     (v.state = .stopping ∧ g.kind = .move ∧ (∀ r, v.ramp = some r → r.steps = none) ∧ i = .inProgressStepEvent l)) := by
  unfold Lane.expiryRow
  cases hq : v.queue with
  | nil => cases v.state <;> simp
  | cons g rest =>
    have key : ∀ (P : Segment → Prop), (∃ g' rest', g :: rest = g' :: rest' ∧ P g') ↔ P g := by
      intro P; constructor
      · rintro ⟨_, _, h, k⟩; cases h; exact k
      · intro k; exact ⟨_, _, rfl, k⟩
    rw [key]
    cases hs : v.state <;> cases hk : g.kind <;> simp [hk]
    · cases hh : v.homing with
      | none => simp
      | some h => cases hl : h.limitReached <;> simp [hl]
    · cases hr : v.ramp with
      | none => simp
      | some r => cases hl : r.steps <;> simp [hl]

theorem StepTimer.expired_iff (t : StepTimer) : t.expired = true ↔ ∃ b, t = .counting 0 b := by
  unfold StepTimer.expired; split <;> simp_all

/-- The step timer's expiries that stand due. -/
theorem runsOut_iff (s : State) (l : LaneId) (i : Instr) :
    ((s.lane l).stepTimer.expired = true ∧ i ∈ ((s.lane l).expiryRow l).toList) ↔
    (RunsOut s l .running .move ∧ i = .stepEvent l) ∨ (RunsOut s l .running .dwell ∧ i = .dwellIntervalExpiry l) ∨
    ((RunsOut s l .running .home ∧ ∃ h, (s.lane l).homing = some h ∧ h.limitReached = true) ∧ i = .homeLimitIntervalExpiry l) ∨
    ((RunsOut s l .running .home ∧ ∀ h, (s.lane l).homing = some h → h.limitReached = false) ∧ i = .homingStepEvent l) ∨
    ((RunsOut s l .stopping .move ∧ ∃ r, (s.lane l).ramp = some r ∧ r.steps ≠ none) ∧ i = .stopRampStepEvent l) ∨
    ((RunsOut s l .stopping .move ∧ ∀ r, (s.lane l).ramp = some r → r.steps = none) ∧ i = .inProgressStepEvent l) := by
  rw [Lane.mem_expiryRow, StepTimer.expired_iff]
  unfold RunsOut
  cases hq : (s.lane l).queue with
  | nil => simp
  | cons g rest =>
    simp only [List.head?, Option.mem_def, Option.some.injEq, exists_eq_left', List.cons.injEq]
    constructor
    · rintro ⟨e, g', r', ⟨rfl, rfl⟩, h⟩
      rcases h with ⟨a, b, c⟩ | ⟨a, b, c⟩ | ⟨a, b, c, d⟩ | ⟨a, b, c, d⟩ | ⟨a, b, c, d⟩ | ⟨a, b, c, d⟩
      · exact .inl ⟨⟨e, a, b⟩, c⟩
      · exact .inr (.inl ⟨⟨e, a, b⟩, c⟩)
      · exact .inr (.inr (.inl ⟨⟨⟨e, a, b⟩, c⟩, d⟩))
      · exact .inr (.inr (.inr (.inl ⟨⟨⟨e, a, b⟩, c⟩, d⟩)))
      · exact .inr (.inr (.inr (.inr (.inl ⟨⟨⟨e, a, b⟩, c⟩, d⟩))))
      · exact .inr (.inr (.inr (.inr (.inr ⟨⟨⟨e, a, b⟩, c⟩, d⟩))))
    · rintro (⟨⟨e, a, b⟩, c⟩ | ⟨⟨e, a, b⟩, c⟩ | ⟨⟨⟨e, a, b⟩, c⟩, d⟩ | ⟨⟨⟨e, a, b⟩, c⟩, d⟩ | ⟨⟨⟨e, a, b⟩, c⟩, d⟩ | ⟨⟨⟨e, a, b⟩, c⟩, d⟩)
      · exact ⟨e, g, rest, ⟨rfl, rfl⟩, .inl ⟨a, b, c⟩⟩
      · exact ⟨e, g, rest, ⟨rfl, rfl⟩, .inr (.inl ⟨a, b, c⟩)⟩
      · exact ⟨e, g, rest, ⟨rfl, rfl⟩, .inr (.inr (.inl ⟨a, b, c, d⟩))⟩
      · exact ⟨e, g, rest, ⟨rfl, rfl⟩, .inr (.inr (.inr (.inl ⟨a, b, c, d⟩)))⟩
      · exact ⟨e, g, rest, ⟨rfl, rfl⟩, .inr (.inr (.inr (.inr (.inl ⟨a, b, c, d⟩))))⟩
      · exact ⟨e, g, rest, ⟨rfl, rfl⟩, .inr (.inr (.inr (.inr (.inr ⟨a, b, c, d⟩))))⟩

/-- When the report queue asks for the line (R178, R182). -/
theorem ReportQueue.asks_iff (q : ReportQueue) : q.asks = true ↔
    q.mode = .push ∧ q.suspended = false ∧ (q.head = .unsent ∨ q.head = .due) ∧ q.list ≠ [] := by
  simp [ReportQueue.asks]
  constructor
  · rintro ⟨⟨⟨a, b⟩, c⟩, d⟩; exact ⟨a, b, d, c⟩
  · rintro ⟨a, b, d, c⟩; exact ⟨⟨⟨a, b⟩, c⟩, d⟩

/-- When an idle transmitter has a frame to begin (R139, R150, R178). -/
theorem State.canBegin_iff (s : State) : s.canBegin = true ↔ s.link.tx = .idle ∧ s.link.breakHold = false ∧
    ((∃ i o f a, s.link.slot i = .answering o f a) ∨
      (s.reports.mode = .push ∧ s.reports.suspended = false ∧ (s.reports.head = .unsent ∨ s.reports.head = .due) ∧
        s.reports.list ≠ [])) := by
  have : s.link.nextAnswer.isSome = true ↔ ∃ i o f a, s.link.slot i = .answering o f a := by
    constructor
    · intro h
      obtain ⟨p, hp⟩ := Option.isSome_iff_exists.1 h
      obtain ⟨o, a, he⟩ := Link.slot_of_nextAnswer (i := p.1) (f := p.2) hp
      exact ⟨_, _, _, _, he⟩
    · rintro ⟨i, o, f, a, h⟩
      have h0 : s.link.slot .S0 = s.link.slot0 := rfl
      have h1 : s.link.slot .S1 = s.link.slot1 := rfl
      unfold Link.nextAnswer
      cases i <;> cases e0 : s.link.slot0 <;> cases e1 : s.link.slot1 <;> simp_all [Slot.answeringOrder, earlier]
      · rename_i o0 f0 a0 o1 f1 a1
        by_cases hlt : o1 < o0 <;> simp [hlt, h1, h]
      · rename_i o0 f0 a0 o1 f1 a1
        by_cases hlt : o1 < o0 <;> simp [hlt, h0, h]
  unfold State.canBegin
  simp only [Bool.and_eq_true, Bool.or_eq_true, decide_eq_true_eq, Bool.not_eq_true', this, ReportQueue.asks_iff, and_assoc]

/-- All that stands due in a part that runs, and nothing else does. -/
theorem mem_dueRows_iff {s : State} (hp : s.power = .running) (i : Instr) : i ∈ dueRows s ↔ StandsDue s i := by
  rw [mem_dueRows hp]
  simp only [runsOut_iff, mem_linkRows, State.canBegin_iff]
  cases i <;> simp [StandsDue]

/-! ### What is free to come, and the step of a part with no command waiting -/

/-- The executor's take (R147, R155). -/
theorem mem_freeRows {s : State} (hp : s.power = .running) (law : LinkLaw s.link) (i : Instr) : i ∈ freeRows s ↔
   s.restartWait = false ∧ ∃ j o r, s.link.slot j = .pending o r ∧
        (∀ o' r', s.link.slot (otherSlot j) = .pending o' r' → o < o') ∧ i = requestRow r.kind := by
  have h0 : s.link.slot .S0 = s.link.slot0 := rfl
  have h1 : s.link.slot .S1 = s.link.slot1 := rfl
  have ne := law.orders
  unfold freeRows; rw [hp]
  cases hw : s.restartWait
  · have key : ∀ p : SlotId × Nat × Request, s.link.nextRequest = some p ↔ s.link.slot p.1 = .pending p.2.1 p.2.2 ∧
        (∀ o' r', s.link.slot (otherSlot p.1) = .pending o' r' → p.2.1 < o') := by
      rintro ⟨j, o, r⟩
      unfold Link.nextRequest
      cases e0 : s.link.slot0 <;> cases e1 : s.link.slot1 <;> cases j <;>
        simp_all [Slot.pendingOrder, earlier, otherSlot, Slot.order]
      all_goals
        rename_i o0 r0 o1 r1
        by_cases hlt : o1 < o0 <;> simp [hlt, h0, h1]
        all_goals intros <;> simp_all <;> omega
    cases hn : s.link.nextRequest with
    | none =>
      simp
      intro j o r h h'
      have := (key (j, o, r)).2 ⟨h, h'⟩
      rw [hn] at this; cases this
    | some p =>
      obtain ⟨j, o, r⟩ := p
      simp
      constructor
      · rintro rfl
        have := (key (j, o, r)).1 hn
        exact ⟨j, o, r, this.1, this.2, rfl⟩
      · rintro ⟨j', o', r', a, b, rfl⟩
        have := (key (j', o', r')).2 ⟨a, b⟩
        rw [hn] at this; cases this; rfl
  · simp

/-- The choice is one of the moves. -/
theorem chooseMove_mem (l : List (Option Instr)) (n : Nat) (hl : l ≠ []) : chooseMove n l ∈ l := by
  match l, hl with
  | [i], _ => simp [chooseMove]
  | i :: j :: rest, _ =>
    have hlt : Config.choice n % (i :: j :: rest).length < (i :: j :: rest).length := Nat.mod_lt _ (by simp)
    change (i :: j :: rest).getD (Config.choice n % (i :: j :: rest).length) none ∈ _
    rw [List.getD_eq_getElem?_getD, List.getElem?_eq_getElem hlt]
    exact List.getElem_mem _

/-- The moves of a part with no command waiting. -/
theorem mem_nextMoves (s : State) (m : Option Instr) : m ∈ nextMoves s ↔
    (∃ i, i ∈ dueRows s ++ freeRows s ∧ m = some i) ∨ (dueRows s = [] ∧ m = none) := by
  unfold nextMoves
  dsimp only
  rw [List.mem_append, List.mem_map]
  have : m ∈ (if (dueRows s).isEmpty then [(none : Option Instr)] else []) ↔ dueRows s = [] ∧ m = none := by
    cases dueRows s <;> simp
  rw [this]
  exact or_congr ⟨fun ⟨i, a, b⟩ => ⟨i, a, b.symm⟩, fun ⟨i, a, b⟩ => ⟨i, a, b.symm⟩⟩ Iff.rfl

/-- The step of a part with no command waiting: one of its moves. -/
theorem step_idle {s : State} (h : s.pending = []) : ∃ count, ∃ m ∈ nextMoves s, step s = match m with
   | some i => exec i { s with freeCount := count }
   | none => .next (advance { s with freeCount := count }) := by
  refine ⟨if (nextMoves s).length ≤ 1 then s.freeCount else s.freeCount + 1, chooseMove s.freeCount (nextMoves s), ?_, ?_⟩
  · apply chooseMove_mem
    unfold nextMoves; dsimp only
    cases dueRows s <;> simp
  · unfold step; rw [h]; dsimp only
    unfold idle; dsimp only
    have : (if (nextMoves s).length ≤ 1 then s else { s with freeCount := s.freeCount + 1 }) =
        { s with freeCount := if (nextMoves s).length ≤ 1 then s.freeCount else s.freeCount + 1 } := by
      split <;> rfl
    rewrite [this, h]
    cases chooseMove s.freeCount (nextMoves s) <;> rfl

/-- A run goes on from the state a step leaves. -/
theorem run_succ {k : Nat} {s u : State} {o : Host.Outcome State Fault Refusal} (h : step s = .next u)
    (hr : Sys2Proof.core.run k u = o) : Sys2Proof.core.run (k + 1) s = o := by
  have unroll : ∀ (M : Host.Core) (s : M.State), M.run (k + 1) s = match M.step s with
      | .next s' => M.run k s'
      | .fault r => .fault r
      | .refused r => .refused r := fun _ _ => rfl
  have := unroll Sys2Proof.core s
  rw [show Sys2Proof.core.step s = .next u from h] at this
  exact this.trans hr

/-! ### So many half microseconds later -/

/-- Half a microsecond in a part that runs. -/
theorem advance_running {s : State} (h : s.power = .running) : advance s =
    countTime (s.time.advance.tickPhase = 0) (s.time.advance.msPhase = 0) { s with time := s.time.advance } := by
  cases s; dsimp only at h; subst h; rfl

theorem later_running {s : State} (hp : s.power = .running) (k : Nat) : (Nat.repeat advance k s).power = .running := by
  induction k with
  | zero => exact hp
  | succ k ih => rw [Nat.repeat, advance_running ih]; exact ih

theorem later_succ {s : State} (hp : s.power = .running) (k : Nat) : Nat.repeat advance (k + 1) s =
    let t := Nat.repeat advance k s
    countTime (t.time.advance.tickPhase = 0) (t.time.advance.msPhase = 0) { t with time := t.time.advance } := by
  rw [Nat.repeat, advance_running (later_running hp k)]

theorem later_msPhase {s : State} (hp : s.power = .running) (h : s.time.msPhase < 2000) (k : Nat) :
    (Nat.repeat advance k s).time.msPhase = (s.time.msPhase + k) % 2000 := by
  induction k with
  | zero => exact (Nat.mod_eq_of_lt h).symm
  | succ k ih =>
    rw [later_succ hp]
    change ((Nat.repeat advance k s).time.msPhase + 1) % 2000 = _
    rw [ih]; omega

/-- A field that the passing of time leaves alone. -/
theorem later_kept {α : Type} {s : State} (hp : s.power = .running) (get : State → α)
    (hg : ∀ b m (s : State), get (countTime b m s) = get s) (ht : ∀ (s : State) t, get { s with time := t } = get s) (k : Nat) :
    get (Nat.repeat advance k s) = get s := by
  induction k with
  | zero => rfl
  | succ k ih => rw [later_succ hp, hg, ht, ih]

/-- A measure that runs on. -/
theorem later_measure {s : State} (hp : s.power = .running) (get : State → Option Nat)
    (hg : ∀ b m (s : State), get (countTime b m s) = measured (get s)) (ht : ∀ (s : State) t, get { s with time := t } = get s)
    {n : Nat} (hn : get s = some n) (k : Nat) : get (Nat.repeat advance k s) = some (n + k) := by
  induction k with
  | zero => exact hn
  | succ k ih => rw [later_succ hp, hg, ht, ih]; rfl

/-- A timer that counts the millisecond marks (R124). -/
theorem later_msTimer {s : State} (hp : s.power = .running) (h : s.time.msPhase < 2000) (get : State → MsTimer)
    (hg : ∀ b m (s : State), get (countTime b m s) = if m then countDown (get s) else get s)
    (ht : ∀ (s : State) t, get { s with time := t } = get s) {n : Nat} (hn : get s = some n) (k : Nat) :
    get (Nat.repeat advance k s) = some (n - (s.time.msPhase + k) / 2000) := by
  induction k with
  | zero => rw [show Nat.repeat advance 0 s = s from rfl, hn, Nat.div_eq_of_lt (by omega)]; rfl
  | succ k ih =>
    have mark : (Nat.repeat advance k s).time.advance.msPhase = 0 ↔ (s.time.msPhase + k + 1) % 2000 = 0 := by
      change ((Nat.repeat advance k s).time.msPhase + 1) % 2000 = 0 ↔ _
      rw [later_msPhase hp h]; omega
    rw [later_succ hp, hg, ht, ih]
    split
    · rename_i hd; simp only [decide_eq_true_eq] at hd
      have := mark.1 hd
      simp only [countDown, Option.map_some]; congr 1; omega
    · rename_i hd; simp only [decide_eq_true_eq] at hd
      have : ¬(s.time.msPhase + k + 1) % 2000 = 0 := fun h' => hd (mark.2 h')
      congr 1; omega

/-- A frame on TXD with no bit of an earlier one before it (R133, R151). -/
theorem later_sending {s : State} (hp : s.power = .running) {source : TxSource} {f : List Byte} {left : Nat}
    (h : s.link.tx = .sending source f left) (hb : s.link.lastBit = none) (k : Nat) :
    let k' := (Nat.repeat advance k s).link
    k'.tx = .sending source f (left - k * s.link.rate.bitsPerSecond) ∧ k'.lastBit = none ∧ k'.rate = s.link.rate := by
  induction k with
  | zero => exact ⟨by rw [Nat.zero_mul]; exact h, hb, rfl⟩
  | succ k ih =>
    obtain ⟨a, b, c⟩ := ih
    rw [later_succ hp]
    generalize (Nat.repeat advance k s) = t at a b c
    change t.link.sendBits.tx = _ ∧ t.link.sendBits.lastBit = _ ∧ t.link.sendBits.rate = _
    have : t.link.sendBits = { t.link with tx := t.link.tx.advance t.link.rate } := by
      unfold Link.sendBits; split
      · rename_i h; rw [b] at h; cases h
      · rfl
    rw [this]
    refine ⟨?_, b, c⟩
    dsimp only
    rw [a, c, Transmitter.advance, Nat.add_mul, Nat.one_mul, Nat.sub_sub]

/-- A bit that a break found in progress, with no frame behind it (R138). -/
theorem later_lastBit {s : State} (hp : s.power = .running) {b : LastBit} (hb : s.link.lastBit = some b) (h1 : 1 ≤ b.left)
    (h : s.link.tx = .idle) (k : Nat) :
    (Nat.repeat advance k s).link.tx = .idle ∧ (Nat.repeat advance k s).link.lastBit =
      if k * b.rate.bitsPerSecond < b.left then some { b with left := b.left - k * b.rate.bitsPerSecond } else none := by
  induction k with
  | zero => exact ⟨h, by rw [if_pos (by omega), Nat.zero_mul, Nat.sub_zero]; exact hb⟩
  | succ k ih =>
    obtain ⟨a, c⟩ := ih
    rw [later_succ hp]
    generalize (Nat.repeat advance k s) = t at a c
    change t.link.sendBits.tx = _ ∧ t.link.sendBits.lastBit = _
    unfold Link.sendBits
    split at c
    · rw [c]
      refine ⟨a, ?_⟩
      simp only [LastBit.advance, Nat.add_mul, Nat.one_mul]
      split
      · rw [if_neg (by omega)]
      · rw [if_pos (by omega), Nat.sub_sub]
    · rw [c]
      exact ⟨by rw [a]; rfl, by rw [if_neg (by rw [Nat.add_mul]; omega)]⟩

end Sys2Proof.Machine
end

