-- ==== Sys2Proof/WellFormed.lean ====
section
/-! DEFINITION. Which commands are terms of the table: the operands of every row but one range over whole types. -/

namespace Sys2Proof

/-- LEN_OVER_200 is the arrival of a LEN byte ABOVE 200 (R142); every other command is well formed with every operand. -/
def Instr.wellFormed : Instr → Bool
  | .lenOver200 len => 200 < len.toNat
  | _ => true

end Sys2Proof
end

