-- ==== Sys2Proof/Tests/Slice0.lean ====
section
/-! SUPPORT. Tests: the ill-formed commands that the checks refuse; single steps against the worked examples and tables of the
spec; and, for each statement with hypotheses, a state and operands that meet them (`witness_…`), clause by clause at the edges
of their ranges. -/

namespace Sys2Proof.Tests

open Sys2Proof Sys2Proof.Machine

/-! ### Builders -/

/-- The request of this KIND and payload, with SEQ 7. -/
def request (kind : Byte) (payload : List Byte) : Request := ⟨7, kind, payload, 0⟩

/-- The part `s` with that request alone in the slots and the cache empty. -/
def asks (s : State) (kind : Byte) (payload : List Byte) : State :=
  { s with link := { s.link with slot0 := .pending 0 (request kind payload), slot1 := .free, cache := [] } }

/-- The part right after reset with these lanes. -/
def lanes (v0 v1 : Lane) : State := { State.reset with lanes := ⟨v0, v1⟩ }

theorem asks_executes {s : State} {kind : Byte} (payload : List Byte) {row : Instr} (hp : s.power = .running)
    (hw : s.restartWait = false) (hk : requestRow kind = row) :
    Executes row (asks s kind payload) .S0 0 (request kind payload) :=
  ⟨⟨hp, hw, rfl, hk⟩, by simp [asks]⟩

/-- A MOVE of three steps of axis A on L0 from 1000 to 600 ticks. -/
def move3 : Segment := ⟨101, .L0, .move [(.A, 3)] 600 3, 1000, .none, true⟩
def dwell2 : Segment := ⟨103, .L0, .dwell 2, 20, .none, true⟩
def homeA : Segment := ⟨105, .L0, .home .A 5 10, 50, .none, true⟩

def runningMove : Lane := { Lane.atReset with
  queue := [move3], state := .running, started := true, stepTimer := .counting 0 true, accumulators := ⟨some 1, none, none, none⟩
  interval := 1000 }

/-- The same with two of its three steps taken. -/
def lastStep : Lane := { runningMove with accumulators := ⟨some 1, none, none, none⟩, stepCount := 2 }

/-- The same on a controlled stop of distance 1, before its in-progress step. -/
def stoppingMove (steps : Option Nat) (taken : Nat) : Lane := { runningMove with
  state := .stopping, ramp := some ⟨.idle, 1, 4000, 1000, steps, taken⟩ }

def runningDwell (left : Nat) : Lane := { Lane.atReset with
  queue := [dwell2], state := .running, started := true, stepTimer := .counting 0 true, interval := 20, dwellLeft := left }

def runningHome (phase : HomePhase) (limit : Bool) : Lane := { Lane.atReset with
  queue := [homeA], state := .running, started := true, stepTimer := .counting 0 true, interval := 50
  homing := some ⟨phase, limit⟩ }

def readyLane (g : Segment) : Lane := { Lane.atReset with queue := [g], state := .ready }

/-- A lane that waits with its MOVE on these conditions. -/
def waitingMove (u : Unmet) : Lane := { Lane.atReset with
  queue := [move3], state := .waiting, started := true, unmet := u, settleTimer := if u.settle then some 5 else none
  accumulators := ⟨some 1, none, none, none⟩, interval := 1000 }

/-- The MOVE at its last step event with `g` behind it. -/
def lastStepThen (g : Segment) : Lane := { lastStep with queue := [move3, g] }

/-- L0 waits on sync number 4. -/
def syncWaiting : State := { lanes (waitingMove ⟨false, none, true⟩) Lane.atReset with sync := ⟨some ⟨4, some 3⟩, none⟩ }

/-! ### Well-formed commands -/

theorem test_wellFormed_lenOver200_above : Instr.wellFormed (.lenOver200 201) := by decide
theorem test_illFormed_lenOver200_at_200 : ¬Instr.wellFormed (.lenOver200 200) := by decide
theorem test_word_spells_no_command : decodeTableWord 8 0 = none := rfl

/-! ### Worked examples of the spec -/

/-- R143: the nine bytes 0x31 to 0x39 give 0x29B1. -/
theorem test_crc_check_value : crc16 [0x31, 0x32, 0x33, 0x34, 0x35, 0x36, 0x37, 0x38, 0x39] = 0x29B1 := by decide +kernel

/-- R28: the table of intervals, second row (1000 to 997 in 5) and first row (1000 to 600 in 5). -/
theorem test_ramp_intervals :
    (List.range 5).map (fun k => rampInterval 1000 997 5 (k + 1)) = [1000, 1000, 999, 998, 997] ∧
    (List.range 5).map (fun k => rampInterval 1000 600 5 (k + 1)) = [1000, 900, 800, 700, 600] := by decide

/-- R90: with Ic 600 and Is 2000 a ramp of 4 uses 950, 1300, 1650 and 2000 ticks. -/
theorem test_stop_intervals : (List.range 4).map (fun j => stopInterval 2000 600 4 (j + 1)) = [950, 1300, 1650, 2000] := by
  decide

/-- R47: in HALF mode with sense NORMAL a forward step from index 7 goes to 0 and a reverse step from 0 to 7. -/
theorem test_half_step_wraps :
    (({ Axis.atReset .L0 .high with phase := 7 }).takeStep [] true).phase = 0 ∧
    ((Axis.atReset .L0 .high).takeStep [] false).phase = 7 := by decide

/-- R57: a TABLE axis at index 5 under a new count of 3 goes to index 2. -/
theorem test_pattern_reduces :
    (((takePattern [8, 4, 2] (State.reset.setAxis .A { State.reset.axis .A with mode := .table, phase := 5 })).axis .A).phase) =
      2 := by decide

/-- Section 11.2: KIND 0x17 names no request, 0x16 names CLEAR-LANE. -/
theorem test_request_rows : requestRow 0x17 = .unknownKindRequest ∧ requestRow 0x16 = .clearLane := by decide

/-- Section 11.3: 9 bytes for a DWELL with no options; an entry count of 5 fits no length. -/
theorem test_segment_lengths :
    segmentLength [0, 1, 0, 0, 103, 0, 20, 0, 2] = some 9 ∧ segmentLength [0, 0, 0, 0, 1, 0, 20, 5, 0, 0, 0, 0, 1] = none := by
  decide

/-- R188, R174: after a power-on reset the RESTARTED report is the first frame. -/
theorem test_restarted_first : ∀ t, exec (.deviceResetEnd .low .low) (beginReset .power State.reset) = .next t →
    t.reports.head = .sending ∧ t.attn = .low ∧ t.txd = .low := by
  intro t h; cases h; decide

/-- A step of an idle part with an empty queue is never a stop, and takes the transmitter's choice first (log 3). -/
theorem test_idle_step_begins_frame : ∀ t, step State.reset = .next t → t.reports.head = .sending := by
  intro t h; cases h; decide

/-- R138 step 4: a break in the start bit of a report frame leaves TXD low to the end of that bit (R133: at 115,200 bit/s the
500,000 parts left of 2,000,000 last five half microseconds), and high from then on. -/
theorem test_break_ends_bit : ∀ t, exec .linkBreak { State.reset with
      pins := { State.reset.pins with rxd := .low }
      link := { State.reset.link with breakMeasure := some 20000, tx := .sending (.report 0) [0xC3] 18500000 } } = .next t →
    t.link.tx = .idle ∧ t.txd = .low ∧ (Nat.repeat advance 4 t).txd = .low ∧ (Nat.repeat advance 5 t).txd = .high := by
  intro t h; cases h; decide

/-! ### The laws of the sample states -/

theorem ok_reset : LaneOk Lane.atReset :=
  ⟨by decide, by decide, rfl, by decide, by decide, rfl, by decide, fun h => absurd h (by decide), trivial, rfl,
    fun _ h => by cases h⟩

theorem ok_runningMove : LaneOk runningMove :=
  ⟨by decide, by decide, rfl, by decide, by decide, rfl, by decide, fun h => absurd h (by decide), trivial, rfl,
    fun _ h => by cases h⟩

theorem ok_lastStep : LaneOk lastStep :=
  ⟨by decide, by decide, rfl, by decide, by decide, rfl, by decide, fun h => absurd h (by decide), trivial, rfl,
    fun _ h => by cases h⟩

theorem ok_stoppingMove (steps : Option Nat) (taken : Nat) : LaneOk (stoppingMove steps taken) :=
  ⟨by simp [stoppingMove, runningMove], by simp [stoppingMove, runningMove], rfl, by simp [stoppingMove, runningMove, Lane.atReset],
    by simp [stoppingMove, runningMove, Lane.atReset], rfl, by simp [stoppingMove], fun _ => ⟨move3, rfl, rfl⟩, trivial, rfl,
    (fun _ h => by cases h)⟩

theorem ok_runningDwell (left : Nat) : LaneOk (runningDwell left) :=
  ⟨by simp [runningDwell], by simp [runningDwell], rfl, by simp [runningDwell, Lane.atReset], by simp [runningDwell, Lane.atReset], rfl,
    by simp [runningDwell, Lane.atReset], (fun h => by cases h), trivial, rfl, (fun _ h => by cases h)⟩

theorem ok_runningHome (limit : Bool) : LaneOk (runningHome .seek limit) ∧ LaneOk (runningHome .leave limit) :=
  ⟨⟨by simp [runningHome], by simp [runningHome], rfl, by simp [runningHome, Lane.atReset], by simp [runningHome, Lane.atReset], rfl,
    by simp [runningHome, Lane.atReset], (fun h => by cases h), trivial, rfl, (fun _ h => by cases h; simp [runningHome])⟩,
   ⟨by simp [runningHome], by simp [runningHome], rfl, by simp [runningHome, Lane.atReset], by simp [runningHome, Lane.atReset], rfl,
    by simp [runningHome, Lane.atReset], (fun h => by cases h), trivial, rfl, (fun _ h => by cases h; simp [runningHome])⟩⟩

theorem ok_ready (g : Segment) : LaneOk (readyLane g) :=
  ⟨by simp [readyLane], by simp [readyLane], rfl, by simp [readyLane, Lane.atReset], by simp [readyLane, Lane.atReset], rfl,
    by simp [readyLane, Lane.atReset], (fun h => by cases h), trivial, rfl, (fun _ h => by cases h)⟩

theorem ok_waiting (u : Unmet) (h : u ≠ Unmet.empty) : LaneOk (waitingMove u) :=
  ⟨by simp [waitingMove], by simp [waitingMove], rfl, by simp [waitingMove, Lane.atReset], by simpa [waitingMove] using h,
    by cases hs : u.settle <;> simp [waitingMove, hs], by simp [waitingMove, Lane.atReset], (fun h => by cases h), trivial, rfl,
    (fun _ h => by cases h)⟩

/-- Lanes with no soft hold and no sync wait keep the law in the part as reset leaves it. -/
theorem law_lanes {v0 v1 : Lane} (h0 : LaneOk v0) (h1 : LaneOk v1) (y0 : v0.unmet.sync = false) (y1 : v1.unmet.sync = false)
    (a0 : v0.softHold = false) (a1 : v1.softHold = false) (n0 : v0.state ≠ .held) (n1 : v1.state ≠ .held) :
    LaneLaw (lanes v0 v1) where
  lanes
    | .L0 => h0
    | .L1 => h1
  entryIff
    | .L0 => y0.symm
    | .L1 => y1.symm
  oneEntry := .inl rfl
  runningFree
    | .L0, _ => by rw [State.holdAsserted]; simp only [lanes, State.lane, PerLane.get, a0]; rfl
    | .L1, _ => by rw [State.holdAsserted]; simp only [lanes, State.lane, PerLane.get, a1]; rfl
  heldHeld
    | .L0, h => absurd h n0
    | .L1, h => absurd h n1

theorem ok_lastStepThen (g : Segment) : LaneOk (lastStepThen g) :=
  ⟨by simp [lastStepThen, lastStep, runningMove], by simp [lastStepThen], rfl, by simp [lastStepThen, lastStep, runningMove, Lane.atReset],
    by simp [lastStepThen, lastStep, runningMove, Lane.atReset], rfl, by simp [lastStepThen, lastStep, runningMove, Lane.atReset],
    (fun h => by cases h), trivial, rfl, (fun _ h => by cases h)⟩

theorem law_lastStepThen (g : Segment) : LaneLaw (lanes (lastStepThen g) Lane.atReset) :=
  law_lanes (ok_lastStepThen g) ok_reset rfl rfl rfl rfl (by simp [lastStepThen, lastStep, runningMove]) (by decide)

/-- Lanes of which none runs or is held keep the law under any line settings. -/
theorem law_setLine {s : State} (h : LaneLaw s) (n : TrgId) (t : TrgLine) (hr : ∀ l, (s.lane l).state ≠ .running)
    (hh : ∀ l, (s.lane l).state ≠ .held) : LaneLaw (s.setLine n t) where
  lanes := h.lanes
  entryIff := h.entryIff
  oneEntry := h.oneEntry
  runningFree l k := absurd k (hr l)
  heldHeld l k := absurd k (hh l)

/-- A request in the slots is no matter of the lanes. -/
theorem law_asks {s : State} (h : LaneLaw s) (kind : Byte) (payload : List Byte) : LaneLaw (asks s kind payload) :=
  ⟨h.lanes, h.entryIff, h.oneEntry, h.runningFree, h.heldHeld⟩

theorem law_syncWaiting : LaneLaw syncWaiting where
  lanes
    | .L0 => ok_waiting _ (by decide)
    | .L1 => ok_reset
  entryIff
    | .L0 => rfl
    | .L1 => rfl
  oneEntry := .inr rfl
  runningFree
    | .L0, h => by cases h
    | .L1, h => by cases h
  heldHeld
    | .L0, h => by cases h
    | .L1, h => by cases h

theorem law_reset : LaneLaw State.reset :=
  law_lanes ok_reset ok_reset rfl rfl rfl rfl (by decide) (by decide)

theorem hold_reset : HoldTimerLaw State.reset := by intro a; cases a <;> rfl

/-! ### Witnesses: requests

Each conjunction stands for one statement: the executor's hypotheses, then the condition of each clause at the edge of its
range. -/

/-- The request row with this KIND and payload, asked of the part as reset leaves it. -/
theorem asked {kind : Byte} {row : Instr} (payload : List Byte) (hk : requestRow kind = row) :
    Executes row (asks State.reset kind payload) .S0 0 (request kind payload) := asks_executes payload rfl rfl hk

theorem witness_StepRunsFrontCommand : { State.reset with pending := [Instr.ping, .mark] }.pending = Instr.ping :: [.mark] := rfl

theorem witness_CachedRequestNotExecuted :
    let s := asks State.reset 0x1B []
    let s1 := { s with link := { s.link with cache := [⟨7, 0, [0xC3]⟩] } }
    Takes .mark s1 .S0 0 (request 0x1B []) ∧
      s1.link.cache.find? (fun e => e.seq = (7 : Byte) && e.check = (0 : Word16)) = some ⟨7, 0, [0xC3]⟩ :=
  ⟨⟨rfl, rfl, rfl, by decide⟩, by decide⟩

theorem witness_WrongLengthRefused :
    Executes .setTick (asks State.reset 0x08 [1, 2]) .S0 0 (request 0x08 [1, 2]) ∧ lengthsAdmitted .setTick = some (1, 1) ∧
      1 < (request 0x08 [1, 2]).payload.length := ⟨asked _ (by decide), rfl, by decide⟩

theorem witness_PingAndIdentifyAnswer : Executes .ping (asks State.reset 0x01 (List.replicate 200 0xC3)) .S0 0
    (request 0x01 (List.replicate 200 0xC3)) ∧ (request 0x01 (List.replicate 200 0xC3)).payload.length ≤ 200 ∧
    Executes .identify (asks State.reset 0x02 []) .S0 0 (request 0x02 []) :=
  ⟨asked _ (by decide), Nat.le_of_eq List.length_replicate, asked _ (by decide)⟩

/-- The largest admitted fields, and a rate code, a period and a limit just beyond. -/
theorem witness_SetLinkTakesSettings :
    Executes .setLink (asks State.reset 0x03 [5, 1, 1, 254, 15, 255]) .S0 0 (request 0x03 [5, 1, 1, 254, 15, 255]) ∧
      ¬(5 < (5 : Byte).toNat ∨ 1 < (1 : Byte).toNat ∨ word16 1 254 = 0 ∨ 510 < word16 1 254 ∨ 15 < (15 : Byte).toNat) ∧
      510 < word16 1 255 ∧ word16 0 0 = 0 ∧ 5 < (6 : Byte).toNat ∧ 15 < (16 : Byte).toNat :=
  ⟨asked _ (by decide), by decide, by decide, by decide, by decide, by decide⟩

theorem witness_RestartWaits : Executes .restart (asks State.reset 0x04 []) .S0 0 (request 0x04 []) ∧
    requestRow 0x1B = .mark ∧ { State.reset with restartWait := true }.restartWait = true :=
  ⟨asked _ (by decide), by decide, rfl⟩

theorem witness_UnknownKindAnswered :
    Executes .unknownKindRequest (asks State.reset 0xFF [1]) .S0 0 (request 0xFF [1]) := asked _ (by decide)

/-- Exponents 7 and 8, the exponent in force, and a busy lane. -/
theorem witness_SetTickChecksAndTakes :
    Executes .setTick (asks State.reset 0x08 [8]) .S0 0 (request 0x08 [8]) ∧ 7 < (8 : Byte).toNat ∧
      Executes .setTick (asks State.reset 0x08 [7]) .S0 0 (request 0x08 [7]) ∧ (7 : Byte).toNat ≤ 7 ∧
      (7 : Byte).toNat ≠ State.reset.time.exponent ∧ (1 : Byte).toNat = State.reset.time.exponent ∧
      (∀ l, (State.reset.lane l).state = .idle) ∧
      Executes .setTick (asks (lanes runningMove Lane.atReset) 0x08 [7]) .S0 0 (request 0x08 [7]) ∧
      runningMove.state ∈ [LaneState.waiting, .running, .held, .stopping] :=
  ⟨asked _ (by decide), by decide, asked _ (by decide), by decide, by decide, by decide, fun l => by cases l <;> rfl,
    asks_executes _ rfl rfl (by decide), by decide⟩

/-- The settle time 255 and 256, the stop interval 8 and 7, lane 2, and a busy lane. -/
theorem witness_SetLaneChecksAndTakes :
    Executes .setLane (asks State.reset 0x0A [0, 0, 255, 0, 0, 0, 8, 0, 0]) .S0 0 (request 0x0A [0, 0, 255, 0, 0, 0, 8, 0, 0]) ∧
      word16 0 255 ≤ 255 ∧ 8 ≤ word16 0 8 ∧ 255 < word16 1 0 ∧ word16 0 7 < 8 ∧ 1 < (2 : Byte).toNat ∧
      (0 : Byte).toNat = LaneId.code .L0 ∧ (State.reset.lane .L0).state ∉ [LaneState.waiting, .running, .held, .stopping] ∧
      runningMove.state ∈ [LaneState.waiting, .running, .held, .stopping] :=
  ⟨asked _ (by decide), by decide, by decide, by decide, by decide, by decide, rfl, by decide, by decide⟩

/-- The window's own bounds, the value below every window, axis code 4, and an axis of a busy lane. -/
theorem witness_SetPositionChecksAndTakes :
    Executes .setPosition (asks State.reset 0x0D [0, 0x7F, 255, 255, 255]) .S0 0 (request 0x0D [0, 0x7F, 255, 255, 255]) ∧
      word32 0x7F 255 255 255 ≤ (State.reset.axis .A).windowMax ∧ (State.reset.axis .A).windowMin ≤ word32 0x7F 255 255 255 ∧
      word32 0x80 0 0 0 < (State.reset.axis .A).windowMin ∧ 3 < (4 : Byte).toNat ∧ (0 : Byte).toNat = AxisId.code .A ∧
      (State.reset.axis .A).owner = some .L0 ∧ runningMove.state ∈ [LaneState.waiting, .running, .held, .stopping] ∧
      (State.reset.lane .L0).state ∉ [LaneState.waiting, .running, .held, .stopping] :=
  ⟨asked _ (by decide), by decide, by decide, by decide, by decide, rfl, rfl, by decide, by decide⟩

/-- A RELEASED axis of an idle lane, a FREE one, and an ENERGISED one. -/
theorem witness_EnergiseAndReleaseAct :
    let s := State.reset.setAxis .A { State.reset.axis .A with energised := true, holdTimer := some 500 }
    Executes .energise (asks State.reset 0x0E [3]) .S0 0 (request 0x0E [3]) ∧ HoldTimerLaw (asks State.reset 0x0E [3]) ∧
      (3 : Byte).toNat = AxisId.code .D ∧ (State.reset.axis .D).owner = some .L1 ∧ (State.reset.lane .L1).state = .idle ∧
      ((State.reset.setAxis .D { State.reset.axis .D with owner := none }).axis .D).owner = none ∧ 3 < (4 : Byte).toNat ∧
      Executes .release (asks s 0x0F [0]) .S0 0 (request 0x0F [0]) ∧ (s.axis .A).energised = true ∧
      (State.reset.axis .A).energised = false ∧ (0 : Byte).toNat = AxisId.code .A ∧ (s.lane .L0).state = .idle :=
  ⟨asked _ (by decide), fun a => by cases a <;> rfl, rfl, rfl, rfl, rfl, by decide, asks_executes _ rfl rfl (by decide), rfl, rfl,
    rfl, rfl⟩

/-- Counts 2 and 1, a coil state of 15 and of 16, a count that the length does not match, and a TABLE axis of a busy lane. -/
theorem witness_LoadPatternChecksAndTakes :
    Executes .loadPattern (asks State.reset 0x0C [2, 15, 0]) .S0 0 (request 0x0C [2, 15, 0]) ∧
      (request 0x0C [2, 15, 0]).payload.length ≤ 200 ∧ ([15, 0] : List Byte).length = (2 : Byte).toNat ∧
      ¬((2 : Byte).toNat < 2 ∨ 16 < (2 : Byte).toNat ∨ ∃ b ∈ ([15, 0] : List Byte), 15 < b.toNat) ∧
      ([16] : List Byte).length = (1 : Byte).toNat ∧ (1 : Byte).toNat < 2 ∧ ([15, 0] : List Byte).length ≠ (3 : Byte).toNat ∧
      (∀ a, (State.reset.axis a).mode ≠ .table) ∧
      ((State.reset.setAxis .A { State.reset.axis .A with mode := .table }).axis .A).mode = .table :=
  ⟨asked _ (by decide), by decide, by decide, by decide, by decide, by decide, by decide, fun a => by cases a <;> decide, rfl⟩

/-- The setting of axis A as reset leaves it. -/
def settingA : AxisSetting := (State.reset.axis .A).setting

theorem settingA_admitted : settingA.Admitted := ⟨by decide, by decide, by decide, by decide, by decide⟩

/-- A lane change with both lanes idle and with the lane left busy, a window that excludes the position, and a code that names no
value. -/
theorem witness_SetAxisRefusals :
    (Executes .setAxis (asks (lanes runningMove Lane.atReset) 0x09 ({ settingA with owner := some .L1 }.payload .A)) .S0 0
      (request 0x09 ({ settingA with owner := some .L1 }.payload .A))) ∧
      (request 0x09 ({ settingA with owner := some .L1 }.payload .A)).payload.length = 18 ∧ settingA.Admitted ∧
      runningMove.state ≠ .idle ∧ runningMove.state ≠ .halted ∧ { settingA with windowMin := 1 }.Admitted ∧
      (State.reset.axis .A).position < ({ settingA with windowMin := 1 }).windowMin ∧
      (∀ a w, w.Admitted → (request 0x09 (List.replicate 18 9)).payload ≠ AxisSetting.payload a w) :=
  ⟨asks_executes _ rfl rfl (by decide), by decide, settingA_admitted, by decide, by decide,
    ⟨by decide, by decide, by decide, by decide, by decide⟩, by decide, fun a w _ h => by
      have := congrArg (fun p => p.head?) h
      cases a <;> simp [request, AxisSetting.payload, put8, AxisId.code] at this⟩

theorem witness_SetAxisTakes :
    let w := { settingA with owner := some .L1, homeFilter := 0 }
    let s := State.reset.setAxis .A { State.reset.axis .A with home := ⟨.low, .high, some 0⟩ }
    Executes .setAxis (asks s 0x09 (w.payload .A)) .S0 0 (request 0x09 (w.payload .A)) ∧ w.Admitted ∧
      HoldTimerLaw (asks s 0x09 (w.payload .A)) ∧ (s.lane .L0).state = .idle ∧ (s.lane .L1).state = .idle ∧
      w.windowMin ≤ (s.axis .A).position ∧ (s.axis .A).position ≤ w.windowMax ∧ (s.axis .A).home.measure = some 0 ∧
      8 * w.homeFilter ≤ 0 :=
  ⟨asks_executes _ rfl rfl (by decide), ⟨by decide, by decide, by decide, by decide, by decide⟩,
    fun a => by cases a <;> rfl, rfl, rfl, by decide, by decide, rfl, by decide⟩

/-- Each highest code, a line 4, and a measure that the new filter time has and has not passed. -/
theorem witness_SetLineChecksAndTakes :
    let t := { State.reset.line .T3 with role := .halt, edge := .both, mask := .both, filterTime := 255, capture := true }
    Executes .setLine (asks State.reset 0x0B [3, 3, 2, 1, 3, 255, 1]) .S0 0 (request 0x0B [3, 3, 2, 1, 3, 255, 1]) ∧
      (3 : Byte).toNat = TrgId.code .T3 ∧ (3 : Byte).toNat = t.role.code ∧ (2 : Byte).toNat = t.edge.code ∧
      (1 : Byte).toNat = Level.code t.activeLevel ∧ (3 : Byte).toNat = t.mask.code ∧ (255 : Byte).toNat = t.filterTime ∧
      (1 : Byte).toNat = t.capture.toNat ∧ t.input = (State.reset.line .T3).input ∧ t.input.measure = none ∧
      8 * 255 ≤ 2040 ∧ ¬8 * 255 ≤ 2039 ∧ 3 < (4 : Byte).toNat :=
  ⟨asked _ (by decide), rfl, rfl, rfl, rfl, rfl, rfl, rfl, rfl, rfl, by decide, by decide, by decide⟩

/-- L0 waits on TRG0 with its MOVE, and the raw level of TRG0 has been high for 1 µs against a filtered level of low. -/
def edgeComing : State :=
  (lanes (waitingMove ⟨false, some .T0, false⟩) Lane.atReset).setLine .T0
    { State.reset.line .T0 with role := .start, filterTime := 1, input := ⟨.high, .low, some 2⟩ }

theorem law_edgeComing : LaneLaw edgeComing :=
  law_setLine (law_lanes (ok_waiting _ (by decide)) ok_reset rfl rfl rfl rfl (by simp [waitingMove]) (by decide)) _ _
    (fun l => by cases l <;> decide) (fun l => by cases l <;> decide)

/-- A filter time of 0 passes the level: as a START line that a waiting lane leaves on, or that meets one condition of two; as a
HALT line of L0, of both lanes and of none; as a HOLD line; with the capture flag ON; and as an edge that is not accepted. -/
theorem witness_SetLinePasses :
    let x := fun r m e c => ({ edgeComing.line .T0 with role := r, mask := m, edge := e, capture := c, filterTime := 0 } : TrgLine)
    Executes .setLine (asks edgeComing 0x0B [0, 1, 0, 1, 0, 0, 1]) .S0 0 (request 0x0B [0, 1, 0, 1, 0, 0, 1]) ∧
      LaneLaw (asks edgeComing 0x0B [0, 1, 0, 1, 0, 0, 1]) ∧ (x .start .none .rise true).input = (edgeComing.line .T0).input ∧
      (∃ e, (x .start .none .rise true).input.measure = some e ∧ 8 * (x .start .none .rise true).filterTime ≤ e) ∧
      edgeReleases edgeComing .L0 .T0 move3 ∧ move3.kind ≠ .dwell ∧ ¬waitsOn edgeComing .L1 .T0 ∧
      (waitingMove ⟨true, some .T0, false⟩).unmet.settle = true ∧
      (∀ r m c, (x r m .rise c).edgeAccepted = true) ∧ (∀ r m c, (x r m .both c).edgeAccepted = true) ∧
      (∀ r m c, (x r m .fall c).edgeAccepted = false) ∧ (∀ m, (x .halt m .rise true).mask = m) ∧
      (edgeComing.lane .L0).state ≠ .halted ∧ edgeComing.sync.get (otherLane .L0) = none :=
  ⟨asks_executes _ rfl rfl (by decide), law_asks law_edgeComing .., rfl, ⟨2, rfl, by decide⟩, ⟨⟨rfl, rfl⟩, rfl, rfl, rfl⟩, by decide,
    fun h => absurd h.1 (by decide), rfl, fun _ _ _ => rfl, fun _ _ _ => rfl, fun _ _ _ => rfl, fun _ => rfl, by decide, rfl⟩

/-- A MOVE of axis A as the host asks for it. -/
def wanted : WantedSegment := ⟨.L0, 101, true, 8, .sync 255, .move [(.A, -1048575)] (some 65535)⟩

theorem wanted_fits : wanted.fits :=
  ⟨by decide, (fun k h => by cases h; decide), by decide, by decide, by simp, (fun i1 h => by cases h; decide)⟩

theorem wanted_passes (s : State) (h : (s.axis .A).owner = some .L0) : wanted.passes s :=
  ⟨by decide, ⟨by decide, by simp [h, wanted], by simp, (fun i1 h => by cases h; decide)⟩, (fun n h => by cases h), by decide⟩

/-- The bits of the flags that are not read all 1. -/
theorem witness_QueueSegmentAppends :
    Executes .queueSegment (asks State.reset 0x10 (wanted.payload 15)) .S0 0 (request 0x10 (wanted.payload 15)) ∧ wanted.fits ∧
      wanted.passes (asks State.reset 0x10 (wanted.payload 15)) ∧ LaneLaw (asks State.reset 0x10 (wanted.payload 15)) ∧
      (State.reset.lane .L0).state = .idle ∧ (State.reset.lane .L0).queue.length < 16 :=
  ⟨asked _ (by decide), wanted_fits, wanted_passes _ rfl, law_asks law_reset .., rfl, by decide⟩

/-- A DWELL, the shortest payload, and what breaks its length: a kind of 3, a MOVE of 0 and of 5 entries, a marked I1. -/
theorem witness_QueueSegmentLayout :
    Executes .queueSegment (asks State.reset 0x10 [2, 1, 0, 0, 103, 0, 20, 0, 2]) .S0 0
        (request 0x10 [2, 1, 0, 0, 103, 0, 20, 0, 2]) ∧
      LayoutHolds [2, 1, 0, 0, 103, 0, 20, 0, 2] ∧ 1 < (2 : Byte).toNat ∧ LayoutHolds (wanted.payload 15) ∧
      ((wanted.payload 15).getD 0 0).toNat = LaneId.code .L0 ∧ ¬LayoutHolds [0, 3, 0, 0, 0, 0, 20, 0, 2] ∧
      ¬LayoutHolds [0, 0, 0, 0, 1, 0, 20, 0, 0] ∧ ¬LayoutHolds (0 :: 0 :: 0 :: 0 :: 1 :: 0 :: 20 :: 5 :: List.replicate 24 0) ∧
      ¬LayoutHolds [0, 1, 2, 0, 103, 0, 20, 0, 2] :=
  ⟨asked _ (by decide), by unfold LayoutHolds; decide, by decide, by unfold LayoutHolds; decide, by decide,
    by unfold LayoutHolds; decide, by unfold LayoutHolds; decide, by unfold LayoutHolds; decide, by unfold LayoutHolds; decide⟩

/-- Axis 4 in a MOVE and a HOME, line 4, both start conditions, and an I1 with a DWELL, each in a payload of its layout's
length. -/
theorem witness_QueueSegmentNames :
    (LayoutHolds [0, 0, 0, 0, 1, 0, 20, 1, 4, 0, 0, 0, 1] ∧ NamesNothing [0, 0, 0, 0, 1, 0, 20, 1, 4, 0, 0, 0, 1]) ∧
      (LayoutHolds [0, 2, 0, 0, 1, 0, 20, 4, 0, 0, 0, 1, 0, 0, 0, 0] ∧ NamesNothing [0, 2, 0, 0, 1, 0, 20, 4, 0, 0, 0, 1, 0, 0, 0, 0]) ∧
      (LayoutHolds [0, 1, 4, 0, 1, 0, 20, 4, 0, 2] ∧ NamesNothing [0, 1, 4, 0, 1, 0, 20, 4, 0, 2]) ∧
      (LayoutHolds [0, 1, 12, 0, 1, 0, 20, 0, 1, 0, 2] ∧ NamesNothing [0, 1, 12, 0, 1, 0, 20, 0, 1, 0, 2]) ∧
      (LayoutHolds [0, 1, 2, 0, 1, 0, 20, 0, 9, 0, 2] ∧ NamesNothing [0, 1, 2, 0, 1, 0, 20, 0, 9, 0, 2]) :=
  ⟨⟨by unfold LayoutHolds; decide, .inl ⟨rfl, 0, by decide, by decide⟩⟩,
    ⟨by unfold LayoutHolds; decide, .inr (.inl ⟨rfl, by decide⟩)⟩,
    ⟨by unfold LayoutHolds; decide, .inr (.inr (.inl ⟨by decide, by decide, by decide⟩))⟩,
    ⟨by unfold LayoutHolds; decide, .inr (.inr (.inr (.inl ⟨by decide, by decide⟩)))⟩,
    ⟨by unfold LayoutHolds; decide, .inr (.inr (.inr (.inr ⟨by decide, by decide⟩)))⟩⟩

/-- A HALTED and a STOPPING lane, a queue of 16 and of 15, and an I0 of 7. -/
theorem witness_QueueSegmentRefusals :
    Executes .queueSegment (asks State.reset 0x10 (wanted.payload 0)) .S0 0 (request 0x10 (wanted.payload 0)) ∧
      ({ wanted with first := 7 }.fits ∧ ¬{ wanted with first := 7 }.passes State.reset) ∧
      (Lane.atReset.ended (some ⟨.abort, none⟩)).state = .halted ∧ (stoppingMove none 0).state = .stopping ∧
      16 ≤ (List.replicate 16 move3).length ∧ (List.replicate 15 move3).length < 16 :=
  ⟨asked _ (by decide), ⟨⟨by decide, wanted_fits.2⟩, fun h => absurd h.1 (by decide)⟩, rfl, rfl, by simp, by simp⟩

theorem witness_StartLaneElsewhere :
    Executes .startLane (asks State.reset 0x11 [0]) .S0 0 (request 0x11 [0]) ∧ (0 : Byte).toNat = LaneId.code .L0 ∧
      1 < (2 : Byte).toNat ∧ (State.reset.lane .L0).state = .idle ∧
      runningMove.state ∈ [LaneState.waiting, .running, .held] ∧ (stoppingMove none 0).state = .stopping ∧
      (Lane.atReset.ended (some ⟨.abort, none⟩)).state = .halted :=
  ⟨asked _ (by decide), rfl, by decide, rfl, by decide, rfl, rfl⟩

/-- A MOVE with its axes RELEASED, which settles, and a DWELL, which does not. -/
theorem witness_StartLaneActivates :
    Executes .startLane (asks (lanes (readyLane move3) Lane.atReset) 0x11 [0]) .S0 0 (request 0x11 [0]) ∧
      (readyLane move3).state = .ready ∧ (readyLane move3).queue = move3 :: [] ∧ (∀ k, move3.start ≠ .sync k) ∧
      move3.kind ≠ .dwell ∧ (State.reset.axis .A).owner = some .L0 ∧ (State.reset.axis .A).energised = false ∧
      (readyLane dwell2).queue = dwell2 :: [] ∧ dwell2.kind = .dwell ∧ dwell2.start = .none :=
  ⟨asks_executes _ rfl rfl (by decide), rfl, rfl, (fun k h => by cases h), by decide, rfl, rfl, rfl, rfl, rfl⟩

/-- What the waits of an activation turn on: a MOVE with its axes RELEASED settles, a settle time of 0 and a DWELL do not; a lane
that waits on its SYNC alone, and one that has a SETTLE left as well. -/
theorem witness_activation :
    takesSettle (lanes (readyLane move3) Lane.atReset) .L0 move3 ∧ ¬takesSettle State.reset .L0 dwell2 ∧
      ¬takesSettle (lanes { readyLane move3 with settings := { Lane.atReset.settings with settle := 0 } } Lane.atReset) .L0 move3 ∧
      startLine { move3 with start := .trigger .T0 } = some .T0 ∧ startLine move3 = none ∧
      (waitingMove ⟨false, none, true⟩).unmet.settle = false ∧ (waitingMove ⟨true, none, true⟩).unmet.settle = true ∧
      LaneOk (waitingMove ⟨true, none, true⟩) ∧ PowersUp .L0 move3 State.reset .A ∧ ¬PowersUp .L0 dwell2 State.reset .A ∧
      PowersUp .L1 { dwell2 with lane := .L1, start := .sync 4 } syncWaiting .A :=
  ⟨⟨by decide, by decide, .A, rfl, rfl⟩, fun h => absurd h.1 (by decide), fun h => absurd h.2.1 (by decide), rfl, rfl, rfl, rfl,
    ok_waiting _ (by decide), .inl ⟨by decide, rfl⟩,
    fun h => h.elim (fun h => absurd h.1 (by decide)) (fun ⟨_, ⟨_, _, hk, _⟩, _⟩ => by cases hk),
    .inr ⟨rfl, ⟨4, some 3, rfl, rfl⟩, rfl, rfl, move3, rfl, by decide⟩⟩

/-- L1 enters a sync wait while L0 waits on number 4, on the same number and on another, and while L0 does not wait. -/
theorem witness_SyncEntryDecided :
    let g := fun k => ({ dwell2 with lane := .L1, start := .sync k } : Segment)
    let s := fun k => { syncWaiting with lanes := ⟨syncWaiting.lane .L0, readyLane (g k)⟩ }
    Executes .startLane (asks (s 4) 0x11 [1]) .S0 0 (request 0x11 [1]) ∧ ((s 4).lane .L1).state = .ready ∧
      ((s 4).lane .L1).queue = g 4 :: [] ∧ (g 4).start = .sync 4 ∧ LaneLaw (s 4) ∧ LaneLaw (s 5) ∧
      (s 4).sync.get (otherLane .L1) = some ⟨4, some 3⟩ ∧ (4 : Nat) ≠ 5 ∧
      (lanes Lane.atReset (readyLane (g 4))).sync.get .L0 = none := by
  refine ⟨asks_executes _ rfl rfl (by decide), rfl, rfl, rfl, ?_, ?_, rfl, by decide, rfl⟩
  all_goals
    exact
      { lanes := fun | .L0 => ok_waiting _ (by decide) | .L1 => ok_ready _
        entryIff := fun | .L0 => rfl | .L1 => rfl
        oneEntry := .inr rfl
        runningFree := fun | .L0, h => by cases h | .L1, h => by cases h
        heldHeld := fun | .L0, h => by cases h | .L1, h => by cases h }

theorem witness_StopLaneActs :
    Executes .stopLane (asks (lanes runningMove Lane.atReset) 0x12 [0]) .S0 0 (request 0x12 [0]) ∧
      (runningMove.state = .running ∧ ∃ g ∈ runningMove.queue.head?, g.kind = .move) ∧
      (State.reset.lane .L0).state ∈ [LaneState.idle, .stopping, .halted] ∧
      (runningDwell 1).state ∈ [LaneState.ready, .waiting, .running, .held] ∧
      ¬((runningDwell 1).state = .running ∧ ∃ g ∈ (runningDwell 1).queue.head?, g.kind = .move) :=
  ⟨asks_executes _ rfl rfl (by decide), ⟨rfl, move3, rfl, rfl⟩, by decide, by decide, by
    rintro ⟨-, g, hg, hk⟩; cases hg; cases hk⟩

/-- An idle lane aborted while the other lane waits, and a halted one. -/
theorem witness_AbortLaneHalts :
    Executes .abortLane (asks syncWaiting 0x13 [1]) .S0 0 (request 0x13 [1]) ∧ LaneLaw syncWaiting ∧
      (syncWaiting.lane .L1).state ≠ .halted ∧ syncWaiting.sync.get (otherLane .L1) ≠ none ∧
      (Lane.atReset.ended (some ⟨.abort, none⟩)).state = .halted :=
  ⟨asks_executes _ rfl rfl (by decide), law_syncWaiting, by decide, by decide, rfl⟩

theorem witness_HoldAndResumeAct :
    Executes .holdLane (asks (lanes runningMove Lane.atReset) 0x14 [0]) .S0 0 (request 0x14 [0]) ∧
      Executes .resumeLane (asks State.reset 0x15 [0]) .S0 0 (request 0x15 [0]) :=
  ⟨asks_executes _ rfl rfl (by decide), asked _ (by decide)⟩

theorem witness_ClearLaneClears :
    Executes .clearLane (asks (lanes (Lane.atReset.ended (some ⟨.abort, none⟩)) Lane.atReset) 0x16 [0]) .S0 0
      (request 0x16 [0]) ∧ (Lane.atReset.ended (some ⟨.abort, none⟩)).state = .halted ∧ Lane.atReset.state ≠ .halted ∧
      (0 : Byte).toNat = LaneId.code .L0 ∧ 1 < (2 : Byte).toNat :=
  ⟨asks_executes _ rfl rfl (by decide), rfl, by decide, rfl, by decide⟩

theorem axisLaw_reset : AxisLaw State.reset where
  axes a := by cases a <;> exact ⟨by decide, by decide, by decide, by decide, (fun h => by cases h), by decide⟩
  tableLow := by decide
  tableHigh := by decide
  tableStates := by decide

/-- Lane number 2 and axis code 4. -/
theorem witness_badLaneOrAxis :
    Executes .stopLane (asks State.reset 0x12 [2]) .S0 0 (request 0x12 [2]) ∧
      Executes .abortLane (asks State.reset 0x13 [2]) .S0 0 (request 0x13 [2]) ∧
      Executes .holdLane (asks State.reset 0x14 [2]) .S0 0 (request 0x14 [2]) ∧
      Executes .resumeLane (asks State.reset 0x15 [2]) .S0 0 (request 0x15 [2]) ∧
      Executes .readLane (asks State.reset 0x18 [2]) .S0 0 (request 0x18 [2]) ∧
      Executes .readAxis (asks State.reset 0x19 [4]) .S0 0 (request 0x19 [4]) ∧ 1 < (2 : Byte).toNat ∧ 3 < (4 : Byte).toNat :=
  ⟨asked _ (by decide), asked _ (by decide), asked _ (by decide), asked _ (by decide), asked _ (by decide), asked _ (by decide),
    by decide, by decide⟩

theorem witness_Reads :
    Executes .readLane (asks State.reset 0x18 [1]) .S0 0 (request 0x18 [1]) ∧
      Executes .readAxis (asks State.reset 0x19 [3]) .S0 0 (request 0x19 [3]) ∧ AxisLaw State.reset ∧
      Executes .readLines (asks State.reset 0x1A []) .S0 0 (request 0x1A []) :=
  ⟨asked _ (by decide), asked _ (by decide), axisLaw_reset, asked _ (by decide)⟩

/-- A log of 7 and of 8 records; the maxima 0, 1, 4 and 5. -/
theorem witness_CaptureRequestsAct :
    let c : CaptureRecord := ⟨0, .host, none, 0, ⟨0, 0, 0, 0⟩, ⟨none, none⟩, 0⟩
    let s := fun n => { State.reset with captures := ⟨List.replicate n c, 8, 0⟩ }
    Executes .mark (asks (s 8) 0x1B []) .S0 0 (request 0x1B []) ∧ 8 ≤ (s 8).captures.records.length ∧
      (s 7).captures.records.length < 8 ∧ Executes .readCaptures (asks (s 7) 0x1C [4]) .S0 0 (request 0x1C [4]) ∧
      1 ≤ (1 : Byte).toNat ∧ (4 : Byte).toNat ≤ 4 ∧ (0 : Byte).toNat = 0 ∧ 4 < (5 : Byte).toNat :=
  ⟨asks_executes _ rfl rfl (by decide), by decide, by decide, asks_executes _ rfl rfl (by decide), by decide, by decide,
    by decide, by decide⟩

/-- A list of `n` reports with this lost count. -/
def reportsHeld (n lost : Nat) : ReportQueue :=
  { State.reset.reports with list := List.replicate n ⟨0, 0, .captureReady 1⟩, lost := lost }

/-- The requests in both modes, and the retry count just below the limit and at it. -/
theorem witness_ReportDeliveryActs :
    let q := fun n => { State.reset.reports with head := .sent, resendTimer := some 0, retries := n }
    Executes .fetchReport (asks State.reset 0x1E []) .S0 0 (request 0x1E []) ∧
      State.reset.reports.list = ⟨0, 0, .restarted .power 1⟩ :: [] ∧ State.reset.reports.mode = .push ∧
      ({ State.reset.reports with mode := .poll } : ReportQueue).mode = .poll ∧
      Executes .ackReport (asks State.reset 0x1F [0]) .S0 0 (request 0x1F [0]) ∧
      (∀ h ∈ State.reset.reports.list.head?, h.number ≠ (1 : Byte)) ∧ State.reset.power = .running ∧
      (reportsHeld 2 0).list = ⟨0, 0, .captureReady 1⟩ :: [⟨0, 0, .captureReady 1⟩] ∧ (reportsHeld 0 0).list = [] ∧
      (q 2).resendTimer ≠ none ∧ (q 2).retries < (q 2).resendLimit ∧ (q 3).resendLimit ≤ (q 3).retries :=
  ⟨asked _ (by decide), rfl, rfl, rfl, asked _ (by decide), by decide, rfl, rfl, rfl, by decide, by decide, by decide⟩

/-- R185: an ACK-REPORT of the last report takes ATTN high. -/
theorem test_attn_rises : ∀ t, exec .ackReport (asks State.reset 0x1F [0]) = .next t →
    (asks State.reset 0x1F [0]).attn = .low ∧ t.attn = .high := by
  intro t h; cases h; decide

/-- An ordinary report finds 11 and 12 of its places taken, a vital one 15 and 16; the lost count is at 254 and at 255; and a run
of reports of both kinds fits the lost count. -/
theorem witness_ReportsHandedOver :
    (reportsHeld 11 0).list.length < 12 ∧ 12 ≤ (reportsHeld 12 0).list.length ∧ (reportsHeld 15 0).list.length < 16 ∧
      16 ≤ (reportsHeld 16 0).list.length ∧ (reportsHeld 16 254).lost < 255 ∧ ¬(reportsHeld 16 255).lost < 255 ∧
      (reportsHeld 11 253).lost + [ReportBody.captureReady 1, .restarted .pin 1].length ≤ 255 :=
  ⟨by decide, by decide, by decide, by decide, by decide, by decide, by decide⟩

/-- R176: the twelfth ordinary report is taken with the pending lost count and the thirteenth counted. -/
theorem test_report_places :
    (((reportsHeld 11 3).hand (.captureReady 1)).list.length, ((reportsHeld 11 3).hand (.captureReady 1)).lost,
      ((reportsHeld 12 3).hand (.captureReady 1)).list.length, ((reportsHeld 12 3).hand (.captureReady 1)).lost) = (12, 0, 12, 4) := by
  decide

/-- The positions at the ends of the signed range (section 11.4 to 11.6), a HOME and no HOME, each optional field there and not. -/
theorem witness_RecordBytes :
    let p : PerAxis Int := ⟨-2147483648, 2147483647, -1, 0⟩
    (∀ a, -2147483648 ≤ p.get a ∧ p.get a ≤ 2147483647) ∧
      (⟨0, 255, .segmentDone .L1 65535 .home 16 (some ⟨4294967295, -2147483648⟩) p⟩ : Report).body =
        .segmentDone .L1 65535 .home 16 (some ⟨4294967295, -2147483648⟩) p ∧
      (⟨0, 0, .laneStopped .L0 (some ⟨.window, some .D⟩) (some ⟨101, some 3⟩) p⟩ : Report).body =
        .laneStopped .L0 (some ⟨.window, some .D⟩) (some ⟨101, some 3⟩) p :=
  ⟨fun a => by cases a <;> decide, rfl, rfl⟩

/-! ### Witnesses: the link and device resets -/

/-- The part with its receiver in this state, a byte of a frame having come. -/
def receiving (ρ : Receiver) : State :=
  { State.reset with link := { State.reset.link with receiver := ρ, gap := some 0 } }

theorem witness_BytesAssembledOrDiscarded :
    State.reset.power = .running ∧ State.reset.link.awaitHigh = false ∧ State.reset.link.receiver = .hunt ∧
      (receiving .headerLen).power = .running ∧ (receiving .headerLen).link.receiver = .headerLen ∧ (200 : Byte).toNat ≤ 200 ∧
      200 < (201 : Byte).toNat ∧ (receiving (.body 2 0 0 [])).link.receiver = .body 2 0 0 [] ∧
      ([] : List Byte).length + 1 < (2 : Byte).toNat ∧ (2 : Byte).toNat ≤ ([0] : List Byte).length + 1 ∧
      (receiving .headerLen).link.awaitHigh = false ∧ (receiving .headerLen).link.gap ≠ none :=
  ⟨rfl, rfl, rfl, rfl, rfl, by decide, by decide, rfl, by decide, by decide, rfl, by decide⟩

theorem witness_FrameBytesReachSlot :
    let s := { State.reset with pending := (frame 7 1 [0xC3]).map Instr.byteArrival }
    ([0xC3] : List Byte).length ≤ 200 ∧ s.power = .running ∧ s.link.awaitHigh = false ∧ s.link.receiver = .hunt ∧
      s.link.slot0 = .free ∧ s.pending = (frame 7 1 [0xC3]).map Instr.byteArrival :=
  ⟨by decide, rfl, rfl, rfl, rfl, rfl⟩

/-- A good and a bad CHECK, and both slots occupied. -/
theorem witness_FrameReceivedJudged :
    let s := receiving (.checkLow 0 7 1 [] 0xD1)
    s.power = .running ∧ s.link.awaitHigh = false ∧ s.link.receiver = .checkLow 0 7 1 [] 0xD1 ∧ s.link.slot0 = .free ∧
      ((0 : Byte) ++ (0 : Byte) : Word16) ≠ crc16 [0, 7, 1] ∧
      (∃ high low : Byte, (high ++ low : Word16) = crc16 [0, 7, 1]) ∧
      ¬((asks State.reset 1 []).link.slot0 = .free) :=
  ⟨rfl, rfl, rfl, rfl, by decide +kernel,
    ⟨(crc16 [0, 7, 1]).extractLsb' 8 8, (crc16 [0, 7, 1]).extractLsb' 0 8, by decide +kernel⟩, by decide⟩

/-- A break with TXD at rest, in the middle of a frame, and within the bit of an earlier one; and both edges of RXD. -/
theorem witness_BreakAndRxdAct :
    let s := { State.reset with
      pins := { State.reset.pins with rxd := .low }, link := { State.reset.link with breakMeasure := some 20000 } }
    s.power = .running ∧ s.link.breakMeasure ≠ none ∧ s.pins.rxd = .low ∧ s.link.breakHold = false ∧ s.link.lastBit = none ∧
      ({ s.link with tx := .sending (.report 0) [0xC3] (18499999 + 1) } : Link).tx = .sending (.report 0) [0xC3] (18499999 + 1) ∧
      ({ s.link with lastBit := some ⟨.low, 1, .r115200⟩ } : Link).lastBit = some ⟨.low, 1, .r115200⟩ ∧
      State.reset.pins.rxd = .high ∧ ({ s.link with breakHold := true } : Link).breakHold = true :=
  ⟨rfl, by decide, rfl, rfl, rfl, rfl, rfl, rfl, rfl⟩

/-- A frame from a slot with each after-effect, and a report frame whose report is and is not the head. -/
theorem witness_TransmitterSends :
    let k := fun a => { State.reset.link with slot0 := .answering 0 [0xC3] a, tx := .sending (.slot .S0) [0xC3] 0 }
    let s := { State.reset with
      link := { State.reset.link with tx := .sending (.report 0) [0xC3] 0 }, reports := { State.reset.reports with head := .sending } }
    (∀ a, (k a).slot .S0 = .answering 0 [0xC3] a ∧ (k a).tx = .sending (.slot .S0) [0xC3] 0) ∧
      s.link.tx = .sending (.report 0) [0xC3] 0 ∧ s.reports.head = .sending ∧ (∃ r ∈ s.reports.list.head?, r.number = 0) ∧
      ¬State.reset.reports.head = .sending :=
  ⟨fun _ => ⟨rfl, rfl⟩, rfl, rfl, ⟨_, rfl, rfl⟩, by decide⟩

theorem witness_Resets :
    State.reset.power = .running ∧ (beginReset .request State.reset).power = .inReset .request 0 ∧
      (beginReset .power State.reset).power = .inReset .power 0 := ⟨rfl, rfl, rfl⟩

/-! ### Witnesses: lanes, timers and lines -/

/-- Axes with no guard and strictly inside their windows pass every check. -/
theorem allPass_inside (s : State) (h : ∀ a, (s.axis a).guard = false) (hl : ∀ a, (s.axis a).windowMin < (s.axis a).position)
    (hh : ∀ a, (s.axis a).position < (s.axis a).windowMax) (l : LaneId) (n : Nat) (entries : List (AxisId × Int)) :
    allPass s l entries n := by
  intro a _
  refine ⟨fun hg => by simp [guardBars, h a] at hg, ?_⟩
  have := hl a
  have := hh a
  unfold windowBars
  split <;> omega

theorem allPass_lanes (v0 v1 : Lane) (l : LaneId) (n : Nat) (entries : List (AxisId × Int)) :
    allPass (lanes v0 v1) l entries n :=
  allPass_inside (lanes v0 v1) (fun a => by cases a <;> rfl)
    (fun a => show (State.reset.axis a).windowMin < (State.reset.axis a).position by cases a <;> decide)
    (fun a => show (State.reset.axis a).position < (State.reset.axis a).windowMax by cases a <;> decide) l n entries

theorem witness_StepEventTakes :
    runningMove.state = .running ∧ runningMove.queue = move3 :: [] ∧ move3.body = .move [(.A, 3)] 600 3 ∧
      runningMove.stepTimer = .counting 0 true ∧ allPass (lanes runningMove Lane.atReset) .L0 [(.A, 3)] 3 ∧
      runningMove.stepCount + 1 < 3 :=
  ⟨rfl, rfl, rfl, rfl, allPass_lanes runningMove Lane.atReset .L0 3 [(.A, 3)], by decide⟩

/-- Axis A at the top of its window, and axis A at its active home line with the guard ON. -/
theorem witness_StepEventFails :
    let x := State.reset.axis .A
    let s := (lanes runningMove Lane.atReset).setAxis .A { x with windowMax := 0 }
    let s1 := (lanes runningMove Lane.atReset).setAxis .A
      { x with guard := true, homeDir := .forward, home := ⟨.low, .low, none⟩ }
    isDue (s.lane .L0) [(.A, 3)] 3 .A ∧ windowBars (s.axis .A) (moveForward [(.A, 3)] .A) ∧
      (∀ b, ¬(isDue (s.lane .L0) [(.A, 3)] 3 b ∧ guardBars (s.axis b) (moveForward [(.A, 3)] b))) ∧
      guardBars (s1.axis .A) (moveForward [(.A, 3)] .A) ∧ (∀ b, ¬AxisId.code b < AxisId.code .A) ∧
      (stoppingMove none 0).state = .stopping ∧ (stoppingMove (some 1) 0).ramp.bind (·.steps) = some 1 :=
  ⟨⟨1, rfl, by decide⟩, by unfold windowBars; decide, fun b h => by cases b <;> simp [guardBars, State.setAxis, State.axis, PerAxis.set, PerAxis.get, lanes, State.reset, State.atReset, Axis.atReset] at h,
    ⟨rfl, by decide, rfl⟩, fun b => by cases b <;> decide, rfl, rfl⟩

/-- The last step event with nothing behind the MOVE, and with each kind of start condition on the next head. -/
theorem witness_MoveCompletes :
    LaneLaw (lanes lastStep Lane.atReset) ∧ lastStep.state = .running ∧ lastStep.queue = move3 :: [] ∧
      lastStep.stepTimer = .counting 0 true ∧ allPass (lanes lastStep Lane.atReset) .L0 [(.A, 3)] 3 ∧
      lastStep.stepCount + 1 = 3 ∧ (∀ g, LaneLaw (lanes (lastStepThen g) Lane.atReset)) ∧
      (∀ g, (lastStepThen g).queue = move3 :: g :: [] ∧ (lastStepThen g).state = .running ∧
        allPass (lanes (lastStepThen g) Lane.atReset) .L0 [(.A, 3)] 3) :=
  ⟨law_lanes ok_lastStep ok_reset rfl rfl rfl rfl (by decide) (by decide), rfl, rfl, rfl,
    allPass_lanes lastStep Lane.atReset .L0 3 [(.A, 3)], rfl, law_lastStepThen,
    fun g => ⟨rfl, rfl, allPass_lanes (lastStepThen g) Lane.atReset .L0 3 [(.A, 3)]⟩⟩

/-- The clauses of a handover: a head with no condition, on a TRIGGER, and with an axis of the lane RELEASED and a settle; a SYNC
with no entry standing, and with one of the same number and of another. -/
theorem witness_Completed :
    let t := { dwell2 with start := .trigger .T0 }
    let y := fun k => { dwell2 with start := .sync k }
    let s := fun k => { lanes (lastStepThen (y k)) (waitingMove ⟨false, none, true⟩) with sync := ⟨none, some ⟨4, some 3⟩⟩ }
    (∀ k, dwell2.start ≠ .sync k) ∧ (∀ k, t.start ≠ .sync k) ∧ startLine t = some .T0 ∧ ¬takesSettle State.reset .L0 dwell2 ∧
      takesSettle (lanes (lastStepThen move3) Lane.atReset) .L0 move3 ∧ (y 4).start = .sync 4 ∧
      (lanes (lastStepThen (y 4)) Lane.atReset).sync.get .L1 = none ∧ (∀ k, LaneLaw (s k)) ∧
      (s 4).sync.get (otherLane .L0) = some ⟨4, some 3⟩ ∧ (4 : Nat) ≠ 5 := by
  refine ⟨(fun k h => by cases h), (fun k h => by cases h), rfl, fun h => absurd h.1 (by decide),
    ⟨by decide, by decide, .A, rfl, rfl⟩, rfl, rfl, fun k => ?_, rfl, by decide⟩
  exact
    { lanes := fun | .L0 => ok_lastStepThen _ | .L1 => ok_waiting _ (by decide)
      entryIff := fun | .L0 => rfl | .L1 => rfl
      oneEntry := .inl rfl
      runningFree := fun | .L0, _ => rfl | .L1, h => by cases h
      heldHeld := fun | .L0, h => by cases h | .L1, h => by cases h }

/-- The in-progress step event with a ramp to come and with none, and the first and the last stop step event of two. -/
theorem witness_StopStepsTake :
    LaneLaw (lanes (stoppingMove none 0) Lane.atReset) ∧ LaneLaw (lanes (stoppingMove (some 2) 0) Lane.atReset) ∧
      (stoppingMove none 0).queue = [move3] ∧ (stoppingMove none 0).stepTimer = .counting 0 true ∧
      (stoppingMove none 0).ramp = some ⟨.idle, 1, 4000, 1000, none, 0⟩ ∧ 1 ≤ min 1 (3 - (0 + 1)) ∧ min 0 (3 - (0 + 1)) = 0 ∧
      allPass (lanes (stoppingMove none 0) Lane.atReset) .L0 [(.A, 3)] 3 ∧ 0 + 1 < 2 ∧ 2 ≤ 1 + 1 :=
  ⟨law_lanes (ok_stoppingMove ..) ok_reset rfl rfl rfl rfl (by simp [stoppingMove]) (by decide),
    law_lanes (ok_stoppingMove ..) ok_reset rfl rfl rfl rfl (by simp [stoppingMove]) (by decide),
    rfl, rfl, rfl, by decide, by decide, allPass_lanes (stoppingMove none 0) Lane.atReset .L0 3 [(.A, 3)], by decide, by decide⟩

theorem witness_DwellIntervalsRun :
    LaneLaw (lanes (runningDwell 2) Lane.atReset) ∧ LaneLaw (lanes (runningDwell 1) Lane.atReset) ∧
      (runningDwell 2).state = .running ∧ (runningDwell 2).queue = dwell2 :: [] ∧ dwell2.body = .dwell 2 ∧
      (runningDwell 2).stepTimer = .counting 0 true ∧ 2 ≤ (runningDwell 2).dwellLeft ∧ (runningDwell 1).dwellLeft ≤ 1 :=
  ⟨law_lanes (ok_runningDwell _) ok_reset rfl rfl rfl rfl (by simp [runningDwell]) (by decide),
    law_lanes (ok_runningDwell _) ok_reset rfl rfl rfl rfl (by simp [runningDwell]) (by decide), rfl, rfl, rfl, rfl, by decide,
    by decide⟩

theorem witness_HomingStepsRun :
    (∀ limit, LaneLaw (lanes (runningHome .seek limit) Lane.atReset)) ∧ (runningHome .seek false).state = .running ∧
      (runningHome .seek false).queue = homeA :: [] ∧ homeA.body = .home .A 5 10 ∧
      (runningHome .seek false).homing = some ⟨.seek, false⟩ ∧ ¬windowBars (State.reset.axis .A) false ∧
      windowBars { State.reset.axis .A with windowMin := 0 } false :=
  ⟨fun limit => law_lanes (ok_runningHome limit).1 ok_reset rfl rfl rfl rfl (by simp [runningHome]) (by decide), rfl, rfl, rfl,
    rfl, by unfold windowBars; decide, by unfold windowBars; decide⟩

theorem witness_HomeLineFiltered :
    let x := { State.reset.axis .A with home := ⟨.low, .high, some 799⟩ }
    (State.reset.axis .A).home.raw ≠ .low ∧ Level.low ≠ (State.reset.axis .A).home.filtered ∧
      (State.reset.axis .A).homeFilter ≠ 0 ∧ x.home.raw ≠ .high ∧ Level.high = x.home.filtered ∧ x.home.measure ≠ none ∧
      ({ x with homeFilter := 0 } : Axis).homeFilter = 0 ∧ x.owner = some .L0 ∧ (State.reset.lane .L0).state ≠ .running ∧
      (State.reset.lane .L0).state ≠ .held :=
  ⟨by decide, by decide, by decide, by decide, rfl, by decide, rfl, rfl, by decide, by decide⟩

/-- A detection with the preset inside the window and outside it, and a line that becomes inactive in LEAVE and in SEEK. -/
theorem witness_HomeDetected :
    LaneLaw (lanes (runningHome .seek true) Lane.atReset) ∧ LaneLaw (lanes (runningHome .leave false) Lane.atReset) ∧
      (runningHome .seek true).homing = some ⟨.seek, true⟩ ∧
      (let x := { State.reset.axis .A with home := ⟨.low, .high, some 800⟩ }
       x.owner = some .L0 ∧ x.home.measure ≠ none ∧ x.home.raw = x.homeLevel ∧ (x.windowMin ≤ 10 ∧ 10 ≤ x.windowMax) ∧
         ¬(x.windowMin ≤ 10 ∧ 10 ≤ ({ x with windowMax := 9 } : Axis).windowMax)) ∧
      (⟨.high, .low, some 800⟩ : InputFilter).raw ≠ (State.reset.axis .A).homeLevel ∧
      (runningHome .leave false).homing = some ⟨.leave, false⟩ :=
  ⟨law_lanes (ok_runningHome true).1 ok_reset rfl rfl rfl rfl (by simp [runningHome]) (by decide),
    law_lanes (ok_runningHome false).2 ok_reset rfl rfl rfl rfl (by simp [runningHome]) (by decide), rfl,
    ⟨rfl, by decide, rfl, by decide, by decide⟩, by decide, rfl⟩

/-- A settle that is the last condition and one that is not, and a sync wait with a timeout. -/
theorem witness_WaitExpiriesAct :
    LaneLaw (lanes (waitingMove ⟨true, none, false⟩) Lane.atReset) ∧
      LaneLaw (lanes (waitingMove ⟨true, some .T0, false⟩) Lane.atReset) ∧
      (waitingMove ⟨true, none, false⟩).settleTimer ≠ none ∧ (waitingMove ⟨true, none, false⟩).queue = move3 :: [] ∧
      LaneLaw syncWaiting ∧ syncWaiting.sync.get .L0 = some ⟨4, some 3⟩ :=
  ⟨law_lanes (ok_waiting _ (by decide)) ok_reset rfl rfl rfl rfl (by simp [waitingMove]) (by decide),
    law_lanes (ok_waiting _ (by decide)) ok_reset rfl rfl rfl rfl (by simp [waitingMove]) (by decide), by decide, rfl,
    law_syncWaiting, rfl⟩

theorem witness_AxisTimersExpire :
    let x := { State.reset.axis .A with energised := true, holdTimer := some 0, mode := .pulse, pulse := some 0, dirLevel := .high }
    x.holdTimer = some 0 ∧ x.pulse = some 0 ∧ x.energised = true ∧ x.mode = .pulse ∧ (State.reset.axis .A).energised = false ∧
      [8, 4, 2, (1 : Nat)][3]? = some 1 ∧ State.reset.patterns[7]? = some 9 := ⟨rfl, rfl, rfl, rfl, rfl, rfl, rfl⟩

/-- Section 3.2 at the last index of WAVE, PAIR and HALF; R48 in a pulse with the direction level HIGH and after one with it LOW. -/
theorem test_coils :
    let coils := fun m i pulse dir =>
      ({ State.reset.axis .A with energised := true, mode := m, phase := i, pulse := pulse, dirLevel := dir }).coilState []
    (coils .wave 3 none .low, coils .pair 3 none .low, coils .half 7 none .low, coils .pulse 0 (some 2) .high,
      coils .pulse 0 none .low) = (1, 9, 9, 14, 2) := by decide

theorem witness_SilenceActs :
    LaneLaw (lanes runningMove (readyLane dwell2)) ∧
      ({ State.reset.link with silenceTimer := some 0 } : Link).silenceTimer = some 0 ∧
      (runningMove.state = .running ∧ ∃ g ∈ runningMove.queue.head?, g.kind = .move) ∧
      (readyLane dwell2).state ∈ [LaneState.ready, .waiting, .held] ∧
      (stoppingMove none 0).ramp = some ⟨.idle, 1, 4000, 1000, none, 0⟩ :=
  ⟨law_lanes ok_runningMove (ok_ready _) rfl rfl rfl rfl (by decide) (by simp [readyLane]), rfl, ⟨rfl, move3, rfl, rfl⟩,
    by decide, rfl⟩

/-- A log of `n` records. -/
def fullLog (n : Nat) : CaptureLog :=
  ⟨List.replicate n ⟨0, .host, none, 0, ⟨0, 0, 0, 0⟩, ⟨none, none⟩, 0⟩, BitVec.ofNat 16 n, 0⟩

/-- An edge that is captured into an empty log, one of seven records and a full one. -/
theorem witness_TriggerLineFiltered :
    let x := { State.reset.line .T0 with input := ⟨.high, .low, some 0⟩, filterTime := 1, capture := true }
    (State.reset.line .T0).input.raw ≠ .high ∧ Level.high ≠ (State.reset.line .T0).input.filtered ∧
      (State.reset.line .T0).filterTime = 0 ∧ x.filterTime ≠ 0 ∧ x.input.raw ≠ .low ∧ Level.low = x.input.filtered ∧
      x.input.measure ≠ none ∧ x.role = .off ∧ x.edge = .rise ∧ x.capture = true ∧ x.input.raw = .high ∧
      State.reset.captures.records = [] ∧ ¬8 ≤ State.reset.captures.records.length ∧ 8 ≤ (fullLog 8).records.length ∧
      ¬8 ≤ (fullLog 7).records.length ∧ (fullLog 7).records ≠ [] :=
  ⟨by decide, by decide, rfl, by decide, by decide, rfl, by decide, rfl, rfl, rfl, rfl, rfl, by decide, by decide, by decide, by decide⟩

/-- R119, R126, R127: the record of an accepted rising edge of TRG0, with the tag of the lane that the same edge starts, and the
same capture on a full log. -/
theorem test_line_capture :
    let s := fun c => { edgeComing.setLine .T0 { edgeComing.line .T0 with capture := true } with captures := c }
    (∀ t, exec (.triggerFilteredChange .T0) (s ⟨[], 5, 5⟩) = .next t →
      t.captures = ⟨[⟨5, .line .T0, some .rise, 0, ⟨0, 0, 0, 0⟩, ⟨some 101, none⟩, 5⟩], 6, 0⟩) ∧
    ∀ t, exec (.triggerFilteredChange .T0) (s (fullLog 8)) = .next t → t.captures = { fullLog 8 with next := 9, dropped := 1 } :=
  ⟨fun t h => by cases h; decide, fun t h => by cases h; decide⟩

/-- A START line that a lane waits on, HALT lines of one lane, of both and of none, and a HOLD line. -/
theorem witness_TriggerRolesAct :
    let x := fun r m => { edgeComing.line .T0 with role := r, mask := m }
    (∀ r m, LaneLaw (edgeComing.setLine .T0 (x r m))) ∧ edgeComing.power = .running ∧ (x .start .none).input.measure ≠ none ∧
      edgeReleases edgeComing .L0 .T0 move3 ∧ (∀ r m, (x r m).edgeAccepted = true) ∧ (x .halt .l0).mask = .l0 ∧
      (x .halt .both).mask = .both ∧ (x .halt .none).mask = .none ∧ (x .hold .both).role = .hold :=
  ⟨fun _ _ => law_setLine law_edgeComing _ _ (fun l => by cases l <;> decide) (fun l => by cases l <;> decide), rfl, by decide,
    ⟨⟨rfl, rfl⟩, rfl, rfl, rfl⟩, fun _ _ => rfl, rfl, rfl, rfl, rfl⟩

theorem witness_ResetBegins :
    State.reset.power = .running ∧ (beginReset .request State.reset).power = .inReset .request 0 ∧
      InReset (beginReset .request State.reset) ∧ ∀ rate1 rate0, Instr.mark ≠ .deviceResetEnd rate1 rate0 :=
  ⟨rfl, rfl, ⟨⟨_, _, rfl⟩, fun a => by cases a <;> decide, by decide, by decide, by decide, fun l => by cases l <;> rfl, by decide,
    rfl, rfl⟩, fun _ _ h => by cases h⟩

/-- Counts at the edges: the dominant count 1, and a count of one below N. -/
theorem witness_StepsSpreadExactly : 1 ≤ 1 ∧ (-1 : Int) ≠ 0 ∧ (-1 : Int).natAbs ≤ 1 ∧ (2 : Int).natAbs ≤ 3 := by decide

/-- A device reset by RESTART that has lasted so long. -/
def restarting (elapsed : Nat) : State :=
  { beginReset .request State.reset with power := .inReset .request elapsed }

/-- The part at rest with its report gone, with an event standing, and with a request alone to take; the lanes whose step timer
has run out; and a RESTART reset at its edges. -/
theorem witness_DueEventsComeFirst :
    let s := { State.reset with reports := { State.reset.reports with list := [] } }
    let due := { s with link := { s.link with gap := some 10000 } }
    let taking := asks s 0x1B []
    s.pending = [] ∧ dueRows s = [] ∧ freeRows s = [] ∧ due.pending = [] ∧ dueRows due ≠ [] ∧ s.power = .running ∧
      taking.pending = [] ∧ dueRows taking = [] ∧ freeRows taking = [.mark] ∧
      RunsOut (lanes runningMove Lane.atReset) .L0 .running .move ∧ RunsOut (lanes (runningDwell 1) Lane.atReset) .L0 .running .dwell ∧
      RunsOut (lanes (runningHome .seek true) Lane.atReset) .L0 .running .home ∧
      RunsOut (lanes (stoppingMove none 0) Lane.atReset) .L0 .stopping .move ∧
      (∀ n, (restarting n).power = .inReset .request n ∧ (restarting n).pins.rstn = .high ∧ (restarting n).pending = []) ∧
      (199 : Nat) < 200 ∧ (200 : Nat) ≤ 200 :=
  ⟨rfl, by decide, by decide, rfl, by decide, rfl, rfl, by decide, by decide, ⟨⟨_, rfl⟩, rfl, _, rfl, rfl⟩,
    ⟨⟨_, rfl⟩, rfl, _, rfl, rfl⟩, ⟨⟨_, rfl⟩, rfl, _, rfl, rfl⟩, ⟨⟨_, rfl⟩, rfl, _, rfl, rfl⟩, fun _ => ⟨rfl, rfl, rfl⟩, by decide,
    by decide⟩

/-- R188: a RESTART reset of 100 µs ends in the next step. -/
theorem test_restart_ends : ∀ t, step (restarting 200) = .next t → t.power = .running := by
  intro t h; cases h; decide

/-- An interval at a tick boundary and one off it, and the five timers with their start values on a mark and off it. -/
theorem witness_TimersRunOut :
    let off := { State.reset with time := { State.reset.time with msPhase := 1999 } }
    State.reset.power = .running ∧ runningMove.stepTimer = .counting 0 true ∧ State.reset.time.tickPhase = 0 ∧
      StepTimer.counting 8 false ≠ .stopped ∧ 0 < ({ State.reset.time with tickPhase := 1 } : TimeBase).tickPhase ∧
      ({ State.reset.time with tickPhase := 1 } : TimeBase).tickPhase < 2 ^ State.reset.time.exponent ∧
      (waitingMove ⟨true, none, false⟩).settleTimer = some (State.reset.msFor 5) ∧ State.reset.time.msPhase < 2000 ∧
      (syncWaiting.sync.get .L0).bind (·.timer) = some (syncWaiting.msFor 3) ∧ off.time.msPhase < 2000 ∧
      ({ off.axis .A with holdTimer := some 501 } : Axis).holdTimer = some (off.msFor 500) ∧
      ({ off.link with silenceTimer := some 11 } : Link).silenceTimer = some (off.msFor 10) ∧
      ({ off.reports with resendTimer := some 101 } : ReportQueue).resendTimer = some (off.msFor 100) :=
  ⟨rfl, rfl, rfl, by decide, by decide, by decide, by decide, by decide, by decide, by decide, by decide, by decide, by decide⟩

/-- Each measure at its start, a frame at its start and a bit in progress, with bit 9 of byte 0 and bit 0 of byte 1 at their
first half microseconds. -/
theorem witness_MeasuresRunOut :
    State.reset.power = .running ∧
      ({ State.reset.line .T0 with input := ⟨.high, .low, some 0⟩ } : TrgLine).input.measure = some 0 ∧
      ({ State.reset.axis .A with home := ⟨.low, .high, some 0⟩ } : Axis).home.measure = some 0 ∧
      (receiving .headerLen).link.gap = some 0 ∧
      ({ State.reset.link with breakMeasure := some 0 } : Link).breakMeasure = some 0 ∧
      (oneStep [] true { State.reset.axis .A with mode := .pulse }).pulse = some 2 ∧
      ({ State.reset.link with tx := .sending (.report 0) [0xC3, 0] (2 * 10 * 2000000) } : Link).tx =
        .sending (.report 0) [0xC3, 0] ([0xC3, (0 : Byte)].length * 10 * 2000000) ∧ State.reset.link.lastBit = none ∧
      ([0xC3, (0 : Byte)][0]? = some 0xC3 ∧ (10 * 0 + 9) * 2000000 ≤ 157 * 115200 ∧ 157 * 115200 < (10 * 0 + 9 + 1) * 2000000) ∧
      ([0xC3, (0 : Byte)][1]? = some 0 ∧ (10 * 1 + 0) * 2000000 ≤ 174 * 115200 ∧ 174 * 115200 < (10 * 1 + 0 + 1) * 2000000) ∧
      (({ State.reset.link with lastBit := some ⟨.low, 1, .r115200⟩ } : Link).lastBit = some ⟨.low, 1, .r115200⟩ ∧
        State.reset.link.tx = .idle) :=
  ⟨rfl, rfl, rfl, rfl, rfl, rfl, rfl, rfl, ⟨rfl, by decide, by decide⟩, ⟨rfl, by decide, by decide⟩, ⟨rfl, rfl⟩⟩

/-- The state after reset answers a next state, and meets the premises of the invariants. -/
theorem witness_laws : (∃ t, step State.reset = .next t) ∧ LaneLaw State.reset ∧ AxisLaw State.reset ∧
    HoldTimerLaw State.reset ∧ OwnershipLaw State.reset ∧ ProgressLaw State.reset ∧ ReportLaw State.reset.reports ∧
    CaptureLaw State.reset.captures ∧ LinkLaw State.reset.link ∧
    State.reset.captures.next = (65535 : Word16) + 1 + State.reset.captures.dropped := by
  refine ⟨⟨_, rfl⟩, law_reset, axisLaw_reset, hold_reset, ?_, ?_, ?_, ?_, ?_, rfl⟩
  · intro l g hg; cases l <;> cases hg
  · intro l; cases l <;> exact ⟨(fun g hg => by cases hg), (fun g hg => by cases hg)⟩
  · exact ⟨by decide, by decide, by decide, by decide, by decide, by decide⟩
  · exact ⟨by decide, trivial⟩
  · exact ⟨by decide, (fun o h => by cases h), (fun i o h => by cases i <;> cases h), by decide, (fun i f n h => by cases h),
      (fun b h => by cases h)⟩

end Sys2Proof.Tests
end

