-- ==== Sys2Proof/Proofs/LaneChanges.lean ====
section
/-! PROOF. All that an event can do to a lane, said once: the ways in which a lane and its sync-wait entry may change, and what
each of them keeps. The laws of the lanes and of the queued segments follow from it, whatever the event was. -/

namespace Sys2Proof.Machine

open Sys2Proof

/-! ### The ways a lane changes -/

/-- A lane in IDLE or HALTED, with an empty queue and nothing of a segment left (R2, R11). -/
structure Lane.Resting (w : Lane) : Prop where
  queue : w.queue = []
  state : w.state = .idle ∨ w.state = .halted
  started : w.started = false
  halt : w.halt.isSome = true ↔ w.state = .halted
  unmet : w.unmet = Unmet.empty
  settle : w.settleTimer = none
  timer : w.stepTimer = .stopped
  homing : w.homing = none
  ramp : w.ramp = none

/-- The lane goes on in its state with the same queue: only its settings, its timers and the progress of its active segment
differ, and that progress stays in step with the step-event count if it was (R29 to R32, R38, R89, R106). -/
structure Lane.Steady (v w : Lane) : Prop where
  queue : w.queue = v.queue
  state : w.state = v.state
  started : w.started = v.started
  halt : w.halt = v.halt
  unmet : w.unmet = v.unmet
  settle : w.settleTimer.isSome = v.settleTimer.isSome
  timer : v.stepTimer.fits v.state → w.stepTimer.fits v.state
  homing : w.homing.isSome = v.homing.isSome
  phase : ∀ h', w.homing = some h' → ∃ h, v.homing = some h ∧ (h'.phase = .notChosen ↔ h.phase = .notChosen)
  ramp : w.ramp.isSome = v.ramp.isSome
  progress : ∀ g, v.active = some g → g.complete → progressOk v g → progressOk w g

/-- What one event may make of lane `l` and its sync-wait entry: `w` and `e`, from the part `s` before it; `held` says whether the
hold of the lane is asserted after it. -/
inductive LaneChange (s : State) (l : LaneId) (held : Bool) : Lane → Option SyncEntry → Prop
  /-- It goes on as it was. -/
  | steady {w e} : (s.lane l).Steady w → held = s.holdAsserted l → e.isSome = (s.sync.get l).isSome → LaneChange s l held w e
  /-- Its work has ended, or it rests still (R11, R87, R94, R98). -/
  | rests {w} : w.Resting → LaneChange s l held w none
  /-- A segment of its queue has become the active one, and those ahead of it have left (R13, R16, R17). -/
  | activated {g rest sync atTick x t e} : (∃ gone, (s.lane l).queue = gone ++ g :: rest) →
      Activated l g rest sync atTick x t → x.holdAsserted l = held → e.isSome = sync → LaneChange s l held (t.lane l) e
  /-- It has one condition fewer, and waits on (R15). -/
  | waits {u timer e} : (s.lane l).state = .waiting → u ≠ Unmet.empty → timer.isSome = u.settle → e.isSome = u.sync →
      LaneChange s l held { s.lane l with unmet := u, settleTimer := timer } e
  /-- Its last condition is met (R15, R107). -/
  | leaves {g rest x atTick} : (s.lane l).state = .waiting → (s.lane l).queue = g :: rest →
      LaneChange s l held ((s.lane l).leftWaiting g (runBegun x g) held atTick) none
  /-- Its hold takes effect, its soft hold set anew perhaps (R70, R72). -/
  | holds (soft onTick : Bool) :
      LaneChange s l held ({ s.lane l with softHold := soft }.underHold held onTick) (s.sync.get l)
  /-- A controlled stop begins (R88). -/
  | stops {g rest r} : (s.lane l).state = .running → (s.lane l).queue = g :: rest → g.kind = .move → r.steps = none →
      LaneChange s l held { s.lane l with queue := [g], state := .stopping, ramp := some r } (s.sync.get l)
  /-- A segment joins the tail of its queue (R7). -/
  | appended {g} : (s.lane l).state ≠ .halted → (s.lane l).state ≠ .stopping → (s.lane l).queue.length < 16 →
      g.lane = l → g.body.owned s l → g.complete → held = s.holdAsserted l →
      LaneChange s l held { s.lane l with
        queue := (s.lane l).queue ++ [g], state := if (s.lane l).state = .idle then .ready else (s.lane l).state } (s.sync.get l)

/-! ### What each change keeps -/

/-- The progress of an active segment is read from these fields alone. -/
theorem progressOk_congr {v w : Lane} {g : Segment} (h : progressOk v g) (hk : w.stepCount = v.stepCount)
    (ha : w.accumulators = v.accumulators) (hr : w.ramp = v.ramp) (hd : w.dwellLeft = v.dwellLeft) (hh : w.homing = v.homing) :
    progressOk w g := by
  unfold progressOk at h ⊢; rw [hk, ha, hr, hd, hh]; exact h

theorem Lane.active_of_steady {v w : Lane} (h : v.Steady w) : w.active = v.active := by
  unfold Lane.active; rw [h.state, h.queue]

theorem Lane.head_of_active {v : Lane} {g : Segment} (h : v.active = some g) : v.queue.head? = some g := by
  unfold Lane.active at h; split at h
  case h_5 => cases h
  all_goals exact h

theorem Lane.busy_of_state {v w : Lane} (h : w.state = v.state) : w.busy = v.busy := by unfold Lane.busy; rw [h]

/-- The lane that only changes what its active segment does not read. -/
theorem Lane.Steady.of_same_progress {v w : Lane} (hq : w.queue = v.queue) (hs : w.state = v.state)
    (hstart : w.started = v.started) (hh : w.halt = v.halt) (hu : w.unmet = v.unmet)
    (hset : w.settleTimer.isSome = v.settleTimer.isSome) (ht : v.stepTimer.fits v.state → w.stepTimer.fits v.state)
    (hom : w.homing = v.homing) (hr : w.ramp = v.ramp) (hk : w.stepCount = v.stepCount) (ha : w.accumulators = v.accumulators)
    (hd : w.dwellLeft = v.dwellLeft) : v.Steady w where
  queue := hq
  state := hs
  started := hstart
  halt := hh
  unmet := hu
  settle := hset
  timer := ht
  homing := by rw [hom]
  phase h' e := ⟨h', by rw [← hom, e], Iff.rfl⟩
  ramp := by rw [hr]
  progress _ _ _ h := progressOk_congr h hk ha hr hd hom

theorem Lane.Steady.refl (v : Lane) : v.Steady v := .of_same_progress rfl rfl rfl rfl rfl rfl id rfl rfl rfl rfl rfl

/-- A lane that no part of an event reaches. -/
theorem LaneChange.refl {s : State} {l : LaneId} : LaneChange s l (s.holdAsserted l) (s.lane l) (s.sync.get l) :=
  .steady (.refl _) rfl rfl

theorem Lane.ended_resting (v : Lane) (h : Option HaltInfo) : (v.ended h).Resting := by
  cases h <;> exact ⟨rfl, by simp [Lane.ended], rfl, by simp [Lane.ended], rfl, rfl, rfl, rfl, rfl⟩

theorem Lane.atReset_resting : Lane.atReset.Resting := ⟨rfl, .inl rfl, rfl, by simp [Lane.atReset], rfl, rfl, rfl, rfl, rfl⟩

theorem Lane.Resting.laneOk {w : Lane} (h : w.Resting) : LaneOk w := by
  have hb : w.busy = false ∧ w.active = none ∧ w.state ≠ .waiting ∧ w.state ≠ .stopping ∧ StepTimer.stopped.fits w.state := by
    rcases h.state with e | e <;> simp [Lane.busy, Lane.active, e, StepTimer.fits]
  obtain ⟨hbusy, hact, hw, hst, hfit⟩ := hb
  exact {
    emptyIff := ⟨fun _ => h.state, fun _ => h.queue⟩
    depth := by simp [h.queue]
    startedIff := h.started.trans hbusy.symm
    haltIff := h.halt
    unmetIff := ⟨fun k => absurd h.unmet k, fun k => absurd k hw⟩
    settleIff := by rw [h.settle, h.unmet]; rfl
    rampIff := by simp [h.ramp, hst]
    stoppingMove := fun k => absurd k hst
    timer := h.timer ▸ hfit
    homingIff := by rw [h.homing, hact]; rfl
    phaseIff := fun _ k => by rw [h.homing] at k; cases k }

theorem Lane.Steady.laneOk {v w : Lane} (h : v.Steady w) (ok : LaneOk v) : LaneOk w where
  emptyIff := by rw [h.queue, h.state]; exact ok.emptyIff
  depth := by rw [h.queue]; exact ok.depth
  startedIff := by rw [h.started, Lane.busy_of_state h.state]; exact ok.startedIff
  haltIff := by rw [h.halt, h.state]; exact ok.haltIff
  unmetIff := by rw [h.unmet, h.state]; exact ok.unmetIff
  settleIff := by rw [h.settle, h.unmet]; exact ok.settleIff
  rampIff := by rw [h.ramp, h.state]; exact ok.rampIff
  stoppingMove := by rw [h.state, h.queue]; exact ok.stoppingMove
  timer := by rw [h.state]; exact h.timer ok.timer
  homingIff := by rw [h.homing, Lane.active_of_steady h]; exact ok.homingIff
  phaseIff h' e := by
    obtain ⟨run, hrun, hp⟩ := h.phase h' e
    rw [h.state, hp]; exact ok.phaseIff run hrun

/-- The homing run of a segment whose first interval begins: there is one for a HOME alone, with its phase chosen (R106,
R107). -/
theorem runBegun_isSome (s : State) (g : Segment) : (runBegun s g).isSome = decide (g.kind = .home) := by
  unfold runBegun Segment.kind; cases g.body <;> rfl

theorem runBegun_chosen {s : State} {g : Segment} {h : HomingRun} (e : runBegun s g = some h) :
    h.phase ≠ .notChosen ∧ h.limitReached = false := by
  unfold runBegun at e
  split at e
  · cases e; dsimp only; split <;> simp
  · cases e

/-- What an activation leaves of the lane, by whether it waits (R14). -/
theorem Activated.wait_or_begin {l : LaneId} {g : Segment} {rest : List Segment} {sync b : Bool} {s t : State}
    (h : Activated l g rest sync b s t) :
    ((t.lane l).state = .waiting ∧ (t.lane l).stepTimer = .stopped ∧ (t.lane l).unmet ≠ Unmet.empty ∧
      (t.lane l).homing = (runBegun t g).map fun _ => ⟨.notChosen, false⟩) ∨
    ((t.lane l).unmet = Unmet.empty ∧ (t.lane l).homing = runBegun t g ∧ sync = false ∧
      ((s.holdAsserted l = true ∧ (t.lane l).state = .held ∧ (t.lane l).stepTimer = .frozen g.firstInterval) ∨
       (s.holdAsserted l = false ∧ (t.lane l).state = .running ∧ (t.lane l).stepTimer = .counting g.firstInterval b))) := by
  have waits := h.waits
  have settles := h.settles
  have settled := h.settled
  by_cases hs : takesSettle s l g
  · obtain ⟨h1, h2, h3⟩ := waits (.inl hs)
    exact .inl ⟨h1, h2, by rw [(settles hs).1]; simp [Unmet.empty], h3⟩
  · have hu := (settled hs).1
    by_cases hl : startLine g = none
    · cases sync with
      | true =>
        obtain ⟨h1, h2, h3⟩ := waits (.inr (.inr rfl))
        exact .inl ⟨h1, h2, by rw [hu]; simp [Unmet.empty], h3⟩
      | false =>
        obtain ⟨h1, h2, h3⟩ := h.begins hs hl rfl
        refine .inr ⟨by rw [hu, hl]; rfl, h1, rfl, ?_⟩
        cases hh : s.holdAsserted l with
        | true => exact .inl ⟨rfl, h2 hh⟩
        | false => exact .inr ⟨rfl, h3 hh⟩
    · obtain ⟨h1, h2, h3⟩ := waits (.inr (.inl hl))
      exact .inl ⟨h1, h2, by rw [hu]; simp [Unmet.empty, hl], h3⟩

theorem Activated.unmet {l : LaneId} {g : Segment} {rest : List Segment} {sync b : Bool} {s t : State}
    (h : Activated l g rest sync b s t) :
    (t.lane l).settleTimer.isSome = (t.lane l).unmet.settle ∧ (t.lane l).unmet.sync = sync := by
  by_cases hs : takesSettle s l g
  · obtain ⟨h1, h2⟩ := h.settles hs; rw [h1, h2]; exact ⟨rfl, rfl⟩
  · obtain ⟨h1, h2⟩ := h.settled hs; rw [h1, h2]; exact ⟨rfl, rfl⟩

theorem Activated.laneOk {l : LaneId} {g : Segment} {rest : List Segment} {sync b : Bool} {s t : State}
    (h : Activated l g rest sync b s t) (hd : (g :: rest).length ≤ 16) : LaneOk (t.lane l) := by
  obtain ⟨hstart, -, -, hramp⟩ := h.fresh
  have hset := h.unmet.1
  obtain ⟨-, -, hhalt⟩ := h.kept
  have hq := h.queue
  have hcases := h.wait_or_begin
  generalize t.lane l = w at *
  have hrun : ((runBegun t g).map fun _ => (⟨.notChosen, false⟩ : HomingRun)).isSome = decide (g.kind = .home) := by
    rw [Option.isSome_map, runBegun_isSome]
  have hbusy : w.state = .waiting ∨ w.state = .held ∨ w.state = .running := by
    rcases hcases with ⟨e, -⟩ | ⟨-, -, -, ⟨-, e, -⟩ | ⟨-, e, -⟩⟩
    · exact .inl e
    · exact .inr (.inl e)
    · exact .inr (.inr e)
  have hact : w.active = some g := by
    rcases hbusy with e | e | e <;> simp [Lane.active, e, hq]
  constructor
  case emptyIff => rw [hq]; rcases hbusy with e | e | e <;> simp [e]
  case depth => rw [hq]; exact hd
  case startedIff => rw [hstart]; rcases hbusy with e | e | e <;> simp [Lane.busy, e]
  case haltIff => rw [hhalt]; rcases hbusy with e | e | e <;> simp [e]
  case unmetIff => rcases hcases with ⟨e, -, hu, -⟩ | ⟨hu, -, -, ⟨-, e, -⟩ | ⟨-, e, -⟩⟩ <;> simp [e, hu]
  case settleIff => exact hset
  case rampIff => rw [hramp]; rcases hbusy with e | e | e <;> simp [e]
  case stoppingMove => rcases hbusy with e | e | e <;> simp [e]
  case timer => rcases hcases with ⟨e, ht, -⟩ | ⟨-, -, -, ⟨-, e, ht⟩ | ⟨-, e, ht⟩⟩ <;> rw [e, ht] <;> trivial
  case homingIff =>
    rw [hact]
    rcases hcases with ⟨-, -, -, e⟩ | ⟨-, e, -⟩
    · rw [e, hrun]; rfl
    · rw [e, runBegun_isSome]; rfl
  case phaseIff =>
    intro run k
    rcases hcases with ⟨e, -, -, hr⟩ | ⟨-, hr, -, e⟩
    · rw [hr] at k
      obtain ⟨_, _, rfl⟩ := Option.map_eq_some_iff.1 k
      simp [e]
    · rw [hr] at k
      rcases e with ⟨-, e, -⟩ | ⟨-, e, -⟩ <;> simp [e, (runBegun_chosen k).1]

/-- A freshly activated segment is in step with the count 0 (R29 to R32, R38, R106). -/
theorem Activated.progressOk {l : LaneId} {g : Segment} {rest : List Segment} {sync b : Bool} {s t : State}
    (h : Activated l g rest sync b s t) (hc : g.complete) : progressOk (t.lane l) g := by
  obtain ⟨-, -, hk, hramp⟩ := h.fresh
  have hacc := h.accumulators
  have hdwell := h.dwell
  have hcases := h.wait_or_begin
  obtain ⟨-, -, hbody⟩ := hc
  unfold Machine.progressOk
  cases hb : g.body with
  | move entries i1 n =>
    rw [hb] at hbody
    obtain ⟨-, hn, -⟩ := hbody
    exact ⟨by rw [hk]; exact hn, fun a => by rw [hk]; exact hacc entries i1 n hb a, fun r _ e => by rw [hramp] at e; cases e⟩
  | dwell n =>
    rw [hb] at hbody
    dsimp only; rw [hdwell n hb]; exact hbody.1
  | home a limit preset =>
    rw [hb] at hbody
    obtain ⟨hlimit, -⟩ := hbody
    intro run e
    have hno : run.limitReached = false := by
      rcases hcases with ⟨-, -, -, hr⟩ | ⟨-, hr, -⟩
      · rw [hr] at e
        obtain ⟨_, _, rfl⟩ := Option.map_eq_some_iff.1 e
        rfl
      · rw [hr] at e; exact (runBegun_chosen e).2
    rw [hno, hk]; exact hlimit

/-- A hold freezes the interval in progress, or lets the remainder run out, and touches nothing else of the lane. -/
theorem Lane.underHold_cases (v : Lane) (held onTick : Bool) :
    v.underHold held onTick = v ∨
    (v.state = .running ∧ held = true ∧ ∃ n, v.underHold held onTick = { v with state := .held, stepTimer := .frozen n }) ∨
    (v.state = .held ∧ held = false ∧ ∃ n, v.underHold held onTick = { v with state := .running, stepTimer := .counting n onTick }) := by
  unfold Lane.underHold
  split
  · rename_i e _; exact .inr (.inl ⟨e, rfl, _, rfl⟩)
  · rename_i e _; exact .inr (.inr ⟨e, rfl, _, rfl⟩)
  · exact .inl rfl

/-- A lane goes between RUNNING and HELD with all its law. -/
theorem LaneOk.switch {v : Lane} (ok : LaneOk v) {state : LaneState} {timer : StepTimer}
    (hv : v.state = .running ∨ v.state = .held) (hw : state = .running ∨ state = .held) (ht : timer.fits state) :
    LaneOk { v with state := state, stepTimer := timer } := by
  have hact : ({ v with state := state, stepTimer := timer } : Lane).active = v.active := by
    rcases hv with e | e <;> rcases hw with e' | e' <;> simp [Lane.active, e, e']
  have hbusy : ({ v with state := state, stepTimer := timer } : Lane).busy = v.busy := by
    rcases hv with e | e <;> rcases hw with e' | e' <;> simp [Lane.busy, e, e']
  obtain ⟨hempty, hdepth, hstart, hhalt, hunmet, hsettle, hramp, -, -, hhom, hphase⟩ := ok
  have other : ∀ x, x = LaneState.idle ∨ x = .halted ∨ x = .waiting ∨ x = .stopping → v.state ≠ x ∧ state ≠ x := by
    intro x hx
    rcases hv with e | e <;> rcases hw with e' | e' <;> rcases hx with rfl | rfl | rfl | rfl <;> simp [e, e']
  obtain ⟨i1, i2⟩ := other .idle (.inl rfl)
  obtain ⟨j1, j2⟩ := other .halted (.inr (.inl rfl))
  obtain ⟨k1, k2⟩ := other .waiting (.inr (.inr (.inl rfl)))
  obtain ⟨m1, m2⟩ := other .stopping (.inr (.inr (.inr rfl)))
  exact {
    emptyIff := by simpa [i1, i2, j1, j2] using hempty
    depth := hdepth
    startedIff := hstart.trans hbusy.symm
    haltIff := by simpa [j1, j2] using hhalt
    unmetIff := by simpa [k1, k2] using hunmet
    settleIff := hsettle
    rampIff := by simpa [m1, m2] using hramp
    stoppingMove := fun e => absurd e m2
    timer := ht
    homingIff := by rw [hact]; exact hhom
    phaseIff := by simpa [k1, k2] using hphase }

theorem LaneOk.setSoftHold {v : Lane} (ok : LaneOk v) (b : Bool) : LaneOk { v with softHold := b } :=
  ⟨ok.emptyIff, ok.depth, ok.startedIff, ok.haltIff, ok.unmetIff, ok.settleIff, ok.rampIff, ok.stoppingMove, ok.timer,
    ok.homingIff, ok.phaseIff⟩

/-- A lane whose hold has taken effect shows it (R20, R72). -/
theorem underHold_agrees {v : Lane} (ht : v.stepTimer.fits v.state) (held onTick : Bool) :
    ((v.underHold held onTick).state = .running → held = false) ∧ ((v.underHold held onTick).state = .held → held = true) := by
  unfold Lane.underHold
  cases hs : v.state <;> cases hk : v.stepTimer <;> rw [hs, hk] at ht <;> cases held <;> simp_all [StepTimer.fits]

theorem LaneOk.underHold {v : Lane} (ok : LaneOk v) (held onTick : Bool) : LaneOk (v.underHold held onTick) := by
  rcases v.underHold_cases held onTick with e | ⟨hs, -, n, e⟩ | ⟨hs, -, n, e⟩ <;> rw [e]
  · exact ok
  · exact ok.switch (.inl hs) (.inr rfl) trivial
  · exact ok.switch (.inr hs) (.inl rfl) trivial

/-- A lane that leaves WAITING keeps its law (R15). -/
theorem LaneOk.leftWaiting {v : Lane} (ok : LaneOk v) {g : Segment} {rest : List Segment} (hs : v.state = .waiting)
    (hq : v.queue = g :: rest) (s : State) (held atTick : Bool) : LaneOk (v.leftWaiting g (runBegun s g) held atTick) := by
  obtain ⟨hempty, hdepth, hstart, hhalt, hunmet, hsettle, hramp, -, -, hhom, hphase⟩ := ok
  have hst : ∀ held : Bool, (if held then LaneState.held else .running) = .held ∨ (if held then LaneState.held else .running) = .running := by
    intro held; cases held <;> simp
  constructor
  case emptyIff => cases held <;> simp [Lane.leftWaiting, hq]
  case depth => exact hdepth
  case startedIff => cases held <;> simpa [Lane.leftWaiting, Lane.busy, hs] using hstart
  case haltIff => cases held <;> simpa [Lane.leftWaiting, hs] using hhalt
  case unmetIff => cases held <;> simp [Lane.leftWaiting, Unmet.empty]
  case settleIff => rfl
  case rampIff => cases held <;> simpa [Lane.leftWaiting, hs] using hramp
  case stoppingMove => cases held <;> simp [Lane.leftWaiting]
  case timer => cases held <;> trivial
  case homingIff =>
    have : (v.leftWaiting g (runBegun s g) held atTick).active = some g := by
      cases held <;> simp [Lane.active, Lane.leftWaiting, hq]
    rw [this]; exact runBegun_isSome s g
  case phaseIff =>
    intro run e
    have := (runBegun_chosen (show runBegun s g = some run from e)).1
    cases held <;> simp [Lane.leftWaiting, this]

/-- A lane that has one condition fewer and waits on keeps its law (R15). -/
theorem LaneOk.waits {v : Lane} (ok : LaneOk v) (hs : v.state = .waiting) {u : Unmet} {timer : MsTimer} (hu : u ≠ Unmet.empty)
    (ht : timer.isSome = u.settle) : LaneOk { v with unmet := u, settleTimer := timer } :=
  ⟨ok.emptyIff, ok.depth, ok.startedIff, ok.haltIff, ⟨fun _ => hs, fun _ => hu⟩, ht, ok.rampIff, ok.stoppingMove, ok.timer,
    ok.homingIff, ok.phaseIff⟩

/-- A lane whose controlled stop begins keeps its law (R85, R88). -/
theorem LaneOk.stops {v : Lane} (ok : LaneOk v) {g : Segment} {rest : List Segment} (hs : v.state = .running)
    (hq : v.queue = g :: rest) (hk : g.kind = .move) (r : StopRamp) :
    LaneOk { v with queue := [g], state := .stopping, ramp := some r } := by
  obtain ⟨-, -, hstart, hhalt, hunmet, hsettle, -, -, htimer, hhom, hphase⟩ := ok
  rw [hs] at htimer
  constructor
  case emptyIff => simp
  case depth => simp
  case startedIff => simpa [Lane.busy, hs] using hstart
  case haltIff => simpa [hs] using hhalt
  case unmetIff => simpa [hs] using hunmet
  case settleIff => exact hsettle
  case rampIff => simp
  case stoppingMove => exact fun _ => ⟨g, rfl, hk⟩
  case timer => cases e : v.stepTimer <;> rw [e] at htimer <;> trivial
  case homingIff => simpa [Lane.active, hs, hq] using hhom
  case phaseIff => simpa [hs] using hphase

/-- A lane that takes a segment at the tail of its queue keeps its law (R7). -/
theorem LaneOk.appended {v : Lane} (ok : LaneOk v) (g : Segment) (hh : v.state ≠ .halted) (hst : v.state ≠ .stopping)
    (hd : v.queue.length < 16) :
    LaneOk { v with queue := v.queue ++ [g], state := if v.state = .idle then .ready else v.state } := by
  obtain ⟨hempty, -, hstart, hhalt, hunmet, hsettle, hramp, -, htimer, hhom, hphase⟩ := ok
  have hdepth : (v.queue ++ [g]).length ≤ 16 := by simp; omega
  by_cases hi : v.state = .idle
  · have hq := hempty.2 (.inl hi)
    rw [if_pos hi]
    rw [hi] at htimer
    constructor
    case depth => exact hdepth
    case timer => cases e : v.stepTimer <;> rw [e] at htimer <;> trivial
    all_goals simp_all [Lane.busy, Lane.active]
  · have hq : v.queue ≠ [] := fun e => by rcases hempty.1 e with e | e <;> contradiction
    have hact : ({ v with queue := v.queue ++ [g] } : Lane).active = v.active := by
      unfold Lane.active; cases e : v.queue with
      | nil => exact absurd e hq
      | cons _ _ => rfl
    rw [if_neg hi]
    exact {
      emptyIff := by simp [hi, hh]
      depth := hdepth
      startedIff := hstart
      haltIff := hhalt
      unmetIff := hunmet
      settleIff := hsettle
      rampIff := hramp
      stoppingMove := fun e => absurd e hst
      timer := htimer
      homingIff := by rw [hact]; exact hhom
      phaseIff := hphase }

section
variable {s : State} {l : LaneId} {held : Bool} {w : Lane} {e : Option SyncEntry}

/-- Every change keeps the law of the lane (R2, R9, R26, R65, R85, R106). -/
theorem LaneChange.laneOk (h : LaneChange s l held w e) (ok : LaneOk (s.lane l)) : LaneOk w := by
  cases h with
  | steady st _ _ => exact st.laneOk ok
  | rests r => exact r.laneOk
  | activated q act _ _ =>
    obtain ⟨gone, hq⟩ := q
    have := ok.depth
    rw [hq, List.length_append] at this
    exact act.laneOk (by omega)
  | waits hs hu ht _ => exact ok.waits hs hu ht
  | leaves hs hq => exact ok.leftWaiting hs hq ..
  | holds soft onTick => exact (ok.setSoftHold soft).underHold ..
  | stops hs hq hk _ => exact ok.stops hs hq hk _
  | appended hh hst hd _ _ _ _ => exact ok.appended _ hh hst hd

/-- Every change keeps the entry standing exactly while SYNC is unmet (R74). -/
theorem LaneChange.entry (h : LaneChange s l held w e) (he : (s.sync.get l).isSome = (s.lane l).unmet.sync) :
    e.isSome = w.unmet.sync := by
  cases h with
  | steady st _ k => rw [st.unmet, k]; exact he
  | rests r => rw [r.unmet]; rfl
  | activated _ act _ hs => rw [act.unmet.2]; exact hs
  | waits _ _ _ hs => exact hs
  | leaves _ _ => rfl
  | holds soft onTick =>
    rcases Lane.underHold_cases { s.lane l with softHold := soft } held onTick with k | ⟨-, -, _, k⟩ | ⟨-, -, _, k⟩ <;>
      rw [k] <;> exact he
  | stops _ _ _ _ => exact he
  | appended _ _ _ _ _ _ _ => exact he

/-- After every change a lane that runs is under no hold, and one that is held is under one (R20, R72). -/
theorem LaneChange.hold (h : LaneChange s l held w e) (ok : LaneOk (s.lane l))
    (hr : (s.lane l).state = .running → s.holdAsserted l = false) (hh : (s.lane l).state = .held → s.holdAsserted l = true) :
    (w.state = .running → held = false) ∧ (w.state = .held → held = true) := by
  cases h with
  | steady st k _ => rw [st.state, k]; exact ⟨hr, hh⟩
  | rests r => rcases r.state with k | k <;> simp [k]
  | activated _ act k _ =>
    rcases act.wait_or_begin with ⟨k', -⟩ | ⟨-, -, -, ⟨k1, k', -⟩ | ⟨k1, k', -⟩⟩
    · simp [k']
    · rw [k] at k1; simp [k', k1]
    · rw [k] at k1; simp [k', k1]
  | waits hs _ _ _ => simp [hs]
  | leaves _ _ => cases held <;> simp [Lane.leftWaiting]
  | holds soft onTick => exact underHold_agrees (ok.setSoftHold soft).timer ..
  | stops _ _ _ _ => simp
  | appended _ _ _ _ _ _ k =>
    rw [k]; dsimp only
    split
    · simp
    · exact ⟨hr, hh⟩

/-- After every change the segments of the queue are some of those before it, or one accepted now (R7, R9). -/
theorem LaneChange.queue (h : LaneChange s l held w e) {g : Segment} (hg : g ∈ w.queue) :
    g ∈ (s.lane l).queue ∨ (g.lane = l ∧ g.body.owned s l ∧ g.complete) := by
  cases h with
  | steady st _ _ => rw [st.queue] at hg; exact .inl hg
  | rests r => rw [r.queue] at hg; cases hg
  | activated q act _ _ =>
    obtain ⟨gone, hq⟩ := q
    rw [act.queue] at hg
    exact .inl (by rw [hq]; exact List.mem_append_right _ hg)
  | waits _ _ _ _ => exact .inl hg
  | leaves _ _ => exact .inl hg
  | holds soft onTick =>
    rcases Lane.underHold_cases { s.lane l with softHold := soft } held onTick with k | ⟨-, -, _, k⟩ | ⟨-, -, _, k⟩ <;>
      rw [k] at hg <;> exact .inl hg
  | stops _ hq _ _ =>
    rw [List.mem_singleton] at hg
    exact .inl (by rw [hq, hg]; exact List.mem_cons_self ..)
  | appended _ _ _ h1 h2 h3 _ =>
    rcases List.mem_append.1 hg with hg | hg
    · exact .inl hg
    · rw [List.mem_singleton] at hg; subst hg; exact .inr ⟨h1, h2, h3⟩

/-- A HOME that leaves WAITING is in step with its count: its run had no phase yet, so it had not reached the home limit (R106,
R107). -/
theorem progressOk_leftWaiting {v : Lane} {g : Segment} {rest : List Segment} (ok : LaneOk v) (hs : v.state = .waiting)
    (hq : v.queue = g :: rest) (h : progressOk v g) (x : State) (atTick : Bool) :
    progressOk (v.leftWaiting g (runBegun x g) held atTick) g := by
  have hhom := ok.homingIff
  have hphase := ok.phaseIff
  rw [show v.active = some g by simp [Lane.active, hs, hq]] at hhom
  unfold progressOk at h ⊢
  cases hb : g.body with
  | move entries i1 n => rw [hb] at h; exact h
  | dwell n => rw [hb] at h; exact h
  | home a limit preset =>
    rw [hb] at h
    intro run hrun
    obtain ⟨run0, hrun0⟩ := Option.isSome_iff_exists.1 (hhom.trans (by simp [Segment.kind, hb]))
    have h0 := h run0 hrun0
    rw [if_neg fun k => absurd ((hphase run0 hrun0).2 hs) (by rw [if_pos k] at h0; exact h0.1)] at h0
    rw [(runBegun_chosen (show runBegun x g = some run from hrun)).2]
    exact h0

/-- Every change keeps the progress of the active segment in step with its count, if the queued records are complete (R29 to R32,
R38, R89, R106). -/
theorem LaneChange.progress (h : LaneChange s l held w e) (ok : LaneOk (s.lane l)) (hc : ∀ g ∈ (s.lane l).queue, g.complete)
    (hp : ∀ g, (s.lane l).active = some g → progressOk (s.lane l) g) : ∀ g, w.active = some g → progressOk w g := by
  intro g hg
  cases h with
  | steady st _ _ =>
    rw [Lane.active_of_steady st] at hg
    exact st.progress g hg (hc g (List.mem_of_mem_head? (Lane.head_of_active hg))) (hp g hg)
  | rests r => rcases r.state with k | k <;> simp [Lane.active, k] at hg
  | @activated g' rest _ _ x t e q act _ _ =>
    obtain ⟨gone, hq⟩ := q
    obtain rfl : g' = g := by have := Lane.head_of_active hg; rw [act.queue] at this; exact Option.some.inj this
    exact act.progressOk (hc g' (by rw [hq]; simp))
  | waits _ _ _ _ => exact progressOk_congr (hp g hg) rfl rfl rfl rfl rfl
  | @leaves g' rest x b hs hq =>
    obtain rfl : g' = g := by
      have : ((s.lane l).leftWaiting g' (runBegun x g') held b).queue.head? = some g := Lane.head_of_active hg
      rw [show ((s.lane l).leftWaiting g' (runBegun x g') held b).queue = g' :: rest from hq] at this
      exact Option.some.inj this
    exact progressOk_leftWaiting ok hs hq (hp g' (by simp [Lane.active, hs, hq])) x b
  | holds soft onTick =>
    rcases Lane.underHold_cases { s.lane l with softHold := soft } held onTick with k | ⟨hs, -, _, k⟩ | ⟨hs, -, _, k⟩ <;>
      rw [k] at hg ⊢ <;> refine progressOk_congr (hp g ?_) rfl rfl rfl rfl rfl
    · exact hg
    · rw [← hg]; simp [Lane.active, show (s.lane l).state = .running from hs]
    · rw [← hg]; simp [Lane.active, show (s.lane l).state = .held from hs]
  | @stops g' rest r hs hq hk hr =>
    have hg : g' = g := by simpa [Lane.active] using hg
    subst hg
    have h0 := hp g' (by simp [Lane.active, hs, hq])
    unfold progressOk at h0 ⊢
    cases hb : g'.body with
    | move entries i1 n =>
      rw [hb] at h0
      refine ⟨h0.1, h0.2.1, fun r' steps e e' => ?_⟩
      cases e
      rw [hr] at e'; cases e'
    | dwell n => simp [Segment.kind, hb] at hk
    | home a limit preset => simp [Segment.kind, hb] at hk
  | appended _ _ _ _ _ _ _ =>
    refine progressOk_congr (hp g ?_) rfl rfl rfl rfl rfl
    unfold Lane.active at hg ⊢
    dsimp only at hg
    have hne := ok.emptyIff
    cases hs : (s.lane l).state <;> rw [hs] at hg hne <;> cases hq : (s.lane l).queue <;> simp [hq] at hg hne ⊢ <;> exact hg

end

end Sys2Proof.Machine
end

