-- ==== Sys2Proof/Proofs/LaneMoves.lean ====
section
/-! PROOF. An event as a change of both lanes: what it leaves of the laws, and the change that each shared operation of the lanes
makes. -/

namespace Sys2Proof.Machine

open Sys2Proof

/-! ### An event as a change of both lanes -/

/-- From `s` to `t` each lane and its entry change in one of the ways of `LaneChange`, at most one entry stands, and no axis leaves
a lane that has segments in its queue (R7, R74). -/
structure LanesMove (s t : State) : Prop where
  lane : ∀ l, LaneChange s l (t.holdAsserted l) (t.lane l) (t.sync.get l)
  oneEntry : t.sync.get .L0 = none ∨ t.sync.get .L1 = none
  owners : ∀ a l, (t.lane l).queue ≠ [] → (s.axis a).owner = some l → (t.axis a).owner = some l

theorem LanesMove.laneLaw {s t : State} (h : LanesMove s t) (law : LaneLaw s) : LaneLaw t where
  lanes l := (h.lane l).laneOk (law.lanes l)
  entryIff l := (h.lane l).entry (law.entryIff l)
  oneEntry := h.oneEntry
  runningFree l := ((h.lane l).hold (law.lanes l) (law.runningFree l) (law.heldHeld l)).1
  heldHeld l := ((h.lane l).hold (law.lanes l) (law.runningFree l) (law.heldHeld l)).2

theorem SegmentBody.owned.mono {s t : State} {l : LaneId} {b : SegmentBody} (h : b.owned s l)
    (ho : ∀ a, (s.axis a).owner = some l → (t.axis a).owner = some l) : b.owned t l := by
  cases b with
  | move entries i1 n => exact fun e he => ho _ (h e he)
  | dwell n => trivial
  | home a limit preset => exact ho a h

theorem LanesMove.ownership {s t : State} (h : LanesMove s t) (own : OwnershipLaw s) : OwnershipLaw t := by
  intro l g hg
  have keep := SegmentBody.owned.mono (t := t) (l := l) (s := s) (b := g.body) |> fun k o =>
    k o fun a => h.owners a l (List.ne_nil_of_mem hg)
  rcases (h.lane l).queue hg with hg | ⟨h1, h2, -⟩
  · obtain ⟨h1, h2⟩ := own l g hg
    exact ⟨h1, keep h2⟩
  · exact ⟨h1, keep h2⟩

theorem LanesMove.progress {s t : State} (h : LanesMove s t) (law : LaneLaw s) (hp : ProgressLaw s) : ProgressLaw t := by
  intro l
  obtain ⟨hc, hact⟩ := hp l
  refine ⟨fun g hg => ?_, (h.lane l).progress (law.lanes l) hc hact⟩
  rcases (h.lane l).queue hg with hg | ⟨-, -, h3⟩
  · exact hc g hg
  · exact h3

/-- What is done after the lanes have changed, where it reaches neither them nor what they read. -/
theorem LanesMove.congr {s t u : State} (h : LanesMove s t) (hl : u.lanes = t.lanes) (hs : u.sync = t.sync)
    (hn : u.lines = t.lines) (ha : ∀ a, (u.axis a).owner = (t.axis a).owner) : LanesMove s u := by
  have el : ∀ l, u.lane l = t.lane l := fun l => by simp only [State.lane, hl]
  have eh : ∀ l, u.holdAsserted l = t.holdAsserted l := fun l => holdAsserted_congr l (by rw [el]) hn
  refine ⟨fun l => ?_, by rw [hs]; exact h.oneEntry, fun a l => ?_⟩
  · rw [el, hs, eh]; exact h.lane l
  · rw [el, ha]; exact h.owners a l

/-- Two lanes as one: what a change of the lane `l` and of the other make of both. -/
theorem LanesMove.of_lanes {s t : State} (l : LaneId) (h : LaneChange s l (t.holdAsserted l) (t.lane l) (t.sync.get l))
    (ho : LaneChange s (otherLane l) (t.holdAsserted (otherLane l)) (t.lane (otherLane l)) (t.sync.get (otherLane l)))
    (one : t.sync.get l = none ∨ t.sync.get (otherLane l) = none) (ha : ∀ a, (t.axis a).owner = (s.axis a).owner) :
    LanesMove s t := by
  refine ⟨fun m => ?_, ?_, fun a m _ k => by rw [ha]; exact k⟩
  · rcases eq_or_eq_otherLane l m with rfl | rfl
    · exact h
    · exact ho
  · cases l
    · exact one
    · exact one.symm

/-- `t` stands beside `s`: what an operation on lane `l` leaves of the rest. -/
structure Beside (l : LaneId) (s t : State) : Prop where
  other : t.lane (otherLane l) = s.lane (otherLane l)
  sync : t.sync = s.sync
  lines : t.lines = s.lines
  owners : ∀ a, (t.axis a).owner = (s.axis a).owner

theorem Beside.refl (l : LaneId) (s : State) : Beside l s s := ⟨rfl, rfl, rfl, fun _ => rfl⟩

theorem Beside.setLane (l : LaneId) (s : State) (v : Lane) : Beside l s (s.setLane l v) :=
  ⟨State.lane_setLane_of_ne _ _ (otherLane_ne l), rfl, rfl, fun _ => rfl⟩

theorem Beside.trans {l : LaneId} {s t u : State} (h : Beside l s t) (k : Beside l t u) : Beside l s u :=
  ⟨k.other.trans h.other, k.sync.trans h.sync, k.lines.trans h.lines, fun a => (k.owners a).trans (h.owners a)⟩

theorem Beside.hold_other {l : LaneId} {s t : State} (h : Beside l s t) :
    t.holdAsserted (otherLane l) = s.holdAsserted (otherLane l) := holdAsserted_congr _ (by rw [h.other]) h.lines

theorem EnergisesOnly.owner {s t : State} (h : EnergisesOnly s t) (a : AxisId) : (t.axis a).owner = (s.axis a).owner := by
  rw [(h.axis a).1]

/-- The change that the beginning of a controlled stop makes of a lane (R88). -/
theorem LaneChange.beginStop {s : State} {l : LaneId} {g : Segment} {rest : List Segment} (e : RampEnd) {u : State}
    (hu : u.lane l = s.lane l) (hs : (s.lane l).state = .running) (hq : (s.lane l).queue = g :: rest) (hk : g.kind = .move)
    (held : Bool) : LaneChange s l held ((beginStop l e u).lane l) (s.sync.get l) := by
  unfold Machine.beginStop
  rw [State.lane_setLane_self, hu]
  rw [show (s.lane l).queue.take 1 = [g] by rw [hq]; rfl]
  exact .stops hs hq hk rfl

/-- One lane ends, from a part that stands beside `s` (R11). -/
theorem LanesMove.endLane {s : State} {l : LaneId} {t : State} (b : Beside l s t) (h : Option HaltInfo) : LanesMove s (endLane l h t) := by
  have f := endLane_frame l h t
  have eo : (Machine.endLane l h t).lane (otherLane l) = s.lane (otherLane l) := by
    rw [endLane_lane, if_neg (otherLane_ne l), b.other]
  refine .of_lanes l ?_ ?_ ?_ b.owners
  · rw [endLane_lane, endLane_sync, if_pos rfl, if_pos rfl]; exact .rests (Lane.ended_resting ..)
  · rw [holdAsserted_congr (s := s) _ (by rw [eo]) (f.lines.trans b.lines), eo, endLane_sync, if_neg (otherLane_ne l), b.sync]
    exact .refl
  · rw [endLane_sync, if_pos rfl]; exact .inl rfl

section
variable {s : State} (law : LaneLaw s)
include law

theorem LaneLaw.one (l : LaneId) : s.sync.get l = none ∨ s.sync.get (otherLane l) = none := by
  cases l
  · exact law.oneEntry
  · exact law.oneEntry.symm

/-- A lane with no condition unmet has no entry standing. -/
theorem LaneLaw.no_entry {l : LaneId} (h : (s.lane l).state ≠ .waiting) : s.sync.get l = none := by
  exact Classical.byContradiction fun k => h (law.waiting_of_entry k)

theorem LaneLaw.queue_ne_nil {l : LaneId} (hi : (s.lane l).state ≠ .idle) (hh : (s.lane l).state ≠ .halted) :
    (s.lane l).queue ≠ [] := fun k => by
  rcases (law.lanes l).emptyIff.1 k with k | k
  · exact hi k
  · exact hh k

/-- An event that reaches no lane. -/
theorem LanesMove.still {t : State} (hl : t.lanes = s.lanes) (hs : t.sync = s.sync) (hh : ∀ l, t.holdAsserted l = s.holdAsserted l)
    (ha : ∀ a l, (s.lane l).queue ≠ [] → (s.axis a).owner = some l → (t.axis a).owner = some l) : LanesMove s t := by
  have el : ∀ l, t.lane l = s.lane l := fun l => by simp only [State.lane, hl]
  refine ⟨fun l => ?_, by rw [hs]; exact law.oneEntry, fun a l => by rw [el]; exact ha a l⟩
  rw [el, hs, hh]; exact .refl

theorem LanesMove.refl : LanesMove s s := .still law rfl rfl (fun _ => rfl) fun _ _ _ k => k

/-- An event that reaches one lane, and leaves its entry standing as it stood. -/
theorem LanesMove.of_lane {l : LaneId} {t : State} (b : Beside l s t)
    (h : LaneChange s l (t.holdAsserted l) (t.lane l) (s.sync.get l)) : LanesMove s t := by
  refine .of_lanes l (by rw [b.sync]; exact h) ?_ (by rw [b.sync]; exact law.one l) b.owners
  rw [b.other, b.hold_other, b.sync]; exact .refl

/-- An event after which one lane goes on in its state. -/
theorem LanesMove.of_steady {l : LaneId} {t : State} (b : Beside l s t) (h : (s.lane l).Steady (t.lane l))
    (soft : (t.lane l).softHold = (s.lane l).softHold) : LanesMove s t :=
  .of_lane law b (.steady h (holdAsserted_congr l soft b.lines) rfl)

/-! ### Ends of a lane's work -/

theorem LanesMove.haltOnly (l : LaneId) (h : HaltInfo) : LanesMove s (haltOnly l h s) := by
  by_cases hs : (s.lane l).state = .halted
  · rw [haltOnly_of_halted _ hs]; exact .refl law
  · rw [haltOnly_eq _ hs]; exact .endLane (.refl l s) _

/-- One lane halts, and the wait of the other is broken with it, from a part that stands beside `s` (R78, R94). -/
theorem LanesMove.halt {l : LaneId} {t : State} (b : Beside l s t) (h : HaltInfo) (hs : (t.lane l).state ≠ .halted) :
    LanesMove s (halt l h t) := by
  have f := halt_frame l h t
  have ho : t.sync.get (otherLane l) ≠ none → (t.lane (otherLane l)).state ≠ .halted := by
    rw [b.sync, b.other]; intro k; rw [law.waiting_of_entry k]; decide
  obtain ⟨⟨hlane, hentries, hother, hbroken⟩, -⟩ := halt_spec h hs ho
  have none' : ∀ m, (Machine.halt l h t).sync.get m = none := fun m => by rw [hentries]; cases m <;> rfl
  refine .of_lanes l ?_ ?_ (.inl (none' l)) (fun a => by rw [← b.owners]; simp only [State.axis, halt_axes])
  · rw [hlane, none']; exact .rests (Lane.ended_resting ..)
  · by_cases hn : t.sync.get (otherLane l) = none
    · rw [none', ← hn, b.sync, hother hn,
        holdAsserted_congr (s := s) _ (by rw [hother hn, b.other]) (f.lines.trans b.lines), b.other]
      exact .refl
    · rw [none', hbroken hn]; exact .rests (Lane.ended_resting ..)

theorem LanesMove.halt_self (l : LaneId) (h : HaltInfo) : LanesMove s (Machine.halt l h s) := by
  by_cases hs : (s.lane l).state = .halted
  · rw [halt_of_halted _ hs]; exact .refl law
  · exact .halt law (.refl l s) h hs

/-- A controlled stop reaches its end state, from a part that stands beside `s` (R92). -/
theorem LanesMove.reachStopEnd {l : LaneId} {t : State} (b : Beside l s t) (e : RampEnd) (hs : (t.lane l).state ≠ .halted) :
    LanesMove s (reachStopEnd l e t) := by
  cases e with
  | idle => exact .endLane b _
  | haltedSilence => exact .halt law b _ hs

/-! ### Activation and completion -/

/-- The decision of a sync wait as a change of both lanes (R74 to R77). -/
theorem LanesMove.of_sync {l : LaneId} {g : Segment} {rest : List Segment} {k : Nat} {atTick : Bool} {t : State}
    (d : SyncDecided l g rest k atTick s t) (hq : ∃ gone, (s.lane l).queue = gone ++ g :: rest) (hn : t.lines = s.lines)
    (ha : ∀ a, (t.axis a).owner = (s.axis a).owner) : LanesMove s t := by
  have gets : ∀ {e : PerLane (Option SyncEntry)}, e = ⟨none, none⟩ → ∀ m, e.get m = none := fun h m => by
    rw [h]; cases m <;> rfl
  have hold : ∀ m, (t.lane m).softHold = (s.lane m).softHold → t.holdAsserted m = s.holdAsserted m := fun m h =>
    holdAsserted_congr m h hn
  have own : ∀ {sync : Bool} {e : Option SyncEntry}, Activated l g rest sync atTick s t → e.isSome = sync →
      LaneChange s l (t.holdAsserted l) (t.lane l) e := fun act he =>
    .activated hq act (hold l act.kept.1).symm he
  cases ho : s.sync.get (otherLane l) with
  | none =>
    obtain ⟨act, hother, hsync⟩ := d.stands ho
    refine .of_lanes l ?_ ?_ (.inr ?_) ha
    · rw [hsync, PerLane.get_set_self]; exact own act rfl
    · rw [hsync, PerLane.get_set_of_ne _ _ (otherLane_ne l), hother, hold _ (by rw [hother])]; exact .refl
    · rw [hsync, PerLane.get_set_of_ne _ _ (otherLane_ne l)]; exact ho
  | some e =>
    have hw := law.waiting_of_entry (l := otherLane l) (by rw [ho]; exact Option.some_ne_none _)
    have ok := law.lanes (otherLane l)
    by_cases hk : e.number = k
    · obtain ⟨number, timer⟩ := e
      cases hk
      obtain ⟨hsync, act, hstays, hleaves⟩ := d.met timer ho
      have hn := gets hsync
      refine .of_lanes l ?_ ?_ (.inl (hn l)) ha
      · rw [hn]; exact own act rfl
      · rw [hn]
        by_cases hc : (s.lane (otherLane l)).unmet.settle = true ∨ (s.lane (otherLane l)).unmet.trigger ≠ none
        · rw [hstays hc]
          refine .waits hw (fun k => ?_) ok.settleIff rfl
          have h1 := congrArg Unmet.settle k
          have h2 := congrArg Unmet.trigger k
          rcases hc with hc | hc
          · exact absurd (hc.symm.trans h1) (by decide)
          · exact hc h2
        · obtain ⟨g', more, hq'⟩ := List.exists_cons_of_ne_nil
            (law.queue_ne_nil (l := otherLane l) (by rw [hw]; decide) (by rw [hw]; decide))
          have h := hleaves (Bool.eq_false_iff.2 fun k => hc (.inl k)) (Classical.byContradiction fun k => hc (.inr k)) g' (by rw [hq']; rfl)
          rw [hold (otherLane l) (by rw [h]; rfl), h]
          exact .leaves hw hq'
    · obtain ⟨hsync, h1, h2⟩ := d.mismatch e ho hk
      have hn := gets hsync
      refine .of_lanes l ?_ ?_ (.inl (hn l)) ha
      · rw [hn, h1]; exact .rests (Lane.ended_resting ..)
      · rw [hn, h2]; exact .rests (Lane.ended_resting ..)

/-- An activation that enters no sync wait, as a change of both lanes (R13, R14). -/
theorem LanesMove.of_activated {l : LaneId} {g : Segment} {rest : List Segment} {atTick : Bool} {t : State}
    (act : Activated l g rest false atTick s t) (hother : t.lane (otherLane l) = s.lane (otherLane l)) (hs : t.sync = s.sync)
    (hw : (s.lane l).state ≠ .waiting) (hq : ∃ gone, (s.lane l).queue = gone ++ g :: rest) (hn : t.lines = s.lines)
    (ha : ∀ a, (t.axis a).owner = (s.axis a).owner) : LanesMove s t :=
  .of_lane law ⟨hother, hs, hn, ha⟩ (.activated hq act (holdAsserted_congr l act.kept.1 hn).symm (by rw [law.no_entry hw]; rfl))

/-- The activation of the head of a READY lane (R12 to R14). -/
theorem LanesMove.activate {l : LaneId} (atTick : Bool) (hr : (s.lane l).state = .ready) : LanesMove s (activate l atTick s) := by
  obtain ⟨g, rest, hq⟩ := List.exists_cons_of_ne_nil (law.queue_ne_nil (l := l) (by rw [hr]; decide) (by rw [hr]; decide))
  have hw : (s.lane l).state ≠ .waiting := by rw [hr]; decide
  obtain ⟨hsync, hplain, -, -⟩ := activate_spec atTick hq (law.mayActivate (by rw [hr]; decide) hw)
  have hn := (activate_frame l atTick s).lines
  have ha := (activate_energises l atTick s).owner
  by_cases hk : ∃ k, g.start = .sync k
  · obtain ⟨k, hk⟩ := hk
    exact .of_sync law (hsync k hk) ⟨[], hq⟩ hn ha
  · obtain ⟨act, hother, hs⟩ := hplain fun k e => hk ⟨k, e⟩
    exact .of_activated law act hother hs hw ⟨[], hq⟩ hn ha

/-- The completion of the active segment, from a part `y` in which its last step has been taken (R16 to R18). -/
theorem LanesMove.complete {l : LaneId} {y : State} {g : Segment} {rest : List Segment} (home : Option HomeResult) (atTick : Bool)
    (alike : ActsAlike l s y) (hs : (s.lane l).state = .running ∨ (s.lane l).state = .held) (hq : (s.lane l).queue = g :: rest)
    (hy : (y.lane l).queue = g :: rest) (hh : (y.lane l).halt = (s.lane l).halt) : LanesMove s (complete l home atTick y) := by
  have hw : (s.lane l).state ≠ .waiting := by rcases hs with e | e <;> rw [e] <;> decide
  have may : MayActivate l y :=
    (law.mayActivate (by rcases hs with e | e <;> rw [e] <;> decide) hw).congr hh alike.sync alike.other
  have f := complete_frame l home atTick y
  have hn : (Machine.complete l home atTick y).lines = s.lines := f.lines.trans alike.lines
  have ha : ∀ a, ((Machine.complete l home atTick y).axis a).owner = (s.axis a).owner := fun a =>
    ((complete_energises l home atTick y).owner a).trans (alike.axis a).1
  cases rest with
  | nil =>
    have e := complete_dry home atTick hy may.halt
    refine .of_lane law (l := l) ⟨?_, ?_, hn, ha⟩ ?_
    · rw [e, ← alike.other]; exact PerLane.get_set_of_ne _ _ (otherLane_ne l)
    · rw [e, ← alike.sync]
    · rw [law.no_entry hw, show (Machine.complete l home atTick y).lane l = (y.lane l).ended none by
        rw [e]; exact PerLane.get_set_self ..]
      exact .rests (Lane.ended_resting ..)
  | cons g' more =>
    have e := complete_next home atTick hy
    generalize hX : ({ y with
      lanes := y.lanes.set l { (y.lane l).cleared with queue := g' :: more }
      reports := if g.notify = true
        then y.reports.hand (.segmentDone l g.tag g.kind (more.length + 1) home (positionsOf y)) else y.reports } : State) = x at e
    have xl : x.lane l = { (y.lane l).cleared with queue := g' :: more } := by rw [← hX]; exact PerLane.get_set_self ..
    have xo : x.lane (otherLane l) = y.lane (otherLane l) := by
      rw [← hX]; exact PerLane.get_set_of_ne _ _ (otherLane_ne l)
    have xa : ∀ a, x.axis a = y.axis a := fun a => by rw [← hX]; rfl
    have hx : ActsAlike l s x := ⟨by rw [xl]; exact alike.softHold, by rw [xl]; exact alike.settings, xo.trans alike.other,
      by rw [← hX]; exact alike.sync, by rw [← hX]; exact alike.lines, by rw [← hX]; exact alike.time,
      fun a => by rw [xa]; exact alike.axis a⟩
    obtain ⟨hsync, hplain, -, -⟩ := activate_spec (s := x) atTick (by rw [xl])
      (may.congr (by rw [xl]; rfl) (by rw [← hX]) xo)
    rw [← e] at hsync hplain
    by_cases hk : ∃ k, g'.start = .sync k
    · obtain ⟨k, hk⟩ := hk
      exact .of_sync law (hx.syncDecided (hsync k hk) rfl rfl fun _ => rfl) ⟨[g], hq⟩ hn ha
    · obtain ⟨act, hother, hs'⟩ := hplain fun k e => hk ⟨k, e⟩
      exact .of_activated law (hx.activated act rfl rfl) (hother.trans hx.other) (hs'.trans hx.sync) hw ⟨[g], hq⟩ hn ha

/-- A lane whose waiting has one condition fewer leaves WAITING, or waits on (R15). -/
theorem LanesMove.leaveIfMet {l : LaneId} {u : Unmet} {timer : MsTimer} (atTick : Bool) (hw : (s.lane l).state = .waiting)
    (ht : timer.isSome = u.settle) (hs : u.sync = (s.lane l).unmet.sync) :
    LanesMove s (leaveIfMet l atTick (s.setLane l { s.lane l with unmet := u, settleTimer := timer })) := by
  obtain ⟨g, rest, hq⟩ := List.exists_cons_of_ne_nil (law.queue_ne_nil (l := l) (by rw [hw]; decide) (by rw [hw]; decide))
  generalize hx : s.setLane l { s.lane l with unmet := u, settleTimer := timer } = x
  have xl : x.lane l = { s.lane l with unmet := u, settleTimer := timer } := by rw [← hx]; exact State.lane_setLane_self ..
  have b : Beside l s x := by rw [← hx]; exact .setLane ..
  obtain ⟨h1, h2, h3, h4, -, -⟩ := leaveIfMet_spec (l := l) (s := x) (g := g) (rest := rest) atTick
    (by rw [xl]; exact hw) (by rw [xl]; exact hq)
  have bt : Beside l x (Machine.leaveIfMet l atTick x) :=
    ⟨h3, h4, (leaveIfMet_frame ..).lines, (leaveIfMet_energises ..).owner⟩
  refine .of_lane law (b.trans bt) ?_
  by_cases hu : u = ⟨false, none, false⟩
  · have hx' := h2 (by rw [xl]; exact hu)
    have hold : x.holdAsserted l = s.holdAsserted l := holdAsserted_congr l (by rw [xl]) b.lines
    have ht' : timer = none := by rw [hu] at ht; exact Option.not_isSome_iff_eq_none.1 (by rw [ht]; decide)
    have he : s.sync.get l = none := by
      have := law.entryIff l
      rw [← hs, hu] at this
      exact Option.not_isSome_iff_eq_none.1 (by rw [this]; decide)
    have hl : (Machine.leaveIfMet l atTick x).lane l =
        (s.lane l).leftWaiting g (runBegun x g) (s.holdAsserted l) atTick := by
      rw [hx', xl, hold, hu, ht']; rfl
    have hh : (Machine.leaveIfMet l atTick x).holdAsserted l = s.holdAsserted l :=
      holdAsserted_congr l (by rw [hl]; rfl) (b.trans bt).lines
    rw [hh, hl, he]
    exact .leaves hw hq
  · rw [h1 (by rw [xl]; exact hu), xl]
    exact .waits hw hu ht (by rw [law.entryIff, hs])

end

end Sys2Proof.Machine
end

