-- ==== Sys2Proof/Proofs/SegmentMoves.lean ====
section
/-! PROOF. The step events, dwell intervals and homing events as changes of the lanes: each leaves the active segment in step with
its count, completes it, or ends the lane. -/

namespace Sys2Proof.Machine

open Sys2Proof

/-! ### The accumulators (R30 to R32) -/

theorem natAbs_le_dominantOf {entries : List (AxisId × Int)} {e : AxisId × Int} (h : e ∈ entries) :
    e.2.natAbs ≤ dominantOf entries := by
  rw [dominantOf_eq]
  induction entries with
  | nil => cases h
  | cons x rest ih =>
    rw [List.map_cons, List.foldr_cons]
    rcases List.mem_cons.1 h with rfl | h
    · exact Nat.le_max_left ..
    · exact Nat.le_trans (ih h) (Nat.le_max_right ..)

theorem dominantOf_le {entries : List (AxisId × Int)} {m : Nat} (h : ∀ e ∈ entries, e.2.natAbs ≤ m) : dominantOf entries ≤ m := by
  rw [dominantOf_eq]
  induction entries with
  | nil => exact Nat.zero_le _
  | cons x rest ih =>
    rw [List.map_cons, List.foldr_cons]
    exact Nat.max_le.2 ⟨h x (List.mem_cons_self ..), ih fun e he => h e (List.mem_cons_of_mem _ he)⟩

theorem countOf_le (entries : List (AxisId × Int)) (a : AxisId) : (countOf entries a).natAbs ≤ dominantOf entries := by
  unfold countOf
  split
  · rename_i e h; exact natAbs_le_dominantOf (List.mem_of_find?_eq_some h)
  · exact Nat.zero_le _

/-- One more step event takes the accumulator on by the magnitude of its count, modulo N (R31). -/
theorem accumulate_accumulatorAfter {n k : Nat} {c : Int} (hn : 1 ≤ n) (hc : c.natAbs ≤ n) :
    (accumulate n c (accumulatorAfter n k c)).2 = accumulatorAfter n (k + 1) c := by
  unfold accumulatorAfter
  by_cases h0 : c = 0
  · simp [h0, accumulate]
  · rw [if_neg h0, if_neg h0]
    have hr : (n / 2 + k * c.natAbs) % n < n := Nat.mod_lt _ hn
    have hnext : (n / 2 + (k + 1) * c.natAbs) % n = ((n / 2 + k * c.natAbs) % n + c.natAbs) % n := by
      rw [Nat.mod_add_mod, Nat.add_mul, Nat.one_mul, Nat.add_assoc]
    rw [hnext]
    generalize (n / 2 + k * c.natAbs) % n = r at hr
    unfold accumulate; dsimp only
    by_cases hd : n ≤ r + c.natAbs
    · rw [if_pos hd, Nat.mod_eq_sub_mod hd, Nat.mod_eq_of_lt (by omega)]
    · rw [if_neg hd, Nat.mod_eq_of_lt (by omega)]

/-! ### Intervals that go on -/

/-- The lane after a step event of its MOVE that starts another interval (R28, R34, R89, R91). -/
def Lane.stepped (v : Lane) (entries : List (AxisId × Int)) (n : Nat) (ramp : Option StopRamp) (interval : Nat) : Lane :=
  { v with
    accumulators := v.accumulators.mapWith fun a c => (accumulate n (countOf entries a) c).2
    stepCount := v.stepCount + 1, ramp := ramp, stepTimer := .counting interval true, interval := interval }

/-- A stop ramp under way has steps to take, no more than the MOVE has left after `k` step events (R89). -/
def rampOk (ramp : Option StopRamp) (n k : Nat) : Prop :=
  ∀ r steps, ramp = some r → r.steps = some steps → r.taken < steps ∧ steps + k ≤ r.taken + n

theorem progressOk_move {v : Lane} {g : Segment} {entries : List (AxisId × Int)} {i1 n : Nat} (hb : g.body = .move entries i1 n) :
    progressOk v g ↔ v.stepCount < n ∧ (∀ a, v.accumulators.get a = accumulatorAfter n v.stepCount (countOf entries a)) ∧
      rampOk v.ramp n v.stepCount := by
  unfold progressOk; rw [hb]; rfl

theorem progressOk_dwell {v : Lane} {g : Segment} {n : Nat} (hb : g.body = .dwell n) : progressOk v g ↔ 1 ≤ v.dwellLeft := by
  unfold progressOk; rw [hb]

theorem progressOk_home {v : Lane} {g : Segment} {a : AxisId} {limit : Nat} {preset : Int} (hb : g.body = .home a limit preset) :
    progressOk v g ↔ ∀ h, v.homing = some h →
      if h.limitReached then h.phase ≠ .notChosen ∧ v.stepCount = limit else v.stepCount < limit := by
  unfold progressOk; rw [hb]

theorem Lane.Steady.stepped {v : Lane} {g : Segment} {entries : List (AxisId × Int)} {i1 n : Nat}
    (hs : v.state = .running ∨ v.state = .stopping) (ha : v.active = some g) (hb : g.body = .move entries i1 n)
    (ramp : Option StopRamp) (interval : Nat) (hr : ramp.isSome = v.ramp.isSome)
    (hp : v.stepCount < n → rampOk v.ramp n v.stepCount → v.stepCount + 1 < n ∧ rampOk ramp n (v.stepCount + 1)) :
    v.Steady (v.stepped entries n ramp interval) where
  queue := rfl
  state := rfl
  started := rfl
  halt := rfl
  unmet := rfl
  settle := rfl
  timer _ := by rcases hs with e | e <;> rw [e] <;> trivial
  homing := rfl
  phase h' e := ⟨h', e, Iff.rfl⟩
  ramp := hr
  progress g' hg hc h := by
    rw [ha] at hg; cases hg
    obtain ⟨-, -, hc⟩ := hc
    rw [hb] at hc
    obtain ⟨hn, hpos, -⟩ := hc
    rw [progressOk_move hb] at h ⊢
    obtain ⟨h1, h2, h3⟩ := h
    obtain ⟨h1, h3⟩ := hp h1 h3
    refine ⟨h1, fun a => ?_, h3⟩
    change (v.accumulators.mapWith _).get a = _
    rw [PerAxis.get_mapWith, h2 a]
    exact accumulate_accumulatorAfter hpos (by rw [hn]; exact countOf_le entries a)

theorem takeMoveStep_alike (l : LaneId) (entries : List (AxisId × Int)) (n : Nat) (s : State) :
    ActsAlike l s (takeMoveStep l entries n s) := by
  have hl := takeMoveStep_lane l entries n s
  refine ⟨by rw [hl, if_pos rfl], by rw [hl, if_pos rfl], by rw [hl, if_neg (otherLane_ne l)], rfl, rfl, rfl, fun a => ?_⟩
  rw [takeMoveStep_axis, ← takeStep_eq_oneStep]
  split <;> simp

theorem ActsAlike.beside {l : LaneId} {s t : State} (h : ActsAlike l s t) : Beside l s t :=
  ⟨h.other, h.sync, h.lines, fun a => (h.axis a).1⟩

theorem startInterval_beside (l : LaneId) (n : Nat) (b : Bool) (s : State) : Beside l s (startInterval l n b s) := .setLane ..

theorem removeActive_beside (l : LaneId) (home : Option HomeResult) (s : State) : Beside l s (removeActive l home s) := by
  unfold removeActive; dsimp only
  split
  · exact .refl l s
  split
  · exact .trans (.setLane ..) ⟨rfl, rfl, rfl, fun _ => rfl⟩
  · exact .setLane ..

theorem removeActive_state (l : LaneId) (home : Option HomeResult) (s : State) :
    ((removeActive l home s).lane l).state = (s.lane l).state := by
  cases hq : (s.lane l).queue with
  | nil => unfold removeActive; rw [hq]
  | cons g rest => rw [removeActive_eq home hq, State.lane, PerLane.get_set_self]; rfl

section
variable {s : State} (law : LaneLaw s) {l : LaneId} {g : Segment} {rest : List Segment}
include law

/-- A step event of a RUNNING MOVE (R34, R35). -/
theorem LanesMove.runMoveStep {entries : List (AxisId × Int)} {i1 n : Nat} (hs : (s.lane l).state = .running)
    (hq : (s.lane l).queue = g :: rest) (hb : g.body = .move entries i1 n) (i0 : Nat) :
    LanesMove s (runMoveStep l entries i0 i1 n s) := by
  have alike := takeMoveStep_alike l entries n s
  have hl := (takeMoveStep_lane l entries n s l).trans (if_pos rfl)
  unfold Machine.runMoveStep
  split
  · exact .halt_self law l _
  · dsimp only
    split
    · exact .complete law none true alike (.inl hs) hq (by rw [hl]; exact hq) (by rw [hl])
    · rename_i hk
      rw [hl] at hk; dsimp only at hk
      have hramp : (s.lane l).ramp = none := by
        have := (law.lanes l).rampIff
        rw [hs] at this
        exact Option.not_isSome_iff_eq_none.1 fun k => absurd (this.1 k) (by decide)
      have e : (startInterval l (rampInterval i0 i1 n (((takeMoveStep l entries n s).lane l).stepCount + 1)) true
          (takeMoveStep l entries n s)).lane l = (s.lane l).stepped entries n (s.lane l).ramp
            (rampInterval i0 i1 n (((takeMoveStep l entries n s).lane l).stepCount + 1)) := by
        rw [startInterval_lane, hl]; rfl
      refine .of_steady law (alike.beside.trans (startInterval_beside ..)) ?_ (by rw [e]; rfl)
      rw [e]
      exact .stepped (.inl hs) (by simp [Lane.active, hs, hq]) hb _ _ rfl
        fun _ _ => ⟨by omega, fun r _ k => by rw [hramp] at k; cases k⟩

/-- The step events of a controlled stop that start another interval, its ramp as `ramp` (R89, R91). -/
theorem LanesMove.stopInterval {entries : List (AxisId × Int)} {i1 n : Nat} (hs : (s.lane l).state = .stopping)
    (hq : (s.lane l).queue = g :: rest) (hb : g.body = .move entries i1 n) {r : StopRamp} (hr : (s.lane l).ramp = some r)
    (r' : StopRamp) (m : Nat)
    (hp : (s.lane l).stepCount < n → rampOk (some r) n (s.lane l).stepCount →
      (s.lane l).stepCount + 1 < n ∧ rampOk (some r') n ((s.lane l).stepCount + 1)) :
    LanesMove s (startInterval l m true ((takeMoveStep l entries n s).setLane l
      { (takeMoveStep l entries n s).lane l with ramp := some r' })) := by
  have e : (startInterval l m true ((takeMoveStep l entries n s).setLane l
      { (takeMoveStep l entries n s).lane l with ramp := some r' })).lane l = (s.lane l).stepped entries n (some r') m := by
    rw [startInterval_lane, State.lane_setLane_self, takeMoveStep_lane, if_pos rfl]; rfl
  refine .of_steady law (((takeMoveStep_alike l entries n s).beside.trans (.setLane ..)).trans (startInterval_beside ..)) ?_
    (by rw [e]; rfl)
  rw [e]
  exact .stepped (.inr hs) (by simp [Lane.active, hs, hq]) hb _ _ (by rw [hr]; rfl) (by rw [hr]; exact hp)

/-- The in-progress step event of a controlled stop (R89). -/
theorem LanesMove.runInProgressStep {entries : List (AxisId × Int)} {i1 n : Nat} (hs : (s.lane l).state = .stopping)
    (hq : (s.lane l).queue = g :: rest) (hb : g.body = .move entries i1 n) {r : StopRamp} (hr : (s.lane l).ramp = some r) :
    LanesMove s (runInProgressStep l entries n r s) := by
  have b := (takeMoveStep_alike l entries n s).beside
  have hl := (takeMoveStep_lane l entries n s l).trans (if_pos rfl)
  have hst : ((takeMoveStep l entries n s).lane l).state = .stopping := by rw [hl]; exact hs
  unfold Machine.runInProgressStep
  split
  · exact .halt_self law l _
  · dsimp only
    split
    · exact .reachStopEnd law (b.trans (removeActive_beside ..)) _ (by rw [removeActive_state, hst]; decide)
    split
    · exact .reachStopEnd law b _ (by rw [hst]; decide)
    · rename_i h1 h2
      refine .stopInterval law hs hq hb hr _ _ fun _ _ => ?_
      rw [hl] at h1 h2 ⊢
      dsimp only at h1 h2 ⊢
      refine ⟨by omega, fun r' steps e e' => ?_⟩
      cases e; cases e'
      dsimp only
      omega

/-- A step event of the ramp of a controlled stop (R91). -/
theorem LanesMove.runStopStep {entries : List (AxisId × Int)} {i1 n : Nat} (hs : (s.lane l).state = .stopping)
    (hq : (s.lane l).queue = g :: rest) (hb : g.body = .move entries i1 n) {r : StopRamp} (hr : (s.lane l).ramp = some r)
    {steps : Nat} (hsteps : r.steps = some steps) : LanesMove s (runStopStep l entries n r steps s) := by
  have b := (takeMoveStep_alike l entries n s).beside
  have hl := (takeMoveStep_lane l entries n s l).trans (if_pos rfl)
  have hst : ((takeMoveStep l entries n s).lane l).state = .stopping := by rw [hl]; exact hs
  unfold Machine.runStopStep
  split
  · exact .halt_self law l _
  · dsimp only
    split
    · split
      · exact .reachStopEnd law (b.trans (removeActive_beside ..)) _ (by rw [removeActive_state, hst]; decide)
      · exact .reachStopEnd law b _ (by rw [hst]; decide)
    · rename_i hj
      refine .stopInterval law hs hq hb hr _ _ fun _ h => ?_
      obtain ⟨h1, h2⟩ := h r steps rfl hsteps
      refine ⟨by omega, fun r' steps' e e' => ?_⟩
      cases e
      dsimp only at e'
      rw [hsteps] at e'; cases e'
      dsimp only
      omega

/-- The expiry of a dwell interval (R38). -/
theorem LanesMove.runDwell {n : Nat} (hs : (s.lane l).state = .running) (hq : (s.lane l).queue = g :: rest)
    (hb : g.body = .dwell n) (i0 : Nat) : LanesMove s (runDwell l i0 s) := by
  unfold Machine.runDwell; dsimp only
  split
  · exact .complete law none true ⟨rfl, rfl, rfl, rfl, rfl, rfl, fun _ => ⟨rfl, rfl⟩⟩ (.inl hs) hq hq rfl
  · rename_i hleft
    have e : (startInterval l i0 true (s.setLane l { s.lane l with dwellLeft := (s.lane l).dwellLeft - 1 })).lane l =
        { s.lane l with dwellLeft := (s.lane l).dwellLeft - 1, stepTimer := .counting i0 true, interval := i0 } := by
      rw [startInterval_lane, State.lane_setLane_self]
    refine .of_steady law ((Beside.setLane ..).trans (startInterval_beside ..)) ?_ (by rw [e])
    rw [e]
    refine ⟨rfl, rfl, rfl, rfl, rfl, rfl, fun _ => by rw [hs]; trivial, rfl, fun h' k => ⟨h', k, Iff.rfl⟩, rfl, fun g' hg _ _ => ?_⟩
    obtain rfl : g = g' := by simpa [Lane.active, hs, hq] using hg
    exact (progressOk_dwell hb).2 (Nat.one_le_iff_ne_zero.2 hleft)

/-- A homing step event (R108). -/
theorem LanesMove.runHomingStep {a : AxisId} {limit : Nat} {preset : Int} {h : HomingRun} (hs : (s.lane l).state = .running)
    (hq : (s.lane l).queue = g :: rest) (hb : g.body = .home a limit preset) (hh : (s.lane l).homing = some h)
    (hno : h.limitReached = false) (hph : h.phase ≠ .notChosen) (i0 : Nat) : LanesMove s (runHomingStep l a limit i0 h s) := by
  unfold Machine.runHomingStep; dsimp only
  split
  · exact .halt_self law l _
  · generalize hw : ({ s.lane l with
      stepCount := (s.lane l).stepCount + 1
      homing := some { h with limitReached := limit ≤ (s.lane l).stepCount + 1 } } : Lane) = w
    have hx : Beside l s (s.setAxis a ((s.axis a).takeStep s.patterns (homeForward (s.axis a) h.phase))) := by
      refine ⟨rfl, rfl, rfl, fun b => ?_⟩
      rw [State.axis_setAxis]; split
      · rename_i k; rw [k]; simp
      · rfl
    refine .of_steady law (hx.trans ((Beside.setLane ..).trans (startInterval_beside ..))) ?_ ?_
    all_goals rw [startInterval_lane, State.lane_setLane_self, ← hw]
    refine ⟨rfl, rfl, rfl, rfl, rfl, rfl, fun _ => by rw [hs]; trivial, by rw [hh]; rfl, fun h' k => ⟨h, hh, ?_⟩, rfl,
      fun g' hg _ hp => ?_⟩
    · cases k; exact Iff.rfl
    · obtain rfl : g = g' := by simpa [Lane.active, hs, hq] using hg
      have hp := (progressOk_home hb).1 hp h hh
      rw [hno, if_neg (by decide)] at hp
      refine (progressOk_home hb).2 fun h' k => ?_
      cases k
      dsimp only
      split
      · rename_i hl; exact ⟨hph, Nat.le_antisymm hp (of_decide_eq_true hl)⟩
      · rename_i hl; exact Nat.lt_of_not_le fun k => hl (decide_eq_true k)

/-- A home-line event of the lane, from a part `y` in which the line's level has passed (R109 to R111). -/
theorem LanesMove.homeEvent {y : State} (alike : ActsAlike l s y) (hl : y.lane l = s.lane l) (a : AxisId) (active : Bool) :
    LanesMove s (homeEvent l a active y) := by
  have hstill : LanesMove s y := .of_lane law alike.beside (by rw [hl, alike.hold]; exact .refl)
  unfold Machine.homeEvent; dsimp only
  split
  · rename_i hs
    rw [hl] at hs
    have hs : (s.lane l).state = .running ∨ (s.lane l).state = .held := by simpa using hs
    split
    · rename_i b limit preset h hbody hhom
      rw [hl] at hbody hhom
      obtain ⟨g, hg, hb⟩ := Option.map_eq_some_iff.1 hbody
      obtain ⟨rest, hq⟩ : ∃ rest, (s.lane l).queue = g :: rest := List.head?_eq_some_iff.1 hg
      split
      · split
        · rename_i hph
          refine .of_steady law (alike.beside.trans (.setLane ..)) ?_ (by rw [State.lane_setLane_self, hl])
          rw [State.lane_setLane_self, hl]
          refine ⟨rfl, rfl, rfl, rfl, rfl, rfl, id, by rw [hhom]; rfl, fun h' k => ⟨h, hhom, ?_⟩, rfl, fun g' hg' _ hp => ?_⟩
          · cases k; simp [hph]
          · obtain rfl : g = g' := by rcases hs with e | e <;> simpa [Lane.active, e, hq] using hg'
            have hp := (progressOk_home hb).1 hp h hhom
            refine (progressOk_home hb).2 fun h' k => ?_
            cases k
            dsimp only
            split at hp
            · rename_i hr; rw [if_pos hr]; exact ⟨by decide, hp.2⟩
            · rename_i hr; rw [if_neg hr]; exact hp
        · unfold detectHome; dsimp only
          split
          · refine .complete law _ _ ⟨alike.softHold, alike.settings, alike.other, alike.sync, alike.lines, alike.time, fun c => ?_⟩
              hs hq (by rw [State.setAxis_lane, hl]; exact hq) (by rw [State.setAxis_lane, hl])
            rw [State.axis_setAxis]; split
            · rename_i k; rw [k]; exact alike.axis a
            · exact alike.axis c
          · exact .halt law alike.beside _ (by rw [hl]; rcases hs with e | e <;> rw [e] <;> decide)
        · exact hstill
      · exact hstill
    · exact hstill
  · exact hstill

end

end Sys2Proof.Machine
end

