-- ==== Sys2Proof/Proofs/EventMoves.lean ====
section
/-! PROOF. Holds, input lines, timers, silence, the passing of time and device resets as changes of the lanes. -/

namespace Sys2Proof.Machine

open Sys2Proof

/-- A lane in IDLE or HALTED that keeps its law rests (R2, R11). -/
theorem LaneOk.resting {v : Lane} (ok : LaneOk v) (h : v.state = .idle ∨ v.state = .halted) : v.Resting := by
  obtain ⟨hempty, -, hstart, hhalt, hunmet, hsettle, hramp, -, htimer, hhom, -⟩ := ok
  have hu : v.unmet = Unmet.empty := by
    refine Classical.byContradiction fun k => ?_; have := hunmet.1 k; rcases h with e | e <;> rw [e] at this <;> cases this
  have isNone : ∀ {α : Type} {o : Option α}, o.isSome = false → o = none := fun k => Option.not_isSome_iff_eq_none.1 (by simp [k])
  exact {
    queue := hempty.2 h
    state := h
    started := by rw [hstart]; rcases h with e | e <;> simp [Lane.busy, e]
    halt := hhalt
    unmet := hu
    settle := isNone (by rw [hsettle, hu]; rfl)
    timer := by
      cases e : v.stepTimer with
      | stopped => rfl
      | counting | frozen => rcases h with k | k <;> rw [e, k] at htimer <;> cases htimer
    homing := isNone (by rw [hhom]; rcases h with e | e <;> simp [Lane.active, e])
    ramp := isNone (by rcases h with e | e <;> simpa [e] using hramp) }

/-- A HALTED lane that is cleared rests in IDLE (R98). -/
theorem Lane.Resting.cleared {v : Lane} (h : v.Resting) : ({ v with state := .idle, halt := none } : Lane).Resting :=
  ⟨h.queue, .inl rfl, h.started, by simp, h.unmet, h.settle, h.timer, h.homing, h.ramp⟩

/-- The hold of a lane reads a line by its part in it alone (R71, R72). -/
theorem holdAsserted_setLine {s : State} {n : TrgId} {x : TrgLine} (l : LaneId) (h : x.holds l = (s.line n).holds l) :
    (s.setLine n x).holdAsserted l = s.holdAsserted l := by
  have : ∀ m, ((s.setLine n x).line m).holds l = (s.line m).holds l := fun m => by
    rw [State.line_setLine]; split
    · rename_i e; rw [e, h]
    · rfl
  simp only [State.holdAsserted, State.setLine_lane, this]

section
variable {s : State} (law : LaneLaw s)
include law

/-! ### Holds (R39, R40, R70 to R72) -/

theorem LanesMove.takeSoftHold (l : LaneId) (b : Bool) : LanesMove s (takeSoftHold l b s) := by
  unfold Machine.takeSoftHold
  rw [applyHold_eq, State.setLane_setLane, State.lane_setLane_self]
  generalize hh : (s.setLane l { s.lane l with softHold := b }).holdAsserted l = held
  generalize (s.setLane l { s.lane l with softHold := b }).onTick = onTick
  refine .of_lane law (.setLane ..) ?_
  have : (s.setLane l ({ s.lane l with softHold := b }.underHold held onTick)).holdAsserted l = held := by
    rw [← hh]; exact holdAsserted_congr l (by simp [Lane.underHold_softHold]) rfl
  rw [this, State.lane_setLane_self]
  exact .holds b onTick

/-- Every lane is left to its hold, as the lines then give it (R72, R121). -/
theorem LanesMove.applyHolds (n : TrgId) (x : TrgLine) : LanesMove s (applyHolds (s.setLine n x)) := by
  have hl : ∀ l, (Machine.applyHolds (s.setLine n x)).lane l =
      (s.lane l).underHold ((s.setLine n x).holdAsserted l) s.onTick := fun l => by rw [applyHolds_eq]; cases l <;> rfl
  have hh : ∀ l, (Machine.applyHolds (s.setLine n x)).holdAsserted l = (s.setLine n x).holdAsserted l := fun l =>
    holdAsserted_congr l (by rw [hl]; exact Lane.underHold_softHold ..) (by rw [applyHolds_eq])
  refine ⟨fun l => ?_, by rw [applyHolds_eq]; exact law.oneEntry, fun a l _ k => by rw [applyHolds_eq]; exact k⟩
  rw [hl, hh, show (Machine.applyHolds (s.setLine n x)).sync = s.sync by rw [applyHolds_eq]; rfl]
  exact .holds (s.lane l).softHold s.onTick

/-! ### Trigger lines (R67, R82, R119) -/

/-- A change of a filtered trigger level as a change of one lane, which keeps its soft hold. -/
theorem LaneChange.of_lineActs {n : TrgId} {x : TrgLine} {held : LaneId → Bool} {t : State} (acts : LineActs n x held s t)
    (l : LaneId) :
    LaneChange s l (held l) (t.lane l) (t.sync.get l) ∧ (t.lane l).softHold = (s.lane l).softHold := by
  have gets : t.sync = ⟨none, none⟩ → ∀ m, t.sync.get m = none := fun h m => by rw [h]; cases m <;> rfl
  have kept : ∀ m, t.sync.get m = s.sync.get m → t.lane m = (s.lane m).underHold (held m) s.onTick →
      LaneChange s m (held m) (t.lane m) (t.sync.get m) ∧ (t.lane m).softHold = (s.lane m).softHold := fun m hs hl => by
    rw [hl, hs]; exact ⟨.holds (s.lane m).softHold s.onTick, Lane.underHold_softHold ..⟩
  have ended : ∀ {m h}, t.sync = ⟨none, none⟩ → t.lane m = (s.lane m).ended h →
      LaneChange s m (held m) (t.lane m) (t.sync.get m) ∧ (t.lane m).softHold = (s.lane m).softHold := fun hs hl => by
    rw [hl, gets hs]; exact ⟨.rests (Lane.ended_resting ..), rfl⟩
  have others : x.role = .off ∨ x.role = .hold ∨ x.edgeAccepted = false ∨ (x.role = .halt ∧ x.mask = .none) →
      LaneChange s l (held l) (t.lane l) (t.sync.get l) ∧ (t.lane l).softHold = (s.lane l).softHold := fun h => by
    obtain ⟨-, hs, hl⟩ := acts.others h
    exact kept l (by rw [hs]) (hl l)
  have halts : ∀ m : LaneId, x.role = .halt → x.edgeAccepted = true → x.mask = (match m with
        | .L0 => .l0
        | .L1 => .l1) →
      LaneChange s l (held l) (t.lane l) (t.sync.get l) ∧ (t.lane l).softHold = (s.lane l).softHold := fun m h1 h2 h3 => by
    obtain ⟨-, hhalted, hother⟩ := acts.haltsOne m h1 h2 h3
    by_cases hm : (s.lane m).state = .halted
    · obtain ⟨hs, hl⟩ := hhalted hm
      exact kept l (by rw [hs]) (hl l)
    · obtain ⟨hs, hl, ho⟩ := hother hm
      rcases eq_or_eq_otherLane m l with rfl | rfl
      · exact ended hs hl
      · split at ho
        · rename_i hn; exact kept _ (by rw [gets hs, hn]) ho
        · exact ended hs ho
  cases hac : x.edgeAccepted with
  | false => exact others (.inr (.inr (.inl hac)))
  | true =>
    cases hro : x.role with
    | off => exact others (.inl hro)
    | hold => exact others (.inr (.inl hro))
    | start =>
      obtain ⟨hs, hl, -⟩ := acts.start hro hac
      obtain ⟨hidle, hstays, hleaves⟩ := hl l
      by_cases hw : waitsOn s l n
      · obtain ⟨hst, -⟩ := id hw
        by_cases hu : (s.lane l).unmet.settle = true ∨ (s.lane l).unmet.sync = true
        · rw [hstays hw hu, hs]
          refine ⟨.waits hst (fun k => ?_) (law.lanes l).settleIff (law.entryIff l), rfl⟩
          rcases hu with hu | hu
          · exact absurd (hu.symm.trans (show (s.lane l).unmet.settle = false from congrArg Unmet.settle k)) (by decide)
          · exact absurd (hu.symm.trans (show (s.lane l).unmet.sync = false from congrArg Unmet.sync k)) (by decide)
        · obtain ⟨g, rest, hq⟩ := List.exists_cons_of_ne_nil
            (law.queue_ne_nil (l := l) (by rw [hst]; decide) (by rw [hst]; decide))
          have hsync : (s.lane l).unmet.sync = false := Bool.eq_false_iff.2 fun k => hu (.inr k)
          rw [hleaves g ⟨hw, Bool.eq_false_iff.2 fun k => hu (.inl k), hsync, by rw [hq]; rfl⟩, hs]
          have he := law.entryIff l
          rw [hsync] at he
          rw [show s.sync.get l = none from Option.not_isSome_iff_eq_none.1 (by rw [he]; decide)]
          exact ⟨.leaves hst hq, rfl⟩
      · exact kept l (by rw [hs]) (hidle hw)
    | halt =>
      cases hm : x.mask with
      | none => exact others (.inr (.inr (.inr ⟨hro, hm⟩)))
      | l0 => exact halts .L0 hro hac hm
      | l1 => exact halts .L1 hro hac hm
      | both =>
        obtain ⟨-, hs, hl⟩ := acts.haltsBoth hro hac hm
        by_cases hh : (s.lane l).state = .halted
        · rw [hl, if_pos hh, gets hs]
          exact ⟨.rests ((law.lanes l).resting (.inr hh)), rfl⟩
        · exact ended hs (by rw [hl, if_neg hh])

theorem LanesMove.of_lineActs {n : TrgId} {x : TrgLine} {c t : State} (acts : LineActs n x c.holdAsserted s t)
    (hl : c.lanes = s.lanes) (hn : t.lines = c.lines) (ha : ∀ a, (t.axis a).owner = (s.axis a).owner) : LanesMove s t := by
  have hc := fun l => LaneChange.of_lineActs law acts l
  have hh : ∀ l, t.holdAsserted l = c.holdAsserted l := fun l =>
    holdAsserted_congr l (by rw [(hc l).2]; simp only [State.lane, hl]) hn
  refine ⟨fun l => by rw [hh]; exact (hc l).1, ?_, fun a l _ k => by rw [ha]; exact k⟩
  have none' : t.sync = ⟨none, none⟩ → t.sync.get .L0 = none ∨ t.sync.get .L1 = none := fun h => by rw [h]; exact .inl rfl
  have same : t.sync = s.sync → t.sync.get .L0 = none ∨ t.sync.get .L1 = none := fun h => by rw [h]; exact law.oneEntry
  have others := fun h => same (acts.others h).2.1
  have halts : ∀ m : LaneId, x.role = .halt → x.edgeAccepted = true → x.mask = (match m with
        | .L0 => .l0
        | .L1 => .l1) → t.sync.get .L0 = none ∨ t.sync.get .L1 = none := fun m h1 h2 h3 => by
    obtain ⟨-, hhalted, hother⟩ := acts.haltsOne m h1 h2 h3
    by_cases hm : (s.lane m).state = .halted
    · exact same (hhalted hm).1
    · exact none' (hother hm).1
  cases hac : x.edgeAccepted with
  | false => exact others (.inr (.inr (.inl hac)))
  | true =>
    cases hro : x.role with
    | off => exact others (.inl hro)
    | hold => exact others (.inr (.inl hro))
    | start => exact same (acts.start hro hac).1
    | halt =>
      cases hm : x.mask with
      | none => exact others (.inr (.inr (.inr ⟨hro, hm⟩)))
      | l0 => exact halts .L0 hro hac hm
      | l1 => exact halts .L1 hro hac hm
      | both => exact none' (acts.haltsBoth hro hac hm).2.1

omit law in
/-- The filtered change of a trigger line up to what it does to the lanes: the level has passed and the capture is made. -/
theorem passTriggerFilter_setLine (s : State) (n : TrgId) (x : TrgLine) :
    ∃ c, passTriggerFilter n (s.setLine n x) = roleEffect n x.edgeAccepted c ∧ c.lanes = s.lanes ∧ c.sync = s.sync ∧
      c.axes = s.axes ∧ c.time = s.time ∧ c.lines = s.lines.set n { x with input := ⟨x.input.raw, x.input.raw, none⟩ } := by
  rw [passTriggerFilter_eq]
  dsimp only
  rw [State.line_setLine_self, edgeAccepted_eq]
  refine ⟨_, rfl, ?_⟩
  rw [captureIf_frame]
  exact ⟨rfl, rfl, rfl, rfl, PerTrg.set_set ..⟩

/-- A change of the filtered level of line `n` under the record `x`, the holds of both lanes taking effect after it; or, where the
record has its old role, not (R119, R121). -/
theorem LanesMove.passTriggerFilter (n : TrgId) (x : TrgLine) :
    LanesMove s (Machine.applyHolds (passTriggerFilter n (s.setLine n x))) ∧
      (x.role = (s.line n).role → LanesMove s (passTriggerFilter n (s.setLine n x))) := by
  obtain ⟨c, e, hl, hs, ha, ht, hn⟩ := passTriggerFilter_setLine s n x
  rw [e]
  have hc : c.line n = { x with input := ⟨x.input.raw, x.input.raw, none⟩ } := by
    simp only [State.line, hn, PerTrg.get_set_self]
  have owner : ∀ a, ((roleEffect n x.edgeAccepted c).axis a).owner = (s.axis a).owner := fun a => by
    rw [(roleEffect_energises n _ c).owner, State.axis, ha]; rfl
  have lines := (roleEffect_frame n x.edgeAccepted c).lines
  obtain ⟨⟨h1, -⟩, h2⟩ := roleEffect_acts (x := x) law hl hs ha ht (by rw [hc]) (by rw [hc])
  refine ⟨.of_lineActs law h1 hl ?_ ?_, fun hr => ?_⟩
  · rw [applyHolds_eq]; exact lines
  · rw [applyHolds_eq]; exact owner
  · refine .of_lineActs law (h2 fun hx l => ?_).1 hl lines owner
    have hset : (s.setLine n { x with input := ⟨x.input.raw, x.input.raw, none⟩ }).holdAsserted l = s.holdAsserted l :=
      holdAsserted_setLine l (by simp [TrgLine.holds, ← hr, hx])
    rw [← hset]
    exact holdAsserted_congr l (by simp only [State.lane, hl]; rfl) hn

/-! ### Silence (R99, R100) and STOP-LANE (R86 to R88) -/

omit law in
/-- A stop or a halt of a RUNNING lane is a controlled stop of a MOVE, and else immediate (R86, R99). -/
theorem running_move_or_not (v : Lane) :
    (∃ g rest, v.queue = g :: rest ∧ g.kind = .move ∧ ∃ entries i1 n, v.queue.head?.map Segment.body = some (.move entries i1 n)) ∨
    ∀ entries i1 n, v.queue.head?.map Segment.body ≠ some (.move entries i1 n) := by
  cases hq : v.queue with
  | nil => exact .inr fun _ _ _ => by simp
  | cons g rest =>
    cases hb : g.body with
    | move entries i1 n => exact .inl ⟨g, rest, rfl, by simp [Segment.kind, hb], entries, i1, n, by simp [hb]⟩
    | dwell n => exact .inr fun _ _ _ => by simp [hb]
    | home a limit preset => exact .inr fun _ _ _ => by simp [hb]

/-- What STOP-LANE does to a lane (R86 to R88). -/
theorem LanesMove.stopLaneEffect (l : LaneId) : LanesMove s (stopLaneEffect l s) := by
  unfold Machine.stopLaneEffect; dsimp only
  split
  · exact .endLane (.refl l s) _
  · exact .endLane (.refl l s) _
  · exact .endLane (.refl l s) _
  · rename_i hs
    rcases running_move_or_not (s.lane l) with ⟨g, rest, hq, hk, entries, i1, n, hb⟩ | hb
    · rw [hb]
      exact .of_lane law (.setLane ..) (.beginStop .idle rfl hs hq hk _)
    · split
      · rename_i h; exact absurd h (hb _ _ _)
      · exact .endLane (.refl l s) _
  all_goals exact .refl law

omit law in
/-- What silence does to a lane, seen from a part `u` in which it stands as in `s` (R99, R100). -/
theorem LaneChange.silenceLane {l : LaneId} {u : State} (hu : u.lane l = s.lane l) (hs : u.sync.get l = s.sync.get l) :
    LaneChange s l (s.holdAsserted l) ((silenceLane l u).lane l) ((silenceLane l u).sync.get l) := by
  have halted : LaneChange s l (s.holdAsserted l) ((haltOnly l ⟨.silence, none⟩ u).lane l)
      ((haltOnly l ⟨.silence, none⟩ u).sync.get l) := by
    by_cases h : (u.lane l).state = .halted
    · rw [haltOnly_of_halted _ h, hu, hs]; exact .refl
    · rw [haltOnly_eq _ h, endLane_lane, endLane_sync, if_pos rfl, if_pos rfl]; exact .rests (Lane.ended_resting ..)
  have still : LaneChange s l (s.holdAsserted l) (u.lane l) (u.sync.get l) := by rw [hu, hs]; exact .refl
  unfold Machine.silenceLane; dsimp only
  cases hst : (u.lane l).state with
  | ready => exact halted
  | waiting => exact halted
  | held => exact halted
  | idle => exact still
  | halted => exact still
  | running =>
    dsimp only
    rcases running_move_or_not (u.lane l) with ⟨g, rest, hq, hk, entries, i1, n, hb⟩ | hb
    · rw [hb]
      dsimp only
      rw [show (Machine.beginStop l .haltedSilence u).sync.get l = s.sync.get l from hs]
      exact .beginStop .haltedSilence hu (by rw [← hu]; exact hst) (by rw [← hu]; exact hq) hk _
    · split
      · rename_i h; exact absurd h (hb _ _ _)
      · exact halted
  | stopping =>
    dsimp only
    rw [State.lane_setLane_self, State.setLane_sync, hs, hu]
    refine .steady ⟨rfl, by rw [← hu, hst], rfl, rfl, rfl, rfl, id, rfl, fun h' k => ⟨h', k, Iff.rfl⟩, by simp, fun g hg _ hp => ?_⟩
      rfl rfl
    cases hb : g.body with
    | move entries i1 n =>
      obtain ⟨h1, h2, h3⟩ := (progressOk_move hb).1 hp
      refine (progressOk_move hb).2 ⟨h1, h2, fun r steps e e' => ?_⟩
      obtain ⟨r0, hr0, rfl⟩ := Option.map_eq_some_iff.1 e
      exact h3 r0 steps hr0 e'
    | dwell n => exact (progressOk_dwell hb).2 ((progressOk_dwell (v := s.lane l) hb).1 hp)
    | home a limit preset => exact (progressOk_home hb).2 ((progressOk_home (v := s.lane l) hb).1 hp)

omit law in
/-- Silence reaches its own lane alone. -/
theorem silenceLane_frame (l : LaneId) (u : State) : LaneFrame u (silenceLane l u) ∧
    (silenceLane l u).lane (otherLane l) = u.lane (otherLane l) ∧
    (silenceLane l u).sync.get (otherLane l) = u.sync.get (otherLane l) ∧ (silenceLane l u).axes = u.axes ∧
    ((silenceLane l u).lane l).softHold = (u.lane l).softHold ∧ (u.sync.get l = none → (silenceLane l u).sync.get l = none) := by
  have halted : ∀ h, LaneFrame u (haltOnly l h u) ∧ (haltOnly l h u).lane (otherLane l) = u.lane (otherLane l) ∧
      (haltOnly l h u).sync.get (otherLane l) = u.sync.get (otherLane l) ∧ (haltOnly l h u).axes = u.axes ∧
      ((haltOnly l h u).lane l).softHold = (u.lane l).softHold ∧ (u.sync.get l = none → (haltOnly l h u).sync.get l = none) := by
    intro h
    refine ⟨haltOnly_frame .., ?_, ?_, haltOnly_axes .., ?_, ?_⟩
    · rw [haltOnly_lane, if_neg fun k => otherLane_ne l k.1]
    · by_cases hs : (u.lane l).state = .halted
      · rw [haltOnly_of_halted _ hs]
      · rw [haltOnly_eq _ hs]; simp [endLane_sync]
    · by_cases hs : (u.lane l).state = .halted
      · rw [haltOnly_of_halted _ hs]
      · rw [haltOnly_eq _ hs]; simp [endLane_lane, Lane.ended]
    · intro k
      by_cases hs : (u.lane l).state = .halted
      · rw [haltOnly_of_halted _ hs]; exact k
      · rw [haltOnly_eq _ hs]; simp [endLane_sync]
  have set : ∀ v : Lane, v.softHold = (u.lane l).softHold → LaneFrame u (u.setLane l v) ∧
      (u.setLane l v).lane (otherLane l) = u.lane (otherLane l) ∧
      (u.setLane l v).sync.get (otherLane l) = u.sync.get (otherLane l) ∧ (u.setLane l v).axes = u.axes ∧
      ((u.setLane l v).lane l).softHold = (u.lane l).softHold ∧ (u.sync.get l = none → (u.setLane l v).sync.get l = none) :=
    fun v h => ⟨.setLane .., State.lane_setLane_of_ne _ _ (otherLane_ne l), rfl, rfl, by rw [State.lane_setLane_self, h], id⟩
  unfold silenceLane; dsimp only
  split
  · exact halted _
  · exact halted _
  · exact halted _
  · split
    · exact set _ rfl
    · exact halted _
  · exact set _ rfl
  all_goals exact ⟨.refl u, rfl, rfl, rfl, rfl, id⟩

theorem LanesMove.silence (k : MsTimer) : LanesMove s
    (silenceLane .L1 (silenceLane .L0 { s with link := { s.link with silenceTimer := k } })) := by
  obtain ⟨f0, o0, e0, a0, h0, n0⟩ := silenceLane_frame .L0 { s with link := { s.link with silenceTimer := k } }
  have c0 := LaneChange.silenceLane (s := s) (l := .L0) (u := { s with link := { s.link with silenceTimer := k } }) rfl rfl
  generalize Machine.silenceLane .L0 { s with link := { s.link with silenceTimer := k } } = u at *
  obtain ⟨f1, o1, e1, a1, h1, n1⟩ := silenceLane_frame .L1 u
  have c1 := LaneChange.silenceLane (s := s) (l := .L1) (u := u) o0 e0
  generalize Machine.silenceLane .L1 u = t at *
  have lines : t.lines = s.lines := f1.lines.trans f0.lines
  have hold0 : t.holdAsserted .L0 = s.holdAsserted .L0 := holdAsserted_congr _ ((congrArg Lane.softHold o1).trans h0) lines
  have hold1 : t.holdAsserted .L1 = s.holdAsserted .L1 := holdAsserted_congr _ (h1.trans (congrArg Lane.softHold o0)) lines
  refine .of_lanes .L0 ?_ ?_ ?_ fun a => by simp only [State.axis, a1, a0]
  · rw [hold0, show t.lane .L0 = u.lane .L0 from o1, show t.sync.get .L0 = u.sync.get .L0 from e1]; exact c0
  · exact hold1 ▸ c1
  · rcases law.oneEntry with h | h
    · exact .inl (e1.trans (n0 h))
    · exact .inr (n1 (e0.trans h))

/-! ### The timers of a waiting lane (R66, R79) -/

theorem LanesMove.settleExpiry {l : LaneId} (atTick : Bool) (h : (s.lane l).settleTimer.isSome = true) :
    LanesMove s (Machine.leaveIfMet l atTick (s.setLane l { s.lane l with
      settleTimer := none, unmet := { (s.lane l).unmet with settle := false } })) := by
  have hw : (s.lane l).state = .waiting := law.waiting_of_unmet fun k => by
    have := (law.lanes l).settleIff; rw [h, k] at this; cases this
  exact .leaveIfMet law atTick hw rfl rfl

omit law in
/-- The lane's own entry is withdrawn by its end anyway (R78). -/
theorem halt_setSync {l : LaneId} {s : State} (h : HaltInfo) (hs : (s.lane l).state ≠ .halted) :
    halt l h (s.setSync l none) = halt l h s := by
  have e : endLane l (some h) (s.setSync l none) = endLane l (some h) s := by
    rw [endLane_eq, endLane_eq]
    simp [State.setSync, stoppedReport, State.lane, State.axis]
  unfold halt
  simp only [State.setSync_lane, if_neg hs, e]

theorem LanesMove.syncTimeout {l : LaneId} (h : HaltInfo) (he : s.sync.get l ≠ none) :
    LanesMove s (Machine.halt l h (s.setSync l none)) := by
  rw [halt_setSync h (by rw [law.waiting_of_entry he]; decide)]
  exact .halt_self law l h

/-! ### The passing of time, and device resets (R26, R124, R188) -/

omit law in
theorem StepTimer.tick_fits {t : StepTimer} {state : LaneState} (h : t.fits state) (tick : Bool) :
    (if tick then t.tick else t).fits state := by
  cases tick with
  | false => exact h
  | true => cases state <;> rcases t with _ | ⟨_, _ | _⟩ | _ <;> trivial

omit law in
theorem countDown_isSome (t : Option Nat) (mark : Bool) : (if mark then countDown t else t).isSome = t.isSome := by
  cases mark <;> cases t <;> rfl

theorem LanesMove.countTime (tick mark : Bool) (k : TimeBase) : LanesMove s (countTime tick mark { s with time := k }) := by
  generalize ht : Machine.countTime tick mark { s with time := k } = t
  have hl : ∀ l, t.lane l = { s.lane l with
      stepTimer := if tick then (s.lane l).stepTimer.tick else (s.lane l).stepTimer
      settleTimer := if mark then countDown (s.lane l).settleTimer else (s.lane l).settleTimer } := fun l => by
    rw [← ht]; cases l <;> rfl
  have hn : ∀ n l, (t.line n).holds l = (s.line n).holds l := fun n l => by rw [← ht]; cases n <;> rfl
  have hh : ∀ l, t.holdAsserted l = s.holdAsserted l := fun l => by
    simp only [State.holdAsserted, hn, hl]
  have hs : ∀ l, (t.sync.get l).isSome = (s.sync.get l).isSome := fun l => by
    rw [← ht]
    change ((if mark = true then s.sync.mapWith (fun _ e => e.map SyncEntry.mark) else s.sync).get l).isSome = _
    cases mark
    · rfl
    · rw [if_pos rfl, PerLane.get_mapWith, Option.isSome_map]
  have none' : ∀ l, s.sync.get l = none → t.sync.get l = none := fun l k =>
    Option.not_isSome_iff_eq_none.1 (by rw [hs, k]; decide)
  refine ⟨fun l => ?_, law.oneEntry.imp (none' _) (none' _), fun a l _ k => by rw [← ht]; cases a <;> exact k⟩
  rw [hl, hh]
  exact .steady (.of_same_progress rfl rfl rfl rfl rfl (countDown_isSome ..) (fun k => StepTimer.tick_fits k tick) rfl rfl rfl rfl rfl)
    rfl (hs l)

theorem LanesMove.advance : LanesMove s (advance s) := by
  unfold Machine.advance
  split
  · exact .still law rfl rfl (fun _ => rfl) fun _ _ _ k => k
  · exact .countTime law _ _ _

omit law in
/-- An event that puts both lanes back to their reset values (R1). -/
theorem LanesMove.of_reset {t : State} (hl : t.lanes = ⟨Lane.atReset, Lane.atReset⟩) (hs : t.sync = ⟨none, none⟩) :
    LanesMove s t := by
  have el : ∀ l, t.lane l = Lane.atReset := fun l => by simp only [State.lane, hl]; cases l <;> rfl
  refine ⟨fun l => ?_, by rw [hs]; exact .inl rfl, fun a l k => absurd (by rw [el]; rfl) k⟩
  rw [el, hs]
  cases l <;> exact .rests Lane.atReset_resting

end

end Sys2Proof.Machine
end

