-- ==== Sys2Proof/Proofs/LaneLaws.lean ====
section
/-! PROOF. Every command and every step as a change of the lanes; and with that the law of the lanes and the laws of the queued
segments, kept by every step. -/

namespace Sys2Proof.Machine

open Sys2Proof

/-! ### The link and the report queue reach no lane -/

/-- Nothing of the lanes, the sync unit, the axes and the lines differs. -/
structure MotionKept (s t : State) : Prop where
  lanes : t.lanes = s.lanes
  sync : t.sync = s.sync
  axes : t.axes = s.axes
  lines : t.lines = s.lines

theorem MotionKept.refl (s : State) : MotionKept s s := ⟨rfl, rfl, rfl, rfl⟩

theorem MotionKept.trans {s t u : State} (h : MotionKept s t) (k : MotionKept t u) : MotionKept s u :=
  ⟨k.lanes.trans h.lanes, k.sync.trans h.sync, k.axes.trans h.axes, k.lines.trans h.lines⟩

theorem MotionKept.beginFrame {s t : State} (h : MotionKept s t) : MotionKept s (beginFrame t) :=
  ⟨by rw [beginFrame_lanes, h.lanes], by rw [beginFrame_sync, h.sync], by rw [beginFrame_axes, h.axes],
    by rw [beginFrame_lines, h.lines]⟩

theorem judgeFrame_kept (len seq kind : Byte) (payload : List Byte) (high low : Byte) (s : State) :
    MotionKept s (judgeFrame len seq kind payload high low s) := by
  unfold judgeFrame; dsimp only
  split
  · split <;> exact ⟨rfl, rfl, rfl, rfl⟩
  · split
    · exact .beginFrame ⟨rfl, rfl, rfl, rfl⟩
    · exact ⟨rfl, rfl, rfl, rfl⟩

theorem receiveByte_kept (b : Byte) (s : State) : MotionKept s (receiveByte b s) := by
  unfold receiveByte
  split
  · split <;> exact ⟨rfl, rfl, rfl, rfl⟩
  · split <;> exact ⟨rfl, rfl, rfl, rfl⟩
  · exact ⟨rfl, rfl, rfl, rfl⟩
  · exact ⟨rfl, rfl, rfl, rfl⟩
  · exact ⟨rfl, rfl, rfl, rfl⟩
  · exact ⟨rfl, rfl, rfl, rfl⟩
  · exact judgeFrame_kept ..

theorem takeRxd_kept (level : Level) (s : State) : MotionKept s (takeRxd level s) := by
  cases level with
  | low => exact ⟨rfl, rfl, rfl, rfl⟩
  | high =>
    unfold takeRxd; dsimp only
    split
    · exact .beginFrame ⟨rfl, rfl, rfl, rfl⟩
    · exact ⟨rfl, rfl, rfl, rfl⟩

/-! ### What QUEUE-SEGMENT accepts -/

/-- The values that the field checks leave a segment record (R4, R6, R7). -/
theorem segmentBody_checked {s : State} {l : LaneId} {p : List Byte} {b : SegmentBody} (h : segmentBody s l p = some b) :
    b.owned s l ∧ b.complete := by
  unfold segmentBody at h; dsimp only at h
  split at h
  · obtain ⟨entries, -, h⟩ := Option.bind_eq_some_iff.1 h
    generalize hlast : (if segmentHasLast p = true then u16At p 7 else u16At p 5) = last at h
    have hle : last ≤ 65535 := by rw [← hlast]; split <;> exact u16At_le ..
    split at h
    · rename_i hc
      cases h
      rw [Bool.and_eq_true, entriesValid_iff, decide_eq_true_eq] at hc
      obtain ⟨⟨-, hall, e, he, hne⟩, h8⟩ := hc
      refine ⟨fun e he => (hall e he).1, rfl, ?_, dominantOf_le fun e he => (hall e he).2, h8, hle⟩
      exact Nat.le_trans (Int.natAbs_pos.2 hne) (natAbs_le_dominantOf he)
    · cases h
  · split at h
    · rename_i hc
      cases h
      simp only [Bool.and_eq_true, decide_eq_true_eq] at hc
      exact ⟨trivial, Nat.one_le_iff_ne_zero.2 hc.2, u16At_le ..⟩
    · cases h
  · obtain ⟨a, -, h⟩ := Option.bind_eq_some_iff.1 h
    split at h
    · rename_i hc
      cases h
      simp only [Bool.and_eq_true, decide_eq_true_eq] at hc
      obtain ⟨⟨⟨-, ho⟩, h1⟩, h2⟩ := hc
      exact ⟨ho, h1, h2⟩
    · cases h
  · cases h

theorem segmentOf_checked {s : State} {l : LaneId} {p : List Byte} {g : Segment} (h : segmentOf s l p = some g) :
    g.lane = l ∧ g.body.owned s l ∧ g.complete := by
  unfold segmentOf at h
  obtain ⟨b, hb, h⟩ := Option.bind_eq_some_iff.1 h
  obtain ⟨start, -, h⟩ := Option.bind_eq_some_iff.1 h
  split at h
  · rename_i h8
    cases h
    obtain ⟨ho, hc⟩ := segmentBody_checked hb
    exact ⟨rfl, ho, h8, u16At_le .., hc⟩
  · cases h

section
variable {s : State} (law : LaneLaw s)
include law

theorem LanesMove.of_kept {t : State} (h : MotionKept s t) : LanesMove s t :=
  .still law h.lanes h.sync (fun l => holdAsserted_congr l (by simp only [State.lane, h.lanes]) h.lines)
    fun a l _ k => by simp only [State.axis, h.axes]; exact k

/-- A change of one axis that leaves it in its lane. -/
theorem LanesMove.setAxis {a : AxisId} {x : Axis} (h : x.owner = (s.axis a).owner) : LanesMove s (s.setAxis a x) := by
  refine .still law rfl rfl (fun _ => rfl) fun b l _ k => ?_
  rw [State.axis_setAxis]; split
  · rename_i e; rw [h, ← e]; exact k
  · exact k

/-! ### Requests -/

/-- The executor's event moves the lanes as the request it carries out does (R148, R156). -/
theorem LanesMove.takeRequest (row : Instr) (f : Byte → Byte → List Byte → List Byte) {m : Meaning}
    (hm : ∀ r, LanesMove s (m r s).1) : LanesMove s (takeRequest row f m s) := by
  unfold Machine.takeRequest
  split
  · split
    · split
      · exact .of_kept law (.beginFrame ⟨rfl, rfl, rfl, rfl⟩)
      · rename_i i o r _ _ _ _ _
        refine (hm r).congr ?_ ?_ ?_ fun a => ?_
        · rw [beginFrame_lanes]; rfl
        · rw [beginFrame_sync]; rfl
        · rw [beginFrame_lines]; rfl
        · rw [beginFrame_axis]
          change ((settleHoldTimers s (m r s).1).axis a).owner = _
          rw [settleHoldTimers_axis_eq]
    · exact .refl law
  · exact .refl law

theorem LanesMove.withLength {lo hi : Nat} {m : Meaning} (hm : ∀ r, LanesMove s (m r s).1) (r : Request) :
    LanesMove s (withLength lo hi m r s).1 := by
  unfold Machine.withLength; split
  · exact hm r
  · exact .refl law

theorem LanesMove.onLane {m : LaneId → Request → State → State × Reply} (hm : ∀ l r, LanesMove s (m l r s).1) (r : Request) :
    LanesMove s (onLane m r s).1 := by
  unfold Machine.onLane; split
  · exact hm _ r
  · exact .refl law

theorem LanesMove.onAxis {m : AxisId → Request → State → State × Reply} (hm : ∀ a r, LanesMove s (m a r s).1) (r : Request) :
    LanesMove s (onAxis m r s).1 := by
  unfold Machine.onAxis; split
  · exact hm _ r
  · exact .refl law

theorem LanesMove.setTick (r : Request) : LanesMove s (setTick r s).1 := by
  unfold Machine.setTick; dsimp only
  split
  · exact .refl law
  split
  · exact .refl law
  · unfold takeExponent; split
    · exact .refl law
    · exact .of_kept law ⟨rfl, rfl, rfl, rfl⟩

theorem LanesMove.setLink (r : Request) : LanesMove s (setLink r s).1 := by
  unfold Machine.setLink; dsimp only
  split
  · split
    · exact .of_kept law ⟨rfl, rfl, rfl, rfl⟩
    · exact .refl law
  · exact .refl law

omit law in
theorem Axis.takeSetting_owner (start : Axis → MsTimer) (w : AxisSetting) (x : Axis) : (x.takeSetting start w).owner = w.owner := by
  unfold Axis.takeSetting; dsimp only
  repeat' split
  all_goals rfl

/-- An axis changes lane only while both lanes have empty queues, and its filter only while its lane is not busy, so that no HOME
runs on it (R58, R59). -/
theorem LanesMove.takeAxisSetting {a : AxisId} {w : AxisSetting} (h : axisStateAllows s (s.axis a) w = true) :
    LanesMove s (takeAxisSetting a w s) := by
  have hq : ∀ l, (s.axis a).owner = some l → (s.lane l).queue ≠ [] → w.owner = some l := fun l ho hq => by
    refine Classical.byContradiction fun k => ?_
    have hno := mt (axisStateAllows_iff s (s.axis a) w).2 (by rw [h]; decide)
    refine hno (.inl ⟨fun e => k (e.trans ho), .inl ⟨l, ho, fun e => hq ?_, fun e => hq ?_⟩⟩)
    · exact (law.lanes l).emptyIff.2 (.inl e)
    · exact (law.lanes l).emptyIff.2 (.inr e)
  have move : ∀ y : Axis, y.owner = w.owner → LanesMove s (s.setAxis a y) := fun y hy => by
    refine .still law rfl rfl (fun _ => rfl) fun b l hl k => ?_
    rw [State.axis_setAxis]; split
    · rename_i e; rw [hy]; exact hq l (by rw [← e]; exact k) hl
    · exact k
  have howner := Axis.takeSetting_owner s.holdStart w (s.axis a)
  unfold Machine.takeAxisSetting; dsimp only
  split
  · rename_i hf
    have hf : w.homeFilter ≠ (s.axis a).homeFilter := by simp only [Bool.and_eq_true, decide_eq_true_eq] at hf; exact hf.1
    generalize (s.axis a).takeSetting s.holdStart w = y at howner
    unfold Machine.passHomeFilter
    rw [State.axis_setAxis_self]; dsimp only
    have e : ∀ z : Axis, (s.setAxis a y).setAxis a z = s.setAxis a z := fun z => by simp [State.setAxis]
    rw [e]
    split
    · rename_i l hl
      rw [howner] at hl
      have hbusy : (s.lane l).state ∉ [LaneState.waiting, .running, .held, .stopping] := fun hb => by
        have hno := mt (axisStateAllows_iff s (s.axis a) w).2 (by rw [h]; decide)
        by_cases ho : w.owner = (s.axis a).owner
        · exact hno (.inr ⟨fun k => hf (congrArg AxisSetting.homeFilter k), l, by rw [← ho, hl], hb⟩)
        · refine hno (.inl ⟨ho, .inr ⟨l, hl, ?_, ?_⟩⟩) <;> (intro k; rw [k] at hb; simp at hb)
      rw [homeEvent_of_not_running]
      · exact move _ howner
      · intro k; exact hbusy (by rw [State.setAxis_lane] at k; simp [k])
      · intro k; exact hbusy (by rw [State.setAxis_lane] at k; simp [k])
    · exact move _ howner
  · exact move _ howner

theorem LanesMove.setAxisRequest (r : Request) : LanesMove s (Machine.setAxis r s).1 := by
  unfold Machine.setAxis
  split
  · dsimp only
    split
    · exact .refl law
    split
    · exact .refl law
    · rename_i h _; exact .takeAxisSetting law (by simpa using h)
  · exact .refl law

theorem LanesMove.setLane (r : Request) : LanesMove s (setLane r s).1 := by
  refine .onLane law (fun l r => ?_) r
  dsimp only
  split
  · exact .refl law
  split
  · exact .refl law
  · refine .of_steady law (.setLane ..) ?_ (by rw [State.lane_setLane_self])
    rw [State.lane_setLane_self]
    exact .of_same_progress rfl rfl rfl rfl rfl rfl id rfl rfl rfl rfl rfl

theorem LanesMove.setLine (r : Request) : LanesMove s (setLine r s).1 := by
  unfold Machine.setLine; dsimp only
  split
  · unfold takeLineSetting; dsimp only
    split
    · exact (LanesMove.passTriggerFilter law _ _).1
    · exact .applyHolds law _ _
  · exact .refl law

theorem LanesMove.loadPattern (r : Request) : LanesMove s (loadPattern r s).1 := by
  unfold Machine.loadPattern; dsimp only
  split
  · exact .refl law
  split
  · exact .refl law
  split
  · exact .refl law
  · refine .still law rfl rfl (fun _ => rfl) fun a l _ k => ?_
    simp only [takePattern, State.axis, PerAxis.get_mapWith]
    split <;> exact k

theorem LanesMove.setPosition (r : Request) : LanesMove s (setPosition r s).1 := by
  refine .onAxis law (fun a r => ?_) r
  dsimp only
  split
  · exact .refl law
  split
  · exact .refl law
  · exact .setAxis law rfl

theorem LanesMove.energise (r : Request) : LanesMove s (energise r s).1 := by
  refine .onAxis law (fun a r => ?_) r
  dsimp only
  split
  · exact .refl law
  split
  · exact .setAxis law rfl
  · exact .setAxis law rfl

theorem LanesMove.release (r : Request) : LanesMove s (release r s).1 := by
  refine .onAxis law (fun a r => ?_) r
  dsimp only
  split
  · exact .refl law
  split
  · exact .setAxis law rfl
  · exact .refl law

theorem LanesMove.queueSegment (r : Request) : LanesMove s (queueSegment r s).1 := by
  unfold Machine.queueSegment; dsimp only
  split
  · exact .refl law
  split
  · exact .refl law
  split
  · exact .refl law
  split
  · exact .refl law
  split
  · exact .refl law
  split
  · rename_i l _ hhalted hstopping hfull _ g hg
    obtain ⟨h1, h2, h3⟩ := segmentOf_checked hg
    refine .of_lane law (.setLane ..) ?_
    unfold appendSegment; dsimp only
    rw [State.lane_setLane_self, holdAsserted_congr (s := s) l (by rw [State.lane_setLane_self]) (t := s.setLane l _) rfl]
    exact .appended hhalted hstopping (Nat.lt_of_not_le hfull) h1 h2 h3 rfl
  · exact .refl law

theorem LanesMove.startLane (r : Request) : LanesMove s (startLane r s).1 := by
  refine .onLane law (fun l r => ?_) r
  cases hs : (s.lane l).state with
  | ready => exact .activate law _ hs
  | idle | waiting | running | held | stopping | halted => exact .refl law

theorem LanesMove.clearLaneEffect (l : LaneId) : LanesMove s (clearLaneEffect l s) := by
  unfold Machine.clearLaneEffect; split
  · rename_i hs
    have hr := (law.lanes l).resting (.inr hs)
    refine .of_lane law (.setLane ..) ?_
    rw [State.lane_setLane_self, law.no_entry (by rw [hs]; decide)]
    exact .rests hr.cleared
  · exact .refl law

omit law in
theorem makeCapture_kept (source : CaptureSource) (edge : Option Edge) (s : State) : MotionKept s (makeCapture source edge s) := by
  rw [makeCapture_frame]; exact ⟨rfl, rfl, rfl, rfl⟩

theorem LanesMove.readCaptures (r : Request) : LanesMove s (readCaptures r s).1 := by
  unfold Machine.readCaptures; dsimp only
  split
  · exact .refl law
  · exact .of_kept law ⟨rfl, rfl, rfl, rfl⟩

theorem LanesMove.fetchReport (r : Request) : LanesMove s (fetchReport r s).1 := by
  unfold Machine.fetchReport; split
  · exact .refl law
  · unfold fetchEffect; split
    · exact .of_kept law ⟨rfl, rfl, rfl, rfl⟩
    · exact .refl law

theorem LanesMove.ackReport (r : Request) : LanesMove s (ackReport r s).1 := by
  unfold Machine.ackReport; split
  · exact .refl law
  · split
    · exact .of_kept law ⟨rfl, rfl, rfl, rfl⟩
    · exact .refl law

/-! ### Events -/

/-- The outcome is a next state, to which the lanes move. -/
def MovesTo (s : State) (o : Host.Outcome State Fault Refusal) : Prop := ∃ t, o = .next t ∧ LanesMove s t

theorem MovesTo.onEvent {f : State → Option State} (h : ∀ t, f s = some t → LanesMove s t) : MovesTo s (onEvent f s) := by
  refine ⟨_, rfl, ?_⟩
  split
  · rename_i t _ ht
    refine (h t ht).congr (by rw [beginFrame_lanes]; rfl) (by rw [beginFrame_sync]; rfl) (by rw [beginFrame_lines]; rfl) fun a => ?_
    rw [beginFrame_axis, settleHoldTimers_axis_eq]
  · exact .refl law

theorem MovesTo.onLinkEvent {f : State → Option State} (h : ∀ t, f s = some t → MotionKept s t) : MovesTo s (onLinkEvent f s) := by
  refine ⟨_, rfl, ?_⟩
  split
  · rename_i t _ ht; exact .of_kept law (h t ht).beginFrame
  · exact .refl law

theorem MovesTo.onQuietEvent {f : State → Option State} (h : ∀ t, f s = some t → LanesMove s t) : MovesTo s (onQuietEvent f s) := by
  refine ⟨_, rfl, ?_⟩
  split
  · rename_i t _ ht; exact h t ht
  · exact .refl law

theorem MovesTo.request (row : Instr) {m : Meaning} (h : ∀ r, LanesMove s (m r s).1) : MovesTo s (execRequest row m s) :=
  ⟨_, rfl, .takeRequest law row _ h⟩

omit law in
/-- The active segment of a lane whose step timer counts in this state. -/
theorem Lane.timing_eq_some {v : Lane} {state : LaneState} {g : Segment} (h : v.timing state = some g) :
    v.state = state ∧ ∃ rest, v.queue = g :: rest := by
  unfold Lane.timing at h
  split at h
  · split at h
    · rename_i e; exact ⟨e, List.head?_eq_some_iff.1 h⟩
    · cases h
  · cases h

theorem MovesTo.stepEvent (l : LaneId) : MovesTo s (execStepEvent l s) := by
  refine .onEvent law fun t h => ?_
  split at h
  · rename_i g hg
    obtain ⟨hs, rest, hq⟩ := Lane.timing_eq_some hg
    split at h
    · rename_i entries i1 n hb; cases h; exact .runMoveStep law hs hq hb _
    · cases h
  · cases h

theorem MovesTo.inProgressStepEvent (l : LaneId) : MovesTo s (execInProgressStepEvent l s) := by
  refine .onEvent law fun t h => ?_
  split at h
  · rename_i entries i1 n r hbody hr
    obtain ⟨g, hg, hb⟩ := Option.map_eq_some_iff.1 hbody
    obtain ⟨hs, rest, hq⟩ := Lane.timing_eq_some hg
    split at h
    · cases h; exact .runInProgressStep law hs hq hb hr
    · cases h
  · cases h

theorem MovesTo.stopRampStepEvent (l : LaneId) : MovesTo s (execStopRampStepEvent l s) := by
  refine .onEvent law fun t h => ?_
  split at h
  · rename_i entries i1 n r hbody hr
    obtain ⟨g, hg, hb⟩ := Option.map_eq_some_iff.1 hbody
    obtain ⟨hs, rest, hq⟩ := Lane.timing_eq_some hg
    obtain ⟨steps, hsteps, rfl⟩ := Option.map_eq_some_iff.1 h
    exact .runStopStep law hs hq hb hr hsteps
  · cases h

theorem MovesTo.dwellIntervalExpiry (l : LaneId) : MovesTo s (execDwellIntervalExpiry l s) := by
  refine .onEvent law fun t h => ?_
  split at h
  · rename_i g hg
    obtain ⟨hs, rest, hq⟩ := Lane.timing_eq_some hg
    split at h
    · rename_i n hb; cases h; exact .runDwell law hs hq hb _
    · cases h
  · cases h

theorem MovesTo.homingStepEvent (l : LaneId) : MovesTo s (execHomingStepEvent l s) := by
  refine .onEvent law fun t h => ?_
  split at h
  · rename_i g run hg hrun
    obtain ⟨hs, rest, hq⟩ := Lane.timing_eq_some hg
    split at h
    · rename_i a limit preset hb
      split at h
      · cases h
      · rename_i hno
        simp only [Bool.or_eq_true, decide_eq_true_eq, not_or, Bool.not_eq_true] at hno
        cases h; exact .runHomingStep law hs hq hb hrun hno.1 hno.2 _
    · cases h
  · cases h

theorem MovesTo.homeLimitIntervalExpiry (l : LaneId) : MovesTo s (execHomeLimitIntervalExpiry l s) := by
  refine .onEvent law fun t h => ?_
  split at h
  · split at h
    · cases h; exact .halt_self law l _
    · cases h
  · cases h

theorem MovesTo.settleExpiry (l : LaneId) : MovesTo s (execSettleExpiry l s) := by
  refine .onEvent law fun t h => ?_
  dsimp only at h
  split at h
  · rename_i ht; cases h; exact .settleExpiry law _ ht
  · cases h

theorem MovesTo.syncTimeoutExpiry (l : LaneId) : MovesTo s (execSyncTimeoutExpiry l s) := by
  refine .onEvent law fun t h => ?_
  split at h
  · rename_i he; cases h; exact .syncTimeout law _ (by rw [he]; exact Option.some_ne_none _)
  · cases h

theorem MovesTo.silenceExpiry : MovesTo s (execSilenceExpiry s) := by
  refine .onEvent law fun t h => ?_
  split at h
  · cases h; exact .silence law none
  · cases h

theorem MovesTo.triggerRawChange (n : TrgId) (level : Level) : MovesTo s (execTriggerRawChange n level s) := by
  have kept : ∀ f : InputFilter, f.filtered = (s.line n).input.filtered → LanesMove s (s.setLine n { s.line n with input := f }) :=
    fun f hf => .still law rfl rfl (fun l => holdAsserted_setLine l (by simp [TrgLine.holds, hf])) fun _ _ _ k => k
  unfold execTriggerRawChange; split
  · refine .onEvent law fun t h => ?_
    dsimp only at h
    split at h
    · cases h
    · cases h
      split
      · exact (LanesMove.passTriggerFilter law _ _).2 rfl
      · exact kept _ rfl
  · exact ⟨_, rfl, kept _ rfl⟩

theorem MovesTo.triggerFilteredChange (n : TrgId) : MovesTo s (execTriggerFilteredChange n s) := by
  refine .onEvent law fun t h => ?_
  split at h
  · cases h
    have e : s.setLine n (s.line n) = s := by simp [State.setLine, State.line]
    have := (LanesMove.passTriggerFilter law n (s.line n)).2 rfl
    rwa [e] at this
  · cases h

/-- The filtered level of a home line changes, under a record that leaves the axis in its lane (R104, R109 to R111). -/
theorem LanesMove.passHomeFilter {a : AxisId} {x : Axis} (ho : x.owner = (s.axis a).owner) (he : x.energised = (s.axis a).energised) :
    LanesMove s (passHomeFilter a (s.setAxis a x)) := by
  unfold Machine.passHomeFilter
  rw [State.axis_setAxis_self]; dsimp only
  rw [show ∀ z : Axis, (s.setAxis a x).setAxis a z = s.setAxis a z from fun z => by simp [State.setAxis]]
  split
  · refine .homeEvent (y := s.setAxis a { x with home := { x.home with filtered := x.home.raw, measure := none } }) law ⟨rfl, rfl, rfl, rfl, rfl, rfl, fun b => ?_⟩ rfl a _
    rw [State.axis_setAxis]; split
    · rename_i k; rw [k]; exact ⟨ho, he⟩
    · exact ⟨rfl, rfl⟩
  · exact .setAxis law ho

theorem MovesTo.homeRawChange (a : AxisId) (level : Level) : MovesTo s (execHomeRawChange a level s) := by
  unfold execHomeRawChange; split
  · refine .onEvent law fun t h => ?_
    dsimp only at h
    split at h
    · cases h
    · cases h
      split
      · exact .passHomeFilter law rfl rfl
      · exact .setAxis law rfl
  · exact ⟨_, rfl, .setAxis law rfl⟩

theorem MovesTo.homeFilteredChange (a : AxisId) : MovesTo s (execHomeFilteredChange a s) := by
  refine .onEvent law fun t h => ?_
  split at h
  · cases h
    have e : s.setAxis a (s.axis a) = s := by simp [State.setAxis, State.axis]
    have := LanesMove.passHomeFilter law (a := a) (x := s.axis a) rfl rfl
    rwa [e] at this
  · cases h

theorem MovesTo.pulseEnd (a : AxisId) : MovesTo s (execPulseEnd a s) := by
  refine .onQuietEvent law fun t h => ?_
  split at h
  · cases h; exact .setAxis law rfl
  · cases h

theorem MovesTo.holdTimerExpiry (a : AxisId) : MovesTo s (execHoldTimerExpiry a s) := by
  refine .onQuietEvent law fun t h => ?_
  split at h
  · cases h; exact .setAxis law rfl
  · cases h

theorem MovesTo.resendTimerExpiry : MovesTo s (execResendTimerExpiry s) := by
  refine .onLinkEvent law fun t h => ?_
  split at h
  · cases h; exact ⟨rfl, rfl, rfl, rfl⟩
  · cases h

/-- An event of the link that sends nothing and leaves the motion alone. -/
theorem MovesTo.onQuietKept {f : State → Option State} (h : ∀ t, f s = some t → MotionKept s t) : MovesTo s (Machine.onQuietEvent f s) :=
  .onQuietEvent law fun t k => .of_kept law (h t k)

theorem MovesTo.byteArrival (b : Byte) : MovesTo s (execByteArrival b s) := by
  refine .onQuietKept law fun t h => ?_
  split at h <;> cases h
  exact receiveByte_kept b s

theorem MovesTo.frameReceived (low : Byte) : MovesTo s (execFrameReceived low s) := by
  refine .onQuietKept law fun t h => ?_
  split at h <;> cases h
  exact judgeFrame_kept ..

theorem MovesTo.lenOver200 (len : Byte) : MovesTo s (execLenOver200 len s) := by
  refine .onQuietKept law fun t h => ?_
  split at h <;> cases h
  exact ⟨rfl, rfl, rfl, rfl⟩

theorem MovesTo.framingError : MovesTo s (execFramingError s) := by
  refine .onQuietKept law fun t h => ?_
  split at h <;> cases h
  exact ⟨rfl, rfl, rfl, rfl⟩

theorem MovesTo.gapExpiry : MovesTo s (execGapExpiry s) := by
  refine .onQuietKept law fun t h => ?_
  split at h <;> cases h
  exact ⟨rfl, rfl, rfl, rfl⟩

theorem MovesTo.linkBreak : MovesTo s (execLinkBreak s) := by
  refine .onQuietKept law fun t h => ?_
  split at h <;> cases h
  exact ⟨rfl, rfl, rfl, rfl⟩

/-- The end of a frame leaves the motion alone, but for the device reset that the reply to RESTART carries (R151, R164). -/
theorem LanesMove.afterReply {t : State} (h : MotionKept s t) (after : AfterReply) : LanesMove s (afterReply t after) := by
  cases after with
  | nothing => exact .of_kept law h.beginFrame
  | changeRate rate => exact .of_kept law (.beginFrame (h.trans ⟨rfl, rfl, rfl, rfl⟩))
  | deviceReset => exact .of_reset rfl rfl

theorem LanesMove.endFrame (source : TxSource) : LanesMove s (endFrame source s) := by
  cases source with
  | slot i =>
    unfold Machine.endFrame; dsimp only
    refine .afterReply law ?_ _
    exact ⟨rfl, rfl, rfl, rfl⟩
  | report number => exact .of_kept law (.beginFrame ⟨rfl, rfl, rfl, rfl⟩)

theorem MovesTo.frameSent : MovesTo s (execFrameSent s) := by
  refine .onQuietEvent law fun t h => ?_
  split at h <;> cases h
  exact .endFrame law _

theorem MovesTo.rxdLevelChange (level : Level) : MovesTo s (execRxdLevelChange level s) := by
  refine ⟨_, rfl, ?_⟩
  split
  · split
    · exact .refl law
    · exact .of_kept law (takeRxd_kept level s)
  · exact .of_kept law ⟨rfl, rfl, rfl, rfl⟩

theorem MovesTo.rstnLow : MovesTo s (execRstnLow s) := by
  refine ⟨_, rfl, ?_⟩
  dsimp only
  split
  · exact .of_reset rfl rfl
  · exact .of_kept law ⟨rfl, rfl, rfl, rfl⟩

theorem MovesTo.deviceResetEnd (rate1 rate0 : Level) : MovesTo s (execDeviceResetEnd rate1 rate0 s) := by
  refine ⟨_, rfl, ?_⟩
  split
  · exact .refl law
  · exact .of_reset (by rw [beginFrame_lanes]; rfl) (by rw [beginFrame_sync]; rfl)

/-- Every command moves the lanes in one of the ways of `LaneChange`. -/
theorem exec_movesTo (c : Instr) : MovesTo s (exec c s) := by
  cases c with
  | ping => exact .request law _ (.withLength law fun _ => .refl law)
  | identify => exact .request law _ (.withLength law fun _ => .refl law)
  | setLink => exact .request law _ (.withLength law (.setLink law))
  | restart => exact .request law _ (.withLength law fun _ => .of_kept law ⟨rfl, rfl, rfl, rfl⟩)
  | setTick => exact .request law _ (.withLength law (.setTick law))
  | setAxis => exact .request law _ (.withLength law (.setAxisRequest law))
  | setLane => exact .request law _ (.withLength law (.setLane law))
  | setLine => exact .request law _ (.withLength law (.setLine law))
  | loadPattern => exact .request law _ (.withLength law (.loadPattern law))
  | setPosition => exact .request law _ (.withLength law (.setPosition law))
  | energise => exact .request law _ (.withLength law (.energise law))
  | release => exact .request law _ (.withLength law (.release law))
  | queueSegment => exact .request law _ (.withLength law (.queueSegment law))
  | startLane => exact .request law _ (.withLength law (.startLane law))
  | stopLane => exact .request law _ (.withLength law (.onLane law fun l _ => .stopLaneEffect law l))
  | abortLane => exact .request law _ (.withLength law (.onLane law fun l _ => .halt_self law l _))
  | holdLane => exact .request law _ (.withLength law (.onLane law fun l _ => .takeSoftHold law l true))
  | resumeLane => exact .request law _ (.withLength law (.onLane law fun l _ => .takeSoftHold law l false))
  | clearLane => exact .request law _ (.withLength law (.onLane law fun l _ => .clearLaneEffect law l))
  | readLane => exact .request law _ (.withLength law (.onLane law fun _ _ => .refl law))
  | readAxis => exact .request law _ (.withLength law (.onAxis law fun _ _ => .refl law))
  | readLines => exact .request law _ (.withLength law fun _ => .refl law)
  | mark => exact .request law _ (.withLength law fun _ => .of_kept law (makeCapture_kept ..))
  | readCaptures => exact .request law _ (.withLength law (.readCaptures law))
  | fetchReport => exact .request law _ (.withLength law (.fetchReport law))
  | ackReport => exact .request law _ (.withLength law (.ackReport law))
  | unknownKindRequest => exact ⟨_, rfl, .takeRequest law _ _ fun _ => .refl law⟩
  | frameReceived low => exact .frameReceived law low
  | framingError => exact .framingError law
  | lenOver200 len => exact .lenOver200 law len
  | gapExpiry => exact .gapExpiry law
  | linkBreak => exact .linkBreak law
  | frameBegin => exact .onLinkEvent law fun t h => by cases h; exact .refl s
  | frameSent => exact .frameSent law
  | powerOn => exact ⟨_, rfl, .of_reset rfl rfl⟩
  | rstnLow => exact .rstnLow law
  | deviceResetEnd rate1 rate0 => exact .deviceResetEnd law rate1 rate0
  | stepEvent l => exact .stepEvent law l
  | inProgressStepEvent l => exact .inProgressStepEvent law l
  | stopRampStepEvent l => exact .stopRampStepEvent law l
  | dwellIntervalExpiry l => exact .dwellIntervalExpiry law l
  | homingStepEvent l => exact .homingStepEvent law l
  | homeLimitIntervalExpiry l => exact .homeLimitIntervalExpiry law l
  | settleExpiry l => exact .settleExpiry law l
  | holdTimerExpiry a => exact .holdTimerExpiry law a
  | syncTimeoutExpiry l => exact .syncTimeoutExpiry law l
  | silenceExpiry => exact .silenceExpiry law
  | resendTimerExpiry => exact .resendTimerExpiry law
  | triggerRawChange n level => exact .triggerRawChange law n level
  | triggerFilteredChange n => exact .triggerFilteredChange law n
  | homeRawChange a level => exact .homeRawChange law a level
  | homeFilteredChange a => exact .homeFilteredChange law a
  | pulseEnd a => exact .pulseEnd law a
  | byteArrival byte => exact .byteArrival law byte
  | rxdLevelChange level => exact .rxdLevelChange law level

end

/-! ### Every step -/

/-- The laws of the lanes and of the segments read the lanes, the sync unit, the axes and the lines alone. -/
theorem LaneLaw.congr {s t : State} (law : LaneLaw s) (h : MotionKept s t) : LaneLaw t := (LanesMove.of_kept law h).laneLaw law

/-- A step moves the lanes, from the part with the command it runs off the queue or a free choice counted. -/
theorem step_lanesMove {s t : State} (law : LaneLaw s) (h : step s = .next t) : ∃ u, MotionKept s u ∧ LanesMove u t := by
  cases hp : s.pending with
  | cons c rest =>
    have kept : MotionKept s { s with pending := rest } := ⟨rfl, rfl, rfl, rfl⟩
    obtain ⟨t', e, m⟩ := exec_movesTo (law.congr kept) c
    have hc : step s = exec c { s with pending := rest } := by unfold step; rw [hp]
    rw [hc, e] at h; cases h
    exact ⟨_, kept, m⟩
  | nil =>
    obtain ⟨count, move, -, hs⟩ := step_idle hp
    have kept : MotionKept s { s with freeCount := count } := ⟨rfl, rfl, rfl, rfl⟩
    rw [hs] at h
    cases move with
    | some c =>
      obtain ⟨t', e, m⟩ := exec_movesTo (law.congr kept) c
      dsimp only at h
      rw [e] at h; cases h
      exact ⟨_, kept, m⟩
    | none => cases h; exact ⟨_, kept, .advance (law.congr kept)⟩

/-- Settles O58: a step moves the lanes in one of the ways of `LaneChange`, and each of them keeps the law. -/
theorem laneLawKept : Obligations.LaneLawKept := by
  intro s t h law
  obtain ⟨u, kept, move⟩ := step_lanesMove law h
  exact move.laneLaw (law.congr kept)

/-- Settles O59, by the same account of a step as a change of both lanes. -/
theorem segmentLawsKept : Obligations.SegmentLawsKept := by
  rintro s t h law ⟨own, hp⟩
  obtain ⟨u, kept, move⟩ := step_lanesMove law h
  have m := LanesMove.of_kept law kept
  exact ⟨move.ownership (m.ownership own), move.progress (law.congr kept) (m.progress law hp)⟩

end Sys2Proof.Machine
end

