-- ==== Sys2Proof/Proofs/LaneRequests.lean ====
section
/-! PROOF. The laws right after reset, and the requests that set a lane, queue a segment, or find nothing to start. -/

namespace Sys2Proof.Machine

open Sys2Proof

/-! ### The laws right after reset -/

theorem State.reset_lane (l : LaneId) : State.reset.lane l = Lane.atReset := by cases l <;> rfl

/-- Both lanes rest right after reset, and no hold or entry stands (R1, R2). -/
theorem laneLaw_reset : LaneLaw State.reset where
  lanes l := by rw [State.reset_lane]; exact Lane.atReset_resting.laneOk
  entryIff l := by cases l <;> rfl
  oneEntry := .inl rfl
  runningFree l h := by rw [State.reset_lane] at h; cases h
  heldHeld l h := by rw [State.reset_lane] at h; cases h

/-- Settles O56: each law, at the reset values of the fields it reads. -/
theorem resetMeetsLaws : Obligations.ResetMeetsLaws := by
  refine ⟨⟨fun a => ?_, by decide, by decide, by decide⟩, fun a => ?_, laneLaw_reset, fun l g hg => ?_, fun l => ⟨fun g hg => ?_, fun g hg => ?_⟩,
    ⟨by decide, by decide, by decide, by decide, by decide, by decide⟩, ⟨by decide, trivial⟩, ?_⟩
  · cases a <;> exact ⟨by decide, by decide, by decide, by decide, fun _ => rfl, by decide⟩
  · cases a <;> rfl
  · rw [State.reset_lane] at hg; cases hg
  · rw [State.reset_lane] at hg; cases hg
  · rw [State.reset_lane] at hg; cases hg
  · exact ⟨by decide, (fun o h => by cases h), (fun i o h => by cases i <;> cases h), by decide, (fun i f n h => by cases h),
      (fun b h => by cases h)⟩

/-! ### Requests that are refused, and requests that name a lane -/

/-- A request that is answered with a status alone changes nothing else (R156). -/
theorem answered_status {row : Instr} {s : State} {i o r} {m : Meaning} {status : Status} (h : Executes row s i o r)
    (hm : m r s = (s, Reply.only status)) : execRequest row m s = .next (answeredWith s i o r status.code []) :=
  answered_still h m hm rfl rfl rfl rfl

/-- A lane number in the first byte of a payload reaches its lane. -/
theorem onLane_of_code {m : LaneId → Request → State → State × Reply} {r : Request} {s : State} {l : LaneId}
    (h : byteAt r.payload 0 = LaneId.code l) : onLane m r s = m l r s := by
  unfold onLane; rw [h, laneOfCode_code]

/-- A lane number above 1 is refused with BAD-FIELD. -/
theorem onLane_of_bad {m : LaneId → Request → State → State × Reply} {r : Request} {s : State} (h : 1 < byteAt r.payload 0) :
    onLane m r s = (s, Reply.only .badField) := by
  unfold onLane; rw [laneOfCode_none h]

/-! ### SET-LANE -/

/-- SET-LANE for lane `l`, by its checks in order (R23). -/
theorem setLane_eq {r : Request} {s : State} {l : LaneId} {lane a1 a0 d1 d0 n1 n0 y1 y0 : Byte}
    (hp : r.payload = [lane, a1, a0, d1, d0, n1, n0, y1, y0]) (hl : lane.toNat = LaneId.code l) :
    withLength 9 9 setLane r s =
      if (s.lane l).busy then (s, Reply.only .badState)
      else if 255 < word16 a1 a0 ∨ word16 n1 n0 < 8 then (s, Reply.only .badField)
      else (s.setLane l { s.lane l with settings := ⟨word16 a1 a0, word16 d1 d0, word16 n1 n0, word16 y1 y0⟩ }, Reply.only .ok) := by
  rw [withLength_eq (by rw [hp]; simp) (by rw [hp]; simp), setLane, onLane_of_code (by rw [hp]; exact hl)]
  have e1 : u16At r.payload 1 = word16 a1 a0 := by rw [hp, ← word16_eq]; rfl
  have e3 : u16At r.payload 3 = word16 d1 d0 := by rw [hp, ← word16_eq]; rfl
  have e5 : u16At r.payload 5 = word16 n1 n0 := by rw [hp, ← word16_eq]; rfl
  have e7 : u16At r.payload 7 = word16 y1 y0 := by rw [hp, ← word16_eq]; rfl
  simp only [e1, e3, e5, e7, Bool.or_eq_true, decide_eq_true_eq]

/-- Settles O10: each branch of `setLane_eq`, where new settings start and stop no hold timer. -/
theorem setLaneChecksAndTakes : Obligations.SetLaneChecksAndTakes := by
  intro s i o r lane a1 a0 d1 d0 n1 n0 y1 y0 h hp
  refine ⟨fun hlane => ?_, fun l hl => ⟨fun hb => ?_, fun hb hf => ?_, fun hb hA hN => ?_⟩⟩
  · refine answered_status h (status := .badField) ?_
    rw [withLength_eq (by rw [hp]; simp) (by rw [hp]; simp)]
    exact onLane_of_bad (by rw [hp]; exact hlane)
  · refine answered_status h (status := .badState) ?_
    rw [setLane_eq hp hl, if_pos ((Lane.busy_iff _).2 hb)]
  · refine answered_status h (status := .badField) ?_
    rw [setLane_eq hp hl, if_neg (mt (Lane.busy_iff _).1 hb), if_pos hf]
  · refine answered_runs h _ (p := Reply.only .ok) ?_ rfl (holdRuns_setLane rfl) rfl
    rw [setLane_eq hp hl, if_neg (mt (Lane.busy_iff _).1 hb), if_neg (by omega)]

/-! ### QUEUE-SEGMENT -/

/-- QUEUE-SEGMENT with the length of its layout, for lane `l`, by its checks in order (R5, R6). -/
theorem queueSegment_eq {r : Request} {s : State} {l : LaneId} (hlen : LayoutHolds r.payload)
    (hl : byteAt r.payload 0 = LaneId.code l) : queueSegment r s =
      if (s.lane l).state = .halted then (s, Reply.only .halted)
      else if (s.lane l).state = .stopping then (s, Reply.only .badState)
      else if 16 ≤ (s.lane l).queue.length then (s, Reply.only .queueFull)
      else
        match segmentOf s l r.payload with
        | some g => (appendSegment l g s, Reply.okWith (put8 ((s.lane l).queue.length + 1)))
        | none => (s, Reply.only .badField) := by
  unfold queueSegment
  simp only [(segmentLength_iff _).2 hlen, ne_eq, not_true_eq_false, if_false, hl, laneOfCode_code]
  rfl

/-- With room in the queue, QUEUE-SEGMENT is decided by the field checks (R6). -/
theorem queueSegment_checked {r : Request} {s : State} {l : LaneId} (hlen : LayoutHolds r.payload)
    (hl : byteAt r.payload 0 = LaneId.code l) (hhalted : (s.lane l).state ≠ .halted) (hstopping : (s.lane l).state ≠ .stopping)
    (hroom : (s.lane l).queue.length < 16) {x : Option Segment} (hx : segmentOf s l r.payload = x) : queueSegment r s =
      x.elim (s, Reply.only .badField) fun g => (appendSegment l g s, Reply.okWith (put8 ((s.lane l).queue.length + 1))) := by
  rw [queueSegment_eq hlen hl, if_neg hhalted, if_neg hstopping, if_neg (by omega), hx]
  cases x <;> rfl

/-- Settles O17: each branch of `queueSegment_eq`; the field checks fail where a code names nothing, or where the record that the
payload asks for fails them. -/
theorem queueSegmentRefusals : Obligations.QueueSegmentRefusals := by
  intro s i o r h lo hi
  have answer : ∀ {status : Status}, queueSegment r s = (s, Reply.only status) →
      exec .queueSegment s = .next (answeredWith s i o r status.code []) := fun hm =>
    answered_status h (by rw [withLength_eq lo hi]; exact hm)
  refine ⟨fun hlen => ?_, fun hlen hlane => ?_, fun l hlen hl => ⟨fun hs => ?_, fun hs => ?_, fun h1 h2 hfull => ?_,
    fun h1 h2 hroom => ⟨fun hn => ?_, fun w unread hp hfits hno => ?_⟩⟩⟩
  · refine answer (status := .badLength) ?_
    unfold queueSegment
    exact if_pos (mt (segmentLength_iff _).1 hlen)
  · refine answer (status := .badField) ?_
    unfold queueSegment
    simp only [(segmentLength_iff _).2 hlen, ne_eq, not_true_eq_false, if_false,
      laneOfCode_none (show 1 < byteAt r.payload 0 from hlane)]
  · exact answer (status := .halted) (by rw [queueSegment_eq hlen hl, if_pos hs])
  · exact answer (status := .badState) (by rw [queueSegment_eq hlen hl, if_neg (by rw [hs]; decide), if_pos hs])
  · exact answer (status := .queueFull) (by rw [queueSegment_eq hlen hl, if_neg h1, if_neg h2, if_pos hfull])
  · exact answer (status := .badField) (queueSegment_checked hlen hl h1 h2 hroom (segmentOf_of_namesNothing s l hn))
  · have hw : w.lane = l := by
      have k := (w.fields unread).lane
      rw [← hp, show byteAt r.payload 0 = LaneId.code l from hl] at k
      have e := laneOfCode_code w.lane
      rw [← k, laneOfCode_code] at e
      exact (Option.some.inj e).symm
    subst hw
    have hg : segmentOf s w.lane r.payload = none := by rw [hp]; exact (segmentOf_payload w unread hfits s).2 hno
    exact answer (status := .badField) (queueSegment_checked hlen hl h1 h2 hroom hg)

/-- Each entry of a MOVE takes 5 bytes (section 11.3). -/
theorem entriesBytes_length (es : List (AxisId × Int)) :
    (es.flatMap fun e => put8 (AxisId.code e.1) ++ putI32 e.2).length = es.length * 5 := by
  induction es with
  | nil => rfl
  | cons e es ih =>
    rw [List.flatMap_cons, List.length_append, ih, List.length_cons, Nat.succ_mul, Nat.add_comm]; rfl

/-- The bytes of a kind part: 2 to 21 of them (section 11.3). -/
theorem WantedKind.bytes_length {k : WantedKind} (hf : k.fits) : 2 ≤ k.bytes.length ∧ k.bytes.length ≤ 21 := by
  cases k with
  | move es last =>
    obtain ⟨h1, h4, -, -⟩ := hf
    rw [WantedKind.bytes, List.length_append, entriesBytes_length]
    simp only [put8, List.length_singleton]; omega
  | dwell n => exact ⟨Nat.le_refl 2, Nat.le_add_left 2 19⟩
  | home a limit preset => exact ⟨by simp [WantedKind.bytes, put8, put16, put32, putI32], by simp [WantedKind.bytes, put8, put16, put32, putI32]⟩

/-- A payload as the host builds it has an admitted length (section 11.2). -/
theorem WantedSegment.payload_length (w : WantedSegment) (unread : Nat) (hf : w.fits) :
    9 ≤ (w.payload unread).length ∧ (w.payload unread).length ≤ 32 := by
  have P := w.fields unread
  obtain ⟨-, -, fk⟩ := hf
  obtain ⟨b1, b2⟩ := WantedKind.bytes_length fk
  obtain ⟨pre, hp, hl⟩ := P.split
  rw [hp, List.length_append, hl, P.kindAt]
  have hlast : w.kind.last.isSome.toNat ≤ 1 := Bool.toNat_le _
  have hstart : (startBytes w.start).length ≤ 1 := by cases w.start <;> simp [startBytes, put8]
  omega

/-- A lane that takes another segment executes what it did: an IDLE one still nothing (R53). -/
theorem appendSegment_executing {s : State} {l : LaneId} (law : LaneLaw s) (g : Segment) :
    Lane.executing { s.lane l with
      queue := (s.lane l).queue ++ [g], state := if (s.lane l).state = .idle then .ready else (s.lane l).state } =
    (s.lane l).executing := by
  have hempty := (law.lanes l).emptyIff
  cases hs : (s.lane l).state <;> cases hq : (s.lane l).queue <;> simp_all [Lane.executing]

/-- Settles O18: the checks pass, and a longer queue starts and stops no hold timer. -/
theorem queueSegmentAppends : Obligations.QueueSegmentAppends := by
  intro s i o r w unread h hp hfits hpass law v hhalted hstopping hroom
  have hlen : LayoutHolds r.payload := by rw [hp]; exact (segmentLength_iff _).1 (segmentLength_payload w unread hfits)
  obtain ⟨lo, hi⟩ := w.payload_length unread hfits
  rw [← hp] at lo hi
  refine answered_runs h _ (p := Reply.okWith (put8 (v.queue.length + 1))) ?_ rfl
    (holdRuns_setLane (appendSegment_executing law w.record)) rfl
  have hl : byteAt r.payload 0 = LaneId.code w.lane := by rw [hp]; exact (w.fields unread).lane
  have hg : segmentOf s w.lane r.payload = some w.record := by rw [hp]; exact (segmentOf_payload w unread hfits s).1 hpass
  rw [withLength_eq lo hi, queueSegment_checked hlen hl hhalted hstopping hroom hg]
  rfl

/-! ### START-LANE outside READY -/

/-- A payload that is a lane number (section 11.2). -/
theorem payload_of_laneCode {r : Request} {l : LaneId} {lane : Byte} (hp : r.payload = [lane]) (hl : lane.toNat = LaneId.code l) :
    r.payload = put8 (LaneId.code l) := by rw [hp, put8, ofNat_of_toNat_eq hl]

/-- Settles O19: each lane state but READY is answered with a status alone. -/
theorem startLaneElsewhere : Obligations.StartLaneElsewhere := by
  intro s i o r lane h hp
  refine ⟨fun hlane => answered_status h (onLane_bad hp hlane), fun l hl => ⟨fun hs => ?_, fun hs => ?_, fun hs => ?_, fun hs => ?_⟩⟩
  · exact answered_status h (status := .empty) (by rw [startLane, onLane_code (payload_of_laneCode hp hl), hs])
  · refine answered_status h (status := .ok) ?_
    rw [startLane, onLane_code (payload_of_laneCode hp hl)]
    simp only [List.mem_cons, List.not_mem_nil, or_false] at hs
    rcases hs with hs | hs | hs <;> rw [hs]
  · exact answered_status h (status := .badState) (by rw [startLane, onLane_code (payload_of_laneCode hp hl), hs])
  · exact answered_status h (status := .halted) (by rw [startLane, onLane_code (payload_of_laneCode hp hl), hs])

end Sys2Proof.Machine
end

