-- ==== Sys2Proof/Proofs/LaneStarts.lean ====
section
/-! PROOF. START-LANE in READY: the activation of the head, and the sync wait that it may enter. -/

namespace Sys2Proof.Machine

open Sys2Proof

theorem ActsAlike.refl (l : LaneId) (s : State) : ActsAlike l s s := ⟨rfl, rfl, rfl, rfl, rfl, rfl, fun _ => ⟨rfl, rfl⟩⟩

/-- A homing run begins as it does where no axis differs but in its hold timer (R107). -/
theorem runBegun_of_untimed {t u : State} (h : ∀ a, (u.axis a).untimed = (t.axis a).untimed) (g : Segment) : runBegun u g = runBegun t g :=
  runBegun_congr g fun a => ⟨(congrArg Axis.home (h a) :), (congrArg Axis.homeLevel (h a) :)⟩

/-- START-LANE in READY activates the head, with the hold timers settled and the reply ahead of any report (R12, R53, R156). -/
theorem startLane_activates {s : State} {i : SlotId} {o : Nat} {r : Request} {l : LaneId} (h : Executes .startLane s i o r)
    (hp : r.payload = put8 (LaneId.code l)) (hs : (s.lane l).state = .ready) :
    ∃ t, exec .startLane s = .next t ∧ SameElsewhere s t ∧ HoldTimersSettled s t ∧
      t.link = linkAnswered s.link i o r (replyOf r 0 []) .nothing ∧ t.lanes = (activate l s.onTick s).lanes ∧
      t.sync = (activate l s.onTick s).sync ∧ t.reports = (activate l s.onTick s).reports ∧
      ∀ a, (t.axis a).untimed = ((activate l s.onTick s).axis a).untimed := by
  refine answered_lane h (withLength 1 1 startLane) (p := Reply.only .ok) ?_ rfl (activate_frame l s.onTick s)
  rw [startLane, onLane_code hp, hs]

/-- Which axes a segment energises that begins, or that an activation prepares (R13, R51). -/
theorem energiseIf_motion_axis (l : LaneId) (g : Segment) (s : State) (a : AxisId) :
    (if g.isMotion then energiseLane l s else s).axis a =
      if g.kind ≠ .dwell ∧ (s.axis a).owner = some l then { s.axis a with energised := true } else s.axis a :=
  (energiseIf_axis g.isMotion l s a).trans (by simp only [isMotion_iff])

/-- The activation of a head with no SYNC touches no lane but its own, and energises the axes of its lane alone (R13). -/
theorem activate_unsynced {l : LaneId} {s : State} {g : Segment} {rest : List Segment} (atTick : Bool) (hq : (s.lane l).queue = g :: rest)
    (hsync : ∀ k, g.start ≠ .sync k) :
    (activate l atTick s).lane l = activatedLane l g atTick s ∧ (activate l atTick s).lane (otherLane l) = s.lane (otherLane l) ∧
    (activate l atTick s).sync = s.sync ∧ (activate l atTick s).reports = s.reports ∧
    ∀ a, (activate l atTick s).axis a =
      if g.kind ≠ .dwell ∧ (s.axis a).owner = some l then { s.axis a with energised := true } else s.axis a := by
  rw [activate_eq atTick hq hsync, energiseIf_fields]
  refine ⟨State.lane_setLane_self .., ?_, rfl, rfl, fun a => ?_⟩
  · rw [State.lane_setLane, if_neg (otherLane_ne l)]; rfl
  · exact energiseIf_motion_axis l g s a

/-- Settles O20: the lane is `activatedLane`, field by field. -/
theorem startLaneActivates : Obligations.StartLaneActivates := by
  intro s i o r l g rest h hp hs hq hsync v settles line
  have hsettles : Machine.settles l g s = true ↔ settles := settles_iff l g s
  have hline : g.triggerLine = line := triggerLine_eq g
  obtain ⟨hlane, hother, hsynced, hreports, haxis⟩ := activate_unsynced (l := l) s.onTick hq hsync
  obtain ⟨t, ht, same, timers, link, lanes, sync, reports, axes⟩ := startLane_activates h hp hs
  have hu : t.lane l = activatedLane l g s.onTick s := by rw [← hlane, State.lane, lanes]; rfl
  refine ⟨t, ht, same, timers, link, reports.trans hreports, sync.trans hsynced, ?_, fun a => ?_, ?_⟩
  · rw [← hother, State.lane, lanes]; rfl
  · rw [axes, haxis]; split <;> rfl
  dsimp only
  rw [hu]
  refine ⟨rfl, rfl, rfl, rfl, rfl, rfl, rfl, rfl, fun entries i1 n hb => startAccumulators_get hb, fun n hb => ?_, fun k => ?_, fun k => ?_,
    fun k => ?_, fun k1 k2 => ?_⟩
  · simp [activatedLane, Segment.dwellCount, hb]
  · simp [activatedLane, hsettles.2 k, hline, v]
  · simp [activatedLane, Bool.eq_false_iff.2 (mt hsettles.1 k), hline]
  · have waits : (Machine.settles l g s || g.triggerLine.isSome) = true := by
      rw [Bool.or_eq_true, hsettles, hline, Option.isSome_iff_ne_none]; exact k
    simp only [activatedLane, waits, if_true]
    exact ⟨trivial, trivial, fun a limit preset hb => by simp [Segment.startRun, hb]⟩
  · have begins : (Machine.settles l g s || g.triggerLine.isSome) = false := by
      rw [hline, k2, Bool.eq_false_iff.2 (mt hsettles.1 k1)]; rfl
    simp only [activatedLane, begins, Bool.false_eq_true, if_false, startPhase_eq]
    exact ⟨fun e => by simp [e], fun e => by simp [e], fun a limit preset hb => by simp [runBegun, hb]⟩

/-- Settles O21: the activation's decision of the sync wait, in the state with the hold timers settled. -/
theorem syncEntryDecided : Obligations.SyncEntryDecided := by
  intro s i o r l g rest k h hp hs hq hk law
  obtain ⟨decided, -, hreports, haxis⟩ := activate_spec s.onTick hq (law.mayActivate (l := l) (by rw [hs]; decide) (by rw [hs]; decide))
  obtain ⟨t, ht, same, timers, link, lanes, sync, reports, axes⟩ := startLane_activates h hp hs
  refine ⟨t, ht, same, timers, link, reports.trans hreports,
    (ActsAlike.refl l s).syncDecided (decided k hk) lanes sync (runBegun_of_untimed axes), fun a => ⟨fun up => ?_, fun up => ?_⟩⟩
  · rw [axes, (haxis a).1 up]; rfl
  · rw [axes, (haxis a).2 up]

end Sys2Proof.Machine
end

