-- ==== Sys2Proof/Proofs/LaneEvents.lean ====
section
/-! PROOF. The end of a device reset, and the events that end an interval or a wait of a lane: a completion and its handover, the
next interval, a HOME's detection, the settle expiry and the sync timeout. -/

namespace Sys2Proof.Machine

open Sys2Proof

/-! ### The end of a device reset -/

/-- At the end of a device reset no reply is held, so the transmitter begins the frame of RESTARTED 0 (R150, R178, R188). -/
theorem beginFrame_endReset (cause : ResetCause) (rate1 rate0 : Level) (s : State) :
    beginFrame (endReset cause rate1 rate0 s) =
      let t := endReset cause rate1 rate0 s
      let r : Report := ⟨0, 0, .restarted cause 1⟩
      { t with
        link := { t.link with tx := .sending (.report 0) (reportFrame r) ((reportFrame r).length * 10 * bitWeight) }
        reports := { t.reports with head := .sending } } := rfl

/-- Settles O38: every block at its reset value, with that one frame begun. -/
theorem resetEnds : Obligations.ResetEnds := by
  intro s cause elapsed rate1 rate0 hp rate restarted idle axis line
  refine ⟨beginFrame (endReset cause rate1 rate0 s), ?_, ?_⟩
  · change execDeviceResetEnd rate1 rate0 s = _
    unfold execDeviceResetEnd; rw [hp]
  rw [beginFrame_endReset]
  have hrate : pinRate rate1 rate0 = rate := by cases rate1 <;> cases rate0 <;> rfl
  exact ⟨rfl, rfl, rfl, rfl, rfl, rfl, rfl, rfl, rfl, rfl, rfl, rfl, rfl, rfl, hrate, hrate, rfl, rfl, rfl, rfl, rfl, rfl, rfl, rfl, rfl,
    fun a => by cases a <;> rfl⟩

/-! ### Completions -/

/-- An event that brings lane `l` to `X` and completes its active segment there, `X` differing in nothing that the completion
reads (R16 to R18). -/
theorem onEvent_completes {f : State → Option State} {s X : State} {l : LaneId} {g : Segment} {rest : List Segment}
    {home : Option HomeResult} {atTick : Bool} (hr : s.power = .running) (law : LaneLaw s) (hs : (s.lane l).busy = true)
    (hw : (s.lane l).state ≠ .waiting) (hf : f s = some (complete l home atTick X)) (frame : LaneFrame s X) (alike : ActsAlike l s X)
    (hq : (X.lane l).queue = g :: rest) (hhalt : (X.lane l).halt = (s.lane l).halt) (hreports : X.reports = s.reports) :
    ∃ t, onEvent f s = .next t ∧ LaneEvent s t ∧ Completed l g rest home atTick s t ∧
      ∀ a, (t.axis a).unpowered = (X.axis a).unpowered := by
  obtain ⟨t, ht, event, lanes, sync, chooses, axes, -⟩ := onEvent_spec hr hf (frame.trans (complete_frame l home atTick X))
  have halted : (s.lane l).state ≠ .halted := fun e => by rw [Lane.busy, e] at hs; cases hs
  have may : MayActivate l X := (law.mayActivate halted hw).congr hhalt alike.sync alike.other
  exact ⟨t, ht, event, completed_of hq may alike hreports.symm lanes sync chooses axes⟩

/-- The active segment of a lane whose step timer counts (R26). -/
theorem Lane.timing_eq {v : Lane} {state : LaneState} {g : Segment} {rest : List Segment} {left : Nat} {begun : Bool}
    (hs : v.state = state) (hq : v.queue = g :: rest) (ht : v.stepTimer = .counting left begun) : v.timing state = some g := by
  unfold Lane.timing; rw [ht, hq]; exact if_pos hs

/-- Settles O41: the last step event takes its steps, and completes. -/
theorem moveCompletes : Obligations.MoveCompletes := by
  intro s l g rest entries i1 n left begun hr law hs hq hb ht hpass hlast
  have hlane := takeMoveStep_lane l entries n s l
  rw [if_pos rfl] at hlane
  have hstep : runMoveStep l entries g.firstInterval i1 n s = complete l none true (takeMoveStep l entries n s) := by
    unfold runMoveStep
    rw [moveFailure_none hpass]
    exact if_pos (by rw [hlane]; exact Nat.le_of_eq hlast.symm)
  obtain ⟨t, ht, event, completed, axes⟩ : ∃ t, execStepEvent l s = .next t ∧ LaneEvent s t ∧ Completed l g rest none true s t ∧
      ∀ a, (t.axis a).unpowered = ((takeMoveStep l entries n s).axis a).unpowered :=
    onEvent_completes hr law (by rw [Lane.busy, hs]) (by rw [hs]; decide) (by simp only [Lane.timing_eq hs hq ht, hb, hstep])
      (takeMoveStep_frame ..) (takeMoveStep_alike ..) (by rw [hlane]; exact hq) (by rw [hlane]) rfl
  refine ⟨t, ht, event, completed, fun a => ⟨fun due => ?_, fun due => ?_⟩⟩
  · rw [axes, takeMoveStep_axis, if_pos ((due_iff ..).2 due)]
  · rw [axes, takeMoveStep_axis, if_neg (mt (due_iff ..).1 due)]

/-! ### Dwell intervals -/

/-- A dwell interval with another behind it starts the next (R38). -/
theorem runDwell_next {l : LaneId} {s : State} (i0 : Nat) (h : 2 ≤ (s.lane l).dwellLeft) :
    runDwell l i0 s = s.setLane l { s.lane l with
      dwellLeft := (s.lane l).dwellLeft - 1, interval := i0, stepTimer := .counting i0 true } := by
  unfold runDwell startInterval
  rw [if_neg (by omega), State.lane_setLane_self]
  simp [State.setLane]

/-- The last dwell interval completes the DWELL (R38). -/
theorem runDwell_last {l : LaneId} {s : State} (i0 : Nat) (h : (s.lane l).dwellLeft ≤ 1) : runDwell l i0 s = complete l none true s := by
  unfold runDwell; exact if_pos (by omega)

/-- Settles O43: `runDwell` by the intervals left. -/
theorem dwellIntervalsRun : Obligations.DwellIntervalsRun := by
  intro s l g rest n left begun hr law hs hq hb ht v
  have hexec : execDwellIntervalExpiry l s = onEvent (fun s => some (runDwell l g.firstInterval s)) s := by
    unfold execDwellIntervalExpiry onEvent
    simp only [Lane.timing_eq hs hq ht, hb]
  rcases Nat.lt_or_ge 1 v.dwellLeft with h | h
  · have hnext := runDwell_next g.firstInterval h
    obtain ⟨t, ht, event, lanes, sync, chooses, axes, -⟩ := onEvent_spec (f := fun s => some (runDwell l g.firstInterval s))
      hr rfl (by rw [hnext]; exact .setLane ..)
    rw [hnext] at lanes sync chooses axes
    exact ⟨t, hexec.trans ht, event, fun _ => ⟨axes, chooses, sync, lanes⟩, fun k => absurd h (by omega)⟩
  · obtain ⟨t, ht, event, completed⟩ := onEvent_completes (f := fun s => some (runDwell l g.firstInterval s)) hr law
      (by rw [Lane.busy, hs]) (by rw [hs]; decide) (congrArg some (runDwell_last _ h)) (.refl s) (.refl l s) hq rfl rfl
    exact ⟨t, hexec.trans ht, event, fun k => absurd h (by omega), fun _ => completed⟩

/-! ### The detection of a HOME -/

/-- The record of axis `a` after its home filter has passed the raw level (R104). -/
def Axis.homePassed (x : Axis) : Axis := { x with home := ⟨x.home.raw, x.home.raw, none⟩ }

/-- The part after the filter of axis `a` has passed, before its lane acts (R104). -/
def State.homePassed (s : State) (a : AxisId) : State := s.setAxis a (s.axis a).homePassed

theorem passHomeFilter_owned {s : State} {l : LaneId} {a : AxisId} (ho : (s.axis a).owner = some l) :
    passHomeFilter a s = homeEvent l a ((s.axis a).home.raw = (s.axis a).homeLevel) (s.homePassed a) := by
  unfold passHomeFilter; dsimp only
  split
  · rename_i l' h; rw [ho] at h; cases h; rfl
  · rename_i h; rw [ho] at h; cases h

/-- A home-line event of a lane that runs a HOME of the axis acts by the phase (R109 to R111). -/
theorem homeEvent_homing {s : State} {l : LaneId} {g : Segment} {rest : List Segment} {a : AxisId} {limit : Nat} {preset : Int}
    {h : HomingRun} (hs : (s.lane l).state = .running ∨ (s.lane l).state = .held) (hq : (s.lane l).queue = g :: rest)
    (hb : g.body = .home a limit preset) (hh : (s.lane l).homing = some h) :
    (h.phase = .leave → homeEvent l a false s = s.setLane l { s.lane l with homing := some { h with phase := .seek } }) ∧
    (h.phase = .seek → homeEvent l a true s = detectHome l a preset s) ∧
    (h.phase = .leave → homeEvent l a true s = s) ∧ (h.phase = .seek → homeEvent l a false s = s) := by
  have hrun : ((s.lane l).state = .running || (s.lane l).state = .held) = true := by simpa using hs
  have hbody : (s.lane l).queue.head?.map Segment.body = some (.home a limit preset) := by rw [hq]; exact congrArg some hb
  unfold homeEvent
  simp only [hrun, hbody, hh, if_true]
  exact ⟨fun h => by rw [h], fun h => by rw [h], fun h => by rw [h], fun h => by rw [h]⟩

theorem LaneFrame.setAxis {s : State} {a : AxisId} {x : Axis} (h : x.holdTimer = (s.axis a).holdTimer) : LaneFrame s (s.setAxis a x) :=
  .of_eq _ _ _ _ rfl fun b => by
    change ((s.setAxis a x).axis b).holdTimer = _
    rw [State.axis_setAxis]; split
    · rename_i e; rw [e]; exact h
    · rfl

theorem homePassed_frame (s : State) (a : AxisId) : LaneFrame s (s.homePassed a) := .setAxis rfl

theorem homePassed_holdRuns (s : State) (a b : AxisId) : s.holdRuns b = (s.homePassed a).holdRuns b :=
  holdRuns_setAxis (x := (s.axis a).homePassed) rfl rfl rfl b

theorem homePassed_position (s : State) (a b : AxisId) : ((s.homePassed a).axis b).position = (s.axis b).position := by
  rw [State.homePassed, State.axis_setAxis]; split
  · rename_i e; rw [e]; rfl
  · rfl

/-- Nothing that an activation reads is in the rest of an axis. -/
theorem ActsAlike.setAxis {s : State} {a : AxisId} {x : Axis} (l : LaneId) (ho : x.owner = (s.axis a).owner)
    (he : x.energised = (s.axis a).energised) : ActsAlike l s (s.setAxis a x) := by
  refine ⟨rfl, rfl, rfl, rfl, rfl, rfl, fun b => ?_⟩
  rw [State.axis_setAxis]; split
  · rename_i e; rw [e]; exact ⟨ho, he⟩
  · exact ⟨rfl, rfl⟩

/-- The filter pass alone, with a change of lane `l` that leaves what it executes (R104, R110). -/
theorem onEvent_homePassed {f : State → Option State} {s : State} {l : LaneId} {a : AxisId} {v : Lane} (hr : s.power = .running)
    (hf : f s = some ((s.homePassed a).setLane l v)) (hv : v.executing = (s.lane l).executing) :
    ∃ t, onEvent f s = .next t ∧ LaneEvent s t ∧ t.axes = s.axes.set a (s.axis a).homePassed ∧ ChoosesFrom s.link s.reports t ∧
      t.lanes = s.lanes.set l v ∧ t.sync = s.sync := by
  obtain ⟨t, ht, event, lanes, sync, chooses, -, axes⟩ := onEvent_spec hr hf ((homePassed_frame s a).trans (.setLane ..))
  exact ⟨t, ht, event, axes fun b => (homePassed_holdRuns s a b).trans (holdRuns_setLane (s := s.homePassed a) hv b), chooses, lanes, sync⟩

/-- What is reported of lanes that halt reads the lanes, the entries and the positions alone. -/
theorem haltReports_congr {l : LaneId} {h : HaltInfo} {s t : State} (q : ReportQueue) (hl : t.lanes = s.lanes) (hs : t.sync = s.sync)
    (hp : ∀ a, (t.axis a).position = (s.axis a).position) : haltReports l h t q = haltReports l h s q := by
  simp only [haltReports, stoppedReport, State.lane, hl, hs, hp]

/-- The preset lies outside the window: the lane halts with HOME-WINDOW (R111). -/
theorem onEvent_homeOutside {f : State → Option State} {s : State} {l : LaneId} {a : AxisId} {h : HaltInfo} (hr : s.power = .running)
    (law : LaneLaw s) (hs : (s.lane l).state ≠ .halted) (hf : f s = some (halt l h (s.homePassed a))) :
    ∃ t, onEvent f s = .next t ∧ LaneEvent s t ∧ (∀ b, (t.axis b).untimed = ((s.homePassed a).axis b).untimed) ∧
      HaltsLane l h s t ∧ ChoosesFrom s.link (haltReports l h s s.reports) t := by
  have waits : s.sync.get (otherLane l) ≠ none → (s.lane (otherLane l)).state ≠ .halted := fun k => by
    rw [law.waiting_of_entry k]; decide
  obtain ⟨halts, reports⟩ := halt_spec (s := s.homePassed a) h hs waits
  obtain ⟨t, ht, event, lanes, sync, chooses, axes, -⟩ := onEvent_spec hr hf ((homePassed_frame s a).trans (halt_frame ..))
  have hl : ∀ m, t.lane m = (halt l h (s.homePassed a)).lane m := fun m => by simp only [State.lane, lanes]
  have axes' : ∀ b, (t.axis b).untimed = ((s.homePassed a).axis b).untimed := fun b => by
    rw [axes, State.axis, halt_axes]; rfl
  refine ⟨t, ht, event, axes',
    ⟨(hl _).trans halts.lane, sync.trans halts.entries, fun k => (hl _).trans (halts.other k), fun k => (hl _).trans (halts.broken k)⟩, ?_⟩
  rw [reports] at chooses
  rwa [show (s.homePassed a).reports = s.reports from rfl,
    haltReports_congr (s := s) (t := s.homePassed a) s.reports rfl rfl (homePassed_position s a)] at chooses

/-- The detection of a HOME, by the window of its axis (R111). -/
theorem detectHome_homePassed (l : LaneId) (a : AxisId) (preset : Int) (s : State) :
    detectHome l a preset (s.homePassed a) =
      if (s.axis a).windowMin ≤ preset ∧ preset ≤ (s.axis a).windowMax then
        complete l (some ⟨(s.lane l).stepCount, (s.axis a).position⟩) s.onTick
          (s.setAxis a { (s.axis a).homePassed with position := preset })
      else halt l ⟨.homeWindow, some a⟩ (s.homePassed a) := by
  have e : (s.homePassed a).axis a = (s.axis a).homePassed := State.axis_setAxis_self ..
  have e' : ∀ x, (s.homePassed a).setAxis a x = s.setAxis a x := fun x => by simp [State.homePassed, State.setAxis]
  unfold detectHome
  rw [e]; dsimp only
  rw [e']
  simp only [Axis.inWindow, Bool.and_eq_true, decide_eq_true_eq]
  rfl

/-- An axis that differs in its hold timer or its energise state alone. -/
theorem unpowered_of_untimed {x y : Axis} (h : x.untimed = y.untimed) : x.unpowered = y.unpowered :=
  (congrArg (fun z : Axis => { z with energised := false }) h :)

/-- Settles O46: the event by the phase of the run, the new level and the window. -/
theorem homeDetected : Obligations.HomeDetected := by
  intro s l g rest a limit preset h hr law hs hq hb hh ho hm v x y inside
  have hexec : execHomeFilteredChange a s = onEvent (fun s => some (passHomeFilter a s)) s := by
    unfold execHomeFilteredChange onEvent
    simp only [Option.isSome_iff_ne_none.2 hm, if_true]
  obtain ⟨turns, detects, stays, quiet⟩ := homeEvent_homing (s := s.homePassed a) (a := a) hs hq hb hh
  have hpass := passHomeFilter_owned ho
  have other : ∀ {t : State}, t.axes = s.axes.set a y → ∀ b, b ≠ a → (t.axis b).unpowered = (s.axis b).unpowered := fun h b k => by
    rw [State.axis, h, PerAxis.get_set_of_ne _ _ k]; rfl
  have still : (s.homePassed a).setLane l v = s.homePassed a := State.setLane_lane (s.homePassed a) l
  have chosen : h.phase ≠ .notChosen := fun k => by
    have := ((law.lanes l).phaseIff h hh).1 k
    rcases hs with e | e <;> rw [e] at this <;> cases this
  cases hp : h.phase with
  | notChosen => exact absurd hp chosen
  | leave =>
    by_cases active : x.home.raw = x.homeLevel
    · rw [decide_eq_true active, stays hp, ← still] at hpass
      obtain ⟨t, ht, event, axes, -⟩ := onEvent_homePassed (f := fun s => some (passHomeFilter a s)) hr
        (congrArg some hpass) rfl
      exact ⟨t, hexec.trans ht, event, other axes, fun _ k => absurd active k, nofun, nofun, nofun⟩
    · rw [decide_eq_false active, turns hp] at hpass
      obtain ⟨t, ht, event, axes, chooses, lanes, sync⟩ := onEvent_homePassed (f := fun s => some (passHomeFilter a s)) hr
        (congrArg some hpass) rfl
      exact ⟨t, hexec.trans ht, event, other axes, fun _ _ => ⟨axes, chooses, lanes, sync⟩, nofun, nofun,
        nofun⟩
  | seek =>
    by_cases active : x.home.raw = x.homeLevel
    · rw [decide_eq_true active, detects hp, detectHome_homePassed] at hpass
      by_cases hin : inside
      · rw [if_pos hin] at hpass
        obtain ⟨t, ht, event, completed, axes⟩ := onEvent_completes (f := fun s => some (passHomeFilter a s)) (g := g) (rest := rest) hr law
          (by rcases hs with e | e <;> rw [Lane.busy, e]) (by rcases hs with e | e <;> rw [e] <;> decide)
          (congrArg some hpass) (.setAxis rfl) (.setAxis l rfl rfl) hq rfl rfl
        refine ⟨t, hexec.trans ht, event, fun b k => ?_, nofun, fun _ k => absurd active k, fun _ _ _ => ⟨?_, completed⟩,
          fun _ _ k => absurd hin k⟩
        · rw [axes, State.axis_setAxis_of_ne _ _ k]
        · rw [axes, State.axis_setAxis_self]; rfl
      · rw [if_neg hin] at hpass
        obtain ⟨t, ht, event, axes, halts, chooses⟩ := onEvent_homeOutside (f := fun s => some (passHomeFilter a s)) hr law
          (by rcases hs with e | e <;> rw [e] <;> decide) (congrArg some hpass)
        refine ⟨t, hexec.trans ht, event, fun b k => unpowered_of_untimed ?_, nofun, fun _ k => absurd active k,
          fun _ _ k => absurd k hin, fun _ _ _ => ⟨unpowered_of_untimed ?_, halts, chooses⟩⟩
        · rw [axes, State.homePassed, State.axis_setAxis_of_ne _ _ k]
        · rw [axes, State.homePassed, State.axis_setAxis_self]; rfl
    · rw [decide_eq_false active, quiet hp, ← still] at hpass
      obtain ⟨t, ht, event, axes, chooses, lanes, sync⟩ := onEvent_homePassed (f := fun s => some (passHomeFilter a s)) hr
        (congrArg some hpass) rfl
      refine ⟨t, hexec.trans ht, event, other axes, nofun, fun _ _ => ⟨axes, chooses, ?_, sync⟩, fun _ k => absurd k active,
        fun _ k => absurd k active⟩
      rw [lanes]; exact PerLane.set_get ..

/-! ### The settle expiry and the sync timeout -/

/-- A waiting lane without SETTLE (R66). -/
def Lane.settled (v : Lane) : Lane := { v with settleTimer := none, unmet := { v.unmet with settle := false } }

/-- The settle expiry of a lane whose settle timer runs (R66). -/
theorem settleExpiry_eq {s : State} {l : LaneId} (h : (s.lane l).settleTimer ≠ none) :
    execSettleExpiry l s = onEvent (fun s => some (leaveIfMet l s.onTick (s.setLane l (s.lane l).settled))) s := by
  unfold execSettleExpiry onEvent
  simp only [Option.isSome_iff_ne_none.2 h, if_true, Lane.settled]

/-- SETTLE was the last condition: the lane leaves WAITING with its active segment `g` (R15, R51, R66, R107). -/
theorem leaveIfMet_settled {s : State} {l : LaneId} {g : Segment} {rest : List Segment} (atTick : Bool) (hs : (s.lane l).state = .waiting)
    (htrigger : (s.lane l).unmet.trigger = none) (hsync : (s.lane l).unmet.sync = false) (hq : (s.lane l).queue = g :: rest) :
    leaveIfMet l atTick (s.setLane l (s.lane l).settled) =
      (if g.isMotion then energiseLane l s else s).setLane l
        ((s.lane l).leftWaiting g (runBegun s g) (s.holdAsserted l) atTick) := by
  have hlane : (s.setLane l (s.lane l).settled).lane l = (s.lane l).settled := State.lane_setLane_self ..
  have hmet : (s.lane l).settled.unmet = ⟨false, none, false⟩ := by simp [Lane.settled, htrigger, hsync]
  have hhold : (s.setLane l (s.lane l).settled).holdAsserted l = s.holdAsserted l := holdAsserted_congr l (by rw [hlane]; rfl) rfl
  rw [leaveIfMet_of_met (l := l) (g := g) (rest := rest) atTick (by rw [hlane]; exact hs) (by rw [hlane]; exact hq) (by rw [hlane]; exact hmet),
    hlane, hhold, startPhase_eq, runBegun_congr (s := s) (t := s.setLane l _) g fun a => ⟨rfl, rfl⟩]
  cases g.isMotion <;> simp [Lane.settled, Lane.leftWaiting, energiseLane, State.setLane, htrigger, hsync]

/-- Settles O47: the settle expiry by what is left unmet; the sync timeout as a halt that finds no entry of the other lane. -/
theorem waitExpiriesAct : Obligations.WaitExpiriesAct := by
  intro s l hr law v
  refine ⟨fun ht hleft => ?_, fun g rest ht htrigger hsync hq => ?_, fun number timer he => ?_⟩
  · have unmet : ((s.setLane l v.settled).lane l).unmet ≠ ⟨false, none, false⟩ := by
      rw [State.lane_setLane_self]
      rcases hleft with k | k
      · exact fun e => k (congrArg Unmet.trigger e)
      · exact fun e => by rw [show v.unmet.sync = false from congrArg Unmet.sync e] at k; cases k
    obtain ⟨t, hexec, chooses⟩ := onEvent_chooses (f := fun s => some (leaveIfMet l s.onTick (s.setLane l (s.lane l).settled))) hr
      (congrArg some (leaveIfMet_of_unmet _ unmet)) rfl (holdRuns_setLane rfl)
    exact ⟨t, (settleExpiry_eq ht).trans hexec, chooses⟩
  · have waiting : v.state = .waiting := law.waiting_of_unmet fun e => by
      have := (law.lanes l).settleIff
      rw [e, Option.isSome_iff_ne_none.2 ht] at this; cases this
    have leaves := leaveIfMet_settled s.onTick waiting htrigger hsync hq
    obtain ⟨t, hexec, event, lanes, sync, chooses, axes, -⟩ := onEvent_spec
      (f := fun s => some (leaveIfMet l s.onTick (s.setLane l (s.lane l).settled))) hr rfl ((LaneFrame.setLane ..).trans (leaveIfMet_frame ..))
    rw [leaves, energiseIf_fields] at lanes sync chooses axes
    refine ⟨t, (settleExpiry_eq ht).trans hexec, event, chooses, sync, fun a => ?_, lanes⟩
    rw [axes]
    exact (congrArg Axis.untimed (energiseIf_motion_axis l g s a)).trans (apply_ite Axis.untimed ..)
  · have waiting := law.waiting_of_entry (l := l) (by rw [he]; exact Option.some_ne_none _)
    have alone : s.sync.get (otherLane l) = none := (law.one l).resolve_left (by rw [he]; exact Option.some_ne_none _)
    have halted : (s.lane l).state ≠ .halted := by rw [waiting]; decide
    obtain ⟨halts, reports⟩ := halt_spec (l := l) (s := s) ⟨.syncTimeout, none⟩ halted fun k => absurd alone k
    have hreports : haltReports l ⟨.syncTimeout, none⟩ s s.reports = s.reports.hand (stoppedReport s l (some ⟨.syncTimeout, none⟩)) := by
      unfold haltReports; exact if_neg (not_not_intro alone)
    have hexec : execSyncTimeoutExpiry l s = onEvent (fun s => some (halt l ⟨.syncTimeout, none⟩ (s.setSync l none))) s := by
      unfold execSyncTimeoutExpiry onEvent; simp only [he]
    obtain ⟨t, ht, event, lanes, sync, chooses, axes, -⟩ := onEvent_spec
      (f := fun s => some (halt l ⟨.syncTimeout, none⟩ (s.setSync l none))) hr (congrArg some (halt_setSync _ halted)) (halt_frame ..)
    have hl : ∀ m, t.lane m = (halt l ⟨.syncTimeout, none⟩ s).lane m := fun m => by simp only [State.lane, lanes]
    refine ⟨t, hexec.trans ht, event, fun a => by rw [axes, State.axis, halt_axes]; rfl, ⟨(hl _).trans halts.lane, sync.trans halts.entries,
      fun k => (hl _).trans (halts.other k), fun k => (hl _).trans (halts.broken k)⟩, (hl _).trans (halts.other alone), ?_⟩
    rw [reports, hreports] at chooses
    exact chooses

end Sys2Proof.Machine
end

