-- ==== Sys2Proof/Proofs/StepEvents.lean ====
section
/-! PROOF. Step generation within a segment: the spread of the steps over the step events, and the step events of a MOVE and of a
HOME, where they take effect and where they fail. -/

namespace Sys2Proof.Machine

open Sys2Proof

/-! ### The spread of the steps over the step events (R30 to R32) -/

/-- An axis is due at a step event exactly where its sum reaches N, which a sum of less than 2N does at most once (R31). -/
theorem accumulate_due {n r : Nat} {c : Int} (hr : r < n) (hc : c.natAbs ≤ n) :
    (accumulate n c (some r)).1.toNat = (r + c.natAbs) / n := by
  unfold accumulate; dsimp only
  by_cases hd : n ≤ r + c.natAbs
  · rw [if_pos hd, Nat.div_eq_sub_div (by omega) hd, Nat.div_eq_of_lt (by omega)]; rfl
  · rw [if_neg hd, Nat.div_eq_of_lt (by omega)]; rfl

/-- The steps an axis has taken and its accumulator, one step event later. -/
def accumulatorEvent (n : Nat) (c : Int) (p : Nat × Option Nat) : Nat × Option Nat :=
  (p.1 + (accumulate n c p.2).1.toNat, (accumulate n c p.2).2)

/-- The steps taken and the accumulator are the quotient and the remainder of floor(N/2) + k·|count| by N (R30, R31). -/
theorem accumulatorEvent_repeat {n : Nat} {c : Int} (hn : 1 ≤ n) (h0 : c ≠ 0) (hc : c.natAbs ≤ n) (k : Nat) :
    Nat.repeat (accumulatorEvent n c) k (0, some (n / 2)) = ((n / 2 + k * c.natAbs) / n, accumulatorAfter n k c) := by
  induction k with
  | zero =>
    have hlt : n / 2 < n := Nat.div_lt_self hn (by decide)
    rw [accumulatorAfter, if_neg h0, Nat.zero_mul, Nat.add_zero, Nat.div_eq_of_lt hlt, Nat.mod_eq_of_lt hlt]; rfl
  | succ k ih =>
    have sum : n / 2 + (k + 1) * c.natAbs = (n / 2 + k * c.natAbs) % n + c.natAbs + n * ((n / 2 + k * c.natAbs) / n) := by
      have := Nat.mod_add_div (n / 2 + k * c.natAbs) n
      rw [Nat.add_mul, Nat.one_mul]; omega
    have taken : (accumulate n c (accumulatorAfter n k c)).1.toNat = ((n / 2 + k * c.natAbs) % n + c.natAbs) / n := by
      rw [accumulatorAfter, if_neg h0, accumulate_due (Nat.mod_lt _ hn) hc]
    rw [Nat.repeat, ih, accumulatorEvent, taken, accumulate_accumulatorAfter hn hc, sum, Nat.add_mul_div_left _ _ hn, Nat.add_comm]

/-- Settles O55: the quotient and remainder by induction on the step events; after N of them the quotient is |count|, for
floor(N/2) is less than N. -/
theorem stepsSpreadExactly : Obligations.StepsSpreadExactly := by
  intro n k c hn h0 hc event taken
  have spread : ∀ k, Nat.repeat event k (0, some (n / 2)) = ((n / 2 + k * c.natAbs) / n, accumulatorAfter n k c) :=
    accumulatorEvent_repeat hn h0 hc
  refine ⟨congrArg Prod.fst (spread k), (congrArg Prod.fst (spread n)).trans ?_, congrArg Prod.snd (spread k)⟩
  change (n / 2 + n * c.natAbs) / n = c.natAbs
  rw [Nat.add_mul_div_left _ _ hn, Nat.div_eq_of_lt (Nat.div_lt_self hn (by decide)), Nat.zero_add]

/-! ### Step events of a MOVE (R28, R31, R33 to R35) -/

/-- The next interval of the linear ramp, after `k` step events of a MOVE of more than one (R28). -/
theorem rampInterval_succ {n : Nat} (i0 i1 k : Nat) (hn : 1 < n) :
    rampInterval i0 i1 n (k + 1) = ((i0 : Int) + (((i1 : Int) - i0) * k).tdiv ((n : Int) - 1)).toNat := by
  have before : ((k + 1 : Nat) : Int) - 1 = k := by omega
  rw [rampInterval, if_neg (by omega), before]

/-- The steps of a step event, and the interval that starts at once: of the lanes, its own alone changes (R28, R34). -/
theorem startInterval_takeMoveStep_lanes (l : LaneId) (entries : List (AxisId × Int)) (n m : Nat) (s : State) :
    (startInterval l m true (takeMoveStep l entries n s)).lanes =
      s.lanes.set l ((s.lane l).stepped entries n (s.lane l).ramp m) := by
  apply PerLane.eq_of_get; intro i
  change (startInterval l m true (takeMoveStep l entries n s)).lane i = _
  rw [startInterval, State.lane_setLane, takeMoveStep_lane, takeMoveStep_lane, PerLane.get_set]
  split
  · rw [if_pos rfl]; rfl
  · rfl

/-- A step event that takes effect short of the last starts the next interval (R34). -/
theorem runMoveStep_next {l : LaneId} {entries : List (AxisId × Int)} {n : Nat} {s : State} (i0 i1 : Nat)
    (hpass : allPass s l entries n) (hk : (s.lane l).stepCount + 1 < n) :
    runMoveStep l entries i0 i1 n s =
      startInterval l (rampInterval i0 i1 n ((s.lane l).stepCount + 1 + 1)) true (takeMoveStep l entries n s) := by
  have count : ((takeMoveStep l entries n s).lane l).stepCount = (s.lane l).stepCount + 1 := by rw [takeMoveStep_lane, if_pos rfl]
  unfold runMoveStep
  rw [moveFailure_none hpass]; dsimp only
  rw [count, if_neg (by omega)]

/-- The axes after the steps of a step event, in the terms of Safety.lean (R34). -/
theorem stepsTaken_takeMoveStep {l : LaneId} {entries : List (AxisId × Int)} {n : Nat} {s t : State}
    (h : ∀ a, (t.axis a).untimed = ((takeMoveStep l entries n s).axis a).untimed) : StepsTaken l entries n s t := by
  refine fun a => ⟨fun due => ?_, fun due => ?_⟩
  · rw [h, takeMoveStep_axis, if_pos ((due_iff ..).2 due)]
  · rw [h, takeMoveStep_axis, if_neg (mt (due_iff ..).1 due)]

/-- The step event of a RUNNING MOVE (R34). -/
theorem exec_stepEvent {s : State} {l : LaneId} {g : Segment} {rest : List Segment} {entries : List (AxisId × Int)}
    {i1 n left : Nat} {begun : Bool} (hs : (s.lane l).state = .running) (hq : (s.lane l).queue = g :: rest)
    (hb : g.body = .move entries i1 n) (ht : (s.lane l).stepTimer = .counting left begun) :
    exec (.stepEvent l) s = onEvent (fun s => some (runMoveStep l entries g.firstInterval i1 n s)) s := by
  change execStepEvent l s = _
  unfold execStepEvent onEvent
  simp only [Lane.timing_eq hs hq ht, hb]

/-- The step events of a controlled stop: before its ramp, and within it (R89, R91). -/
theorem exec_stopStepEvents {s : State} {l : LaneId} {g : Segment} {rest : List Segment} {entries : List (AxisId × Int)}
    {i1 n left : Nat} {begun : Bool} {r : StopRamp} (hs : (s.lane l).state = .stopping) (hq : (s.lane l).queue = g :: rest)
    (hb : g.body = .move entries i1 n) (ht : (s.lane l).stepTimer = .counting left begun) (hramp : (s.lane l).ramp = some r) :
    (r.steps = none → exec (.inProgressStepEvent l) s = onEvent (fun s => some (runInProgressStep l entries n r s)) s) ∧
    (∀ steps, r.steps = some steps →
      exec (.stopRampStepEvent l) s = onEvent (fun s => some (runStopStep l entries n r steps s)) s) := by
  have body : ((s.lane l).timing .stopping).map Segment.body = some (.move entries i1 n) := by
    rw [Lane.timing_eq hs hq ht]; exact congrArg some hb
  refine ⟨fun hsteps => ?_, fun steps hsteps => ?_⟩
  · change execInProgressStepEvent l s = _
    unfold execInProgressStepEvent onEvent
    simp only [body, hramp, hsteps, if_true]
  · change execStopRampStepEvent l s = _
    unfold execStopRampStepEvent onEvent
    simp only [body, hramp, hsteps, Option.map_some]

/-- Settles O39: the steps are taken, and the lane goes on as `Lane.stepped` with the ramp's next interval. -/
theorem stepEventTakes : Obligations.StepEventTakes := by
  intro s l g rest entries i1 n left begun hr hs hq hb ht hpass hk v k next
  have interval : rampInterval g.firstInterval i1 n (k + 1) = next := rampInterval_succ _ _ _ (by omega)
  have hstep : runMoveStep l entries g.firstInterval i1 n s = startInterval l next true (takeMoveStep l entries n s) := by
    rw [runMoveStep_next _ _ hpass hk, ← interval]
  have frame : LaneFrame s (startInterval l next true (takeMoveStep l entries n s)) := (takeMoveStep_frame ..).trans (.setLane ..)
  obtain ⟨t, hexec, event, lanes, sync, chooses, axes, -⟩ :=
    onEvent_spec (f := fun s => some (runMoveStep l entries g.firstInterval i1 n s)) hr (congrArg some hstep) frame
  exact ⟨t, _, (exec_stepEvent hs hq hb ht).trans hexec, event, chooses, sync, stepsTaken_takeMoveStep axes, accumulators_step entries n v.accumulators,
    lanes.trans (startInterval_takeMoveStep_lanes ..)⟩

/-- An event whose effect is the halt procedure moves no axis, halts the lane and reports it (R35, R78, R94, R101). -/
theorem onEvent_halts {f : State → Option State} {s : State} {l : LaneId} {h : HaltInfo} (hr : s.power = .running)
    (law : LaneLaw s) (hs : (s.lane l).state ≠ .halted) (hf : f s = some (halt l h s)) :
    ∃ t, onEvent f s = .next t ∧ LaneEvent s t ∧ AxesKept s t ∧ HaltsLane l h s t ∧
      ChoosesFrom s.link (haltReports l h s s.reports) t := by
  have waits : s.sync.get (otherLane l) ≠ none → (s.lane (otherLane l)).state ≠ .halted := fun k => by
    rw [law.waiting_of_entry k]; decide
  obtain ⟨halts, reports⟩ := halt_spec h hs waits
  obtain ⟨t, ht, event, lanes, sync, chooses, axes, -⟩ := onEvent_spec hr hf (halt_frame ..)
  have hl : ∀ m, t.lane m = (halt l h s).lane m := fun m => by simp only [State.lane, lanes]
  refine ⟨t, ht, event, fun a => ?_,
    ⟨(hl _).trans halts.lane, sync.trans halts.entries, fun k => (hl _).trans (halts.other k), fun k => (hl _).trans (halts.broken k)⟩,
    reports ▸ chooses⟩
  rw [axes, State.axis, halt_axes]; rfl

/-- A lane whose step timer counts is RUNNING or STOPPING (R26). -/
theorem LaneOk.counting {v : Lane} (ok : LaneOk v) {left : Nat} {begun : Bool} (ht : v.stepTimer = .counting left begun) :
    v.state = .running ∨ v.state = .stopping := by
  have fits := ok.timer
  rw [ht] at fits
  cases hs : v.state <;> rw [hs] at fits
  case running => exact .inl rfl
  case stopping => exact .inr rfl
  all_goals exact fits.elim

section
variable {l : LaneId} {entries : List (AxisId × Int)} {n : Nat} {s : State} {h : HaltInfo}
  (hf : moveFailure l entries n s = some h)
include hf

theorem runMoveStep_fails (i0 i1 : Nat) : runMoveStep l entries i0 i1 n s = halt l h s := by unfold runMoveStep; rw [hf]

theorem runInProgressStep_fails (r : StopRamp) : runInProgressStep l entries n r s = halt l h s := by
  unfold runInProgressStep; rw [hf]

theorem runStopStep_fails (r : StopRamp) (steps : Nat) : runStopStep l entries n r steps s = halt l h s := by
  unfold runStopStep; rw [hf]

end

/-- Settles O40: in each of the three rows the failed check makes the effect the halt procedure. -/
theorem stepEventFails : Obligations.StepEventFails := by
  intro s l g rest entries i1 n left begun a cause hr law hq hb ht bars leaves hfail row
  have failure : moveFailure l entries n s = some ⟨cause, some a⟩ := by
    rcases hfail with ⟨rfl, bar, lowest⟩ | ⟨rfl, pass, leave, lowest⟩
    · exact moveFailure_limit bar lowest
    · exact moveFailure_window pass leave lowest
  rcases (law.lanes l).counting ht with hs | hs
  · have hrow : row = .stepEvent l := by simp only [row, hs]
    rw [hrow, exec_stepEvent hs hq hb ht]
    exact onEvent_halts hr law (by rw [hs]; decide) (congrArg some (runMoveStep_fails failure ..))
  · obtain ⟨r, hramp⟩ := Option.isSome_iff_exists.1 ((law.lanes l).rampIff.2 hs)
    obtain ⟨inProgress, stopRamp⟩ := exec_stopStepEvents hs hq hb ht hramp
    cases hsteps : r.steps with
    | none =>
      have hrow : row = .inProgressStepEvent l := by simp only [row, hs, hramp, Option.bind_some, hsteps]
      rw [hrow, inProgress hsteps]
      exact onEvent_halts hr law (by rw [hs]; decide) (congrArg some (runInProgressStep_fails failure r))
    | some steps =>
      have hrow : row = .stopRampStepEvent l := by simp only [row, hs, hramp, Option.bind_some, hsteps]
      rw [hrow, stopRamp steps hsteps]
      exact onEvent_halts hr law (by rw [hs]; decide) (congrArg some (runStopStep_fails failure r steps))

/-! ### Homing steps (R36, R108) -/

/-- A homing step is toward home in SEEK and away from it in LEAVE (R108). -/
theorem homeForward_eq (x : Axis) {p : HomePhase} (h : p ≠ .notChosen) :
    homeForward x p = decide ((p = .seek) ↔ (x.homeDir = .forward)) := by
  cases p with
  | notChosen => exact absurd rfl h
  | leave => cases hd : x.homeDir <;> simp [homeForward, hd]
  | seek => simp [homeForward]

/-- A homing step that leaves the window halts the lane with WINDOW (R33, R36). -/
theorem runHomingStep_fails {a : AxisId} {h : HomingRun} {s : State} (l : LaneId) (limit i0 : Nat)
    (hw : windowBars (s.axis a) (homeForward (s.axis a) h.phase)) :
    runHomingStep l a limit i0 h s = halt l ⟨.window, some a⟩ s := if_pos ((windowFails_iff ..).2 hw)

/-- A homing step within the window: the axis takes it, and the next interval of I0 starts at once (R108). -/
theorem runHomingStep_takes {a : AxisId} {h : HomingRun} {s : State} (l : LaneId) (limit i0 : Nat)
    (hw : ¬windowBars (s.axis a) (homeForward (s.axis a) h.phase)) :
    runHomingStep l a limit i0 h s =
      (s.setAxis a (oneStep s.patterns (homeForward (s.axis a) h.phase) (s.axis a))).setLane l { s.lane l with
        stepCount := (s.lane l).stepCount + 1, homing := some { h with limitReached := decide (limit ≤ (s.lane l).stepCount + 1) }
        interval := i0, stepTimer := .counting i0 true } := by
  refine (if_neg (mt (windowFails_iff ..).1 hw)).trans ?_
  rw [startInterval, State.lane_setLane_self, State.setLane_setLane, takeStep_eq_oneStep]

/-- A step of an axis leaves all that decides whether a hold timer runs (R53). -/
theorem holdRuns_oneStep (s : State) (a : AxisId) (forward : Bool) (b : AxisId) :
    s.holdRuns b = (s.setAxis a (oneStep s.patterns forward (s.axis a))).holdRuns b := by
  rw [← takeStep_eq_oneStep]
  exact holdRuns_setAxis (Axis.takeStep_energised ..) (Axis.takeStep_holdTime ..) (Axis.takeStep_owner ..) b

/-- The expiry of an interval of a RUNNING HOME, before the home limit and after it (R108). -/
theorem exec_homingExpiries {s : State} {l : LaneId} {g : Segment} {rest : List Segment} {a : AxisId} {limit left : Nat}
    {preset : Int} {begun : Bool} {h : HomingRun} (hs : (s.lane l).state = .running) (hq : (s.lane l).queue = g :: rest)
    (hb : g.body = .home a limit preset) (ht : (s.lane l).stepTimer = .counting left begun) (hh : (s.lane l).homing = some h) :
    (h.limitReached = false → h.phase ≠ .notChosen →
      exec (.homingStepEvent l) s = onEvent (fun s => some (runHomingStep l a limit g.firstInterval h s)) s) ∧
    (h.limitReached = true →
      exec (.homeLimitIntervalExpiry l) s = onEvent (fun s => some (halt l ⟨.homeNotFound, some a⟩ s)) s) := by
  have timing := Lane.timing_eq hs hq ht
  refine ⟨fun hlimit chosen => ?_, fun hlimit => ?_⟩
  · change execHomingStepEvent l s = _
    unfold execHomingStepEvent onEvent
    simp [timing, hh, hb, hlimit, chosen]
  · change execHomeLimitIntervalExpiry l s = _
    unfold execHomeLimitIntervalExpiry onEvent
    simp only [timing, hh, Option.map_some, hb, hlimit, if_true]

/-- Settles O44: the homing step by its window check, and the interval after the home limit as a halt. -/
theorem homingStepsRun : Obligations.HomingStepsRun := by
  intro s l g rest a limit left preset begun h hr law hs hq hb ht hh v forward
  have chosen : h.phase ≠ .notChosen := fun k => by
    have := ((law.lanes l).phaseIff h hh).1 k
    rw [hs] at this; cases this
  have halted : (s.lane l).state ≠ .halted := by rw [hs]; decide
  have hforward : homeForward (s.axis a) h.phase = forward := homeForward_eq _ chosen
  obtain ⟨stepEvent, limitExpiry⟩ := exec_homingExpiries hs hq hb ht hh
  refine ⟨fun hlimit hpass => ?_, fun hlimit hfail => ?_, fun hlimit => ?_⟩
  · have hstep := runHomingStep_takes l limit g.firstInterval (hforward ▸ hpass)
    rw [hforward] at hstep
    obtain ⟨t, hexec, event, lanes, sync, chooses, -, axes⟩ := onEvent_spec
      (f := fun s => some (runHomingStep l a limit g.firstInterval h s)) hr (congrArg some hstep)
      ((LaneFrame.setAxis (by rw [← takeStep_eq_oneStep, Axis.takeStep_holdTimer])).trans (.setLane ..))
    refine ⟨t, (stepEvent hlimit chosen).trans hexec, event, chooses, sync, axes fun b => (holdRuns_oneStep s a forward b).trans ?_, lanes⟩
    exact holdRuns_setLane (by rw [State.setAxis_lane]; rfl) b
  · rw [stepEvent hlimit chosen]
    exact onEvent_halts hr law halted (congrArg some (runHomingStep_fails l limit _ (hforward ▸ hfail)))
  · rw [limitExpiry hlimit]
    exact onEvent_halts hr law halted rfl

end Sys2Proof.Machine
end

