-- ==== Sys2Proof/Proofs/HoldsAndTime.lean ====
section
/-! PROOF. The soft hold, the tick exponent, and the run of the step timer and the millisecond timers. -/

namespace Sys2Proof.Machine

open Sys2Proof

/-! ### HOLD-LANE and RESUME-LANE (R39, R40, R70, R72) -/

/-- The soft hold takes its value, and the lane is left to the hold that it and the hold lines then make (R70, R72). -/
theorem takeSoftHold_eq (l : LaneId) (b : Bool) (s : State) :
    takeSoftHold l b s = s.setLane l
      (Lane.underHold (b || allTrgs.any fun n => (s.line n).holds l) s.onTick { s.lane l with softHold := b }) := by
  rw [takeSoftHold, applyHold_eq, State.holdAsserted, State.lane_setLane_self, State.setLane_setLane]; rfl

/-- A request that sets or clears the soft hold of lane `l` (R70). -/
theorem softHold_answered {row : Instr} {s : State} {i : SlotId} {o : Nat} {r : Request} {l : LaneId} (b : Bool)
    (h : Executes row s i o r) (hp : r.payload = put8 (LaneId.code l)) :
    execRequest row (withLength 1 1 (onLane fun l _ s => (takeSoftHold l b s, Reply.only .ok))) s = .next (answeredWith
      (s.setLane l (Lane.underHold (b || allTrgs.any fun n => (s.line n).holds l) s.onTick { s.lane l with softHold := b }))
      i o r 0 []) :=
  answered_runs h _ (p := Reply.only .ok) ((onLane_code hp).trans (by rw [takeSoftHold_eq])) rfl
    (holdRuns_setLane (underHold_executing ..)) rfl

/-- Settles O24: the refusal by the lane number, and the soft hold with what it brings about. -/
theorem holdAndResumeAct : Obligations.HoldAndResumeAct := by
  intro s i o r
  refine ⟨fun b hp hb => ⟨fun h => ?_, fun h => ?_⟩, fun l hp => ⟨fun h => ?_, fun h => ?_⟩⟩
  · exact answered_status h (status := .badField) (onLane_bad hp hb)
  · exact answered_status h (status := .badField) (onLane_bad hp hb)
  · exact softHold_answered true h hp
  · exact softHold_answered false h hp

/-! ### SET-TICK (R41) -/

/-- SET-TICK by its checks in order (R41). -/
theorem setTick_eq {r : Request} {p : Byte} (s : State) (hp : r.payload = [p]) :
    withLength 1 1 setTick r s =
      if 7 < p.toNat then (s, Reply.only .badField)
      else if s.anyBusy then (s, Reply.only .badState)
      else (takeExponent p.toNat s, Reply.only .ok) := by
  rw [withLength_eq (by rw [hp]; simp) (by rw [hp]; simp), setTick, hp]; rfl

/-- Settles O9: each branch of `setTick_eq`, the last by whether the exponent is the one in force. -/
theorem setTickChecksAndTakes : Obligations.SetTickChecksAndTakes := by
  intro s i o r p h hp busy
  have free : ¬busy → s.anyBusy = false := fun hb => Bool.eq_false_iff.2 (mt (anyBusy_iff s).1 hb)
  refine ⟨fun hbad => ?_, fun hle hb => ?_, fun hle hb heq => ?_, fun hle hb hne => ?_⟩
  · exact answered_status h (status := .badField) (by rw [setTick_eq s hp, if_pos hbad])
  · refine answered_status h (status := .badState) ?_
    rw [setTick_eq s hp, if_neg (by omega), if_pos ((anyBusy_iff s).2 hb)]
  · refine answered_status h (status := .ok) ?_
    rw [setTick_eq s hp, if_neg (by omega), free hb, takeExponent, if_pos heq]; rfl
  · refine ⟨Config.tickPhase s.freeCount % 2 ^ p.toNat, s.freeCount + 1, Nat.mod_lt _ (Nat.two_pow_pos _),
      answered_still h _ (p := Reply.only .ok) ?_ rfl rfl rfl rfl⟩
    rw [setTick_eq s hp, if_neg (by omega), free hb, takeExponent, if_neg hne]; rfl

/-! ### The run of the timers (R25 to R27, R123, R124) -/

/-- The place within the tick, and the tick's length (R25). -/
theorem later_tickPhase {s : State} (hp : s.power = .running) (h : s.time.tickPhase < 2 ^ s.time.exponent) (k : Nat) :
    (Nat.repeat advance k s).time.exponent = s.time.exponent ∧
      (Nat.repeat advance k s).time.tickPhase = (s.time.tickPhase + k) % 2 ^ s.time.exponent := by
  induction k with
  | zero => exact ⟨rfl, (Nat.mod_eq_of_lt h).symm⟩
  | succ k ih =>
    obtain ⟨exponent, phase⟩ := ih
    rw [later_succ hp]
    refine ⟨exponent, ?_⟩
    change ((Nat.repeat advance k s).time.tickPhase + 1) % 2 ^ (Nat.repeat advance k s).time.exponent = _
    rw [exponent, phase, Nat.mod_add_mod, Nat.add_assoc]

/-- A step timer takes one `StepTimer.tick` at each tick boundary that has come (R26, R27). -/
theorem later_stepTimer {s : State} (hp : s.power = .running) (l : LaneId) (h : s.time.tickPhase < 2 ^ s.time.exponent) (k : Nat) :
    ((Nat.repeat advance k s).lane l).stepTimer =
      Nat.repeat StepTimer.tick ((s.time.tickPhase + k) / 2 ^ s.time.exponent) (s.lane l).stepTimer := by
  induction k with
  | zero => rw [Nat.add_zero, Nat.div_eq_of_lt h]; rfl
  | succ k ih =>
    obtain ⟨exponent, phase⟩ := later_tickPhase hp h k
    have boundary : (Nat.repeat advance k s).time.advance.tickPhase = (s.time.tickPhase + k + 1) % 2 ^ s.time.exponent := by
      change ((Nat.repeat advance k s).time.tickPhase + 1) % 2 ^ (Nat.repeat advance k s).time.exponent = _
      rw [exponent, phase, Nat.mod_add_mod]
    have timer : ((Nat.repeat advance (k + 1) s).lane l).stepTimer =
        if (s.time.tickPhase + k + 1) % 2 ^ s.time.exponent = 0 then ((Nat.repeat advance k s).lane l).stepTimer.tick
        else ((Nat.repeat advance k s).lane l).stepTimer := by
      rw [later_succ hp]; dsimp only
      rw [boundary, State.lane, countTime, PerLane.get_mapWith]
      simp only [decide_eq_true_eq]; rfl
    rw [timer, ih, ← Nat.add_assoc, Nat.succ_div]
    by_cases hd : (s.time.tickPhase + k + 1) % 2 ^ s.time.exponent = 0
    · rw [if_pos hd, if_pos (Nat.dvd_of_mod_eq_zero hd)]; rfl
    · rw [if_neg hd, if_neg (mt Nat.mod_eq_zero_of_dvd hd)]; rfl

/-- An interval that has begun at a tick boundary loses one tick at each boundary (R26). -/
theorem tick_begun (n m : Nat) : Nat.repeat StepTimer.tick m (.counting n true) = .counting (n - m) true := by
  induction m with
  | zero => rfl
  | succ m ih => rw [Nat.repeat, ih]; rfl

/-- An interval that has not begun begins at the next boundary (R27). -/
theorem tick_unbegun (n m : Nat) : Nat.repeat StepTimer.tick (m + 1) (.counting n false) = .counting (n - m) true := by
  induction m with
  | zero => rfl
  | succ m ih => rw [Nat.repeat, ih]; rfl

/-- The stamp clock rises by one in each microsecond (R123). -/
theorem later_stamp {s : State} (hp : s.power = .running) (k : Nat) :
    (Nat.repeat advance (2 * k) s).time.stamp = s.time.stamp + BitVec.ofNat 32 k := by
  have micro : ∀ t : TimeBase, t.advance.advance.stamp = t.stamp + 1 := fun t => by
    unfold TimeBase.advance; cases t.halfMicro <;> rfl
  have half : ∀ k, (Nat.repeat advance (k + 1) s).time = (Nat.repeat advance k s).time.advance := fun k => by rw [later_succ hp]; rfl
  induction k with
  | zero => exact (BitVec.add_zero _).symm
  | succ k ih => rw [Nat.mul_succ, half, half, micro, ih, BitVec.ofNat_add, BitVec.add_assoc]; rfl

/-- A millisecond timer that was started with `ms` milliseconds, and makes its row due at 0: the row stands due no earlier than
that, and less than 1 ms after it (R124). -/
theorem msTimer_expires {s : State} {row : Instr} (hp : s.power = .running) (get : State → MsTimer)
    (hg : ∀ b m (s : State), get (countTime b m s) = if m then countDown (get s) else get s)
    (ht : ∀ (s : State) t, get { s with time := t } = get s) (hrow : ∀ s, StandsDue s row ↔ get s = some 0) (ms : Nat)
    (hms : get s = some (s.msFor ms)) (h : s.time.msPhase < 2000) (k : Nat) :
    (row ∈ dueRows (Nat.repeat advance k s) → 2000 * ms ≤ k) ∧
      (2000 * ms + 1999 ≤ k → row ∈ dueRows (Nat.repeat advance k s)) := by
  rw [mem_dueRows_iff (later_running hp k), hrow, later_msTimer hp h get hg ht hms k, Option.some.injEq, State.msFor]
  split
  · omega
  · omega

/-- The timeout of a lane's sync-wait entry, where one stands, counts the millisecond marks (R74, R124). -/
theorem countTime_syncTimer (l : LaneId) (tick mark : Bool) (s : State) :
    ((countTime tick mark s).sync.get l).bind (·.timer) =
      if mark then countDown ((s.sync.get l).bind (·.timer)) else (s.sync.get l).bind (·.timer) := by
  cases mark with
  | false => rfl
  | true =>
    change (((s.sync.mapWith fun _ (e : Option SyncEntry) => e.map SyncEntry.mark).get l).bind (·.timer)) = _
    rw [PerLane.get_mapWith]
    cases s.sync.get l <;> rfl

theorem standsDue_syncTimeout (s : State) (l : LaneId) :
    StandsDue s (.syncTimeoutExpiry l) ↔ (s.sync.get l).bind (·.timer) = some 0 := by
  cases h : s.sync.get l with
  | none => simp [StandsDue, h]
  | some e => obtain ⟨number, timer⟩ := e; simp [StandsDue, h]

/-- Settles O53: the step timer by the boundaries that have come, the five millisecond timers by `msTimer_expires`, and the stamp
clock by microseconds. -/
theorem timersRunOut : Obligations.TimersRunOut := by
  intro s l a hp later tick
  have pos : 0 < tick := Nat.two_pow_pos _
  refine ⟨fun n ht h0 k => ?_, fun n ht h0 hlt k => ?_, ⟨?_, ?_, ?_, ?_, ?_⟩, later_stamp hp⟩
  · rw [later_stepTimer hp l (by rw [h0]; exact pos), ht, h0, Nat.zero_add, tick_begun]
  · rw [later_stepTimer hp l hlt, ht]
    split
    · rename_i hk
      rw [Nat.div_eq_of_lt (by omega)]; rfl
    · rename_i hk
      have past : s.time.tickPhase + k = k - (tick - s.time.tickPhase) + tick := by omega
      rw [past, Nat.add_div_right _ pos, tick_unbegun]
  · exact msTimer_expires hp (fun s => (s.lane l).settleTimer) (fun _ _ _ => by cases l <;> rfl) (fun _ _ => rfl) fun _ => Iff.rfl
  · exact msTimer_expires hp (fun s => (s.axis a).holdTimer) (fun _ _ _ => by cases a <;> rfl) (fun _ _ => rfl) fun _ => Iff.rfl
  · exact msTimer_expires hp (fun s => (s.sync.get l).bind (·.timer)) (countTime_syncTimer l) (fun _ _ => rfl)
      fun s => standsDue_syncTimeout s l
  · exact msTimer_expires hp (fun s => s.link.silenceTimer) (fun _ _ _ => rfl) (fun _ _ => rfl) fun _ => Iff.rfl
  · exact msTimer_expires hp (fun s => s.reports.resendTimer) (fun _ _ _ => rfl) (fun _ _ => rfl) fun _ => Iff.rfl

end Sys2Proof.Machine
end

