-- ==== Sys2Proof/Proofs/LaneAborts.lean ====
section
/-! PROOF. ABORT-LANE: the halt procedure as a request's effect. -/

namespace Sys2Proof.Machine

open Sys2Proof

/-- What a halt leaves is a matter of the lanes and the sync-wait entries alone (R78, R94). -/
theorem HaltsLane.congr {l : LaneId} {h : HaltInfo} {s t u : State} (halts : HaltsLane l h s t) (hl : u.lanes = t.lanes)
    (hs : u.sync = t.sync) : HaltsLane l h s u := by
  have lane : ∀ m, u.lane m = t.lane m := fun m => by rw [State.lane, State.lane, hl]
  exact ⟨(lane _).trans halts.lane, hs.trans halts.entries, fun k => (lane _).trans (halts.other k),
    fun k => (lane _).trans (halts.broken k)⟩

/-- Settles O23: a HALTED lane ignores the halt procedure; any other lane halts by it, and a lane that waits on its SYNC is not
HALTED, so its wait is broken. -/
theorem abortLaneHalts : Obligations.AbortLaneHalts := by
  intro s i o r h
  refine ⟨fun b hp hb => answered_status h (status := .badField) (onLane_bad hp hb), fun l hp law => ⟨fun hs => ?_, fun hs => ?_⟩⟩
  · exact answered_status h (status := .ok) ((onLane_code hp).trans (by rw [halt_of_halted _ hs]))
  · have waits : s.sync.get (otherLane l) ≠ none → (s.lane (otherLane l)).state ≠ .halted := fun k => by
      rw [law.waiting_of_entry k]; decide
    obtain ⟨halts, reported⟩ := halt_spec ⟨.abort, none⟩ hs waits
    obtain ⟨t, ht, same, timers, link, lanes, sync, reports, axes⟩ :=
      answered_lane h (withLength 1 1 (onLane fun l _ s => (halt l ⟨.abort, none⟩ s, Reply.only .ok))) (onLane_code hp) rfl
        (halt_frame l ⟨.abort, none⟩ s)
    have kept : AxesKept s t := fun a => by rw [axes, State.axis, halt_axes]; rfl
    exact ⟨t, ht, same, timers, kept, halts.congr lanes sync, reports.trans reported, link⟩

end Sys2Proof.Machine
end

