-- ==== Sys2Proof/Proofs/LaneStops.lean ====
section
/-! PROOF. STOP-LANE, CLEAR-LANE and a silence expiry. -/

namespace Sys2Proof.Machine

open Sys2Proof

/-! ### Where a stop is controlled, and where it is immediate (R86, R99) -/

/-- The lane runs a MOVE, so that a stop of it is a controlled one (R86, R99). -/
def Lane.runsMove (v : Lane) : Prop := v.state = .running ∧ ∃ g ∈ v.queue.head?, g.kind = .move

theorem Lane.runsMove_iff {v : Lane} (hs : v.state = .running) :
    v.runsMove ↔ ∃ entries i1 n, v.queue.head?.map Segment.body = some (.move entries i1 n) := by
  constructor
  · rintro ⟨-, g, hg, hk⟩
    rw [Option.mem_def.1 hg]
    cases hb : g.body with
    | move entries i1 n => exact ⟨entries, i1, n, congrArg some hb⟩
    | dwell n => rw [Segment.kind, hb] at hk; cases hk
    | home a limit preset => rw [Segment.kind, hb] at hk; cases hk
  · rintro ⟨entries, i1, n, h⟩
    obtain ⟨g, hg, hb⟩ := Option.map_eq_some_iff.1 h
    exact ⟨hs, g, hg, by rw [Segment.kind, hb]⟩

/-- The context of a controlled stop that begins, which ends in `e` (R88). -/
def Lane.stopBegun (v : Lane) (e : RampEnd) : Lane :=
  { v with
    queue := v.queue.take 1, state := .stopping
    ramp := some ⟨e, v.settings.stopDistance, v.settings.stopInterval, v.interval, none, 0⟩ }

/-- A lane that begins to stop goes on executing its MOVE (R53). -/
theorem Lane.stopBegun_executing {v : Lane} (e : RampEnd) (h : v.state = .running) : (v.stopBegun e).executing = v.executing := by
  unfold Lane.executing Lane.stopBegun
  rw [h]; dsimp only
  rw [List.head?_take]; rfl

/-! ### STOP-LANE (R86 to R88) -/

section
variable {s : State} {l : LaneId}

theorem stopLaneEffect_of_still (h : (s.lane l).state ∈ [LaneState.idle, .stopping, .halted]) : stopLaneEffect l s = s := by
  unfold stopLaneEffect; dsimp only
  cases hs : (s.lane l).state with
  | idle | stopping | halted => rfl
  | ready | waiting | running | held => rw [hs] at h; simp at h

theorem stopLaneEffect_of_runsMove (h : (s.lane l).runsMove) : stopLaneEffect l s = s.setLane l ((s.lane l).stopBegun .idle) := by
  obtain ⟨entries, i1, n, hb⟩ := (Lane.runsMove_iff h.1).1 h
  unfold stopLaneEffect; dsimp only
  rw [h.1, hb]; rfl

theorem stopLaneEffect_of_not_runsMove (hs : (s.lane l).state ∈ [LaneState.ready, .waiting, .running, .held])
    (h : ¬(s.lane l).runsMove) : stopLaneEffect l s = endLane l none s := by
  unfold stopLaneEffect; dsimp only
  cases e : (s.lane l).state with
  | ready | waiting | held => rfl
  | running =>
    dsimp only
    split
    · rename_i hb; exact absurd ((Lane.runsMove_iff e).2 ⟨_, _, _, hb⟩) h
    · rfl
  | idle | stopping | halted => rw [e] at hs; simp at hs

end

/-- Settles O22: the effect of each state, a controlled stop going on with what the lane executes, so that it starts and stops no
hold timer. -/
theorem stopLaneActs : Obligations.StopLaneActs := by
  intro s i o r h
  refine ⟨fun b hp hb => answered_status h (status := .badField) (onLane_bad hp hb), fun l hp => ⟨fun hs => ?_, fun hm => ?_, fun hs hm => ?_⟩⟩
  · exact answered_status h (status := .ok) ((onLane_code hp).trans (by rw [stopLaneEffect_of_still hs]))
  · exact answered_runs h _ (p := Reply.only .ok) ((onLane_code hp).trans (congrArg (·, _) (stopLaneEffect_of_runsMove hm))) rfl
      (holdRuns_setLane (Lane.stopBegun_executing _ hm.1)) rfl
  · obtain ⟨t, ht, same, timers, link, lanes, sync, reports, axes⟩ :=
      answered_lane h (withLength 1 1 (onLane fun l _ s => (stopLaneEffect l s, Reply.only .ok)))
        ((onLane_code hp).trans (by rw [stopLaneEffect_of_not_runsMove hs hm])) rfl (endLane_frame l none s)
    rw [endLane_eq] at lanes sync reports
    exact ⟨t, ht, same, timers, axes, lanes, sync, reports, link⟩

/-! ### CLEAR-LANE (R98) -/

/-- Settles O25: a HALTED lane executes nothing, before and after it is cleared. -/
theorem clearLaneClears : Obligations.ClearLaneClears := by
  intro s i o r b h hp
  refine ⟨fun hb => answered_status h (status := .badField) (onLane_bad hp hb), fun l hl => ⟨fun hs => ?_, fun hs => ?_⟩⟩
  · refine answered_status h (status := .ok) ((onLane_code (payload_of_laneCode hp hl)).trans ?_)
    rw [clearLaneEffect, if_neg hs]
  · refine answered_runs h _ (p := Reply.only .ok) ((onLane_code (payload_of_laneCode hp hl)).trans ?_) rfl (holdRuns_setLane ?_) rfl
    · rw [clearLaneEffect, if_pos hs]
    · rw [Lane.executing, Lane.executing, hs]

/-! ### A silence expiry (R99, R100, R152) -/

/-- Silence halts the lane at once: it waits, is held or is not started, or it runs no MOVE (R99). -/
def Lane.silenceHalts (v : Lane) : Prop :=
  v.state ∈ [LaneState.ready, .waiting, .held] ∨ (v.state = .running ∧ ¬v.runsMove)

/-- What silence makes of a lane that it does not halt (R99, R100). -/
def Lane.underSilence (v : Lane) : Lane :=
  match v.state with
  | .running => v.stopBegun .haltedSilence
  | .stopping => { v with ramp := v.ramp.map fun r => { r with endState := .haltedSilence } }
  | _ => v

section
variable {l : LaneId} {u : State}

theorem Lane.silenceHalts_not_halted {v : Lane} (h : v.silenceHalts) : v.state ≠ .halted := by
  intro e
  rcases h with h | ⟨h, -⟩
  · rw [e] at h; simp at h
  · rw [e] at h; cases h

theorem silenceLane_of_halts (h : (u.lane l).silenceHalts) : silenceLane l u = endLane l (some ⟨.silence, none⟩) u := by
  rw [← haltOnly_eq _ (Lane.silenceHalts_not_halted h)]
  unfold silenceLane; dsimp only
  cases hs : (u.lane l).state with
  | ready | waiting | held => rfl
  | running =>
    dsimp only
    split
    · rename_i hb
      rcases h with h | ⟨-, h⟩
      · rw [hs] at h; simp at h
      · exact absurd ((Lane.runsMove_iff hs).2 ⟨_, _, _, hb⟩) h
    · rfl
  | idle | stopping | halted => simp [Lane.silenceHalts, hs] at h

theorem silenceLane_of_not_halts (h : ¬(u.lane l).silenceHalts) : silenceLane l u = u.setLane l (u.lane l).underSilence := by
  unfold silenceLane Lane.underSilence; dsimp only
  cases hs : (u.lane l).state with
  | ready | waiting | held => simp [Lane.silenceHalts, hs] at h
  | running =>
    have runs : (u.lane l).runsMove := Classical.byContradiction fun k => h (.inr ⟨hs, k⟩)
    obtain ⟨entries, i1, n, hb⟩ := (Lane.runsMove_iff hs).1 runs
    dsimp only
    rw [hb]; rfl
  | stopping => rfl
  | idle | halted => exact (State.setLane_lane u l).symm

/-- The report that silence makes of a lane, if it halts it (R99, R101). -/
theorem silenceLane_reports (l : LaneId) (u : State) :
    ((u.lane l).silenceHalts → (silenceLane l u).reports = u.reports.hand (stoppedReport u l (some ⟨.silence, none⟩))) ∧
      (¬(u.lane l).silenceHalts → (silenceLane l u).reports = u.reports) := by
  refine ⟨fun h => ?_, fun h => ?_⟩
  · rw [silenceLane_of_halts h, endLane_eq]
  · rw [silenceLane_of_not_halts h]; rfl

end

/-- What silence leaves of a lane `v`, with the lane's sync-wait entry after it (R99, R100). -/
structure Silenced (v w : Lane) (entry : Option SyncEntry) : Prop where
  halted : v.silenceHalts → w = v.ended (some ⟨.silence, none⟩) ∧ entry = none
  stops : v.runsMove → w = v.stopBegun .haltedSilence
  stopping : ∀ r, v.state = .stopping → v.ramp = some r → w = { v with ramp := some { r with endState := .haltedSilence } }
  rests : v.state = .idle ∨ v.state = .halted → w = v

theorem silenceLane_silenced (l : LaneId) (u : State) :
    Silenced (u.lane l) ((silenceLane l u).lane l) ((silenceLane l u).sync.get l) := by
  have others : ¬(u.lane l).silenceHalts → (silenceLane l u).lane l = (u.lane l).underSilence := fun h => by
    rw [silenceLane_of_not_halts h, State.lane_setLane_self]
  refine ⟨fun h => ?_, fun h => ?_, fun r h hr => ?_, fun h => ?_⟩
  · rw [silenceLane_of_halts h, endLane_lane, endLane_sync, if_pos rfl, if_pos rfl]; exact ⟨rfl, rfl⟩
  · rw [others fun k => k.elim (by rw [h.1]; simp) fun k => k.2 h, Lane.underSilence, h.1]
  · rw [others (by simp [Lane.silenceHalts, h]), Lane.underSilence, h, hr]; rfl
  · rw [others (by rcases h with h | h <;> simp [Lane.silenceHalts, h]), Lane.underSilence]
    rcases h with h | h <;> rw [h]

/-- The part with its silence timer stopped (R152). -/
def State.silenceStopped (s : State) : State := { s with link := { s.link with silenceTimer := none } }

/-- The effect of a silence expiry is that on the part with the timer stopped, which no hold timer reads (R53, R152). -/
theorem silenceExpiry_eq {s : State} {n : Nat} (hr : s.power = .running) (h : s.link.silenceTimer = some n) :
    exec .silenceExpiry s = onEvent (fun u => some (silenceLane .L1 (silenceLane .L0 u))) s.silenceStopped := by
  have running : s.silenceStopped.running = true := by rw [State.running, decide_eq_true_eq]; exact hr
  have timer : s.link.silenceTimer.isSome = true := by rw [h]; rfl
  change execSilenceExpiry s = _
  unfold execSilenceExpiry onEvent
  dsimp only
  rw [running, show s.running = true from running, if_pos timer]
  rfl

/-- Both lanes after a silence expiry, neither reaching the other: their states and entries, and the report queue, L0's report
first (R99, R100). -/
theorem silenceBoth_spec (u : State) :
    let t := silenceLane .L1 (silenceLane .L0 u)
    LaneFrame u t ∧ t.axes = u.axes ∧ (∀ l, Silenced (u.lane l) (t.lane l) (t.sync.get l)) ∧
      ∀ q0 q1, ((u.lane .L0).silenceHalts → q0 = u.reports.hand (stoppedReport u .L0 (some ⟨.silence, none⟩))) →
        (¬(u.lane .L0).silenceHalts → q0 = u.reports) →
        ((u.lane .L1).silenceHalts → q1 = q0.hand (stoppedReport u .L1 (some ⟨.silence, none⟩))) →
        (¬(u.lane .L1).silenceHalts → q1 = q0) → t.reports = q1 := by
  intro t
  obtain ⟨frame0, other0, entry0, axes0, -, -⟩ := silenceLane_frame .L0 u
  obtain ⟨frame1, other1, entry1, axes1, -, -⟩ := silenceLane_frame .L1 (silenceLane .L0 u)
  have silenced0 := silenceLane_silenced .L0 u
  have silenced1 := silenceLane_silenced .L1 (silenceLane .L0 u)
  have reports0 := silenceLane_reports .L0 u
  have reports1 := silenceLane_reports .L1 (silenceLane .L0 u)
  have report1 : stoppedReport (silenceLane .L0 u) .L1 (some ⟨.silence, none⟩) = stoppedReport u .L1 (some ⟨.silence, none⟩) := by
    simp only [stoppedReport, State.axis, axes0]
    rw [show (silenceLane .L0 u).lane .L1 = u.lane .L1 from other0]
  rw [show (silenceLane .L0 u).lane .L1 = u.lane .L1 from other0, report1] at reports1
  refine ⟨frame0.trans frame1, axes1.trans axes0, fun l => ?_, fun q0 q1 h0 h0' h1 h1' => ?_⟩
  · cases l with
    | L0 => exact other1.symm ▸ entry1.symm ▸ silenced0
    | L1 => exact other0 ▸ silenced1
  · have first : (silenceLane .L0 u).reports = q0 := by
      by_cases h : (u.lane .L0).silenceHalts
      · exact (reports0.1 h).trans (h0 h).symm
      · exact (reports0.2 h).trans (h0' h).symm
    rw [first] at reports1
    by_cases h : (u.lane .L1).silenceHalts
    · exact (reports1.1 h).trans (h1 h).symm
    · exact (reports1.2 h).trans (h1' h).symm

/-- Settles O49: the two lanes of the part with its silence timer stopped. -/
theorem silenceActs : Obligations.SilenceActs := by
  intro s n hr law ht ramped halted
  obtain ⟨frame, kept, silenced, reports⟩ := silenceBoth_spec s.silenceStopped
  obtain ⟨t, hexec, event, lanes, sync, chooses, axes, -⟩ := onEvent_spec (s := s.silenceStopped)
    (f := fun u => some (silenceLane .L1 (silenceLane .L0 u))) hr rfl frame
  have lane : ∀ l, t.lane l = (silenceLane .L1 (silenceLane .L0 s.silenceStopped)).lane l := fun l => by rw [State.lane, lanes]; rfl
  have same : SameElsewhere s t := ⟨event.power, event.pins, event.lines, event.time, event.captures, event.patterns,
    event.restartWait, event.freeCount, event.pending⟩
  have timers : HoldTimersSettled s t := ⟨event.timers.kept, event.timers.started, event.timers.stopped⟩
  refine ⟨t, (silenceExpiry_eq hr ht).trans hexec, same, timers, fun a => ?_, fun l => ?_,
    fun q0 q1 h0 h0' h1 h1' => reports q0 q1 h0 h0' h1 h1' ▸ chooses⟩
  · rw [axes, State.axis, kept]; rfl
  · rw [lane, sync]
    exact ⟨(silenced l).halted, (silenced l).stops, (silenced l).stopping, (silenced l).rests⟩

end Sys2Proof.Machine
end

