-- ==== Sys2Proof/Proofs/StopSteps.lean ====
section
/-! PROOF. The step events of a controlled stop: the ramp goes on, or the stop reaches its end state. -/

namespace Sys2Proof.Machine

open Sys2Proof

/-! ### The end of a controlled stop (R92) -/

/-- The report queue after a stop that finds the part as `x` reaches its end state (R78, R92, R101). -/
def stopReports (l : LaneId) (e : RampEnd) (x : State) : ReportQueue :=
  let q := x.reports.hand (stoppedReport x l e.halt)
  if e = .haltedSilence ∧ x.sync.get (otherLane l) ≠ none then
    q.hand (stoppedReport x (otherLane l) (some ⟨.syncBroken, none⟩))
  else q

@[simp] theorem reachStopEnd_axes (l : LaneId) (e : RampEnd) (x : State) : (reachStopEnd l e x).axes = x.axes := by
  cases e with
  | idle => exact endLane_axes ..
  | haltedSilence => exact halt_axes ..

/-- The end state of a stop, IDLE as an immediate stop reaches it and HALTED by the halt procedure (R92). -/
theorem reachStopEnd_spec {l : LaneId} {x : State} (e : RampEnd) (hs : (x.lane l).state ≠ .halted)
    (ho : x.sync.get (otherLane l) ≠ none → (x.lane (otherLane l)).state ≠ .halted) :
    let t := reachStopEnd l e x
    t.lane l = (x.lane l).ended e.halt ∧ t.sync.get l = none ∧
      (e = .idle ∨ x.sync.get (otherLane l) = none →
        t.lane (otherLane l) = x.lane (otherLane l) ∧ t.sync.get (otherLane l) = x.sync.get (otherLane l)) ∧
      (e = .haltedSilence → x.sync.get (otherLane l) ≠ none →
        t.lane (otherLane l) = (x.lane (otherLane l)).ended (some ⟨.syncBroken, none⟩) ∧ t.sync.get (otherLane l) = none) ∧
      t.reports = stopReports l e x := by
  cases e with
  | idle =>
    refine ⟨(endLane_lane ..).trans (if_pos rfl), (endLane_sync ..).trans (if_pos rfl), fun _ => ?_, fun k => absurd k (by decide), ?_⟩
    · exact ⟨(endLane_lane ..).trans (if_neg (otherLane_ne l)), (endLane_sync ..).trans (if_neg (otherLane_ne l))⟩
    · rw [stopReports, if_neg fun k => by cases k.1]
      exact congrArg State.reports (endLane_eq l none x)
  | haltedSilence =>
    obtain ⟨halts, reports⟩ := halt_spec ⟨.silence, none⟩ hs ho
    have entry : ∀ m, (halt l ⟨.silence, none⟩ x).sync.get m = none := fun m => by rw [halts.entries]; cases m <;> rfl
    refine ⟨halts.lane, entry l, fun k => ?_, fun _ k => ⟨halts.broken k, entry _⟩, ?_⟩
    · have alone := k.resolve_left (by decide)
      exact ⟨halts.other alone, (entry _).trans alone.symm⟩
    · refine reports.trans ?_
      unfold haltReports stopReports
      simp only [true_and, RampEnd.halt]

/-- A controlled stop of lane `l` has brought the part from `s` to `x`, with what it cuts, and reaches its end state there: the
rest of the account is that of `x` (R89, R91, R92). -/
structure StopsFrom (l : LaneId) (g : Segment) (left : Nat) (s x : State) : Prop where
  ended : ∀ h, (x.lane l).ended h = (s.lane l).ended h
  state : (x.lane l).state = .stopping
  other : x.lane (otherLane l) = s.lane (otherLane l)
  sync : x.sync = s.sync
  cut : cutOf (x.lane l) = if left = 0 then none else some ⟨g.tag, some left⟩
  reports : x.reports =
    if left = 0 ∧ g.notify = true then s.reports.hand (.segmentDone l g.tag .move 0 none (positionsOf x)) else s.reports

/-- The stop in the terms of Safety.lean, where the event ends as `t`. -/
theorem StopsFrom.stopEnds {l : LaneId} {g : Segment} {left : Nat} {s x t : State} {e : RampEnd} (h : StopsFrom l g left s x)
    (law : LaneLaw s) (lanes : t.lanes = (reachStopEnd l e x).lanes) (sync : t.sync = (reachStopEnd l e x).sync)
    (axes : ∀ a, (t.axis a).untimed = (x.axis a).untimed) (chooses : ChoosesFrom s.link (reachStopEnd l e x).reports t) :
    StopEnds l g e left s t := by
  have ho : x.sync.get (otherLane l) ≠ none → (x.lane (otherLane l)).state ≠ .halted := fun k => by
    rw [h.other, law.waiting_of_entry (by rw [← h.sync]; exact k)]; decide
  obtain ⟨lane, entry, other, broken, reports⟩ := reachStopEnd_spec e (by rw [h.state]; decide) ho
  have hl : ∀ m, t.lane m = (reachStopEnd l e x).lane m := fun m => by simp only [State.lane, lanes]
  have positions : positionsOf t = positionsOf x := by
    have : ∀ a, (t.axis a).position = (x.axis a).position := fun a => (congrArg Axis.position (axes a) :)
    simp only [positionsOf, this]
  rw [h.sync, h.other] at other broken
  refine ⟨(hl _).trans (lane.trans (h.ended _)), by rw [sync, entry], fun k => ?_, fun k k' => ?_, ?_⟩
  · rw [hl, sync]; exact other k
  · rw [hl, sync]; exact broken k k'
  · rw [reports, stopReports, h.reports, h.sync] at chooses
    dsimp only
    rw [positions]
    have own : ∀ i, stoppedReport x l i = .laneStopped l i (if left = 0 then none else some ⟨g.tag, some left⟩) (positionsOf x) :=
      fun i => by rw [stoppedReport, h.cut]; rfl
    have also : ∀ i, stoppedReport x (otherLane l) i = .laneStopped (otherLane l) i (cutOf (s.lane (otherLane l))) (positionsOf x) :=
      fun i => by rw [stoppedReport, h.other]; rfl
    rw [own, also] at chooses
    exact chooses

/-- The part in which the last step event of a controlled stop reaches its end state: the steps are taken, and a MOVE with none
left completes (R89, R91). -/
def stopPoint (l : LaneId) (entries : List (AxisId × Int)) (n : Nat) (s : State) : State :=
  if n ≤ (s.lane l).stepCount + 1 then removeActive l none (takeMoveStep l entries n s) else takeMoveStep l entries n s

theorem stopPoint_axes (l : LaneId) (entries : List (AxisId × Int)) (n : Nat) (s : State) :
    (stopPoint l entries n s).axes = (takeMoveStep l entries n s).axes := by
  unfold stopPoint; split
  · exact removeActive_axes ..
  · rfl

theorem stopPoint_frame (l : LaneId) (entries : List (AxisId × Int)) (n : Nat) (s : State) : LaneFrame s (stopPoint l entries n s) := by
  unfold stopPoint; split
  · exact (takeMoveStep_frame ..).trans (removeActive_frame ..)
  · exact takeMoveStep_frame ..

theorem stopsFrom_stopPoint {s : State} {l : LaneId} {g : Segment} {entries : List (AxisId × Int)} {i1 n : Nat}
    (hs : (s.lane l).state = .stopping) (hq : (s.lane l).queue = [g]) (hb : g.body = .move entries i1 n) :
    StopsFrom l g (n - ((s.lane l).stepCount + 1)) s (stopPoint l entries n s) := by
  have own := (takeMoveStep_lane l entries n s l).trans (if_pos rfl)
  have other : (takeMoveStep l entries n s).lane (otherLane l) = s.lane (otherLane l) :=
    (takeMoveStep_lane ..).trans (if_neg (otherLane_ne l))
  unfold stopPoint; split
  · rename_i hk
    have none_left : n - ((s.lane l).stepCount + 1) = 0 := by omega
    have kind : g.kind = .move := by rw [Segment.kind, hb]
    have removed := removeActive_eq (l := l) (s := takeMoveStep l entries n s) (g := g) (rest := []) none (by rw [own]; exact hq)
    have lane : (removeActive l none (takeMoveStep l entries n s)).lane l =
        { ((takeMoveStep l entries n s).lane l).cleared with queue := [] } := by
      rw [removed]; exact PerLane.get_set_self ..
    rw [none_left]
    refine ⟨fun _ => by rw [lane, own]; rfl, by rw [lane, own]; exact hs, ?_, by rw [removed]; rfl, ?_, ?_⟩
    · rw [removed]; exact (PerLane.get_set_of_ne _ _ (otherLane_ne l)).trans other
    · rw [lane, own, if_pos rfl, cutOf]; dsimp only [Lane.cleared]
      rw [hs]
    · rw [removed, kind]
      simp only [true_and]; rfl
  · rename_i hk
    have some_left : n - ((s.lane l).stepCount + 1) ≠ 0 := by omega
    refine ⟨fun _ => by rw [own]; rfl, by rw [own]; exact hs, other, rfl, ?_, ?_⟩
    · rw [own, if_neg some_left, cutOf]; dsimp only
      rw [hs, hq]; dsimp only
      rw [hb]
    · rw [if_neg fun k => some_left k.1]; rfl

/-! ### The step events of a controlled stop (R89 to R91) -/

/-- The part after a step event from which the ramp goes on, with `steps` of them and `taken` taken (R89, R90). -/
def rampGoesOn (l : LaneId) (entries : List (AxisId × Int)) (n : Nat) (r : StopRamp) (steps taken : Nat) (s : State) : State :=
  startInterval l (stopIntervalOf r steps (taken + 1)) true ((takeMoveStep l entries n s).setLane l
    { (takeMoveStep l entries n s).lane l with ramp := some { r with steps := some steps, taken := taken } })

/-- Of the lanes, its own alone changes. -/
theorem rampGoesOn_lanes (l : LaneId) (entries : List (AxisId × Int)) (n : Nat) (r : StopRamp) (steps taken : Nat) (s : State) :
    (rampGoesOn l entries n r steps taken s).lanes = s.lanes.set l ((s.lane l).stepped entries n
      (some { r with steps := some steps, taken := taken }) (stopIntervalOf r steps (taken + 1))) := by
  apply PerLane.eq_of_get; intro i
  rw [rampGoesOn, startInterval, State.lane_setLane_self, State.setLane_setLane, PerLane.get_set]
  refine (State.lane_setLane ..).trans ?_
  split
  · rw [takeMoveStep_lane, if_pos rfl]; rfl
  · rename_i k; rw [takeMoveStep_lane, if_neg k]; rfl

section
variable {s : State} {l : LaneId} {entries : List (AxisId × Int)} {n : Nat} (hpass : allPass s l entries n)
include hpass

/-- The in-progress step event, where it takes effect, by the steps that the ramp then has (R89). -/
theorem runInProgressStep_takes (r : StopRamp) :
    runInProgressStep l entries n r s =
      if min r.distance (n - ((s.lane l).stepCount + 1)) = 0 then reachStopEnd l r.endState (stopPoint l entries n s)
      else rampGoesOn l entries n r (min r.distance (n - ((s.lane l).stepCount + 1))) 0 s := by
  have count : ((takeMoveStep l entries n s).lane l).stepCount = (s.lane l).stepCount + 1 := by rw [takeMoveStep_lane, if_pos rfl]
  unfold runInProgressStep stopPoint rampGoesOn
  rw [moveFailure_none hpass]; dsimp only
  rw [count]
  by_cases hk : n ≤ (s.lane l).stepCount + 1
  · have none_left : n - ((s.lane l).stepCount + 1) = 0 := by omega
    rw [if_pos hk, if_pos none_left, none_left, if_pos (Nat.min_zero _)]; rfl
  · rw [if_neg hk, if_neg (show n - ((s.lane l).stepCount + 1) ≠ 0 by omega)]; rfl

/-- A step event of the ramp, where it takes effect, by whether it is the last (R91). -/
theorem runStopStep_takes {r : StopRamp} {steps : Nat} (hr : r.steps = some steps) :
    runStopStep l entries n r steps s =
      if steps ≤ r.taken + 1 then reachStopEnd l r.endState (stopPoint l entries n s)
      else rampGoesOn l entries n r steps (r.taken + 1) s := by
  have count : ((takeMoveStep l entries n s).lane l).stepCount = (s.lane l).stepCount + 1 := by rw [takeMoveStep_lane, if_pos rfl]
  unfold runStopStep stopPoint rampGoesOn
  rw [moveFailure_none hpass, ← hr]; dsimp only
  rw [count]
  by_cases hk : n ≤ (s.lane l).stepCount + 1
  · rw [if_pos hk, if_pos hk]; rfl
  · rw [if_neg hk, if_neg hk]; rfl

end

/-- The event of a step from which the ramp goes on (R34, R90). -/
theorem onEvent_rampGoesOn {f : State → Option State} {s : State} {l : LaneId} {entries : List (AxisId × Int)} {n : Nat}
    {r : StopRamp} {steps taken : Nat} (hr : s.power = .running) (hf : f s = some (rampGoesOn l entries n r steps taken s)) :
    ∃ t, onEvent f s = .next t ∧ LaneEvent s t ∧ StepsTaken l entries n s t ∧ ChoosesFrom s.link s.reports t ∧ t.sync = s.sync ∧
      t.lanes = s.lanes.set l ((s.lane l).stepped entries n (some { r with steps := some steps, taken := taken })
        (stopIntervalOf r steps (taken + 1))) := by
  have frame : LaneFrame s (rampGoesOn l entries n r steps taken s) :=
    (takeMoveStep_frame ..).trans ((LaneFrame.setLane ..).trans (.setLane ..))
  obtain ⟨t, ht, event, lanes, sync, chooses, axes, -⟩ := onEvent_spec hr hf frame
  exact ⟨t, ht, event, stepsTaken_takeMoveStep axes, chooses, sync, lanes.trans (rampGoesOn_lanes ..)⟩

/-- The event of a step with which the stop reaches its end state (R34, R92). -/
theorem onEvent_stopEnds {f : State → Option State} {s : State} {l : LaneId} {g : Segment} {entries : List (AxisId × Int)}
    {i1 n : Nat} {e : RampEnd} (hr : s.power = .running) (law : LaneLaw s) (hs : (s.lane l).state = .stopping)
    (hq : (s.lane l).queue = [g]) (hb : g.body = .move entries i1 n)
    (hf : f s = some (reachStopEnd l e (stopPoint l entries n s))) :
    ∃ t, onEvent f s = .next t ∧ LaneEvent s t ∧ StepsTaken l entries n s t ∧
      StopEnds l g e (n - ((s.lane l).stepCount + 1)) s t := by
  obtain ⟨t, ht, event, lanes, sync, chooses, axes, -⟩ :=
    onEvent_spec hr hf ((stopPoint_frame l entries n s).trans (reachStopEnd_frame ..))
  have axes' : ∀ a, (t.axis a).untimed = ((stopPoint l entries n s).axis a).untimed := fun a => by
    rw [axes, State.axis, reachStopEnd_axes]; rfl
  refine ⟨t, ht, event, stepsTaken_takeMoveStep fun a => ?_, (stopsFrom_stopPoint hs hq hb).stopEnds law lanes sync axes' chooses⟩
  rw [axes', State.axis, stopPoint_axes]; rfl

/-- A step event of a controlled stop that takes effect: its last (`c`), or one from which the ramp goes on. -/
theorem onEvent_stopStep {f : State → Option State} {s : State} {l : LaneId} {g : Segment} {entries : List (AxisId × Int)}
    {i1 n steps taken : Nat} {r : StopRamp} {c : Prop} [Decidable c] (hr : s.power = .running) (law : LaneLaw s)
    (hs : (s.lane l).state = .stopping) (hq : (s.lane l).queue = [g]) (hb : g.body = .move entries i1 n)
    (hf : f s = some (if c then reachStopEnd l r.endState (stopPoint l entries n s) else rampGoesOn l entries n r steps taken s)) :
    ∃ t, onEvent f s = .next t ∧ LaneEvent s t ∧ StepsTaken l entries n s t ∧
      (¬c → ChoosesFrom s.link s.reports t ∧ t.sync = s.sync ∧
        t.lanes = s.lanes.set l ((s.lane l).stepped entries n (some { r with steps := some steps, taken := taken })
          (stopIntervalOf r steps (taken + 1)))) ∧
      (c → StopEnds l g r.endState (n - ((s.lane l).stepCount + 1)) s t) := by
  by_cases h : c
  · rw [if_pos h] at hf
    obtain ⟨t, ht, event, steps, ends⟩ := onEvent_stopEnds hr law hs hq hb hf
    exact ⟨t, ht, event, steps, fun k => absurd h k, fun _ => ends⟩
  · rw [if_neg h] at hf
    obtain ⟨t, ht, event, steps, goesOn⟩ := onEvent_rampGoesOn hr hf
    exact ⟨t, ht, event, steps, fun _ => goesOn, fun k => absurd k h⟩

/-- Settles O42: in each of the two rows the ramp goes on, or the stop reaches its end state. -/
theorem stopStepsTake : Obligations.StopStepsTake := by
  intro s l g entries i1 n left begun r hr law hs hq hb ht hramp hpass v k goesOn
  obtain ⟨inProgress, rampStep⟩ := exec_stopStepEvents hs hq hb ht hramp
  have accumulators := accumulators_step entries n v.accumulators
  refine ⟨fun hsteps => ?_, fun steps hsteps => ?_⟩
  · obtain ⟨t, ht, event, taken, next, ends⟩ := onEvent_stopStep (f := fun s => some (runInProgressStep l entries n r s)) hr law hs hq hb
      (congrArg some (runInProgressStep_takes hpass r))
    refine ⟨t, (inProgress hsteps).trans ht, event, taken, fun h => ?_, ends⟩
    obtain ⟨chooses, sync, lanes⟩ := next (Nat.ne_of_gt h)
    exact ⟨chooses, sync, _, accumulators, lanes⟩
  · obtain ⟨t, ht, event, taken, next, ends⟩ := onEvent_stopStep (f := fun s => some (runStopStep l entries n r steps s)) hr law hs hq hb
      (congrArg some (runStopStep_takes hpass hsteps))
    refine ⟨t, (rampStep steps hsteps).trans ht, event, taken, fun h => ?_, ends⟩
    obtain ⟨chooses, sync, lanes⟩ := next (Nat.not_le_of_gt h)
    exact ⟨chooses, sync, _, accumulators, lanes⟩

end Sys2Proof.Machine
end

