-- ==== Sys2Proof/Proofs/CommandQueue.lean ====
section
/-! PROOF. Every command ends in a next state and leaves the waiting commands alone: the operations in the order of the model's
files, and then the commands. -/

namespace Sys2Proof.Machine

open Sys2Proof

/-! ### What the operations of a lane's work leave (R34, R38, R89, R91, R104, R108) -/

theorem startInterval_frame (l : LaneId) (n : Nat) (atTick : Bool) (s : State) : LaneFrame s (startInterval l n atTick s) := .setLane ..

theorem runMoveStep_frame (l : LaneId) (entries : List (AxisId × Int)) (i0 i1 n : Nat) (s : State) :
    LaneFrame s (runMoveStep l entries i0 i1 n s) := by
  unfold runMoveStep; split
  · exact halt_frame ..
  · refine (takeMoveStep_frame l entries n s).trans ?_
    dsimp only; split
    · exact complete_frame ..
    · exact startInterval_frame ..

theorem completeInStop_frame (l : LaneId) (e : RampEnd) (s : State) : LaneFrame s (completeInStop l e s) :=
  (removeActive_frame ..).trans (reachStopEnd_frame ..)

theorem runInProgressStep_frame (l : LaneId) (entries : List (AxisId × Int)) (n : Nat) (r : StopRamp) (s : State) :
    LaneFrame s (runInProgressStep l entries n r s) := by
  unfold runInProgressStep; split
  · exact halt_frame ..
  · refine (takeMoveStep_frame l entries n s).trans ?_
    dsimp only; split
    · exact completeInStop_frame ..
    split
    · exact reachStopEnd_frame ..
    · exact (LaneFrame.setLane ..).trans (startInterval_frame ..)

theorem runStopStep_frame (l : LaneId) (entries : List (AxisId × Int)) (n : Nat) (r : StopRamp) (steps : Nat) (s : State) :
    LaneFrame s (runStopStep l entries n r steps s) := by
  unfold runStopStep; split
  · exact halt_frame ..
  · refine (takeMoveStep_frame l entries n s).trans ?_
    dsimp only; split
    · split
      · exact completeInStop_frame ..
      · exact reachStopEnd_frame ..
    · exact (LaneFrame.setLane ..).trans (startInterval_frame ..)

theorem runDwell_frame (l : LaneId) (i0 : Nat) (s : State) : LaneFrame s (runDwell l i0 s) := by
  unfold runDwell; dsimp only; split
  · exact complete_frame ..
  · exact (LaneFrame.setLane ..).trans (startInterval_frame ..)

theorem runHomingStep_frame (l : LaneId) (a : AxisId) (limit i0 : Nat) (h : HomingRun) (s : State) :
    LaneFrame s (runHomingStep l a limit i0 h s) := by
  unfold runHomingStep; dsimp only; split
  · exact halt_frame ..
  · exact (LaneFrame.setAxis (Axis.takeStep_holdTimer ..)).trans ((LaneFrame.setLane ..).trans (startInterval_frame ..))

theorem detectHome_frame (l : LaneId) (a : AxisId) (preset : Int) (s : State) : LaneFrame s (detectHome l a preset s) := by
  unfold detectHome; dsimp only; split
  · exact LaneFrame.trans (LaneFrame.setAxis (x := { s.axis a with position := preset }) rfl) (complete_frame ..)
  · exact halt_frame ..

theorem homeEvent_frame (l : LaneId) (a : AxisId) (becameActive : Bool) (s : State) : LaneFrame s (homeEvent l a becameActive s) := by
  unfold homeEvent; dsimp only
  split
  · split
    · split
      · split
        · exact .setLane ..
        · exact detectHome_frame ..
        · exact .refl s
      · exact .refl s
    · exact .refl s
  · exact .refl s

theorem passHomeFilter_frame (a : AxisId) (s : State) : LaneFrame s (passHomeFilter a s) := by
  have filtered : LaneFrame s (s.setAxis a { s.axis a with home := { (s.axis a).home with filtered := (s.axis a).home.raw, measure := none } }) :=
    .setAxis rfl
  unfold passHomeFilter; dsimp only; split
  · exact filtered.trans (homeEvent_frame ..)
  · exact filtered

theorem applyHolds_frame (s : State) : LaneFrame s (applyHolds s) := (applyHold_frame ..).trans (applyHold_frame ..)

/-! ### Operations that reach beyond the lanes -/

theorem makeCapture_pending (source : CaptureSource) (edge : Option Edge) (s : State) :
    (makeCapture source edge s).pending = s.pending := by rw [makeCapture_frame]

theorem passTriggerFilter_pending (n : TrgId) (s : State) : (passTriggerFilter n s).pending = s.pending := by
  rw [passTriggerFilter_eq]; dsimp only
  refine (roleEffect_frame ..).pending.trans ?_
  rw [captureIf_frame]; rfl

theorem judgeFrame_pending (len seq kind : Byte) (payload : List Byte) (high low : Byte) (s : State) :
    (judgeFrame len seq kind payload high low s).pending = s.pending := by
  unfold judgeFrame; dsimp only
  split
  · split <;> rfl
  · split
    · exact beginFrame_pending _
    · rfl

theorem receiveByte_pending (b : Byte) (s : State) : (receiveByte b s).pending = s.pending := by
  unfold receiveByte
  split
  · split <;> rfl
  · split <;> rfl
  · rfl
  · rfl
  · rfl
  · rfl
  · exact judgeFrame_pending ..

theorem takeRxd_pending (level : Level) (s : State) : (takeRxd level s).pending = s.pending := by
  cases level with
  | low => rfl
  | high =>
    unfold takeRxd; dsimp only
    split
    · exact beginFrame_pending _
    · rfl

theorem afterReply_pending (s : State) (after : AfterReply) : (afterReply s after).pending = s.pending := by
  cases after with
  | nothing => exact beginFrame_pending s
  | changeRate rate => exact beginFrame_pending _
  | deviceReset => rfl

theorem endFrame_pending (source : TxSource) (s : State) : (endFrame source s).pending = s.pending := by
  cases source with
  | slot i => exact afterReply_pending ..
  | report number => exact beginFrame_pending _

/-! ### The requests' own effects -/

/-- What carrying out a request does leaves the waiting commands alone, whatever its payload is. -/
def Meaning.KeepsPending (m : Meaning) : Prop := ∀ r s, (m r s).1.pending = s.pending

theorem Meaning.KeepsPending.withLength {m : Meaning} (h : m.KeepsPending) (lo hi : Nat) : Meaning.KeepsPending (withLength lo hi m) := by
  intro r s
  unfold Machine.withLength; split
  · exact h r s
  · rfl

theorem onLane_keepsPending {m : LaneId → Request → State → State × Reply} (h : ∀ l r s, (m l r s).1.pending = s.pending) :
    Meaning.KeepsPending (onLane m) := by
  intro r s
  unfold onLane; split
  · exact h _ r s
  · rfl

theorem onAxis_keepsPending {m : AxisId → Request → State → State × Reply} (h : ∀ a r s, (m a r s).1.pending = s.pending) :
    Meaning.KeepsPending (onAxis m) := by
  intro r s
  unfold onAxis; split
  · exact h _ r s
  · rfl

theorem setTick_keepsPending : Meaning.KeepsPending setTick := by
  intro r s
  unfold setTick takeExponent; dsimp only
  repeat' split
  all_goals rfl

theorem setLink_keepsPending : Meaning.KeepsPending setLink := by
  intro r s
  unfold setLink; dsimp only
  repeat' split
  all_goals rfl

theorem setAxis_keepsPending : Meaning.KeepsPending setAxis := by
  intro r s
  unfold setAxis takeAxisSetting; dsimp only
  split
  · split
    · rfl
    split
    · rfl
    · dsimp only; split
      · exact (passHomeFilter_frame ..).pending
      · rfl
  · rfl

theorem setLane_keepsPending : Meaning.KeepsPending setLane := by
  refine onLane_keepsPending fun l r s => ?_
  dsimp only
  repeat' split
  all_goals rfl

theorem setLine_keepsPending : Meaning.KeepsPending setLine := by
  intro r s
  unfold setLine takeLineSetting; dsimp only
  split
  · refine (applyHolds_frame _).pending.trans ?_
    split
    · exact passTriggerFilter_pending ..
    · rfl
  · rfl

theorem loadPattern_keepsPending : Meaning.KeepsPending loadPattern := by
  intro r s
  unfold loadPattern; dsimp only
  repeat' split
  all_goals rfl

theorem setPosition_keepsPending : Meaning.KeepsPending setPosition := by
  refine onAxis_keepsPending fun a r s => ?_
  dsimp only
  repeat' split
  all_goals rfl

theorem energise_keepsPending : Meaning.KeepsPending energise := by
  refine onAxis_keepsPending fun a r s => ?_
  dsimp only
  repeat' split
  all_goals rfl

theorem release_keepsPending : Meaning.KeepsPending release := by
  refine onAxis_keepsPending fun a r s => ?_
  dsimp only
  repeat' split
  all_goals rfl

theorem queueSegment_keepsPending : Meaning.KeepsPending queueSegment := by
  intro r s
  unfold queueSegment; dsimp only
  repeat' split
  all_goals rfl

theorem startLane_keepsPending : Meaning.KeepsPending startLane := by
  refine onLane_keepsPending fun l r s => ?_
  cases hs : (s.lane l).state with
  | ready => exact (activate_frame ..).pending
  | idle | waiting | running | held | stopping | halted => rfl

theorem stopLaneEffect_frame (l : LaneId) (s : State) : LaneFrame s (stopLaneEffect l s) := by
  unfold stopLaneEffect; dsimp only
  cases (s.lane l).state with
  | ready | waiting | held => exact endLane_frame ..
  | running =>
    dsimp only; split
    · exact beginStop_frame ..
    · exact endLane_frame ..
  | idle | stopping | halted => exact .refl s

theorem clearLaneEffect_frame (l : LaneId) (s : State) : LaneFrame s (clearLaneEffect l s) := by
  unfold clearLaneEffect; split
  · exact .setLane ..
  · exact .refl s

theorem readCaptures_keepsPending : Meaning.KeepsPending readCaptures := by
  intro r s
  unfold readCaptures; dsimp only; split <;> rfl

theorem fetchReport_keepsPending : Meaning.KeepsPending fetchReport := by
  intro r s
  unfold fetchReport fetchEffect
  repeat' split
  all_goals rfl

theorem ackReport_keepsPending : Meaning.KeepsPending ackReport := by
  intro r s
  unfold ackReport
  repeat' split
  all_goals rfl

/-! ### The commands -/

/-- The outcome is a next state, with the commands waiting that wait in `s`. -/
def EndsInNext (s : State) (o : Host.Outcome State Fault Refusal) : Prop := ∃ t, o = .next t ∧ t.pending = s.pending

theorem takeRequest_pending (row : Instr) (replyOf : Byte → Byte → List Byte → List Byte) {m : Meaning} (h : m.KeepsPending)
    (s : State) : (takeRequest row replyOf m s).pending = s.pending := by
  unfold takeRequest
  split
  · split
    · split
      · exact beginFrame_pending _
      · exact (beginFrame_pending _).trans (h _ s)
    · rfl
  · rfl

section
variable {s : State}

theorem EndsInNext.request (row : Instr) {m : Meaning} (h : m.KeepsPending) : EndsInNext s (execRequest row m s) :=
  ⟨_, rfl, takeRequest_pending row _ h s⟩

/-- A request whose payload length is checked first, and whose effect on lane `l` is a lane operation (R157). -/
theorem EndsInNext.laneRequest (row : Instr) {f : LaneId → State → State} (h : ∀ l s, LaneFrame s (f l s)) :
    EndsInNext s (execRequest row (withLength 1 1 (onLane fun l _ s => (f l s, Reply.only .ok))) s) :=
  .request row ((onLane_keepsPending fun l _ s => (h l s).pending).withLength 1 1)

variable {f : State → Option State} (h : ∀ t, f s = some t → t.pending = s.pending)
include h

theorem EndsInNext.onEvent : EndsInNext s (onEvent f s) := by
  refine ⟨_, rfl, ?_⟩
  split
  · rename_i t _ ht; exact (beginFrame_pending _).trans (h t ht)
  · rfl

theorem EndsInNext.onLinkEvent : EndsInNext s (onLinkEvent f s) := by
  refine ⟨_, rfl, ?_⟩
  split
  · rename_i t _ ht; exact (beginFrame_pending _).trans (h t ht)
  · rfl

theorem EndsInNext.onQuietEvent : EndsInNext s (onQuietEvent f s) := by
  refine ⟨_, rfl, ?_⟩
  split
  · rename_i t _ ht; exact h t ht
  · rfl

end

/-- An event with one effect, which arises under one condition. -/
theorem pending_of_if {s t u : State} {c : Prop} [Decidable c] (h : (if c then some u else none) = some t)
    (hu : u.pending = s.pending) : t.pending = s.pending := by
  split at h
  · cases h; exact hu
  · cases h

section
variable (s : State)

theorem EndsInNext.stepEvent (l : LaneId) : EndsInNext s (execStepEvent l s) := by
  refine .onEvent fun t h => ?_
  split at h
  · split at h
    · cases h; exact (runMoveStep_frame ..).pending
    · cases h
  · cases h

theorem EndsInNext.inProgressStepEvent (l : LaneId) : EndsInNext s (execInProgressStepEvent l s) := by
  refine .onEvent fun t h => ?_
  split at h
  · split at h
    · cases h; exact (runInProgressStep_frame ..).pending
    · cases h
  · cases h

theorem EndsInNext.stopRampStepEvent (l : LaneId) : EndsInNext s (execStopRampStepEvent l s) := by
  refine .onEvent fun t h => ?_
  split at h
  · obtain ⟨steps, -, rfl⟩ := Option.map_eq_some_iff.1 h
    exact (runStopStep_frame ..).pending
  · cases h

theorem EndsInNext.dwellIntervalExpiry (l : LaneId) : EndsInNext s (execDwellIntervalExpiry l s) := by
  refine .onEvent fun t h => ?_
  split at h
  · split at h
    · cases h; exact (runDwell_frame ..).pending
    · cases h
  · cases h

theorem EndsInNext.homingStepEvent (l : LaneId) : EndsInNext s (execHomingStepEvent l s) := by
  refine .onEvent fun t h => ?_
  split at h
  · split at h
    · split at h
      · cases h
      · cases h; exact (runHomingStep_frame ..).pending
    · cases h
  · cases h

theorem EndsInNext.homeLimitIntervalExpiry (l : LaneId) : EndsInNext s (execHomeLimitIntervalExpiry l s) := by
  refine .onEvent fun t h => ?_
  split at h
  · split at h
    · cases h; exact (halt_frame ..).pending
    · cases h
  · cases h

theorem EndsInNext.settleExpiry (l : LaneId) : EndsInNext s (execSettleExpiry l s) :=
  .onEvent fun _ h => pending_of_if h (leaveIfMet_frame ..).pending

theorem EndsInNext.syncTimeoutExpiry (l : LaneId) : EndsInNext s (execSyncTimeoutExpiry l s) := by
  refine .onEvent fun t h => ?_
  split at h
  · cases h; exact (halt_frame ..).pending
  · cases h

theorem EndsInNext.silenceExpiry : EndsInNext s (execSilenceExpiry s) :=
  .onEvent fun _ h => pending_of_if h ((silenceLane_frame ..).1.pending.trans (silenceLane_frame ..).1.pending)

theorem EndsInNext.triggerRawChange (n : TrgId) (level : Level) : EndsInNext s (execTriggerRawChange n level s) := by
  unfold execTriggerRawChange; split
  · refine .onEvent fun t h => ?_
    dsimp only at h
    split at h
    · cases h
    · cases h
      split
      · exact passTriggerFilter_pending ..
      · rfl
  · exact ⟨_, rfl, rfl⟩

theorem EndsInNext.triggerFilteredChange (n : TrgId) : EndsInNext s (execTriggerFilteredChange n s) :=
  .onEvent fun _ h => pending_of_if h (passTriggerFilter_pending ..)

theorem EndsInNext.homeRawChange (a : AxisId) (level : Level) : EndsInNext s (execHomeRawChange a level s) := by
  unfold execHomeRawChange; split
  · refine .onEvent fun t h => ?_
    dsimp only at h
    split at h
    · cases h
    · cases h
      split
      · exact (passHomeFilter_frame ..).pending
      · rfl
  · exact ⟨_, rfl, rfl⟩

theorem EndsInNext.homeFilteredChange (a : AxisId) : EndsInNext s (execHomeFilteredChange a s) :=
  .onEvent fun _ h => pending_of_if h (passHomeFilter_frame ..).pending

theorem EndsInNext.framingError : EndsInNext s (execFramingError s) :=
  .onQuietEvent fun _ h => pending_of_if h rfl

theorem EndsInNext.lenOver200 (len : Byte) : EndsInNext s (execLenOver200 len s) :=
  .onQuietEvent fun _ h => pending_of_if h rfl

theorem EndsInNext.gapExpiry : EndsInNext s (execGapExpiry s) :=
  .onQuietEvent fun _ h => pending_of_if h rfl

theorem EndsInNext.linkBreak : EndsInNext s (execLinkBreak s) :=
  .onQuietEvent fun _ h => pending_of_if h rfl

theorem EndsInNext.holdTimerExpiry (a : AxisId) : EndsInNext s (execHoldTimerExpiry a s) :=
  .onQuietEvent fun _ h => pending_of_if h rfl

theorem EndsInNext.resendTimerExpiry : EndsInNext s (execResendTimerExpiry s) :=
  .onLinkEvent fun _ h => pending_of_if h rfl

theorem EndsInNext.pulseEnd (a : AxisId) : EndsInNext s (execPulseEnd a s) :=
  .onQuietEvent fun _ h => pending_of_if h rfl

theorem EndsInNext.byteArrival (byte : Byte) : EndsInNext s (execByteArrival byte s) :=
  .onQuietEvent fun _ h => pending_of_if h (receiveByte_pending byte s)

theorem EndsInNext.frameReceived (low : Byte) : EndsInNext s (execFrameReceived low s) := by
  refine .onQuietEvent fun t h => ?_
  split at h
  · cases h; exact judgeFrame_pending ..
  · cases h

theorem EndsInNext.frameSent : EndsInNext s (execFrameSent s) := by
  refine .onQuietEvent fun t h => ?_
  split at h
  · cases h; exact endFrame_pending ..
  · cases h

theorem EndsInNext.rxdLevelChange (level : Level) : EndsInNext s (execRxdLevelChange level s) := by
  refine ⟨_, rfl, ?_⟩
  split
  · split
    · rfl
    · exact takeRxd_pending level s
  · rfl

theorem EndsInNext.rstnLow : EndsInNext s (execRstnLow s) := by
  refine ⟨_, rfl, ?_⟩
  dsimp only
  split <;> rfl

theorem EndsInNext.deviceResetEnd (rate1 rate0 : Level) : EndsInNext s (execDeviceResetEnd rate1 rate0 s) := by
  refine ⟨_, rfl, ?_⟩
  split
  · rfl
  · exact beginFrame_pending _

end

theorem exec_endsInNext (c : Instr) (s : State) : EndsInNext s (exec c s) := by
  cases c with
  | ping => exact .request _ (Meaning.KeepsPending.withLength (m := ping) (fun _ _ => rfl) 0 200)
  | identify => exact .request _ (.withLength (fun _ _ => rfl) 0 0)
  | setLink => exact .request _ (setLink_keepsPending.withLength 6 6)
  | restart => exact .request _ (.withLength (fun _ _ => rfl) 0 0)
  | setTick => exact .request _ (setTick_keepsPending.withLength 1 1)
  | setAxis => exact .request _ (setAxis_keepsPending.withLength 18 18)
  | setLane => exact .request _ (setLane_keepsPending.withLength 9 9)
  | setLine => exact .request _ (setLine_keepsPending.withLength 7 7)
  | loadPattern => exact .request _ (loadPattern_keepsPending.withLength 1 200)
  | setPosition => exact .request _ (setPosition_keepsPending.withLength 5 5)
  | energise => exact .request _ (energise_keepsPending.withLength 1 1)
  | release => exact .request _ (release_keepsPending.withLength 1 1)
  | queueSegment => exact .request _ (queueSegment_keepsPending.withLength 9 32)
  | startLane => exact .request _ (startLane_keepsPending.withLength 1 1)
  | stopLane => exact .laneRequest _ stopLaneEffect_frame
  | abortLane => exact .laneRequest _ fun l s => halt_frame l ⟨.abort, none⟩ s
  | holdLane => exact .laneRequest _ fun l s => (LaneFrame.setLane ..).trans (applyHold_frame l _)
  | resumeLane => exact .laneRequest _ fun l s => (LaneFrame.setLane ..).trans (applyHold_frame l _)
  | clearLane => exact .laneRequest _ clearLaneEffect_frame
  | readLane => exact .request _ ((onLane_keepsPending fun _ _ _ => rfl).withLength 1 1)
  | readAxis => exact .request _ ((onAxis_keepsPending fun _ _ _ => rfl).withLength 1 1)
  | readLines => exact .request _ (.withLength (fun _ _ => rfl) 0 0)
  | mark => exact .request _ (.withLength (fun _ s => makeCapture_pending .host none s) 0 0)
  | readCaptures => exact .request _ (readCaptures_keepsPending.withLength 1 1)
  | fetchReport => exact .request _ (fetchReport_keepsPending.withLength 0 0)
  | ackReport => exact .request _ (ackReport_keepsPending.withLength 1 1)
  | unknownKindRequest => exact ⟨_, rfl, takeRequest_pending _ _ (fun _ _ => rfl) s⟩
  | frameReceived low => exact .frameReceived s low
  | framingError => exact .framingError s
  | lenOver200 len => exact .lenOver200 s len
  | gapExpiry => exact .gapExpiry s
  | linkBreak => exact .linkBreak s
  | frameBegin => exact .onLinkEvent fun t h => by cases h; rfl
  | frameSent => exact .frameSent s
  | powerOn => exact ⟨_, rfl, rfl⟩
  | rstnLow => exact .rstnLow s
  | deviceResetEnd rate1 rate0 => exact .deviceResetEnd s rate1 rate0
  | stepEvent l => exact .stepEvent s l
  | inProgressStepEvent l => exact .inProgressStepEvent s l
  | stopRampStepEvent l => exact .stopRampStepEvent s l
  | dwellIntervalExpiry l => exact .dwellIntervalExpiry s l
  | homingStepEvent l => exact .homingStepEvent s l
  | homeLimitIntervalExpiry l => exact .homeLimitIntervalExpiry s l
  | settleExpiry l => exact .settleExpiry s l
  | holdTimerExpiry a => exact .holdTimerExpiry s a
  | syncTimeoutExpiry l => exact .syncTimeoutExpiry s l
  | silenceExpiry => exact .silenceExpiry s
  | resendTimerExpiry => exact .resendTimerExpiry s
  | triggerRawChange n level => exact .triggerRawChange s n level
  | triggerFilteredChange n => exact .triggerFilteredChange s n
  | homeRawChange a level => exact .homeRawChange s a level
  | homeFilteredChange a => exact .homeFilteredChange s a
  | pulseEnd a => exact .pulseEnd s a
  | byteArrival byte => exact .byteArrival s byte
  | rxdLevelChange level => exact .rxdLevelChange s level

/-- Settles O2, by the commands. -/
theorem noCommandStops : Obligations.NoCommandStops := exec_endsInNext

end Sys2Proof.Machine
end

section
/-! PROOF. The filter of a home line: a raw change as a measure that starts, is lost or passes at once, and the filtered change
where the owning lane runs no HOME of the axis. -/

namespace Sys2Proof.Machine

open Sys2Proof

/-! ### A raw change of an input line -/

/-- A return to the filtered level loses the change (R104, R118; log 23). -/
theorem InputFilter.rawChange_of_return {f : InputFilter} {level : Level} (h : level = f.filtered) :
    f.rawChange level = ⟨level, level, none⟩ := by
  unfold InputFilter.rawChange; rw [if_pos h, ← h]

/-- A new level starts the measure (R104, R118). -/
theorem InputFilter.rawChange_of_new {f : InputFilter} {level : Level} (h : level ≠ f.filtered) :
    f.rawChange level = ⟨level, f.filtered, some 0⟩ := by
  unfold InputFilter.rawChange; rw [if_neg h]

/-- A measure that has just started has passed only a filter time of 0 (R104, R118). -/
theorem InputFilter.passed_of_begun (raw filtered : Level) (units : Nat) :
    (⟨raw, filtered, some 0⟩ : InputFilter).passed units = decide (units = 0) := by
  rw [Bool.eq_iff_iff, InputFilter.passed_iff, decide_eq_true_iff]
  constructor
  · rintro ⟨e, he, hle⟩
    cases he; omega
  · rintro rfl
    exact ⟨0, rfl, Nat.le_refl 0⟩

/-! ### The events of a home line -/

/-- In a running part an event depends on the state before it by its effect and the hold timers that run (R53). -/
theorem onEvent_congr {f f' : State → Option State} {s s' t : State} (hr : s.power = .running) (hr' : s'.power = .running)
    (hf : f s = some t) (hf' : f' s' = some t) (hh : ∀ a, s.holdRuns a = s'.holdRuns a) : onEvent f s = onEvent f' s' := by
  simp only [onEvent, State.running, hr, hr', hf, hf', decide_true, settleHoldTimers_congr hh]

/-- The part after the home line of axis `a` has taken a raw level, before the filter passes it (R104). -/
def State.homeRawTaken (s : State) (a : AxisId) (level : Level) : State :=
  s.setAxis a { s.axis a with home := (s.axis a).home.rawChange level }

theorem homeRawTaken_holdRuns (s : State) (a : AxisId) (level : Level) (b : AxisId) :
    s.holdRuns b = (s.homeRawTaken a level).holdRuns b :=
  holdRuns_setAxis (x := { s.axis a with home := (s.axis a).home.rawChange level }) rfl rfl rfl b

/-- What a raw change does: the line takes the level, and the filter passes it at once if its time is over (R104). -/
def homeRawEffect (a : AxisId) (level : Level) (s : State) : State :=
  if ((s.axis a).home.rawChange level).passed (s.axis a).homeFilter then passHomeFilter a (s.homeRawTaken a level)
  else s.homeRawTaken a level

theorem execHomeRawChange_of_ne {s : State} {a : AxisId} {level : Level} (hr : s.power = .running)
    (h : (s.axis a).home.raw ≠ level) :
    execHomeRawChange a level s = onEvent (fun s => some (homeRawEffect a level s)) s := by
  have running : s.running = true := decide_eq_true hr
  unfold execHomeRawChange onEvent
  simp only [running, if_true, if_neg h]
  rfl

theorem execHomeFilteredChange_of_measured {s : State} {a : AxisId} (h : (s.axis a).home.measure ≠ none) :
    execHomeFilteredChange a s = onEvent (fun s => some (passHomeFilter a s)) s := by
  unfold execHomeFilteredChange onEvent
  simp only [Option.isSome_iff_ne_none.2 h, if_true]

/-- A raw change that the filter does not pass at once ends in the transmitter's choice (R104). -/
theorem execHomeRawChange_chooses {s : State} {a : AxisId} {level : Level} (hr : s.power = .running)
    (h : (s.axis a).home.raw ≠ level) (hp : ((s.axis a).home.rawChange level).passed (s.axis a).homeFilter = false) :
    ∃ t, execHomeRawChange a level s = .next t ∧ Chooses (s.homeRawTaken a level) t := by
  have effect : homeRawEffect a level s = s.homeRawTaken a level := if_neg (by rw [hp]; exact Bool.false_ne_true)
  rw [execHomeRawChange_of_ne hr h]
  exact onEvent_chooses hr (congrArg some effect) rfl (homeRawTaken_holdRuns s a level)

/-- A raw change that the filter passes at once is the filtered change of the line with the level taken (R104). -/
theorem execHomeRawChange_passes {s : State} {a : AxisId} {level : Level} (hr : s.power = .running)
    (h : (s.axis a).home.raw ≠ level) (hnew : level ≠ (s.axis a).home.filtered) (hz : (s.axis a).homeFilter = 0) :
    execHomeRawChange a level s = execHomeFilteredChange a (s.homeRawTaken a level) := by
  have begun := InputFilter.rawChange_of_new hnew
  have effect : homeRawEffect a level s = passHomeFilter a (s.homeRawTaken a level) :=
    if_pos (by rw [begun, InputFilter.passed_of_begun]; exact decide_eq_true hz)
  have measured : ((s.homeRawTaken a level).axis a).home.measure ≠ none := by
    rw [State.homeRawTaken, State.axis_setAxis_self, begun]; exact Option.some_ne_none 0
  rw [execHomeRawChange_of_ne hr h, execHomeFilteredChange_of_measured measured]
  exact onEvent_congr hr hr (congrArg some effect) rfl (homeRawTaken_holdRuns s a level)

theorem passHomeFilter_free {s : State} {a : AxisId} (ho : (s.axis a).owner = none) : passHomeFilter a s = s.homePassed a := by
  unfold passHomeFilter; dsimp only
  split
  · rename_i l h; rw [ho] at h; cases h
  · rfl

/-- With no lane in RUNNING or HELD with a HOME of the axis, the filtered level takes the raw one and nothing else happens
(R104). -/
theorem passHomeFilter_of_no_homing {s : State} {a : AxisId}
    (h : ∀ l, (s.axis a).owner = some l → (s.lane l).state ≠ .running ∧ (s.lane l).state ≠ .held ∨
      ∀ g ∈ (s.lane l).queue.head?, ∀ limit preset, g.body ≠ .home a limit preset) :
    passHomeFilter a s = s.homePassed a := by
  cases ho : (s.axis a).owner with
  | none => exact passHomeFilter_free ho
  | some l => rw [passHomeFilter_owned ho]; exact homeEvent_of_no_homing (h l ho)

/-- Settles O45: a raw change by whether the level returns and whether the filter time is 0, and the filtered change where no
HOME of the axis acts on it. -/
theorem homeLineFiltered : Obligations.HomeLineFiltered := by
  intro s a level hr x measured
  have taken : ∀ {f}, x.home.rawChange level = f → s.homeRawTaken a level = s.setAxis a { x with home := f } := fun e => by
    rw [State.homeRawTaken, e]
  refine ⟨fun hne hback => ?_, fun hne hnew hfilter => ?_, fun hne hnew hfilter => ?_, fun hm hidle => ?_⟩
  · have lost := InputFilter.rawChange_of_return hback
    have := execHomeRawChange_chooses hr hne (by rw [lost]; rfl)
    rwa [taken lost] at this
  · have begun := InputFilter.rawChange_of_new hnew
    have := execHomeRawChange_chooses hr hne (by rw [begun, InputFilter.passed_of_begun]; exact decide_eq_false hfilter)
    rwa [taken begun] at this
  · have := execHomeRawChange_passes hr hne hnew hfilter
    rwa [taken (InputFilter.rawChange_of_new hnew)] at this
  · obtain ⟨t, ht, chooses⟩ := onEvent_chooses (f := fun s => some (passHomeFilter a s)) hr
      (congrArg some (passHomeFilter_of_no_homing hidle)) rfl (homePassed_holdRuns s a)
    exact ⟨t, (execHomeFilteredChange_of_measured hm).trans ht, chooses⟩

end Sys2Proof.Machine
end

section
/-! PROOF. What the operations of a lane's work hand to the report queue: each leaves it with some reports handed over, in order,
and does nothing else to it. -/

namespace Sys2Proof.Machine

open Sys2Proof

/-- The report queue of `t` is that of `s` with some reports handed over to it, in order (R176). -/
def HandsOver (s t : State) : Prop := ∃ bodies : List ReportBody, t.reports = bodies.foldl ReportQueue.hand s.reports

theorem HandsOver.of_eq {s t : State} (h : t.reports = s.reports) : HandsOver s t := ⟨[], h⟩

theorem HandsOver.refl (s : State) : HandsOver s s := .of_eq rfl

theorem HandsOver.trans {s t u : State} (h : HandsOver s t) (k : HandsOver t u) : HandsOver s u := by
  obtain ⟨first, h⟩ := h
  obtain ⟨rest, k⟩ := k
  exact ⟨first ++ rest, by rw [k, h, List.foldl_append]⟩

theorem HandsOver.enqueue (b : ReportBody) (s : State) : HandsOver s (enqueue b s) := ⟨[b], rfl⟩

/-- The report law survives all that is handed over (R176). -/
theorem HandsOver.reportLaw {s t : State} (h : HandsOver s t) (law : ReportLaw s.reports) : ReportLaw t.reports := by
  obtain ⟨bodies, h⟩ := h
  rw [h]; clear h
  generalize s.reports = q at law
  induction bodies generalizing q with
  | nil => exact law
  | cons b rest ih => exact ih _ (law.hand b)

/-! ### Ends of a lane's work (R11, R78, R92, R94) -/

theorem endLane_hands (l : LaneId) (h : Option HaltInfo) (s : State) : HandsOver s (endLane l h s) := by
  rw [endLane_eq]; exact ⟨[stoppedReport s l h], rfl⟩

theorem haltOnly_hands (l : LaneId) (h : HaltInfo) (s : State) : HandsOver s (haltOnly l h s) := by
  unfold haltOnly; split
  · exact .refl s
  · exact endLane_hands ..

theorem halt_hands (l : LaneId) (h : HaltInfo) (s : State) : HandsOver s (halt l h s) := by
  unfold halt; dsimp only
  split
  · exact .refl s
  split
  · exact (endLane_hands ..).trans (haltOnly_hands ..)
  · exact endLane_hands ..

theorem reachStopEnd_hands (l : LaneId) (e : RampEnd) (s : State) : HandsOver s (reachStopEnd l e s) := by
  cases e with
  | idle => exact endLane_hands ..
  | haltedSilence => exact halt_hands ..

/-! ### Activation and completion (R13 to R18, R75 to R77) -/

theorem beginSegment_reports (l : LaneId) (atTick : Bool) (s : State) : (beginSegment l atTick s).reports = s.reports := by
  cases hq : (s.lane l).queue with
  | nil => unfold beginSegment; rw [hq]
  | cons g rest => rw [beginSegment_eq atTick hq]; split <;> rfl

theorem leaveIfMet_reports (l : LaneId) (atTick : Bool) (s : State) : (leaveIfMet l atTick s).reports = s.reports := by
  unfold leaveIfMet; split
  · exact beginSegment_reports ..
  · rfl

theorem enterSync_hands (l : LaneId) (k : Nat) (atTick : Bool) (s : State) : HandsOver s (enterSync l k atTick s) := by
  unfold enterSync; dsimp only
  split
  · exact .refl s
  split
  · exact .of_eq (by rw [leaveIfMet_reports, leaveIfMet_reports]; rfl)
  · exact (haltOnly_hands ..).trans (haltOnly_hands ..)

theorem prepareActivation_reports (l : LaneId) (g : Segment) (s : State) : (prepareActivation l g s).reports = s.reports := by
  unfold prepareActivation; dsimp only; split <;> rfl

theorem activate_hands (l : LaneId) (atTick : Bool) (s : State) : HandsOver s (activate l atTick s) := by
  unfold activate; dsimp only
  split
  · exact .refl s
  rename_i g _ _
  refine (HandsOver.of_eq (prepareActivation_reports l g s)).trans ?_
  split
  · exact enterSync_hands ..
  · exact .of_eq (leaveIfMet_reports ..)

theorem removeActive_hands (l : LaneId) (home : Option HomeResult) (s : State) : HandsOver s (removeActive l home s) := by
  unfold removeActive; dsimp only
  split
  · exact .refl s
  split
  · exact .enqueue _ _
  · exact .refl s

theorem complete_hands (l : LaneId) (home : Option HomeResult) (atTick : Bool) (s : State) :
    HandsOver s (complete l home atTick s) := by
  unfold complete; dsimp only
  refine (removeActive_hands l home s).trans ?_
  split
  · exact .refl _
  · exact activate_hands ..

/-! ### Step events, dwell intervals and homing (R34, R38, R89, R91, R108 to R110) -/

theorem runMoveStep_hands (l : LaneId) (entries : List (AxisId × Int)) (i0 i1 n : Nat) (s : State) :
    HandsOver s (runMoveStep l entries i0 i1 n s) := by
  unfold runMoveStep; split
  · exact halt_hands ..
  dsimp only; split
  · exact complete_hands l none true (takeMoveStep l entries n s)
  · exact .refl s

theorem completeInStop_hands (l : LaneId) (e : RampEnd) (s : State) : HandsOver s (completeInStop l e s) :=
  (removeActive_hands ..).trans (reachStopEnd_hands ..)

theorem runInProgressStep_hands (l : LaneId) (entries : List (AxisId × Int)) (n : Nat) (r : StopRamp) (s : State) :
    HandsOver s (runInProgressStep l entries n r s) := by
  unfold runInProgressStep; split
  · exact halt_hands ..
  dsimp only; split
  · exact completeInStop_hands l r.endState (takeMoveStep l entries n s)
  split
  · exact reachStopEnd_hands l r.endState (takeMoveStep l entries n s)
  · exact .refl s

theorem runStopStep_hands (l : LaneId) (entries : List (AxisId × Int)) (n : Nat) (r : StopRamp) (steps : Nat) (s : State) :
    HandsOver s (runStopStep l entries n r steps s) := by
  unfold runStopStep; split
  · exact halt_hands ..
  dsimp only; split
  · split
    · exact completeInStop_hands l r.endState (takeMoveStep l entries n s)
    · exact reachStopEnd_hands l r.endState (takeMoveStep l entries n s)
  · exact .refl s

theorem runDwell_hands (l : LaneId) (i0 : Nat) (s : State) : HandsOver s (runDwell l i0 s) := by
  unfold runDwell; dsimp only; split
  · exact complete_hands ..
  · exact .refl s

theorem runHomingStep_hands (l : LaneId) (a : AxisId) (limit i0 : Nat) (h : HomingRun) (s : State) :
    HandsOver s (runHomingStep l a limit i0 h s) := by
  unfold runHomingStep; dsimp only; split
  · exact halt_hands ..
  · exact .refl s

theorem detectHome_hands (l : LaneId) (a : AxisId) (preset : Int) (s : State) : HandsOver s (detectHome l a preset s) := by
  unfold detectHome; dsimp only; split
  · exact complete_hands l _ s.onTick (s.setAxis a { s.axis a with position := preset })
  · exact halt_hands ..

theorem homeEvent_hands (l : LaneId) (a : AxisId) (becameActive : Bool) (s : State) :
    HandsOver s (homeEvent l a becameActive s) := by
  unfold homeEvent; dsimp only
  split
  · split
    · split
      · split
        · exact .refl s
        · exact detectHome_hands ..
        · exact .refl s
      · exact .refl s
    · exact .refl s
  · exact .refl s

theorem passHomeFilter_hands (a : AxisId) (s : State) : HandsOver s (passHomeFilter a s) := by
  cases ho : (s.axis a).owner with
  | none => rw [passHomeFilter_free ho]; exact .refl s
  | some l => rw [passHomeFilter_owned ho]; exact homeEvent_hands l a _ (s.homePassed a)

/-! ### Trigger lines, stops and silence (R67, R72, R82, R86, R99) -/

theorem applyHold_reports (l : LaneId) (s : State) : (applyHold l s).reports = s.reports := by rw [applyHold_eq]; rfl

theorem applyHolds_reports (s : State) : (applyHolds s).reports = s.reports := by rw [applyHolds_eq]

theorem haltMasked_hands (m : LaneMask) (s : State) : HandsOver s (haltMasked m s) := by
  cases m with
  | none => exact .refl s
  | l0 | l1 => exact halt_hands ..
  | both => exact (haltOnly_hands ..).trans (haltOnly_hands ..)

theorem roleEffect_hands (n : TrgId) (accepted : Bool) (s : State) : HandsOver s (roleEffect n accepted s) := by
  unfold roleEffect; split
  · exact .of_eq ((meetTrigger_other ..).2.2.trans (meetTrigger_other ..).2.2)
  · exact .of_eq (applyHolds_reports s)
  · exact haltMasked_hands ..
  · exact .refl s

theorem stopLaneEffect_hands (l : LaneId) (s : State) : HandsOver s (stopLaneEffect l s) := by
  unfold stopLaneEffect; dsimp only
  cases (s.lane l).state with
  | ready | waiting | held => exact endLane_hands ..
  | running =>
    dsimp only; split
    · exact .refl s
    · exact endLane_hands ..
  | idle | stopping | halted => exact .refl s

theorem silenceLane_hands (l : LaneId) (s : State) : HandsOver s (silenceLane l s) := by
  by_cases h : (s.lane l).silenceHalts
  · exact ⟨[stoppedReport s l (some ⟨.silence, none⟩)], (silenceLane_reports l s).1 h⟩
  · exact .of_eq ((silenceLane_reports l s).2 h)

end Sys2Proof.Machine
end

section
/-! PROOF. The laws of the report queue, the capture log and the link under each single change of them: a capture taken or removed,
a slot filled, answered or freed, a frame begun or ended. -/

namespace Sys2Proof.Machine

open Sys2Proof

/-! ### The capture log (R125 to R130) -/

/-- The ways an event changes the capture log: READ-CAPTURES takes the oldest records away (none of them where the event is
another), a capture is dropped or stored, or a device reset empties the log. -/
inductive CaptureChange (c : CaptureLog) : CaptureLog → Prop
  | removed (n : Nat) : CaptureChange c { c with records := c.records.drop n }
  | dropped : CaptureChange c { c with next := c.next + 1, dropped := c.dropped + 1 }
  | stored (r : CaptureRecord) (place : c.records.length < 8) (number : r.number = c.next) (before : r.droppedBefore = c.dropped) :
    CaptureChange c ⟨c.records ++ [r], c.next + 1, 0⟩
  | reset : CaptureChange c ⟨[], 0, 0⟩

theorem CaptureChange.refl (c : CaptureLog) : CaptureChange c c := .removed 0

theorem CaptureChange.of_eq {c c' : CaptureLog} (h : c' = c) : CaptureChange c c' := h ▸ .refl c

theorem makeCapture_change (source : CaptureSource) (edge : Option Edge) (s : State) :
    CaptureChange s.captures (makeCapture source edge s).captures := by
  cases hf : s.captures.full with
  | true => rw [makeCapture_of_full _ _ _ hf]; exact .dropped
  | false =>
    rw [makeCapture_of_not_full _ _ _ hf]
    exact .stored _ (Nat.not_le.mp (of_decide_eq_false hf)) rfl rfl

theorem numbersFollow_removed {next dropped : Word16} {records : List CaptureRecord} (h : numbersFollow next dropped records)
    (n : Nat) : numbersFollow next dropped (records.drop n) := by
  induction n with
  | zero => exact h
  | succ n ih => rw [← List.tail_drop]; exact numbersFollow_tail ih

theorem CaptureChange.law {c c' : CaptureLog} (h : CaptureChange c c') (law : CaptureLaw c) : CaptureLaw c' := by
  cases h with
  | removed n =>
    refine ⟨?_, numbersFollow_removed law.numbers n⟩
    rw [List.length_drop]; exact Nat.le_trans (Nat.sub_le ..) law.depth
  | dropped => exact ⟨law.depth, numbersFollow_drop law.numbers⟩
  | stored r place number before =>
    refine ⟨?_, numbersFollow_snoc law.numbers r number before⟩
    rw [List.length_append]; exact place
  | reset => exact ⟨Nat.zero_le _, trivial⟩

/-- The account of the capture numbers goes on across records removed (R127). -/
theorem CaptureChange.continues {c c' : CaptureLog} (h : CaptureChange c c') (m : Word16) : CapturesContinue m c c' := by
  intro account
  cases h with
  | removed n => exact .inl ⟨n, rfl, account⟩
  | dropped => exact .inl ⟨0, rfl, (congrArg (· + 1) account).trans (BitVec.add_assoc ..)⟩
  | stored r place number before =>
    exact .inr (.inl ⟨r, rfl, by rw [number, account, before], by rw [number]; exact (BitVec.add_zero _).symm⟩)
  | reset => exact .inr (.inr rfl)

/-! ### The report queue (R174 to R182) -/

section
variable {q : ReportQueue} (law : ReportLaw q)
include law

/-- The law says nothing of the delivery of the head but its retry count. -/
theorem ReportLaw.delivery {q' : ReportQueue} (hl : q'.list = q.list) (hn : q'.next = q.next) (ho : q'.lost = q.lost)
    (limit : q'.resendLimit ≤ 15) (retries : q'.retries ≤ 15) : ReportLaw q' where
  depth := by rw [hl]; exact law.depth
  ordinary := by rw [hl]; exact law.ordinary
  numbers := by rw [hl, hn]; exact law.numbers
  lost := by rw [ho]; exact law.lost
  limit := limit
  retries := retries

theorem ReportLaw.headUnsent : ReportLaw q.headUnsent := law.delivery rfl rfl rfl law.limit (Nat.zero_le _)

theorem ReportLaw.switchTo (m : Delivery) : ReportLaw (q.switchTo m) := by
  unfold ReportQueue.switchTo
  split
  · exact law
  split
  · exact law.delivery rfl rfl rfl law.limit law.retries
  · exact law.delivery rfl rfl rfl law.limit (Nat.zero_le _)

theorem ReportLaw.recordSent (period : MsTimer) (number : Byte) : ReportLaw (q.recordSent period number) := by
  unfold ReportQueue.recordSent
  split
  · split
    · split
      · exact law.delivery rfl rfl rfl law.limit law.retries
      · exact law.delivery rfl rfl rfl law.limit law.retries
    · exact law
  · exact law

/-- A retry count below the resend limit stays within its range when it rises (R179). -/
theorem ReportLaw.resendExpired : ReportLaw q.resendExpired := by
  unfold ReportQueue.resendExpired
  split
  · rename_i below; exact law.delivery rfl rfl rfl law.limit (Nat.le_trans below law.limit)
  · exact law.delivery rfl rfl rfl law.limit law.retries

end

theorem beginFrame_reportLaw {s : State} (law : ReportLaw s.reports) : ReportLaw (beginFrame s).reports := by
  rw [beginFrame_frame]; exact law.delivery rfl rfl rfl law.limit law.retries

/-- A device reset leaves no report, or RESTARTED alone (R165, R188). -/
theorem reportLaw_atReset (cause : ResetCause) :
    ReportLaw (ReportQueue.atReset cause) ∧ ReportLaw { ReportQueue.atReset cause with list := [] } := by
  refine ⟨⟨?_, ?_, ?_, ?_, ?_, ?_⟩, ⟨?_, ?_, ?_, ?_, ?_, ?_⟩⟩ <;> simp [ReportQueue.atReset, ReportBody.vital, numbersBefore]

/-! ### The link (R138 to R151) -/

theorem eq_otherSlot_of_ne {i j : SlotId} (h : j ≠ i) : j = otherSlot i := by revert h; cases i <;> cases j <;> decide

theorem Link.slot_setSlot_of_ne (k : Link) {i j : SlotId} (v : Slot) (h : j ≠ i) : (k.setSlot i v).slot j = k.slot j := by
  rw [eq_otherSlot_of_ne h, Link.slot_setSlot_other]

section
variable {k : Link} (law : LinkLaw k)
include law

theorem LinkLaw.slots_apart {i : SlotId} {o : Nat} (h : (k.slot i).order = some o) : (k.slot (otherSlot i)).order ≠ some o := by
  cases i with
  | S0 => exact law.orders o h
  | S1 => exact fun h' => law.orders o h' h

/-- The transmitter sends from an ANSWERING slot alone (R151). -/
theorem LinkLaw.not_sending {i : SlotId} (h : ∀ o f after, k.slot i ≠ .answering o f after) (f : List Byte) (n : Nat) :
    k.tx ≠ .sending (.slot i) f n := fun ht => by
  obtain ⟨o, after, hs⟩ := law.sending i f n ht
  exact h o f after hs

theorem LinkLaw.withTx {tx : Transmitter}
    (h : ∀ i f n, tx = .sending (.slot i) f n → ∃ o after, k.slot i = .answering o f after) : LinkLaw { k with tx := tx } :=
  ⟨law.cache, law.orders, law.below, law.gap, h, law.bit⟩

theorem LinkLaw.withTxIdle : LinkLaw { k with tx := .idle } := law.withTx fun _ _ _ h => nomatch h

theorem LinkLaw.withLastBit {bit : Option LastBit} (h : ∀ b, bit = some b → 1 ≤ b.left ∧ b.left ≤ bitWeight) :
    LinkLaw { k with lastBit := bit } :=
  ⟨law.cache, law.orders, law.below, law.gap, law.sending, h⟩

theorem LinkLaw.withReceiver {r : Receiver} {gap : Option Nat} (h : gap.isSome = true ↔ r ≠ .hunt) :
    LinkLaw { k with receiver := r, gap := gap } :=
  ⟨law.cache, law.orders, law.below, h, law.sending, law.bit⟩

theorem LinkLaw.stored (e : CacheEntry) : LinkLaw { k with cache := storeReply k.cache e } := by
  refine ⟨?_, law.orders, law.below, law.gap, law.sending, law.bit⟩
  have := law.cache
  rw [storeReply_eq, List.length_append]
  split
  · rename_i h; exact h
  · rw [List.length_tail, List.length_singleton]; omega

/-- A slot that the transmitter sends nothing from takes what has an order of its own (R145). -/
theorem LinkLaw.setSlot {i : SlotId} {v : Slot} (order : ∀ o, v.order = some o → o < k.nextOrder ∧ (k.slot (otherSlot i)).order ≠ some o)
    (still : ∀ f n, k.tx ≠ .sending (.slot i) f n) : LinkLaw (k.setSlot i v) where
  cache := by rw [Link.setSlot_cache]; exact law.cache
  orders o h h' := by
    cases i with
    | S0 => exact (order o h).2 h'
    | S1 => exact (order o h').2 h
  below j o h := by
    rw [Link.setSlot_nextOrder]
    by_cases e : j = i
    · subst e; rw [Link.slot_setSlot_self] at h; exact (order o h).1
    · rw [Link.slot_setSlot_of_ne k v e] at h; exact law.below j o h
  gap := by rw [Link.setSlot_gap, Link.setSlot_receiver]; exact law.gap
  sending j f n h := by
    rw [Link.setSlot_tx] at h
    by_cases e : j = i
    · subst e; exact absurd h (still f n)
    · obtain ⟨o, after, hs⟩ := law.sending j f n h
      exact ⟨o, after, (Link.slot_setSlot_of_ne k v e).trans hs⟩
  bit := by rw [Link.setSlot_lastBit]; exact law.bit

/-- A PENDING slot is answered in its own order (R149, R156). -/
theorem LinkLaw.answered {i : SlotId} {o : Nat} {r : Request} (h : k.slot i = .pending o r) (f : List Byte) (after : AfterReply) :
    LinkLaw (k.setSlot i (.answering o f after)) := by
  have own : (k.slot i).order = some o := by rw [h]; rfl
  refine law.setSlot (fun o' e => ?_) (law.not_sending fun _ _ _ e => nomatch h.symm.trans e)
  cases e
  exact ⟨law.below i o own, law.slots_apart own⟩

/-- A FREE slot takes the next order of arrival (R145). -/
theorem LinkLaw.placed {i : SlotId} (h : k.freeSlot = some i) {v : Nat → Slot} (hv : ∀ o, (v o).order = some o) :
    LinkLaw (k.place i v) := by
  have free := slot_of_freeSlot h
  have set : LinkLaw ({ k with nextOrder := k.nextOrder + 1 }.setSlot i (v k.nextOrder)) := by
    have raised : LinkLaw { k with nextOrder := k.nextOrder + 1 } :=
      ⟨law.cache, law.orders, fun j o e => Nat.lt_succ_of_lt (law.below j o e), law.gap, law.sending, law.bit⟩
    refine raised.setSlot (fun o e => ?_) (law.not_sending fun _ _ _ e => nomatch free.symm.trans e)
    rw [hv] at e; cases e
    exact ⟨Nat.lt_succ_self _, fun e => absurd (law.below _ _ e) (Nat.lt_irrefl _)⟩
  unfold Link.place
  cases i <;> exact set

/-- The slot of a frame that has ended is FREE, and the transmitter idle (R151). -/
theorem LinkLaw.freed (i : SlotId) : LinkLaw { k.setSlot i .free with tx := .idle, lastBit := none } := by
  have set := law.withTxIdle.setSlot (i := i) (v := .free) (fun _ e => nomatch e) (fun _ _ e => nomatch e)
  cases i <;> exact set.withLastBit fun _ e => nomatch e

end

/-- A link with nothing in its slots, its cache, its receiver or its transmitter (R138, R188). -/
theorem linkLaw_of_empty {k : Link} (cache : k.cache = []) (slot0 : k.slot0 = .free) (slot1 : k.slot1 = .free)
    (receiver : k.receiver = .hunt) (gap : k.gap = none) (tx : k.tx = .idle)
    (bit : ∀ b, k.lastBit = some b → 1 ≤ b.left ∧ b.left ≤ bitWeight) : LinkLaw k where
  cache := by rw [cache]; exact Nat.zero_le _
  orders o h := by rw [slot0] at h; cases h
  below i o h := by
    have : k.slot i = .free := by cases i <;> assumption
    rw [this] at h; cases h
  gap := by simp [gap, receiver]
  sending i f n h := by rw [tx] at h; cases h
  bit := bit

theorem beginFrame_linkLaw {s : State} (law : LinkLaw s.link) : LinkLaw (beginFrame s).link := by
  unfold beginFrame
  split
  · split
    · rename_i i f hnext
      refine law.withTx fun j f' n e => ?_
      cases e; exact Link.slot_of_nextAnswer hnext
    · split
      · split
        · exact law.withTx fun _ _ _ e => nomatch e
        · exact law
      · exact law
  · exact law

end Sys2Proof.Machine
end

section
/-! PROOF. Every command and every step as a change of the report queue, the capture log and the link; and with that their laws,
kept by every step. -/

namespace Sys2Proof.Machine

open Sys2Proof

/-- What an event does to the report queue, the capture log and the link. -/
structure QueuesMove (s t : State) : Prop where
  reports : ReportLaw s.reports → ReportLaw t.reports
  captures : CaptureChange s.captures t.captures
  link : LinkLaw s.link → LinkLaw t.link

/-- The same for an effect that leaves the link as it was, but for the silence timer and its period. -/
structure QueuesEffect (s t : State) : Prop where
  reports : ReportLaw s.reports → ReportLaw t.reports
  captures : CaptureChange s.captures t.captures
  link : ∃ period timer, t.link = { s.link with silencePeriod := period, silenceTimer := timer }

theorem QueuesMove.refl (s : State) : QueuesMove s s := ⟨id, .refl _, id⟩

theorem QueuesMove.beginFrame {s t : State} (h : QueuesMove s t) : QueuesMove s (beginFrame t) :=
  ⟨fun law => beginFrame_reportLaw (h.reports law), by rw [beginFrame_captures]; exact h.captures,
    fun law => beginFrame_linkLaw (h.link law)⟩

/-- An event of the link alone. -/
theorem QueuesMove.of_link {s t : State} (hr : t.reports = s.reports) (hc : t.captures = s.captures)
    (h : LinkLaw s.link → LinkLaw t.link) : QueuesMove s t :=
  ⟨fun law => hr ▸ law, .of_eq hc, h⟩

theorem QueuesEffect.move {s t : State} (h : QueuesEffect s t) : QueuesMove s t := by
  refine ⟨h.reports, h.captures, fun law => ?_⟩
  obtain ⟨period, timer, hk⟩ := h.link
  rw [hk]
  exact ⟨law.cache, law.orders, law.below, law.gap, law.sending, law.bit⟩

theorem QueuesEffect.refl (s : State) : QueuesEffect s s := ⟨id, .refl _, _, _, rfl⟩

/-- A change outside the report queue, the capture log and the link. -/
theorem QueuesEffect.elsewhere {s t : State} (hr : t.reports = s.reports) (hc : t.captures = s.captures) (hk : t.link = s.link) :
    QueuesEffect s t :=
  ⟨fun law => hr ▸ law, .of_eq hc, _, _, hk⟩

/-- An effect on a part that a change elsewhere has left. -/
theorem QueuesEffect.after {s u t : State} (h : QueuesEffect u t) (hr : u.reports = s.reports) (hc : u.captures = s.captures)
    (hk : u.link = s.link) : QueuesEffect s t :=
  ⟨fun law => h.reports (hr ▸ law), hc ▸ h.captures, hk ▸ h.link⟩

/-- An operation of a lane's work hands reports over, and reaches neither the capture log nor the link. -/
theorem QueuesEffect.of_lane {s t : State} (frame : LaneFrame s t) (hands : HandsOver s t) : QueuesEffect s t :=
  ⟨hands.reportLaw, .of_eq frame.captures, _, _, frame.link⟩

/-- Such an operation after another effect. -/
theorem QueuesEffect.then_lane {s t u : State} (h : QueuesEffect s t) (frame : LaneFrame t u) (hands : HandsOver t u) :
    QueuesEffect s u :=
  ⟨fun law => hands.reportLaw (h.reports law), by rw [frame.captures]; exact h.captures, by rw [frame.link]; exact h.link⟩

theorem makeCapture_effect (source : CaptureSource) (edge : Option Edge) (s : State) :
    QueuesEffect s (makeCapture source edge s) := by
  refine ⟨fun law => ?_, makeCapture_change .., _, _, by rw [makeCapture_frame]⟩
  rcases makeCapture_reports source edge s with e | e <;> rw [e]
  · exact law
  · exact law.hand _

/-- The capture of a filtered change, if it makes one, and then the role of its line (R118, R119). -/
theorem passTriggerFilter_effect (n : TrgId) (s : State) : QueuesEffect s (passTriggerFilter n s) := by
  rw [passTriggerFilter_eq]; dsimp only
  refine QueuesEffect.then_lane ?_ (roleEffect_frame ..) (roleEffect_hands ..)
  split
  · exact (makeCapture_effect ..).after rfl rfl rfl
  · exact .elsewhere rfl rfl rfl

theorem passHomeFilter_effect (a : AxisId) (s : State) : QueuesEffect s (passHomeFilter a s) :=
  .of_lane (passHomeFilter_frame a s) (passHomeFilter_hands a s)

/-! ### Requests -/

/-- The request's effect, whatever its payload is. -/
def Meaning.MovesQueues (m : Meaning) : Prop := ∀ r s, QueuesEffect s (m r s).1

theorem Meaning.MovesQueues.withLength {m : Meaning} (h : m.MovesQueues) (lo hi : Nat) : Meaning.MovesQueues (withLength lo hi m) := by
  intro r s
  unfold Machine.withLength; split
  · exact h r s
  · exact .refl s

theorem onLane_movesQueues {m : LaneId → Request → State → State × Reply} (h : ∀ l r s, QueuesEffect s (m l r s).1) :
    Meaning.MovesQueues (onLane m) := by
  intro r s
  unfold onLane; split
  · exact h _ r s
  · exact .refl s

theorem onAxis_movesQueues {m : AxisId → Request → State → State × Reply} (h : ∀ a r s, QueuesEffect s (m a r s).1) :
    Meaning.MovesQueues (onAxis m) := by
  intro r s
  unfold onAxis; split
  · exact h _ r s
  · exact .refl s

theorem setTick_movesQueues : Meaning.MovesQueues setTick := by
  intro r s
  unfold setTick takeExponent; dsimp only
  repeat' split
  all_goals exact .elsewhere rfl rfl rfl

/-- SET-LINK keeps the retry count, and takes a resend limit of at most 15 (R163). -/
theorem setLink_movesQueues : Meaning.MovesQueues setLink := by
  intro r s
  unfold setLink; dsimp only
  split
  · split
    · rename_i checked
      simp only [Bool.and_eq_true, decide_eq_true_eq] at checked
      obtain ⟨-, limit⟩ := checked
      refine ⟨fun law => ?_, .refl _, _, _, rfl⟩
      exact (law.switchTo _).delivery rfl rfl rfl limit (law.switchTo _).retries
    · exact .refl s
  · exact .refl s

theorem setAxis_movesQueues : Meaning.MovesQueues setAxis := by
  intro r s
  unfold setAxis takeAxisSetting; dsimp only
  split
  · split
    · exact .refl s
    split
    · exact .refl s
    dsimp only; split
    · exact (passHomeFilter_effect ..).after rfl rfl rfl
    · exact .elsewhere rfl rfl rfl
  · exact .refl s

theorem setLane_movesQueues : Meaning.MovesQueues setLane := by
  refine onLane_movesQueues fun l r s => ?_
  dsimp only
  repeat' split
  all_goals exact .elsewhere rfl rfl rfl

theorem takeLineSetting_effect (n : TrgId) (x : TrgLine) (s : State) : QueuesEffect s (takeLineSetting n x s) := by
  unfold takeLineSetting
  refine QueuesEffect.then_lane ?_ (applyHolds_frame _) (.of_eq (applyHolds_reports _))
  split
  · exact (passTriggerFilter_effect ..).after rfl rfl rfl
  · exact .elsewhere rfl rfl rfl

theorem setLine_movesQueues : Meaning.MovesQueues setLine := by
  intro r s
  unfold setLine; dsimp only
  split
  · exact takeLineSetting_effect ..
  · exact .refl s

theorem loadPattern_movesQueues : Meaning.MovesQueues loadPattern := by
  intro r s
  unfold loadPattern; dsimp only
  repeat' split
  all_goals exact .elsewhere rfl rfl rfl

theorem setPosition_movesQueues : Meaning.MovesQueues setPosition := by
  refine onAxis_movesQueues fun a r s => ?_
  dsimp only
  repeat' split
  all_goals exact .elsewhere rfl rfl rfl

theorem energise_movesQueues : Meaning.MovesQueues energise := by
  refine onAxis_movesQueues fun a r s => ?_
  dsimp only
  repeat' split
  all_goals exact .elsewhere rfl rfl rfl

theorem release_movesQueues : Meaning.MovesQueues release := by
  refine onAxis_movesQueues fun a r s => ?_
  dsimp only
  repeat' split
  all_goals exact .elsewhere rfl rfl rfl

theorem queueSegment_movesQueues : Meaning.MovesQueues queueSegment := by
  intro r s
  unfold queueSegment; dsimp only
  repeat' split
  all_goals exact .elsewhere rfl rfl rfl

theorem startLane_movesQueues : Meaning.MovesQueues startLane := by
  refine onLane_movesQueues fun l r s => ?_
  cases hs : (s.lane l).state with
  | ready => exact .of_lane (activate_frame ..) (activate_hands ..)
  | idle | waiting | running | held | stopping | halted => exact .refl s

theorem readCaptures_movesQueues : Meaning.MovesQueues readCaptures := by
  intro r s
  unfold readCaptures; dsimp only
  split
  · exact .refl s
  · exact ⟨id, .removed _, _, _, rfl⟩

theorem fetchReport_movesQueues : Meaning.MovesQueues fetchReport := by
  intro r s
  unfold fetchReport; split
  · exact .refl s
  dsimp only; unfold fetchEffect; split
  · exact ⟨fun law => law.delivery rfl rfl rfl law.limit (Nat.zero_le _), .refl _, _, _, rfl⟩
  · exact .refl s

theorem ackReport_movesQueues : Meaning.MovesQueues ackReport := by
  intro r s
  unfold ackReport; split
  · exact .refl s
  split
  · exact ⟨ReportLaw.removeHead, .refl _, _, _, rfl⟩
  · exact .refl s

/-- The executor's event: the request's effect, and the PENDING slot answered (R147 to R149, R156). -/
theorem QueuesMove.takeRequest (row : Instr) (replyOf : Byte → Byte → List Byte → List Byte) {m : Meaning} (h : m.MovesQueues)
    (s : State) : QueuesMove s (takeRequest row replyOf m s) := by
  unfold Machine.takeRequest
  split
  · rename_i i o r _ hnext
    have slot := Link.slot_of_nextRequest hnext
    split
    · split
      · exact .beginFrame (.of_link rfl rfl fun law => law.answered slot _ _)
      · refine .beginFrame ⟨(h r s).reports, (h r s).captures, fun law => ?_⟩
        obtain ⟨period, timer, hk⟩ := (h r s).link
        have slot' : (m r s).1.link.slot i = .pending o r := by rw [hk, ← slot]; cases i <;> rfl
        have answered := ((h r s).move.link law).answered slot' (replyOf r.seq r.kind (m r s).2.payload) (m r s).2.after
        have stored := answered.stored ⟨r.seq, r.check, replyOf r.seq r.kind (m r s).2.payload⟩
        rwa [Link.setSlot_cache] at stored
    · exact .refl s
  · exact .refl s

/-! ### The passing of time -/

theorem LinkLaw.sendBits {k : Link} (law : LinkLaw k) : LinkLaw k.sendBits := by
  unfold Link.sendBits
  split
  · rename_i b hb
    refine law.withLastBit fun b' e => ?_
    unfold LastBit.advance at e
    split at e
    · cases e
    · cases e
      have := law.bit b hb
      dsimp only; omega
  · refine law.withTx fun i f n e => ?_
    cases ht : k.tx with
    | idle => rw [ht] at e; cases e
    | sending source g left => rw [ht] at e; cases e; exact law.sending _ _ _ ht

theorem countTime_queues (tick mark : Bool) (s : State) : QueuesMove s (countTime tick mark s) := by
  refine ⟨fun law => law.delivery rfl rfl rfl law.limit law.retries, .refl _, fun law => ?_⟩
  have sent := law.sendBits
  refine ⟨sent.cache, sent.orders, sent.below, ?_, sent.sending, sent.bit⟩
  have receiver : s.link.sendBits.receiver = s.link.receiver := by unfold Link.sendBits; split <;> rfl
  change (measured s.link.gap).isSome = true ↔ s.link.sendBits.receiver ≠ .hunt
  rw [measured, Option.isSome_map, receiver]
  exact law.gap

theorem QueuesMove.advance (s : State) : QueuesMove s (advance s) := by
  unfold Machine.advance
  split
  · exact .of_link rfl rfl id
  · have counted := countTime_queues (s.time.advance.tickPhase = 0) (s.time.advance.msPhase = 0) { s with time := s.time.advance }
    exact ⟨counted.reports, counted.captures, counted.link⟩

/-! ### Events of the link -/

theorem discardFrame_queues (s : State) : QueuesMove s (discardFrame s) :=
  .of_link rfl rfl fun law => law.withReceiver (by simp)

theorem receiverTo_queues (s : State) {r : Receiver} (hr : r ≠ .hunt) : QueuesMove s (receiverTo r s) :=
  .of_link rfl rfl fun law => law.withReceiver (by simp [hr])

theorem judgeFrame_queues (len seq kind : Byte) (payload : List Byte) (high low : Byte) (s : State) :
    QueuesMove s (judgeFrame len seq kind payload high low s) := by
  have discarded := discardFrame_queues s
  have restarted : QueuesMove s (restartSilence (discardFrame s)) := .of_link rfl rfl fun law =>
    have k := discarded.link law
    ⟨k.cache, k.orders, k.below, k.gap, k.sending, k.bit⟩
  unfold judgeFrame; dsimp only
  split
  · split
    · rename_i i hi; exact .of_link rfl rfl fun law => (restarted.link law).placed (v := fun o => .pending o _) hi fun _ => rfl
    · exact restarted
  · split
    · rename_i i hi; exact .beginFrame (.of_link rfl rfl fun law => (discarded.link law).placed (v := fun o => .answering o _ _) hi fun _ => rfl)
    · exact discarded

theorem afterPayload_ne_hunt (len seq kind : Byte) (payload : List Byte) : afterPayload len seq kind payload ≠ .hunt := by
  unfold afterPayload; split <;> nofun

theorem receiveByte_queues (b : Byte) (s : State) : QueuesMove s (receiveByte b s) := by
  unfold receiveByte
  split
  · split
    · exact receiverTo_queues s (by nofun)
    · exact .refl s
  · split
    · exact discardFrame_queues s
    · exact receiverTo_queues s (by nofun)
  · exact receiverTo_queues s (by nofun)
  · exact receiverTo_queues s (afterPayload_ne_hunt _ _ _ _)
  · exact receiverTo_queues s (afterPayload_ne_hunt _ _ _ _)
  · exact receiverTo_queues s (by nofun)
  · exact judgeFrame_queues ..

theorem takeRxd_queues (level : Level) (s : State) : QueuesMove s (takeRxd level s) := by
  have kept : ∀ m a b, LinkLaw s.link → LinkLaw { s.link with breakMeasure := m, awaitHigh := a, breakHold := b } :=
    fun _ _ _ law => ⟨law.cache, law.orders, law.below, law.gap, law.sending, law.bit⟩
  cases level with
  | low => exact .of_link rfl rfl (kept _ _ _)
  | high =>
    unfold takeRxd; dsimp only; split
    · exact .beginFrame (.of_link rfl rfl (kept _ _ _))
    · exact .of_link rfl rfl (kept _ _ _)

/-- A break leaves nothing of the link's work but the bit in progress (R138). -/
theorem takeBreak_queues (s : State) : QueuesMove s (takeBreak s) := by
  refine ⟨ReportLaw.headUnsent, .refl _, fun law => linkLaw_of_empty rfl rfl rfl rfl rfl rfl fun b h => ?_⟩
  rcases (Link.bitInProgress_spec h).2 with old | ⟨-, -, range⟩
  · exact law.bit b old
  · exact range

/-! ### Device resets -/

theorem beginReset_queues (cause : ResetCause) (s : State) : QueuesMove s (beginReset cause s) :=
  ⟨fun _ => (reportLaw_atReset cause).2, .reset, fun _ => linkLaw_of_empty rfl rfl rfl rfl rfl rfl fun _ e => nomatch e⟩

theorem endReset_queues (cause : ResetCause) (rate1 rate0 : Level) (s : State) : QueuesMove s (endReset cause rate1 rate0 s) :=
  ⟨fun _ => (reportLaw_atReset cause).1, .reset, fun _ => linkLaw_of_empty rfl rfl rfl rfl rfl rfl fun _ e => nomatch e⟩

/-- The end of a reply brings the transmitter's choice, at a new rate or not, or a device reset (R135, R151, R164). -/
theorem QueuesMove.afterReply {s t : State} (h : QueuesMove s t) (after : AfterReply) : QueuesMove s (afterReply t after) := by
  cases after with
  | nothing => exact h.beginFrame
  | changeRate rate =>
    refine .beginFrame ⟨h.reports, h.captures, fun law => ?_⟩
    have k := h.link law
    exact ⟨k.cache, k.orders, k.below, k.gap, k.sending, k.bit⟩
  | deviceReset =>
    have begun := beginReset_queues .request t
    exact ⟨begun.reports ∘ h.reports, .reset, begun.link ∘ h.link⟩

theorem endFrame_queues (source : TxSource) (s : State) : QueuesMove s (endFrame source s) := by
  cases source with
  | slot i =>
    have freed : QueuesMove s { s with link := { s.link.setSlot i .free with tx := .idle, lastBit := none } } :=
      .of_link rfl rfl fun law => law.freed i
    exact freed.afterReply _
  | report number =>
    exact .beginFrame ⟨fun law => law.recordSent _ _, .refl _, fun law => law.withTxIdle.withLastBit fun _ e => nomatch e⟩

/-! ### The commands -/

/-- The outcome is a next state, with such a change of the queues. -/
def QueuesMoveTo (s : State) (o : Host.Outcome State Fault Refusal) : Prop := ∃ t, o = .next t ∧ QueuesMove s t

section
variable {s : State}

theorem QueuesMoveTo.request (row : Instr) {m : Meaning} (h : m.MovesQueues) : QueuesMoveTo s (execRequest row m s) :=
  ⟨_, rfl, .takeRequest row _ h s⟩

/-- A request that names a lane and acts on it alone. -/
theorem QueuesMoveTo.laneRequest (row : Instr) {f : LaneId → State → State} (frame : ∀ l s, LaneFrame s (f l s))
    (hands : ∀ l s, HandsOver s (f l s)) :
    QueuesMoveTo s (execRequest row (withLength 1 1 (onLane fun l _ s => (f l s, Reply.only .ok))) s) :=
  .request row ((onLane_movesQueues fun l _ s => .of_lane (frame l s) (hands l s)).withLength 1 1)

variable {f : State → Option State}

theorem QueuesMoveTo.onEvent (h : ∀ t, f s = some t → QueuesEffect s t) : QueuesMoveTo s (onEvent f s) := by
  refine ⟨_, rfl, ?_⟩
  split
  · rename_i t _ ht
    have effect := (h t ht).move
    exact .beginFrame ⟨effect.reports, effect.captures, effect.link⟩
  · exact .refl s

theorem QueuesMoveTo.onLinkEvent (h : ∀ t, f s = some t → QueuesMove s t) : QueuesMoveTo s (onLinkEvent f s) := by
  refine ⟨_, rfl, ?_⟩
  split
  · rename_i t _ ht; exact (h t ht).beginFrame
  · exact .refl s

theorem QueuesMoveTo.onQuietEvent (h : ∀ t, f s = some t → QueuesMove s t) : QueuesMoveTo s (onQuietEvent f s) := by
  refine ⟨_, rfl, ?_⟩
  split
  · rename_i t _ ht; exact h t ht
  · exact .refl s

end

/-- An event with one effect, which arises under one condition. -/
theorem holds_of_if {P : State → Prop} {t u : State} {c : Prop} [Decidable c] (h : (if c then some u else none) = some t)
    (hu : P u) : P t := by
  split at h
  · cases h; exact hu
  · cases h

section
variable (s : State)

theorem QueuesMoveTo.stepEvent (l : LaneId) : QueuesMoveTo s (execStepEvent l s) := by
  refine .onEvent fun t h => ?_
  split at h
  · split at h
    · cases h; exact .of_lane (runMoveStep_frame ..) (runMoveStep_hands ..)
    · cases h
  · cases h

theorem QueuesMoveTo.inProgressStepEvent (l : LaneId) : QueuesMoveTo s (execInProgressStepEvent l s) := by
  refine .onEvent fun t h => ?_
  split at h
  · exact holds_of_if h (.of_lane (runInProgressStep_frame ..) (runInProgressStep_hands ..))
  · cases h

theorem QueuesMoveTo.stopRampStepEvent (l : LaneId) : QueuesMoveTo s (execStopRampStepEvent l s) := by
  refine .onEvent fun t h => ?_
  split at h
  · obtain ⟨steps, -, rfl⟩ := Option.map_eq_some_iff.1 h
    exact .of_lane (runStopStep_frame ..) (runStopStep_hands ..)
  · cases h

theorem QueuesMoveTo.dwellIntervalExpiry (l : LaneId) : QueuesMoveTo s (execDwellIntervalExpiry l s) := by
  refine .onEvent fun t h => ?_
  split at h
  · split at h
    · cases h; exact .of_lane (runDwell_frame ..) (runDwell_hands ..)
    · cases h
  · cases h

theorem QueuesMoveTo.homingStepEvent (l : LaneId) : QueuesMoveTo s (execHomingStepEvent l s) := by
  refine .onEvent fun t h => ?_
  split at h
  · split at h
    · split at h
      · cases h
      · cases h; exact .of_lane (runHomingStep_frame ..) (runHomingStep_hands ..)
    · cases h
  · cases h

theorem QueuesMoveTo.homeLimitIntervalExpiry (l : LaneId) : QueuesMoveTo s (execHomeLimitIntervalExpiry l s) := by
  refine .onEvent fun t h => ?_
  split at h
  · exact holds_of_if h (.of_lane (halt_frame ..) (halt_hands ..))
  · cases h

theorem QueuesMoveTo.settleExpiry (l : LaneId) : QueuesMoveTo s (execSettleExpiry l s) :=
  .onEvent fun _ h => holds_of_if h (.of_lane ((LaneFrame.setLane ..).trans (leaveIfMet_frame ..)) (.of_eq (leaveIfMet_reports ..)))

theorem QueuesMoveTo.syncTimeoutExpiry (l : LaneId) : QueuesMoveTo s (execSyncTimeoutExpiry l s) := by
  refine .onEvent fun t h => ?_
  split at h
  · cases h; exact .of_lane ((LaneFrame.setSync ..).trans (halt_frame ..)) (halt_hands l _ (s.setSync l none))
  · cases h

/-- Silence stops its timer and then acts on L0 and L1 (R99, R152). -/
theorem QueuesMoveTo.silenceExpiry : QueuesMoveTo s (execSilenceExpiry s) := by
  have stopped : QueuesEffect s s.silenceStopped := ⟨id, .refl _, _, _, rfl⟩
  exact .onEvent fun _ h => holds_of_if h ((stopped.then_lane (silenceLane_frame .L0 _).1 (silenceLane_hands ..)).then_lane
    (silenceLane_frame .L1 _).1 (silenceLane_hands ..))

theorem QueuesMoveTo.triggerRawChange (n : TrgId) (level : Level) : QueuesMoveTo s (execTriggerRawChange n level s) := by
  unfold execTriggerRawChange; split
  · refine .onEvent fun t h => ?_
    dsimp only at h
    split at h
    · cases h
    · cases h
      split
      · exact (passTriggerFilter_effect ..).after rfl rfl rfl
      · exact .elsewhere rfl rfl rfl
  · exact ⟨_, rfl, .of_link rfl rfl id⟩

theorem QueuesMoveTo.triggerFilteredChange (n : TrgId) : QueuesMoveTo s (execTriggerFilteredChange n s) :=
  .onEvent fun _ h => holds_of_if h (passTriggerFilter_effect n s)

theorem QueuesMoveTo.homeFilteredChange (a : AxisId) : QueuesMoveTo s (execHomeFilteredChange a s) :=
  .onEvent fun _ h => holds_of_if h (passHomeFilter_effect a s)

theorem QueuesMoveTo.pulseEnd (a : AxisId) : QueuesMoveTo s (execPulseEnd a s) :=
  .onQuietEvent fun _ h => holds_of_if h (.of_link rfl rfl id)

theorem QueuesMoveTo.holdTimerExpiry (a : AxisId) : QueuesMoveTo s (execHoldTimerExpiry a s) :=
  .onQuietEvent fun _ h => holds_of_if h (.of_link rfl rfl id)

theorem QueuesMoveTo.homeRawChange (a : AxisId) (level : Level) : QueuesMoveTo s (execHomeRawChange a level s) := by
  unfold execHomeRawChange; split
  · refine .onEvent fun t h => ?_
    dsimp only at h
    split at h
    · cases h
    · cases h
      split
      · exact (passHomeFilter_effect ..).after rfl rfl rfl
      · exact .elsewhere rfl rfl rfl
  · exact ⟨_, rfl, .of_link rfl rfl id⟩

theorem QueuesMoveTo.framingError : QueuesMoveTo s (execFramingError s) :=
  .onQuietEvent fun _ h => holds_of_if h (.of_link rfl rfl fun law =>
    have k := (discardFrame_queues s).link law
    ⟨k.cache, k.orders, k.below, k.gap, k.sending, k.bit⟩)

theorem QueuesMoveTo.lenOver200 (len : Byte) : QueuesMoveTo s (execLenOver200 len s) :=
  .onQuietEvent fun _ h => holds_of_if h (discardFrame_queues s)

theorem QueuesMoveTo.gapExpiry : QueuesMoveTo s (execGapExpiry s) :=
  .onQuietEvent fun _ h => holds_of_if h (discardFrame_queues s)

theorem QueuesMoveTo.linkBreak : QueuesMoveTo s (execLinkBreak s) :=
  .onQuietEvent fun _ h => holds_of_if h (takeBreak_queues s)

theorem QueuesMoveTo.byteArrival (byte : Byte) : QueuesMoveTo s (execByteArrival byte s) :=
  .onQuietEvent fun _ h => holds_of_if h (receiveByte_queues byte s)

theorem QueuesMoveTo.frameReceived (low : Byte) : QueuesMoveTo s (execFrameReceived low s) := by
  refine .onQuietEvent fun t h => ?_
  split at h
  · cases h; exact judgeFrame_queues ..
  · cases h

theorem QueuesMoveTo.frameSent : QueuesMoveTo s (execFrameSent s) := by
  refine .onQuietEvent fun t h => ?_
  split at h
  · cases h; exact endFrame_queues ..
  · cases h

theorem QueuesMoveTo.rxdLevelChange (level : Level) : QueuesMoveTo s (execRxdLevelChange level s) := by
  refine ⟨_, rfl, ?_⟩
  split
  · split
    · exact .refl s
    · exact takeRxd_queues level s
  · exact .of_link rfl rfl id

theorem QueuesMoveTo.resendTimerExpiry : QueuesMoveTo s (execResendTimerExpiry s) :=
  .onLinkEvent fun _ h => holds_of_if h ⟨ReportLaw.resendExpired, .refl _, id⟩

theorem QueuesMoveTo.rstnLow : QueuesMoveTo s (execRstnLow s) := by
  refine ⟨_, rfl, ?_⟩
  dsimp only
  split
  · have begun := beginReset_queues .pin { s with pins := { s.pins with rstn := .low } }
    exact ⟨begun.reports, begun.captures, begun.link⟩
  · exact .of_link rfl rfl id

theorem QueuesMoveTo.deviceResetEnd (rate1 rate0 : Level) : QueuesMoveTo s (execDeviceResetEnd rate1 rate0 s) := by
  refine ⟨_, rfl, ?_⟩
  split
  · exact .refl s
  · exact .beginFrame (endReset_queues ..)

end

theorem exec_queuesMove (c : Instr) (s : State) : QueuesMoveTo s (exec c s) := by
  cases c with
  | ping => exact .request _ (Meaning.MovesQueues.withLength (m := ping) (fun _ s => .refl s) 0 200)
  | identify => exact .request _ (.withLength (fun _ s => .refl s) 0 0)
  | setLink => exact .request _ (setLink_movesQueues.withLength 6 6)
  | restart => exact .request _ (.withLength (fun _ _ => .elsewhere rfl rfl rfl) 0 0)
  | setTick => exact .request _ (setTick_movesQueues.withLength 1 1)
  | setAxis => exact .request _ (setAxis_movesQueues.withLength 18 18)
  | setLane => exact .request _ (setLane_movesQueues.withLength 9 9)
  | setLine => exact .request _ (setLine_movesQueues.withLength 7 7)
  | loadPattern => exact .request _ (loadPattern_movesQueues.withLength 1 200)
  | setPosition => exact .request _ (setPosition_movesQueues.withLength 5 5)
  | energise => exact .request _ (energise_movesQueues.withLength 1 1)
  | release => exact .request _ (release_movesQueues.withLength 1 1)
  | queueSegment => exact .request _ (queueSegment_movesQueues.withLength 9 32)
  | startLane => exact .request _ (startLane_movesQueues.withLength 1 1)
  | stopLane => exact .laneRequest _ stopLaneEffect_frame stopLaneEffect_hands
  | abortLane => exact .laneRequest _ (fun l s => halt_frame l ⟨.abort, none⟩ s) fun l s => halt_hands l ⟨.abort, none⟩ s
  | holdLane =>
    exact .laneRequest _ (fun l s => (LaneFrame.setLane ..).trans (applyHold_frame l _)) fun l s => .of_eq (applyHold_reports l _)
  | resumeLane =>
    exact .laneRequest _ (fun l s => (LaneFrame.setLane ..).trans (applyHold_frame l _)) fun l s => .of_eq (applyHold_reports l _)
  | clearLane =>
    exact .laneRequest _ clearLaneEffect_frame fun l s => .of_eq (by unfold clearLaneEffect; split <;> rfl)
  | readLane => exact .request _ ((onLane_movesQueues fun _ _ s => .refl s).withLength 1 1)
  | readAxis => exact .request _ ((onAxis_movesQueues fun _ _ s => .refl s).withLength 1 1)
  | readLines => exact .request _ (.withLength (fun _ s => .refl s) 0 0)
  | mark => exact .request _ (.withLength (fun _ s => makeCapture_effect .host none s) 0 0)
  | readCaptures => exact .request _ (readCaptures_movesQueues.withLength 1 1)
  | fetchReport => exact .request _ (fetchReport_movesQueues.withLength 0 0)
  | ackReport => exact .request _ (ackReport_movesQueues.withLength 1 1)
  | unknownKindRequest => exact ⟨_, rfl, .takeRequest _ _ (fun _ s => .refl s) s⟩
  | frameReceived low => exact .frameReceived s low
  | framingError => exact .framingError s
  | lenOver200 len => exact .lenOver200 s len
  | gapExpiry => exact .gapExpiry s
  | linkBreak => exact .linkBreak s
  | frameBegin => exact .onLinkEvent fun t h => by cases h; exact .refl s
  | frameSent => exact .frameSent s
  | powerOn => exact ⟨_, rfl, beginReset_queues .power s⟩
  | rstnLow => exact .rstnLow s
  | deviceResetEnd rate1 rate0 => exact .deviceResetEnd s rate1 rate0
  | stepEvent l => exact .stepEvent s l
  | inProgressStepEvent l => exact .inProgressStepEvent s l
  | stopRampStepEvent l => exact .stopRampStepEvent s l
  | dwellIntervalExpiry l => exact .dwellIntervalExpiry s l
  | homingStepEvent l => exact .homingStepEvent s l
  | homeLimitIntervalExpiry l => exact .homeLimitIntervalExpiry s l
  | settleExpiry l => exact .settleExpiry s l
  | holdTimerExpiry a => exact .holdTimerExpiry s a
  | syncTimeoutExpiry l => exact .syncTimeoutExpiry s l
  | silenceExpiry => exact .silenceExpiry s
  | resendTimerExpiry => exact .resendTimerExpiry s
  | triggerRawChange n level => exact .triggerRawChange s n level
  | triggerFilteredChange n => exact .triggerFilteredChange s n
  | homeRawChange a level => exact .homeRawChange s a level
  | homeFilteredChange a => exact .homeFilteredChange s a
  | pulseEnd a => exact .pulseEnd s a
  | byteArrival byte => exact .byteArrival s byte
  | rxdLevelChange level => exact .rxdLevelChange s level

/-! ### Every step -/

theorem step_queuesMove {s t : State} (h : step s = .next t) : QueuesMove s t := by
  cases hp : s.pending with
  | cons c rest =>
    obtain ⟨t', e, m⟩ := exec_queuesMove c { s with pending := rest }
    have hc : step s = exec c { s with pending := rest } := by unfold step; rw [hp]
    rw [hc, e] at h; cases h
    exact ⟨m.reports, m.captures, m.link⟩
  | nil =>
    obtain ⟨count, move, -, hs⟩ := step_idle hp
    rw [hs] at h
    cases move with
    | some c =>
      obtain ⟨t', e, m⟩ := exec_queuesMove c { s with freeCount := count }
      dsimp only at h
      rw [e] at h; cases h
      exact ⟨m.reports, m.captures, m.link⟩
    | none =>
      have m := QueuesMove.advance { s with freeCount := count }
      cases h
      exact ⟨m.reports, m.captures, m.link⟩

/-- Settles O60: a step changes the capture log in one of the ways of `CaptureChange`, and keeps the laws of the report queue and
of the link. -/
theorem queueLawsKept : Obligations.QueueLawsKept := by
  intro s t h
  have move := step_queuesMove h
  exact ⟨move.reports, move.captures.law, move.link, move.captures.continues⟩

end Sys2Proof.Machine
end

section
/-! PROOF. READ-AXIS and READ-LINES: the bytes of their replies at the offsets of section 11.6. -/

namespace Sys2Proof.Machine

open Sys2Proof

/-! ### One byte of a code -/

theorem toNat_byte {n : Nat} (h : n < 256) : (BitVec.ofNat 8 n).toNat = n := by rw [BitVec.toNat_ofNat]; exact Nat.mod_eq_of_lt h

theorem AxisId.code_lt (a : AxisId) : AxisId.code a < 256 := by cases a <;> decide

theorem ownerCode_lt (o : Option LaneId) : ownerCode o < 256 := by rcases o with _ | _ | _ <;> decide

theorem DriveMode.code_lt (m : DriveMode) : m.code < 256 := by cases m <;> decide

theorem Level.code_lt (v : Level) : Level.code v < 256 := by cases v <;> decide

theorem Role.code_lt (r : Role) : r.code < 256 := by cases r <;> decide

theorem EdgeSetting.code_lt (e : EdgeSetting) : e.code < 256 := by cases e <;> decide

theorem LaneMask.code_lt (m : LaneMask) : m.code < 256 := by cases m <;> decide

theorem toNat_flag_lt (b : Bool) : b.toNat < 256 := by cases b <;> decide

/-! ### READ-AXIS (R168) -/

/-- The signed field that stands at an offset, within the bounds of a window (section 3.1). -/
theorem i32At_of_drop {p post : List Byte} {i : Nat} {z : Int} (h : p.drop i = putI32 z ++ post) (hi : i ≤ p.length)
    (low : -boundMax ≤ z) (high : z ≤ boundMax) : i32At p i = z := by
  unfold boundMax at low high
  have field := i32At_putI32 (p.take i) post (by omega : -2147483648 ≤ z) high
  rwa [← h, List.take_append_drop, List.length_take, Nat.min_eq_left hi] at field

/-- The reply's fields, front to back (section 11.6). -/
theorem axisData_eq (a : AxisId) (s : State) : axisData a s =
    BitVec.ofNat 8 (AxisId.code a) :: BitVec.ofNat 8 (ownerCode (s.axis a).owner) :: BitVec.ofNat 8 (s.axis a).mode.code ::
      (putI32 (s.axis a).position ++ (BitVec.ofNat 8 (s.axis a).phase :: BitVec.ofNat 8 (s.axis a).energised.toNat ::
        BitVec.ofNat 8 (Level.code (s.axis a).home.filtered) :: (putI32 (s.axis a).windowMin ++ putI32 (s.axis a).windowMax))) := by
  simp [axisData, put8]

/-- The longest pattern is a full user table (R46, R55). -/
theorem AxisLaw.phase_lt {s : State} (law : AxisLaw s) (a : AxisId) : (s.axis a).phase < 256 := by
  have below := (law.axes a).phase
  have table := law.tableHigh
  have : patternLength s.patterns (s.axis a).mode ≤ 16 := by
    cases (s.axis a).mode with
    | wave | pair | half | pulse => exact Nat.le_of_ble_eq_true rfl
    | table => exact table
  omega

/-! ### READ-LINES (R122) -/

/-- A byte of a row of records of one length. -/
theorem byteAt_flatMap {α : Type} {f : α → List Byte} {m : Nat} (hf : ∀ x, (f x).length = m) {j : Nat} (hj : j < m)
    (post : List Byte) (xs : List α) (i : Nat) (hi : i < xs.length) :
    byteAt (xs.flatMap f ++ post) (m * i + j) = byteAt (f xs[i]) j := by
  induction xs generalizing i with
  | nil => exact absurd hi (Nat.not_lt_zero i)
  | cons x rest ih =>
    rw [List.flatMap_cons, List.append_assoc]
    cases i with
    | zero => rw [Nat.mul_zero, Nat.zero_add]; exact byteAt_left (by rw [hf]; exact hj)
    | succ i =>
      rw [show m * (i + 1) + j = (f x).length + (m * i + j) by rw [hf, Nat.mul_succ]; omega, byteAt_append]
      exact ih i (Nat.lt_of_succ_lt_succ hi)

/-- The seven bytes of a trigger line stand in the order of the lines. -/
theorem byteAt_linesData (s : State) (n : TrgId) {j : Nat} (h : j < 7) :
    byteAt (linesData s) (7 * TrgId.code n + j) = byteAt (s.line n).data j := by
  have place : ∃ hi, allTrgs[TrgId.code n]'hi = n := by cases n <;> exact ⟨by decide, rfl⟩
  obtain ⟨hi, hn⟩ := place
  have row := byteAt_flatMap (f := fun n => (s.line n).data) (fun _ => rfl) h
    (put8 (presence (allAxes.map fun a => (s.axis a).home.filtered = .high)) ++ put32 s.time.stamp.toNat) allTrgs (TrgId.code n) hi
  rw [hn, ← List.append_assoc] at row
  exact row

theorem presence_testBit (f : AxisId → Bool) (a : AxisId) :
    ((BitVec.ofNat 8 (presence (allAxes.map f))).toNat).testBit (AxisId.code a) = f a := by
  have bits : ∀ p q r t : Bool, ∀ a, ((BitVec.ofNat 8 (presence [p, q, r, t])).toNat).testBit (AxisId.code a) =
      (⟨p, q, r, t⟩ : PerAxis Bool).get a := by
    intro p q r t a
    cases a <;> revert p q r t <;> decide
  refine (bits (f .A) (f .B) (f .C) (f .D) a).trans ?_
  cases a <;> rfl

theorem u32At_linesData (s : State) : u32At (linesData s) 29 = s.time.stamp.toNat := by
  have stamp := u32At_put32 (allTrgs.flatMap (fun n => (s.line n).data) ++
    put8 (presence (allAxes.map fun a => (s.axis a).home.filtered = .high))) [] s.time.stamp.toNat
  rw [List.append_nil] at stamp
  exact stamp.trans (Nat.mod_eq_of_lt s.time.stamp.isLt)

theorem execReadAxis_executes {s : State} {i : SlotId} {o : Nat} {r : Request} {a : AxisId} (h : Executes .readAxis s i o r)
    (hp : r.payload = put8 (AxisId.code a)) : exec .readAxis s = .next (answeredWith s i o r 0 (axisData a s)) := by
  have reads : withLength 1 1 (onAxis fun a _ s => (s, Reply.okWith (axisData a s))) r s = (s, Reply.okWith (axisData a s)) :=
    onAxis_code hp (toNat_byte (AxisId.code_lt a))
  have answered := answered_still h _ reads rfl rfl rfl rfl
  exact answered

theorem execReadLines_executes {s : State} {i : SlotId} {o : Nat} {r : Request} (h : Executes .readLines s i o r)
    (hp : r.payload = []) : exec .readLines s = .next (answeredWith s i o r 0 (linesData s)) := by
  have reads : withLength 0 0 (fun _ s => (s, Reply.okWith (linesData s))) r s = (s, Reply.okWith (linesData s)) :=
    withLength_eq (by rw [hp]; exact Nat.le_refl 0) (by rw [hp]; exact Nat.le_refl 0)
  have answered := answered_still h _ reads rfl rfl rfl rfl
  exact answered

/-- Settles O27, byte by byte. -/
theorem readAxisAndLinesShow : Obligations.ReadAxisAndLinesShow := by
  refine ⟨fun s i o r h => ⟨fun b hp hb => answered_status h (status := .badField) (onAxis_bad hp hb), fun a hp law => ?_⟩,
    fun s i o r h hp => ?_⟩
  · intro x
    have ok := law.axes a
    have low : -boundMax ≤ x.position := Int.le_trans ok.boundLow ok.low
    have high : x.position ≤ boundMax := Int.le_trans ok.high ok.boundHigh
    have window : x.windowMin ≤ x.windowMax := Int.le_trans ok.low ok.high
    refine ⟨_, execReadAxis_executes h hp, ?_⟩
    rw [axisData_eq]
    exact ⟨rfl, toNat_byte (AxisId.code_lt a), toNat_byte (ownerCode_lt _), toNat_byte (DriveMode.code_lt _),
      i32At_of_drop (i := 3) rfl (Nat.le_of_ble_eq_true rfl) low high, toNat_byte (law.phase_lt a), toNat_byte (toNat_flag_lt _),
      toNat_byte (Level.code_lt _),
      i32At_of_drop (i := 10) rfl (Nat.le_of_ble_eq_true rfl) ok.boundLow (Int.le_trans window ok.boundHigh),
      i32At_of_drop (i := 14) (List.append_nil _).symm (Nat.le_of_ble_eq_true rfl) (Int.le_trans ok.boundLow window) ok.boundHigh⟩
  · refine ⟨_, execReadLines_executes h hp, rfl, fun n => ?_, presence_testBit _, u32At_linesData s⟩
    have field (j : Nat) (hj : j < 7) := byteAt_linesData s n hj
    exact ⟨(field 0 (by decide)).trans (toNat_byte (Level.code_lt _)), (field 1 (by decide)).trans (toNat_byte (Role.code_lt _)),
      (field 2 (by decide)).trans (toNat_byte (EdgeSetting.code_lt _)), (field 3 (by decide)).trans (toNat_byte (Level.code_lt _)),
      (field 4 (by decide)).trans (toNat_byte (LaneMask.code_lt _)), (field 5 (by decide)).trans (BitVec.toNat_ofNat ..),
      (field 6 (by decide)).trans (toNat_byte (toNat_flag_lt _))⟩

end Sys2Proof.Machine
end

section
/-! PROOF. MARK and READ-CAPTURES: the capture as a request's effect, and the records taken from the log. -/

namespace Sys2Proof.Machine

open Sys2Proof

theorem makeCapture_eq (source : CaptureSource) (edge : Option Edge) (s : State) :
    makeCapture source edge s = { s with captures := logAfter source edge s, reports := reportsAfterCapture s } := by
  obtain ⟨log, reports⟩ := makeCapture_spec source edge s
  rw [makeCapture_frame, log, reports]

theorem logAfter_of_room {source : CaptureSource} {edge : Option Edge} {s : State} (h : s.captures.records.length < 8) :
    logAfter source edge s = ⟨s.captures.records ++ [
      { number := s.captures.next, source := source, edge := edge, stamp := s.time.stamp, positions := positionsOf s
        tags := ⟨tagOffered (s.lane .L0), tagOffered (s.lane .L1)⟩, droppedBefore := s.captures.dropped }],
      s.captures.next + 1, 0⟩ := if_pos h

theorem logAfter_of_full {source : CaptureSource} {edge : Option Edge} {s : State} (h : 8 ≤ s.captures.records.length) :
    logAfter source edge s = { s.captures with next := s.captures.next + 1, dropped := s.captures.dropped + 1 } :=
  if_neg (Nat.not_lt.2 h)

/-- A full log is not empty, so its next capture queues nothing (R127, R128). -/
theorem reportsAfterCapture_of_full {s : State} (h : 8 ≤ s.captures.records.length) : reportsAfterCapture s = s.reports :=
  if_neg fun e => by rw [e] at h; cases h

theorem CaptureLog.full_eq (c : CaptureLog) : c.full = decide (8 ≤ c.records.length) := rfl

/-- The executor's take of a MARK: its capture, and the number the capture took (R129). -/
theorem execMark_executes {s : State} {i : SlotId} {o : Nat} {r : Request} (h : Executes .mark s i o r) (hp : r.payload = []) :
    exec .mark s = .next (answeredWith (makeCapture .host none s) i o r
      (if 8 ≤ s.captures.records.length then 10 else 0) (put16 s.captures.next.toNat)) := by
  have marks : withLength 0 0 mark r s = mark r s := withLength_eq (by rw [hp]; decide) (by rw [hp]; decide)
  have code : Status.code (if s.captures.full then .logFull else .ok) = if 8 ≤ s.captures.records.length then 10 else 0 := by
    rw [CaptureLog.full_eq, apply_ite Status.code]; simp only [decide_eq_true_eq]; rfl
  rw [← code]
  refine answered_still h _ marks ?_ ?_ ?_ rfl
  all_goals rw [makeCapture_eq]

/-- Settles O28: MARK by whether the log is full, READ-CAPTURES by its maximum. -/
theorem captureRequestsAct : Obligations.CaptureRequestsAct := by
  refine ⟨fun s i o r h hp => ⟨fun full => ?_, fun room => ?_⟩, fun s i o r b h hp => ?_⟩
  · rw [execMark_executes h hp, makeCapture_eq, logAfter_of_full full, reportsAfterCapture_of_full full, if_pos full]
    rfl
  · rw [execMark_executes h hp, makeCapture_eq, logAfter_of_room room, if_neg (Nat.not_le.2 room), Lane.activeTag_eq,
      Lane.activeTag_eq]
    rfl
  · have reads : withLength 1 1 readCaptures r s = readCaptures r s :=
      withLength_eq (by rw [hp]; exact Nat.le_refl 1) (by rw [hp]; exact Nat.le_refl 1)
    have maximum : byteAt r.payload 0 = b.toNat := by rw [hp]; rfl
    refine ⟨fun out => answered_status h (status := .badField) (reads.trans ?_), fun low high => ?_⟩
    · unfold readCaptures; rw [maximum]; exact if_pos (by simpa using out)
    · have taken : readCaptures r s = ({ s with captures := { s.captures with records := s.captures.records.drop b.toNat } },
          Reply.okWith (put8 (s.captures.records.take b.toNat).length ++
            (s.captures.records.take b.toNat).flatMap CaptureRecord.data)) := by
        unfold readCaptures; rw [maximum]; exact if_neg (by simp; omega)
      refine (answered_still h _ (reads.trans taken) rfl rfl rfl rfl).trans ?_
      rw [List.length_take]
      rfl

end Sys2Proof.Machine
end

section
/-! PROOF. The step of a part with no command waiting: what stands due comes first, and a device reset begun by RESTART ends. -/

namespace Sys2Proof.Machine

open Sys2Proof

/-! ### A part with no command waiting -/

theorem step_passes_time {s : State} (hp : s.pending = []) (hd : dueRows s = []) (hf : freeRows s = []) :
    step s = .next (advance s) := by
  have moves : nextMoves s = [none] := by unfold nextMoves; rw [hd, hf]; rfl
  unfold step idle
  rw [hp, moves]
  rfl

/-- A row that may come does, or, with none due, time passes. -/
theorem step_takes_row {s : State} (hp : s.pending = []) : ∃ count,
    (∃ i ∈ dueRows s ++ freeRows s, step s = exec i { s with freeCount := count }) ∨
      dueRows s = [] ∧ step s = .next (advance { s with freeCount := count }) := by
  obtain ⟨count, m, hm, hs⟩ := step_idle hp
  rcases (mem_nextMoves s m).1 hm with ⟨i, hi, rfl⟩ | ⟨hd, rfl⟩
  · exact ⟨count, .inl ⟨i, hi, hs⟩⟩
  · exact ⟨count, .inr ⟨hd, hs⟩⟩

/-! ### Device resets (R188) -/

/-- A row that stands at a moment with RSTN high. -/
theorem mem_rowIf_high {c : Prop} [Decidable c] {rstn : Level} {i j : Instr} :
    i ∈ rowIf (c && rstn = .high) j ↔ rstn = .high ∧ c ∧ i = j := by
  rw [mem_rowIf, Bool.and_eq_true, decide_eq_true_eq, decide_eq_true_eq, and_comm (a := c), and_assoc]

section
variable {s : State} {cause : ResetCause} {elapsed : Nat}

theorem mem_dueRows_inReset (h : s.power = .inReset cause elapsed) (i : Instr) : i ∈ dueRows s ↔
    (cause = .request ∧ s.pins.rstn = .high) ∧ 200 ≤ elapsed ∧ i = .deviceResetEnd s.pins.rate1 s.pins.rate0 := by
  unfold dueRows; rw [h]
  cases cause with
  | request => exact mem_rowIf_high.trans (by simp [restartSpan])
  | power | pin => simp

theorem mem_freeRows_inReset (h : s.power = .inReset cause elapsed) (i : Instr) : i ∈ freeRows s ↔
    (cause = .request ∧ s.pins.rstn = .high) ∧ elapsed < 200 ∧ i = .deviceResetEnd s.pins.rate1 s.pins.rate0 := by
  unfold freeRows; rw [h]
  cases cause with
  | request => exact mem_rowIf_high.trans (by simp [restartSpan])
  | power | pin => simp

theorem advance_inReset (h : s.power = .inReset cause elapsed) : advance s = { s with power := .inReset cause (elapsed + 1) } := by
  unfold advance; rw [h]

theorem deviceResetEnd_runs (h : s.power = .inReset cause elapsed) (rate1 rate0 : Level) :
    ∃ t, exec (.deviceResetEnd rate1 rate0) s = .next t ∧ t.power = .running := by
  refine ⟨beginFrame (endReset cause rate1 rate0 s), ?_, beginFrame_power _⟩
  change execDeviceResetEnd rate1 rate0 s = _
  unfold execDeviceResetEnd; rw [h]

/-- A reset begun by RESTART ends in this step, or goes on for half a microsecond before its 100 µs are over. -/
theorem step_inRestart (h : s.power = .inReset .request elapsed) (high : s.pins.rstn = .high) (hp : s.pending = []) :
    (∃ t, step s = .next t ∧ t.power = .running) ∨
      elapsed < 200 ∧ ∃ count, step s = .next { s with freeCount := count, power := .inReset .request (elapsed + 1) } := by
  obtain ⟨count, ⟨i, hi, hs⟩ | ⟨hd, hs⟩⟩ := step_takes_row hp
  · have ends : i = .deviceResetEnd s.pins.rate1 s.pins.rate0 := by
      rw [List.mem_append, mem_dueRows_inReset h, mem_freeRows_inReset h] at hi
      rcases hi with ⟨-, -, e⟩ | ⟨-, -, e⟩ <;> exact e
    subst ends
    obtain ⟨t, ht, running⟩ := deviceResetEnd_runs (s := { s with freeCount := count }) h s.pins.rate1 s.pins.rate0
    exact .inl ⟨t, hs.trans ht, running⟩
  · refine .inr ⟨Nat.lt_of_not_le fun late => ?_, count, ?_⟩
    · have due := (mem_dueRows_inReset h _).2 ⟨⟨rfl, high⟩, late, rfl⟩
      rw [hd] at due; cases due
    · rw [hs, advance_inReset (s := { s with freeCount := count }) h]

theorem restart_ends (left : Nat) (h : s.power = .inReset .request elapsed) (high : s.pins.rstn = .high) (hp : s.pending = [])
    (hl : elapsed + left = 200) : ∃ k t, k ≤ left + 1 ∧ Sys2Proof.core.run k s = .next t ∧ t.power = .running := by
  induction left generalizing s elapsed with
  | zero =>
    rcases step_inRestart h high hp with ⟨t, ht, running⟩ | ⟨early, -⟩
    · exact ⟨1, t, Nat.le_refl 1, run_succ ht rfl, running⟩
    · omega
  | succ left ih =>
    rcases step_inRestart h high hp with ⟨t, ht, running⟩ | ⟨-, count, ht⟩
    · exact ⟨1, t, by omega, run_succ ht rfl, running⟩
    · obtain ⟨k, t, hk, hrun, running⟩ :=
        ih (s := { s with freeCount := count, power := .inReset .request (elapsed + 1) }) rfl high hp (by omega)
      exact ⟨k + 1, t, by omega, run_succ ht hrun, running⟩

end

/-- Settles O52: the step by the moves that stand, the rows of a running part by what they wait for, and a reset begun by RESTART
by the half microseconds left of its 100 µs. -/
theorem dueEventsComeFirst : Obligations.DueEventsComeFirst := by
  intro s
  refine ⟨step_passes_time, fun hp hd hf => ?_, fun hp hd => ?_,
    fun running => ⟨mem_dueRows_iff running, fun law => mem_freeRows running law⟩, fun cause elapsed h => ?_⟩
  · obtain ⟨count, ⟨i, hi, hs⟩ | ⟨-, hs⟩⟩ := step_takes_row hp
    · rw [hd] at hi; exact ⟨count, .inr ⟨i, hi, hs⟩⟩
    · exact ⟨count, .inl hs⟩
  · obtain ⟨count, ⟨i, hi, hs⟩ | ⟨none_due, -⟩⟩ := step_takes_row hp
    · exact ⟨i, hi, count, hs⟩
    · exact absurd none_due hd
  · refine ⟨mem_dueRows_inReset h, mem_freeRows_inReset h, fun ⟨request, high⟩ early hp => ?_⟩
    subst request
    obtain ⟨k, t, hk, hrun, running⟩ := restart_ends (200 - elapsed) h high hp (by omega)
    exact ⟨k, t, by omega, hrun, running⟩

end Sys2Proof.Machine
end

section
/-! PROOF. The filter of a trigger line: a raw change as a measure that starts, is lost or passes at once, and the filtered change
with its capture. -/

namespace Sys2Proof.Machine

open Sys2Proof

/-! ### A raw change (R118) -/

/-- The part after trigger line `n` has taken a raw level, before the filter passes it (R118). -/
def State.triggerRawTaken (s : State) (n : TrgId) (level : Level) : State :=
  s.setLine n { s.line n with input := (s.line n).input.rawChange level }

/-- What a raw change does: the line takes the level, and the filter passes it at once if its time is over (R118). -/
def triggerRawEffect (n : TrgId) (level : Level) (s : State) : State :=
  if ((s.line n).input.rawChange level).passed (s.line n).filterTime then passTriggerFilter n (s.triggerRawTaken n level)
  else s.triggerRawTaken n level

theorem execTriggerRawChange_of_ne {s : State} {n : TrgId} {level : Level} (hr : s.power = .running)
    (h : (s.line n).input.raw ≠ level) :
    execTriggerRawChange n level s = onEvent (fun s => some (triggerRawEffect n level s)) s := by
  have running : s.running = true := decide_eq_true hr
  unfold execTriggerRawChange onEvent
  simp only [running, if_true, if_neg h]
  rfl

theorem execTriggerFilteredChange_of_measured {s : State} {n : TrgId} (h : (s.line n).input.measure ≠ none) :
    execTriggerFilteredChange n s = onEvent (fun s => some (passTriggerFilter n s)) s := by
  unfold execTriggerFilteredChange onEvent
  simp only [Option.isSome_iff_ne_none.2 h, if_true]

/-- A raw change that the filter does not pass at once ends in the transmitter's choice (R118). -/
theorem execTriggerRawChange_chooses {s : State} {n : TrgId} {level : Level} (hr : s.power = .running)
    (h : (s.line n).input.raw ≠ level) (hp : ((s.line n).input.rawChange level).passed (s.line n).filterTime = false) :
    ∃ t, execTriggerRawChange n level s = .next t ∧ Chooses (s.triggerRawTaken n level) t := by
  have effect : triggerRawEffect n level s = s.triggerRawTaken n level := if_neg (by rw [hp]; exact Bool.false_ne_true)
  rw [execTriggerRawChange_of_ne hr h]
  exact onEvent_chooses hr (congrArg some effect) rfl fun _ => rfl

/-- A raw change that the filter passes at once is the filtered change of the line with the level taken (R118). -/
theorem execTriggerRawChange_passes {s : State} {n : TrgId} {level : Level} (hr : s.power = .running)
    (h : (s.line n).input.raw ≠ level) (hnew : level ≠ (s.line n).input.filtered) (hz : (s.line n).filterTime = 0) :
    execTriggerRawChange n level s = execTriggerFilteredChange n (s.triggerRawTaken n level) := by
  have begun := InputFilter.rawChange_of_new hnew
  have effect : triggerRawEffect n level s = passTriggerFilter n (s.triggerRawTaken n level) :=
    if_pos (by rw [begun, InputFilter.passed_of_begun]; exact decide_eq_true hz)
  have measured : ((s.triggerRawTaken n level).line n).input.measure ≠ none := by
    rw [State.triggerRawTaken, State.line_setLine_self, begun]; exact Option.some_ne_none 0
  rw [execTriggerRawChange_of_ne hr h, execTriggerFilteredChange_of_measured measured]
  exact onEvent_congr hr hr (congrArg some effect) rfl fun _ => rfl

/-! ### The filtered change (R118, R119, R126) -/

/-- The part after the filtered level of line `n` has taken the raw one, before its capture (R118). -/
def State.triggerPassed (s : State) (n : TrgId) : State :=
  s.setLine n { s.line n with input := ⟨(s.line n).input.raw, (s.line n).input.raw, none⟩ }

/-- The same after the capture, if the change makes one, and before any lane acts (R119, R126). -/
def State.triggerCaptured (s : State) (n : TrgId) : State :=
  if (s.line n).capture && (s.line n).edge.accepts (edgeTo (s.line n).input.raw) then
    makeCapture (.line n) (some (edgeTo (s.line n).input.raw)) (s.triggerPassed n)
  else s.triggerPassed n

theorem passTriggerFilter_triggerCaptured (n : TrgId) (s : State) : passTriggerFilter n s =
    roleEffect n ((s.line n).edge.accepts (edgeTo (s.line n).input.raw)) (s.triggerCaptured n) := passTriggerFilter_eq n s

theorem triggerCaptured_frame (s : State) (n : TrgId) : s.triggerCaptured n = { s.triggerPassed n with
    captures := (s.triggerCaptured n).captures, reports := (s.triggerCaptured n).reports } := captureIf_frame ..

/-- The capture finds the part as it was before the level changed (R126). -/
theorem triggerCaptured_of_captures {s : State} {n : TrgId}
    (h : ((s.line n).capture && (s.line n).edge.accepts (edgeTo (s.line n).input.raw)) = true) :
    s.triggerCaptured n = { s.triggerPassed n with
      captures := logAfter (.line n) (some (edgeTo (s.line n).input.raw)) s, reports := reportsAfterCapture s } :=
  (if_pos h).trans (makeCapture_eq ..)

theorem triggerCaptured_lines (s : State) (n : TrgId) : (s.triggerCaptured n).lines = (s.triggerPassed n).lines := by
  rw [triggerCaptured_frame]

theorem triggerCaptured_line (s : State) (n : TrgId) : ((s.triggerCaptured n).line n).role = (s.line n).role := by
  have line : (s.triggerCaptured n).line n = (s.triggerPassed n).line n := congrArg (·.get n) (triggerCaptured_lines s n)
  rw [line, State.triggerPassed, State.line_setLine_self]

/-- A line with role OFF, and an edge that a START or HALT line does not accept, reach no lane (R119). -/
theorem roleEffect_of_untouched {n : TrgId} {accepted : Bool} {s : State}
    (h : (s.line n).role = .off ∨ ((s.line n).role = .start ∨ (s.line n).role = .halt) ∧ accepted = false) :
    roleEffect n accepted s = s := by
  unfold roleEffect
  rcases h with off | ⟨start | halt, rfl⟩
  · rw [off]
  · rw [start]
  · rw [halt]

/-- The filtered change: the level, the capture and then the role of the line, which moves no axis (R118, R119). -/
theorem execTriggerFilteredChange_spec {s : State} {n : TrgId} (hr : s.power = .running) (hm : (s.line n).input.measure ≠ none) :
    ∃ t, execTriggerFilteredChange n s = .next t ∧ t.lines = (s.triggerPassed n).lines ∧
      (∀ a, (t.axis a).position = (s.axis a).position) ∧ t.captures = (s.triggerCaptured n).captures ∧
      ((s.line n).role = .off ∨ ((s.line n).role = .start ∨ (s.line n).role = .halt) ∧
          (s.line n).edge.accepts (edgeTo (s.line n).input.raw) = false →
        Chooses (s.triggerCaptured n) t) := by
  have running : s.running = true := decide_eq_true hr
  have frame := roleEffect_frame n ((s.line n).edge.accepts (edgeTo (s.line n).input.raw)) (s.triggerCaptured n)
  have energises := roleEffect_energises n ((s.line n).edge.accepts (edgeTo (s.line n).input.raw)) (s.triggerCaptured n)
  rw [← passTriggerFilter_triggerCaptured] at frame energises
  have power : (s.triggerCaptured n).power = .running := by rw [triggerCaptured_frame]; exact hr
  refine ⟨beginFrame (settleHoldTimers s (passTriggerFilter n s)), ?_, ?_, fun a => ?_, ?_, fun untouched => ?_⟩
  · rw [execTriggerFilteredChange_of_measured hm]; simp only [onEvent, running]
  · rw [beginFrame_lines, settleHoldTimers_lines, frame.lines, triggerCaptured_lines]
  · rw [beginFrame_axis, settleHoldTimers_axis_eq]
    refine (energises.position a).trans ?_
    rw [triggerCaptured_frame]; rfl
  · rw [beginFrame_captures, settleHoldTimers_captures, frame.captures]
  · rw [passTriggerFilter_triggerCaptured, roleEffect_of_untouched (by rw [triggerCaptured_line]; exact untouched),
      settleHoldTimers_of_holdRuns_eq fun a => by rw [triggerCaptured_frame]; rfl]
    exact beginFrame_chooses power

/-- Settles O50: a raw change by whether the level returns and whether the filter time is 0; the filtered change by whether it
makes a capture, and whether the log has a place for it. -/
theorem triggerLineFiltered : Obligations.TriggerLineFiltered := by
  intro s n level hr x measured
  have taken : ∀ {f}, x.input.rawChange level = f → s.triggerRawTaken n level = s.setLine n { x with input := f } := fun e => by
    rw [State.triggerRawTaken, e]
  refine ⟨fun hne hback => ?_, fun hne hnew hfilter => ?_, fun hne hnew hfilter => ?_, fun hm => ?_⟩
  · have lost := InputFilter.rawChange_of_return hback
    have chooses := execTriggerRawChange_chooses hr hne (by rw [lost]; rfl)
    rwa [taken lost] at chooses
  · have begun := InputFilter.rawChange_of_new hnew
    have chooses := execTriggerRawChange_chooses hr hne (by rw [begun, InputFilter.passed_of_begun]; exact decide_eq_false hfilter)
    rwa [taken begun] at chooses
  · have passes := execTriggerRawChange_passes hr hne hnew hfilter
    rwa [taken (InputFilter.rawChange_of_new hnew)] at passes
  · intro edge accepted u captured full record dropped stored ready untouched
    have edge_eq : edgeTo x.input.raw = edge := edgeTo_eq _
    have accepts : x.edge.accepts (edgeTo x.input.raw) = true ↔ accepted := by rw [edge_eq]; exact accepts_iff ..
    have capturing : (x.capture && x.edge.accepts (edgeTo x.input.raw)) = true ↔ captured := by
      rw [Bool.and_eq_true, accepts]
    obtain ⟨t, ht, lines, positions, captures, chooses⟩ := execTriggerFilteredChange_spec hr hm
    have leaves (v : State) (e : s.triggerCaptured n = v) : t.captures = v.captures ∧ (untouched → Chooses v t) := by
      rw [← e]
      refine ⟨captures, fun h => chooses (h.imp_right fun ⟨role, no⟩ => ⟨role, ?_⟩)⟩
      rw [← Bool.not_eq_true]; exact mt accepts.1 no
    refine ⟨t, ht, lines, positions, fun no => leaves u ?_, fun yes isFull => leaves { u with captures := dropped } ?_,
      fun yes room => leaves { u with captures := stored, reports := ready } ?_⟩
    · exact if_neg (mt capturing.1 no)
    · rw [triggerCaptured_of_captures (capturing.2 yes), logAfter_of_full isFull, reportsAfterCapture_of_full isFull]
      rfl
    · rw [triggerCaptured_of_captures (capturing.2 yes), logAfter_of_room (Nat.lt_of_not_le room), edge_eq]
      rfl

end Sys2Proof.Machine
end

section
/-! PROOF. A request found in the reply cache, and SET-LINK: what the executor's take makes of them. -/

namespace Sys2Proof.Machine

open Sys2Proof

/-! ### A request found in the reply cache (R148) -/

/-- Each of the 27 request rows is the executor's event with that row (R156, R159). -/
theorem exec_requestRow (kind : Byte) (s : State) : ∃ replyOf m,
    exec (requestRow kind) s = .next (takeRequest (requestRow kind) replyOf m s) := by
  unfold requestRow
  split <;> exact ⟨_, _, rfl⟩

/-- A request in the cache is answered with a copy of the cached reply, whatever its meaning (R148). -/
theorem takeRequest_cached {row : Instr} {s : State} {i : SlotId} {o : Nat} {r : Request} {f : List Byte} (h : Takes row s i o r)
    (hit : cachedReply s.link.cache r = some f) (replyOf : Byte → Byte → List Byte → List Byte) (m : Meaning) :
    takeRequest row replyOf m s = beginFrame { s with link := s.link.setSlot i (.answering o f .nothing) } := by
  have takes : (s.running && !s.restartWait) = true := by simp [State.running, h.running, h.noRestart]
  unfold takeRequest
  rw [takes, h.next]
  simp only [h.kind, if_true, hit]

/-- Settles O3: the row is that of the request's KIND, and its event finds the request in the cache. -/
theorem cachedRequestNotExecuted : Obligations.CachedRequestNotExecuted := by
  intro row s i o r e h hit
  have cached : cachedReply s.link.cache r = some e.reply := congrArg (Option.map CacheEntry.reply) hit
  obtain ⟨replyOf, m, take⟩ := exec_requestRow r.kind s
  rw [h.kind] at take
  rw [take, takeRequest_cached h cached]
  exact congrArg Host.Outcome.next (beginFrame_of_answering h.running (Link.slot_setSlot_self ..))

/-! ### SET-LINK (R163) -/

theorem rateOfCode_of_le {n : Nat} (h : n ≤ 5) :
    rateOfCode n = some ([.r19200, .r57600, .r115200, .r230400, .r460800, .r921600].getD n .r19200) := by
  match n, h with
  | 0, _ | 1, _ | 2, _ | 3, _ | 4, _ | 5, _ => rfl

theorem rateOfCode_of_gt {n : Nat} (h : 5 < n) : rateOfCode n = none := by
  match n, h with | n + 6, _ => rfl

theorem deliveryOfCode_of_le {n : Nat} (h : n ≤ 1) : deliveryOfCode n = some (if n = 0 then .push else .poll) := by
  match n, h with
  | 0, _ | 1, _ => rfl

theorem deliveryOfCode_of_gt {n : Nat} (h : 1 < n) : deliveryOfCode n = none := by
  match n, h with | n + 2, _ => rfl

section
variable {r : Request} {rate mode p1 p0 limit silence : Byte} (hp : r.payload = [rate, mode, p1, p0, limit, silence])
include hp

/-- The five fields of SET-LINK (section 11.7). -/
theorem setLink_fields : byteAt r.payload 0 = rate.toNat ∧ byteAt r.payload 1 = mode.toNat ∧ u16At r.payload 2 = word16 p1 p0 ∧
    byteAt r.payload 4 = limit.toNat ∧ byteAt r.payload 5 = silence.toNat := by
  rw [hp]; exact ⟨rfl, rfl, word16_eq p1 p0, rfl, rfl⟩

/-- A field out of its range refuses SET-LINK (R163). -/
theorem setLink_refuses (s : State)
    (bad : 5 < rate.toNat ∨ 1 < mode.toNat ∨ word16 p1 p0 = 0 ∨ 510 < word16 p1 p0 ∨ 15 < limit.toNat) :
    setLink r s = (s, Reply.only .badField) := by
  obtain ⟨rates, modes, period, limits, -⟩ := setLink_fields hp
  unfold setLink
  dsimp only
  rw [rates, modes, period, limits]
  split
  · rename_i hrate hmode
    have rateOk : ¬5 < rate.toNat := fun h => by rw [rateOfCode_of_gt h] at hrate; cases hrate
    have modeOk : ¬1 < mode.toNat := fun h => by rw [deliveryOfCode_of_gt h] at hmode; cases hmode
    refine if_neg fun ok => ?_
    simp only [Bool.and_eq_true, decide_eq_true_eq] at ok
    omega
  · rfl

/-- SET-LINK with every field in its range (R135, R152, R163, R182). -/
theorem setLink_takes (s : State)
    (ok : ¬(5 < rate.toNat ∨ 1 < mode.toNat ∨ word16 p1 p0 = 0 ∨ 510 < word16 p1 p0 ∨ 15 < limit.toNat)) :
    setLink r s = (restartSilence { s with
      reports := { s.reports.switchTo (if mode.toNat = 0 then .push else .poll) with
        resendPeriod := word16 p1 p0, resendLimit := limit.toNat }
      link := { s.link with silencePeriod := silence.toNat } },
      ⟨.ok, [], .changeRate ([.r19200, .r57600, .r115200, .r230400, .r460800, .r921600].getD rate.toNat .r19200)⟩) := by
  obtain ⟨rates, modes, period, limits, silences⟩ := setLink_fields hp
  have admitted : (decide (1 ≤ word16 p1 p0) && decide (word16 p1 p0 ≤ 510) && decide (limit.toNat ≤ 15)) = true := by
    simp only [Bool.and_eq_true, decide_eq_true_eq]; omega
  unfold setLink
  dsimp only
  rw [rates, modes, period, limits, silences, rateOfCode_of_le (by omega), deliveryOfCode_of_le (by omega)]
  exact if_pos admitted

end

/-- Settles O6: a field out of range refuses, and the effects of an accepted SET-LINK start and stop no hold timer. -/
theorem setLinkTakesSettings : Obligations.SetLinkTakesSettings := by
  intro s i o r rate mode p1 p0 limit silence h hp period bad q want
  have admitted : withLength 6 6 setLink r s = setLink r s :=
    withLength_eq (by rw [hp]; exact Nat.le_refl 6) (by rw [hp]; exact Nat.le_refl 6)
  refine ⟨fun isBad => answered_status h (status := .badField) (admitted.trans (setLink_refuses hp s isBad)), fun ok => ?_⟩
  refine (execRequest_execute_still h _ (admitted.trans (setLink_takes hp s ok)) rfl rfl rfl).trans ?_
  rw [← switchTo_eq]
  rfl

end Sys2Proof.Machine
end

section
/-! PROOF. The receiver: a byte in each of its states, what discards a frame, and the judgement of a whole frame. -/

namespace Sys2Proof.Machine

open Sys2Proof

/-! ### A byte in each receiver state (R140 to R142) -/

section
variable {s : State} (b : Byte) {len seq kind high : Byte} {payload : List Byte}

theorem receiveByte_hunt (h : s.link.receiver = .hunt) :
    receiveByte b s = if b = syncByte then receiverTo .headerLen s else s := by unfold receiveByte; rw [h]

theorem receiveByte_headerLen (h : s.link.receiver = .headerLen) :
    receiveByte b s = if 200 < b.toNat then discardFrame s else receiverTo (.headerSeq b) s := by unfold receiveByte; rw [h]

theorem receiveByte_headerSeq (h : s.link.receiver = .headerSeq len) : receiveByte b s = receiverTo (.headerKind len b) s := by
  unfold receiveByte; rw [h]

theorem receiveByte_headerKind (h : s.link.receiver = .headerKind len seq) :
    receiveByte b s = receiverTo (afterPayload len seq b []) s := by unfold receiveByte; rw [h]

theorem receiveByte_body (h : s.link.receiver = .body len seq kind payload) :
    receiveByte b s = receiverTo (afterPayload len seq kind (payload ++ [b])) s := by unfold receiveByte; rw [h]

theorem receiveByte_check (h : s.link.receiver = .check len seq kind payload) :
    receiveByte b s = receiverTo (.checkLow len seq kind payload b) s := by unfold receiveByte; rw [h]

theorem receiveByte_checkLow (h : s.link.receiver = .checkLow len seq kind payload high) :
    receiveByte b s = judgeFrame len seq kind payload high b s := by unfold receiveByte; rw [h]

end

theorem afterPayload_of_le {len : Byte} {payload : List Byte} (seq kind : Byte) (h : len.toNat ≤ payload.length) :
    afterPayload len seq kind payload = .check len seq kind payload := if_pos h

theorem afterPayload_of_lt {len : Byte} {payload : List Byte} (seq kind : Byte) (h : payload.length < len.toNat) :
    afterPayload len seq kind payload = .body len seq kind payload := if_neg (Nat.not_le.2 h)

/-! ### The events of the receiver in a running part that looks for bytes (R136, R140 to R144) -/

theorem Link.listening_of {k : Link} (h : k.awaitHigh = false) : k.listening = true := by rw [Link.listening, h]; rfl

section
variable {s : State} (hr : s.power = .running) (hw : s.link.awaitHigh = false)
include hr hw

theorem exec_byteArrival (b : Byte) : exec (.byteArrival b) s = .next (receiveByte b s) := by
  change execByteArrival b s = _
  exact onQuietEvent_eq hr (if_pos (Link.listening_of hw))

theorem exec_frameReceived {len seq kind high : Byte} {payload : List Byte} (low : Byte)
    (hc : s.link.receiver = .checkLow len seq kind payload high) :
    exec (.frameReceived low) s = .next (judgeFrame len seq kind payload high low s) := by
  change execFrameReceived low s = _
  exact onQuietEvent_eq hr (by rw [Link.listening_of hw, hc])

theorem exec_framingError : exec .framingError s =
    .next { s with link := { s.link with receiver := .hunt, gap := none, awaitHigh := true } } := by
  change execFramingError s = _
  exact onQuietEvent_eq hr (if_pos (Link.listening_of hw))

theorem exec_lenOver200 {len : Byte} (hc : s.link.receiver = .headerLen) (hl : 200 < len.toNat) :
    exec (.lenOver200 len) s = .next (discardFrame s) := by
  change execLenOver200 len s = _
  exact onQuietEvent_eq hr (if_pos (by simp [Link.listening_of hw, hc, hl]))

end

theorem exec_gapExpiry {s : State} (hr : s.power = .running) (hg : s.link.gap ≠ none) :
    exec .gapExpiry s = .next (discardFrame s) := by
  change execGapExpiry s = _
  exact onQuietEvent_eq hr (if_pos (Option.isSome_iff_ne_none.2 hg))

/-- Settles O32: the receiver state decides what a byte does; each of the three errors discards the frame. -/
theorem bytesAssembledOrDiscarded : Obligations.BytesAssembledOrDiscarded := by
  refine ⟨fun s b hr hw => ?_, fun s len hr =>
    ⟨fun hw => exec_framingError hr hw, fun hw hc hl => exec_lenOver200 hr hw hc hl, fun hg => exec_gapExpiry hr hg⟩⟩
  have ends {t : State} (h : receiveByte b s = t) : exec (.byteArrival b) s = .next t := by rw [exec_byteArrival hr hw, h]
  cases hc : s.link.receiver with
  | hunt =>
    exact ⟨fun h => ends ((receiveByte_hunt b hc).trans (if_pos h)), fun h => ends ((receiveByte_hunt b hc).trans (if_neg h))⟩
  | headerLen =>
    exact ⟨fun h => ends ((receiveByte_headerLen b hc).trans (if_neg (Nat.not_lt.2 h))),
      fun h => ends ((receiveByte_headerLen b hc).trans (if_pos h))⟩
  | headerSeq len => exact ends (receiveByte_headerSeq b hc)
  | headerKind len seq =>
    refine ⟨fun h => ends ?_, fun h => ends ?_⟩
    · rw [receiveByte_headerKind b hc, afterPayload_of_le _ _ (by rw [h]; decide)]; rfl
    · have some_byte : 0 < len.toNat := Nat.pos_of_ne_zero fun e => h (BitVec.eq_of_toNat_eq e)
      rw [receiveByte_headerKind b hc, afterPayload_of_lt (payload := []) _ _ some_byte]; rfl
  | body len seq kind p =>
    have grown : (p ++ [b]).length = p.length + 1 := List.length_append
    refine ⟨fun h => ends ?_, fun h => ends ?_⟩
    · rw [receiveByte_body b hc, afterPayload_of_lt _ _ (by rw [grown]; exact h)]; rfl
    · rw [receiveByte_body b hc, afterPayload_of_le _ _ (by rw [grown]; exact h)]; rfl
  | check len seq kind p => exact ends (receiveByte_check b hc)
  | checkLow len seq kind p high =>
    exact (ends (receiveByte_checkLow b hc)).trans (exec_frameReceived hr hw b hc).symm

/-! ### The judgement of a whole frame (R144, R146) -/

@[simp] theorem Link.slot_place_self (k : Link) (i : SlotId) (v : Nat → Slot) : (k.place i v).slot i = v k.nextOrder := by
  cases i <;> rfl

section
variable {s : State} {len seq kind high low : Byte} {payload : List Byte}

section
variable (good : (high ++ low : Word16) = crc16 (len :: seq :: kind :: payload))
include good

theorem judgeFrame_good {i : SlotId} (hf : s.link.freeSlot = some i) :
    judgeFrame len seq kind payload high low s = { restartSilence (discardFrame s) with
      link := (restartSilence (discardFrame s)).link.place i fun o => .pending o ⟨seq, kind, payload, high ++ low⟩ } := by
  have free : (restartSilence (discardFrame s)).link.freeSlot = some i := hf
  unfold judgeFrame
  dsimp only
  rw [if_pos good, free]

theorem judgeFrame_good_full (hf : s.link.freeSlot = none) :
    judgeFrame len seq kind payload high low s = restartSilence (discardFrame s) := by
  have free : (restartSilence (discardFrame s)).link.freeSlot = none := hf
  unfold judgeFrame
  dsimp only
  rw [if_pos good, free]

end

section
variable (bad : (high ++ low : Word16) ≠ crc16 (len :: seq :: kind :: payload))
include bad

/-- A NAK in a slot is a reply that the transmitter may choose (R144, R150). -/
theorem judgeFrame_bad {i : SlotId} (hr : s.power = .running) (hf : s.link.freeSlot = some i) :
    judgeFrame len seq kind payload high low s =
      let k := (discardFrame s).link.place i fun o => .answering o (nakFrame seq) .nothing
      { s with link := { k with tx := txAfterAnswer k k.tx } } := by
  have free : (discardFrame s).link.freeSlot = some i := hf
  unfold judgeFrame
  dsimp only
  rw [if_neg bad, free]
  exact beginFrame_of_answering
    (s := { s with link := (discardFrame s).link.place i fun o => .answering o (nakFrame seq) .nothing }) hr
    (Link.slot_place_self ..)

theorem judgeFrame_bad_full (hf : s.link.freeSlot = none) : judgeFrame len seq kind payload high low s = discardFrame s := by
  have free : (discardFrame s).link.freeSlot = none := hf
  unfold judgeFrame
  dsimp only
  rw [if_neg bad, free]

end

end

theorem exists_freeSlot {k : Link} (h : k.slot0 = .free ∨ k.slot1 = .free) : ∃ i, k.freeSlot = some i :=
  Option.ne_none_iff_exists'.1 fun e => freeSlot_eq_none.1 e h

/-- Settles O34: whether the CHECK agrees, and whether a slot is FREE. -/
theorem frameReceivedJudged : Obligations.FrameReceivedJudged := by
  intro s len seq kind high low p hr hw hc check good k restarted free sum nak
  rw [exec_frameReceived hr hw low hc]
  refine ⟨fun isGood full => ?_, fun isBad full => ?_, fun isGood isFree => ?_, fun isBad isFree => ?_⟩
  · rw [judgeFrame_good_full isGood (freeSlot_eq_none.2 full)]; rfl
  · rw [judgeFrame_bad_full isBad (freeSlot_eq_none.2 full)]; rfl
  · obtain ⟨i, hi⟩ := exists_freeSlot isFree
    refine ⟨i, slot_of_freeSlot hi, ?_⟩
    rw [judgeFrame_good isGood hi]; rfl
  · obtain ⟨i, hi⟩ := exists_freeSlot isFree
    refine ⟨i, slot_of_freeSlot hi, ?_⟩
    rw [judgeFrame_bad isBad hr hi, Link.place, Link.setSlot_tx]; rfl

end Sys2Proof.Machine
end

section
/-! PROOF. The bytes of a good frame, one after another: the receiver's states on the way to the slot. -/

namespace Sys2Proof.Machine

open Sys2Proof

/-- The part with the receiver in this state, a byte just taken and these bytes to come. -/
def State.assembling (s : State) (ρ : Receiver) (rest : List Byte) : State :=
  { s with pending := rest.map .byteArrival, link := { s.link with receiver := ρ, gap := some 0 } }

/-- The part with the request in slot 0, its frame taken and no byte to come (R144 to R146, R152). -/
def State.requestTaken (s : State) (r : Request) : State :=
  { s with
    pending := []
    link := { s.link with
      receiver := .hunt, gap := none, slot0 := .pending s.link.nextOrder r, nextOrder := s.link.nextOrder + 1
      silenceTimer := if s.link.silencePeriod = 0 then none else some (s.msFor (10 * s.link.silencePeriod)) } }

/-- The two CHECK bytes of a frame are the halves of its CHECK (R143). -/
theorem put16_append (c : Word16) : (BitVec.ofNat 8 (c.toNat / 256) ++ BitVec.ofNat 8 c.toNat : Word16) = c := by
  have := c.isLt
  apply BitVec.eq_of_toNat_eq
  rw [toNat_append_eq, BitVec.toNat_ofNat, BitVec.toNat_ofNat]
  omega

section
variable {s : State} (hr : s.power = .running) (hw : s.link.awaitHigh = false)
include hr hw

theorem step_byteArrival {b : Byte} {rest : List Instr} (hp : s.pending = .byteArrival b :: rest) :
    step s = .next (receiveByte b { s with pending := rest }) := by
  unfold step
  rw [hp]
  exact exec_byteArrival (s := { s with pending := rest }) hr hw b

theorem step_assembling (ρ : Receiver) (b : Byte) (rest : List Byte) :
    step (s.assembling ρ (b :: rest)) = .next (receiveByte b (s.assembling ρ rest)) :=
  step_byteArrival (s := s.assembling ρ (b :: rest)) hr hw rfl

/-- A byte that takes the receiver on is one step of the run (R140, R141). -/
theorem run_assembling {ρ ρ' : Receiver} {b : Byte} {rest : List Byte} {k : Nat} {o : Host.Outcome State Fault Refusal}
    (hb : receiveByte b (s.assembling ρ rest) = s.assembling ρ' rest) (h : Sys2Proof.core.run k (s.assembling ρ' rest) = o) :
    Sys2Proof.core.run (k + 1) (s.assembling ρ (b :: rest)) = o :=
  run_succ ((step_assembling hr hw ρ b rest).trans (congrArg _ hb)) h

/-- SYNC begins a frame (R140). -/
theorem step_sync {rest : List Byte} (hunt : s.link.receiver = .hunt) (hp : s.pending = (syncByte :: rest).map .byteArrival) :
    step s = .next (s.assembling .headerLen rest) := by
  have sync := receiveByte_hunt (s := { s with pending := rest.map .byteArrival }) syncByte hunt
  exact (step_byteArrival hr hw hp).trans (congrArg _ (sync.trans (if_pos rfl)))

/-- LEN, SEQ and KIND (R140). -/
theorem run_header {len seq kind : Byte} {rest : List Byte} {k : Nat} {o : Host.Outcome State Fault Refusal}
    (hl : len.toNat ≤ 200) (h : Sys2Proof.core.run k (s.assembling (afterPayload len seq kind []) rest) = o) :
    Sys2Proof.core.run (k + 3) (s.assembling .headerLen (len :: seq :: kind :: rest)) = o :=
  run_assembling hr hw ((receiveByte_headerLen len rfl).trans (if_neg (Nat.not_lt.2 hl)))
    (run_assembling hr hw (receiveByte_headerSeq seq rfl) (run_assembling hr hw (receiveByte_headerKind kind rfl) h))

/-- The bytes of the payload take the receiver to CHECK (R140). -/
theorem run_payload {len seq kind : Byte} {rest : List Byte} {k : Nat} {o : Host.Outcome State Fault Refusal} (left : List Byte) :
    ∀ taken : List Byte, taken.length + left.length = len.toNat →
      Sys2Proof.core.run k (s.assembling (.check len seq kind (taken ++ left)) rest) = o →
      Sys2Proof.core.run (left.length + k) (s.assembling (afterPayload len seq kind taken) (left ++ rest)) = o := by
  induction left with
  | nil =>
    intro taken whole h
    rw [List.append_nil] at h
    rw [afterPayload_of_le seq kind (Nat.le_of_eq whole.symm), List.length_nil, Nat.zero_add]
    exact h
  | cons b left ih =>
    intro taken whole h
    rw [List.length_cons] at whole ⊢
    rw [afterPayload_of_lt seq kind (by omega), Nat.add_right_comm]
    refine run_assembling hr hw (receiveByte_body b rfl) (ih (taken ++ [b]) ?_ ?_)
    · rw [List.length_append, List.length_singleton]; omega
    · rw [List.append_assoc]; exact h

/-- The CHECK bytes of a good frame put the request in slot 0, where it is FREE (R144, R146). -/
theorem run_check {len seq kind : Byte} {payload : List Byte} (hf : s.link.slot0 = .free) :
    let check := crc16 (len :: seq :: kind :: payload)
    Sys2Proof.core.run 2 (s.assembling (.check len seq kind payload) (put16 check.toNat)) =
      .next (s.requestTaken ⟨seq, kind, payload, check⟩) := by
  intro check
  have free (ρ : Receiver) : (s.assembling ρ []).link.freeSlot = some .S0 := if_pos hf
  refine run_assembling hr hw (receiveByte_check _ rfl) (run_succ (step_assembling hr hw _ _ _) (congrArg _ ?_))
  rw [receiveByte_checkLow _ rfl, judgeFrame_good (put16_append check) (free _), put16_append]
  rfl

end

/-- Settles O33: SYNC, the header, the payload by induction on its bytes, and the CHECK. -/
theorem frameBytesReachSlot : Obligations.FrameBytesReachSlot := by
  intro s seq kind payload short hr hw hunt hf bytes check pending
  have len : (BitVec.ofNat 8 payload.length).toNat = payload.length := toNat_byte (by omega)
  have count : bytes.length = payload.length + 2 + 3 + 1 := by simp [bytes, frame, put16]
  rw [count]
  exact run_succ (step_sync hr hw hunt pending) <| run_header hr hw (Nat.le_trans (Nat.le_of_eq len) short) <|
    run_payload hr hw payload [] (by rw [len]; exact Nat.zero_add _) (run_check hr hw hf)

end Sys2Proof.Machine
end

section
/-! PROOF. Breaks, the levels of RXD, and the transmitter: what each event leaves, and the transmitter's choice at its end. -/

namespace Sys2Proof.Machine

open Sys2Proof

/-! ### Breaks and the levels of RXD (R136 to R139) -/

/-- The bit that a break finds in progress is the one on TXD (R138; log 12). -/
theorem Link.bitInProgress_of_sending {s : State} {source : TxSource} {f : List Byte} {left : Nat} (hb : s.link.lastBit = none)
    (ht : s.link.tx = .sending source f (left + 1)) :
    s.link.bitInProgress = some ⟨s.txd, left % 2000000 + 1, s.link.rate⟩ := by
  unfold Link.bitInProgress State.txd
  rw [hb, ht]
  rfl

theorem exec_linkBreak {s : State} (hr : s.power = .running) (hm : s.link.breakMeasure ≠ none) :
    exec .linkBreak s = .next (takeBreak s) := by
  change execLinkBreak s = _
  exact onQuietEvent_eq hr (if_pos (Option.isSome_iff_ne_none.2 hm))

/-- An edge of RXD in a running part (R137). -/
theorem exec_rxdLevelChange {s : State} {level : Level} (hr : s.power = .running) (edge : s.pins.rxd ≠ level) :
    exec (.rxdLevelChange level) s = .next (takeRxd level s) := by
  change execRxdLevelChange level s = _
  simp [execRxdLevelChange, State.running, hr, edge]

/-- Settles O35: the bit in progress by what TXD is sending, and a rise by whether a break held the transmitter. -/
theorem breakAndRxdAct : Obligations.BreakAndRxdAct := by
  intro s hr
  refine ⟨fun hm => ?_, fun high => ?_, fun low => ⟨fun free => ?_, fun held => ?_⟩⟩
  · intro bit
    have inProgress : s.link.bitInProgress = bit := by
      cases hb : s.link.lastBit with
      | some b => simp only [bit, hb, Link.bitInProgress]
      | none =>
        match ht : s.link.tx with
        | .idle | .sending _ _ 0 => simp only [bit, hb, ht, Link.bitInProgress]
        | .sending _ _ (left + 1) => rw [Link.bitInProgress_of_sending hb ht]; simp only [bit, hb, ht]
    rw [exec_linkBreak hr hm, ← inProgress]
    rfl
  · exact exec_rxdLevelChange hr (by rw [high]; decide)
  · rw [exec_rxdLevelChange hr (by rw [low]; decide)]
    exact congrArg _ (if_neg (by rw [free]; decide))
  · exact ⟨_, (exec_rxdLevelChange hr (by rw [low]; decide)).trans (congrArg _ (if_pos held)), beginFrame_chooses hr⟩

/-! ### The end of a frame (R151) -/

theorem exec_frameSent {s : State} {source : TxSource} {f : List Byte} {left : Nat} (hr : s.power = .running)
    (ht : s.link.tx = .sending source f left) : exec .frameSent s = .next (endFrame source s) := by
  change execFrameSent s = _
  exact onQuietEvent_eq hr (by rw [ht])

/-- The part with the slot of a reply FREE and the transmitter idle, before the reply's after-effect (R151). -/
def State.replyEnded (s : State) (i : SlotId) : State :=
  { s with link := { s.link.setSlot i .free with tx := .idle, lastBit := none } }

theorem endFrame_slot {s : State} {i : SlotId} {o : Nat} {f : List Byte} {after : AfterReply}
    (h : s.link.slot i = .answering o f after) : endFrame (.slot i) s = afterReply (s.replyEnded i) after := by
  unfold endFrame
  dsimp only
  rw [h]
  rfl

/-- The report with this number is the head, and its frame is being sent (R178). -/
def ReportQueue.sendsHead (q : ReportQueue) (number : Byte) : Prop := q.head = .sending ∧ ∃ r ∈ q.list.head?, r.number = number

theorem recordSent_of_other {q : ReportQueue} {number : Byte} (period : MsTimer) (h : ¬q.sendsHead number) :
    q.recordSent period number = q := by
  unfold ReportQueue.recordSent
  split
  · rename_i r rest hl
    refine if_neg fun both => h ?_
    rw [Bool.and_eq_true, decide_eq_true_eq, decide_eq_true_eq] at both
    exact ⟨both.2, r, by rw [hl]; rfl, both.1⟩
  · rfl

/-- The sending of the head is recorded by the delivery mode (R178, R182). -/
theorem recordSent_of_sendsHead {q : ReportQueue} {number : Byte} (period : MsTimer) (h : q.sendsHead number) :
    q.recordSent period number = if q.mode = .push then { q with head := .sent, resendTimer := period }
      else { q with head := .unsent, resendTimer := none } := by
  obtain ⟨sending, r, hh, hn⟩ := h
  obtain ⟨rest, hl⟩ := List.head?_eq_some_iff.1 hh
  unfold ReportQueue.recordSent
  rw [hl]
  exact if_pos (by simp [sending, hn])

/-- The end of a report frame, the report queue then as the sending leaves it (R151, R178). -/
theorem frameSent_report {s : State} {number : Byte} {f : List Byte} {left : Nat} {q : ReportQueue} (hr : s.power = .running)
    (ht : s.link.tx = .sending (.report number) f left)
    (hq : s.reports.recordSent (some (s.msFor (5 * s.reports.resendPeriod))) number = q) :
    ∃ t, exec .frameSent s = .next t ∧ Chooses { s with link := { s.link with tx := .idle, lastBit := none }, reports := q } t := by
  subst hq
  exact ⟨_, exec_frameSent hr ht, beginFrame_chooses hr⟩

/-- Settles O36: the end of a reply by its after-effect, the end of a report frame by whether its report is still the head. -/
theorem transmitterSends : Obligations.TransmitterSends := by
  intro s hr
  refine ⟨onLinkEvent_chooses hr rfl rfl, fun i f left o ht => ?_, fun number f left ht => ?_⟩
  · intro k
    have ends {after : AfterReply} (h : s.link.slot i = .answering o f after) :
        exec .frameSent s = .next (afterReply (s.replyEnded i) after) := by rw [exec_frameSent hr ht, endFrame_slot h]
    exact ⟨fun h => ⟨_, ends h, beginFrame_chooses hr⟩, fun rate h => ⟨_, ends h, beginFrame_chooses hr⟩,
      fun h => ⟨_, ends h, inReset_beginReset .request _, rfl, rfl⟩⟩
  · intro k q current
    refine ⟨fun other => frameSent_report hr ht (recordSent_of_other _ other), fun head push => frameSent_report hr ht ?_,
      fun head poll => frameSent_report hr ht ?_⟩
    · rw [recordSent_of_sendsHead _ head]; exact if_pos push
    · rw [recordSent_of_sendsHead _ head]; exact if_neg (by rw [poll]; decide)

end Sys2Proof.Machine
end

section
/-! PROOF. What every request has in common: its payload length, its KIND and the restart wait; and PING, IDENTIFY and
RESTART. -/

namespace Sys2Proof.Machine

open Sys2Proof

/-! ### Payload lengths (R157, R160) -/

/-- The rows of known KIND meet the length check of section 11.2 ahead of their own checks (R157). -/
theorem exec_of_lengthsAdmitted {row : Instr} {lo hi : Nat} (h : lengthsAdmitted row = some (lo, hi)) :
    ∃ m, ∀ s, exec row s = execRequest row (withLength lo hi m) s := by
  cases row <;> cases h
  all_goals exact ⟨_, fun _ => rfl⟩

/-- A payload of a length that is not admitted does not pass on to the request (R160). -/
theorem withLength_of_wrong {lo hi : Nat} {r : Request} (h : r.payload.length < lo ∨ hi < r.payload.length) (m : Meaning)
    (s : State) : withLength lo hi m r s = (s, Reply.only .badLength) := by
  refine if_neg fun ok => ?_
  rw [Bool.and_eq_true, decide_eq_true_eq, decide_eq_true_eq] at ok
  omega

/-- Settles O4: the length check stands ahead of every request's own checks. -/
theorem wrongLengthRefused : Obligations.WrongLengthRefused := by
  intro row s i o r lo hi h admitted wrong
  obtain ⟨m, row_eq⟩ := exec_of_lengthsAdmitted admitted
  rw [row_eq]
  exact answered_status h (withLength_of_wrong wrong m s)

/-! ### A KIND that names no request (R159) -/

/-- The frame of BAD-KIND (R159). -/
theorem frame_badKind (seq : Byte) : frame seq 0xFE (Reply.only .badKind).payload =
    [0xC3, 1, seq, 0xFE, 1, BitVec.ofNat 8 ((crc16 [1, seq, 0xFE, 1]).toNat / 256),
      BitVec.ofNat 8 (crc16 [1, seq, 0xFE, 1]).toNat] := rfl

/-- Settles O8: the executor's event under KIND 0xFE, with no effect that starts or stops a hold timer. -/
theorem unknownKindAnswered : Obligations.UnknownKindAnswered := by
  intro s i o r h check reply
  have taken := takeRequest_execute h (fun seq _ payload => frame seq 0xFE payload) (fun _ s => (s, Reply.only .badKind))
    h.running
  dsimp only at taken
  rw [settleHoldTimers_of_holdRuns_eq fun _ => rfl, frame_badKind] at taken
  exact congrArg Host.Outcome.next taken

/-! ### PING, IDENTIFY and RESTART (R161, R162, R164) -/

/-- Settles O5: both requests pass their length check and have no effect. -/
theorem pingAndIdentifyAnswer : Obligations.PingAndIdentifyAnswer := by
  refine fun s i o r => ⟨fun h short => ?_, fun h empty => ?_⟩
  · have pings : withLength 0 200 ping r s = (s, Reply.okWith (r.payload.take 199)) := withLength_eq (Nat.zero_le _) short
    exact answered_still h _ pings rfl rfl rfl rfl
  · have identifies : withLength 0 0 (fun _ s => (s, Reply.okWith identity)) r s = (s, Reply.okWith identity) :=
      withLength_eq (Nat.zero_le _) (by rw [empty]; exact Nat.le_refl 0)
    exact answered_still h _ identifies rfl rfl rfl rfl

/-- While the restart wait is set no request is taken (R155). -/
theorem takeRequest_of_restartWait {s : State} (h : s.restartWait = true) (row : Instr)
    (replyOf : Byte → Byte → List Byte → List Byte) (m : Meaning) : takeRequest row replyOf m s = s := by
  unfold takeRequest
  rw [h, Bool.not_true, Bool.and_false]

/-- Settles O7: the restart wait is RESTART's whole effect, and it bars the take of every request row. -/
theorem restartWaits : Obligations.RestartWaits := by
  refine ⟨fun s i o r h empty => ?_, fun row kind s names waits => ?_⟩
  · have restarts : withLength 0 0 (fun _ s => ({ s with restartWait := true }, ⟨.ok, [], .deviceReset⟩)) r s =
        ({ s with restartWait := true }, ⟨.ok, [], .deviceReset⟩) :=
      withLength_eq (Nat.zero_le _) (by rw [empty]; exact Nat.le_refl 0)
    exact execRequest_execute_still h _ restarts rfl rfl rfl
  · obtain ⟨replyOf, m, take⟩ := exec_requestRow kind s
    rw [← names, take, takeRequest_of_restartWait waits]

end Sys2Proof.Machine
end

section
/-! PROOF. READ-LANE: the bytes of its reply at the offsets of section 11.6. -/

namespace Sys2Proof.Machine

open Sys2Proof

/-! ### One byte of a code, of presence bits or of a number -/

theorem LaneId.code_lt (l : LaneId) : LaneId.code l < 256 := by cases l <;> decide

theorem TrgId.code_lt (n : TrgId) : TrgId.code n < 256 := by cases n <;> decide

theorem LaneState.code_lt (v : LaneState) : v.code < 256 := by cases v <;> decide

theorem HaltCause.code_lt (c : HaltCause) : c.code < 256 := by cases c <;> decide

/-- A value that may be absent, and is then 0 (R187). -/
theorem getD_map_lt {α : Type} {f : α → Nat} {n : Nat} (hn : 0 < n) (hf : ∀ x, f x < n) (x : Option α) :
    (x.map f).getD 0 < n := by
  cases x with
  | none => exact hn
  | some x => exact hf x

theorem toNat_presence_four (b0 b1 b2 b3 : Bool) : (BitVec.ofNat 8 (presence [b0, b1, b2, b3])).toNat =
    b0.toNat + 2 * b1.toNat + 4 * b2.toNat + 8 * b3.toNat := by
  revert b0 b1 b2 b3; decide

theorem toNat_presence_three (b0 b1 b2 : Bool) : (BitVec.ofNat 8 (presence [b0, b1, b2])).toNat =
    b0.toNat + 2 * b1.toNat + 4 * b2.toNat :=
  toNat_presence_four b0 b1 b2 false

/-! ### READ-LANE (R166, R167) -/

/-- The reply's bytes, front to back (section 11.6). -/
theorem laneData_eq (l : LaneId) (s : State) : laneData l s =
    let v := s.lane l
    let axis := v.halt.bind (·.axis)
    let tag := (v.activeTag.map BitVec.toNat).getD 0
    let remaining := v.remaining.getD 0
    [LaneId.code l, v.state.code, presence [v.unmet.settle, v.unmet.trigger.isSome, v.unmet.sync],
      (v.unmet.trigger.map TrgId.code).getD 0, v.softHold.toNat, presence (allTrgs.map fun n => (s.line n).holds l),
      presence [v.halt.isSome, axis.isSome, v.activeTag.isSome, v.remaining.isSome],
      (v.halt.map fun h => h.cause.code).getD 0, (axis.map AxisId.code).getD 0, v.queue.length, tag / 256, tag,
      remaining / 65536 / 256, remaining / 65536, remaining / 256, remaining, v.interval / 256, v.interval, v.settings.settle,
      v.settings.stopDistance / 256, v.settings.stopDistance, v.settings.stopInterval / 256, v.settings.stopInterval,
      v.settings.syncTimeout / 256, v.settings.syncTimeout].map (BitVec.ofNat 8) := by
  simp only [laneData, put8, put16, put32, List.cons_append, List.nil_append, List.map_cons, List.map_nil]

theorem execReadLane_executes {s : State} {i : SlotId} {o : Nat} {r : Request} {l : LaneId} (h : Executes .readLane s i o r)
    (hp : r.payload = put8 (LaneId.code l)) : exec .readLane s = .next (answeredWith s i o r 0 (laneData l s)) := by
  have reads : withLength 1 1 (onLane fun l _ s => (s, Reply.okWith (laneData l s))) r s = (s, Reply.okWith (laneData l s)) :=
    onLane_code hp
  have answered := answered_still h _ reads rfl rfl rfl rfl
  exact answered

/-- Settles O26, byte by byte. -/
theorem readLaneShows : Obligations.ReadLaneShows := by
  refine fun s i o r h => ⟨fun b hp hb => answered_status h (status := .badField) (onLane_bad hp hb), fun l hp => ?_⟩
  intro v remaining
  have shown : remaining = v.remaining := by
    dsimp only [remaining]
    unfold Lane.remaining
    rcases v.active with _ | ⟨_, _, _ | _ | _, _, _, _⟩ <;> rfl
  have active : v.activeTag.isSome = v.active.isSome := Option.isSome_map
  have tag : (v.activeTag.map BitVec.toNat).getD 0 < 65536 := getD_map_lt (by decide) BitVec.isLt _
  rw [shown, ← active]
  refine ⟨_, execReadLane_executes h hp, ?_⟩
  rw [laneData_eq]
  exact ⟨rfl, toNat_byte (LaneId.code_lt l), toNat_byte (LaneState.code_lt _),
    toNat_presence_three .., toNat_byte (getD_map_lt (by decide) TrgId.code_lt _), toNat_byte (toNat_flag_lt _),
    toNat_presence_four .., toNat_byte (getD_map_lt (by decide) (fun h : HaltInfo => HaltCause.code_lt h.cause) _),
    toNat_byte (getD_map_lt (by decide) AxisId.code_lt _), BitVec.toNat_ofNat ..,
    (u16At_of_bytes _ _ 10 rfl rfl).trans (Nat.mod_eq_of_lt tag), u32At_of_bytes _ _ 12 rfl rfl rfl rfl,
    u16At_of_bytes _ _ 16 rfl rfl, BitVec.toNat_ofNat .., u16At_of_bytes _ _ 19 rfl rfl, u16At_of_bytes _ _ 21 rfl rfl,
    u16At_of_bytes _ _ 23 rfl rfl, toNat_presence_four ..⟩

end Sys2Proof.Machine
end

section
/-! PROOF. The start and the course of a device reset: what begins and prolongs it, and what it keeps of the part. -/

namespace Sys2Proof.Machine

open Sys2Proof

/-! ### The start of a device reset (R165, R188) -/

theorem resetBegun_beginReset {cause : ResetCause} {s t : State} (h : t.pending = s.pending) :
    ResetBegun cause s (beginReset cause t) := ⟨inReset_beginReset cause t, rfl, h⟩

theorem exec_rstnLow_running {s : State} (h : s.power = .running) :
    exec .rstnLow s = .next (beginReset .pin { s with pins := { s.pins with rstn := .low } }) := by
  change execRstnLow s = _
  unfold execRstnLow; rw [h]

theorem prolongedCause_eq (cause : ResetCause) : prolongedCause cause = if cause = .power then .power else .pin := by
  cases cause <;> rfl

theorem exec_rstnLow_inReset {s : State} {cause : ResetCause} {elapsed : Nat} (h : s.power = .inReset cause elapsed) :
    exec .rstnLow s = .next { s with
      pins := { s.pins with rstn := .low }, power := .inReset (if cause = .power then .power else .pin) elapsed } := by
  rw [← prolongedCause_eq]
  change execRstnLow s = _
  unfold execRstnLow; rw [h]

/-! ### The course of a device reset (R188, log 14) -/

/-- A part in reset whose cause, length or input pins alone have changed is in reset still. -/
theorem InReset.congr {s t : State} (h : InReset s) (power : ∃ cause elapsed, t.power = .inReset cause elapsed)
    (coils : ∀ a, t.coilState a = s.coilState a) (time : t.time = s.time) (lanes : t.lanes = s.lanes) (link : t.link = s.link)
    (reports : t.reports = s.reports) (captures : t.captures = s.captures) : InReset t where
  power := power
  coils a := (coils a).trans (h.coils a)
  txd := by
    have : t.txd = s.txd := by unfold State.txd; rw [link]
    exact this.trans h.txd
  attn := by
    obtain ⟨cause, elapsed, inReset⟩ := power
    simp [State.attn, State.running, inReset]
  stamp := by rw [time]; exact h.stamp
  lanes l := by
    have : t.lane l = s.lane l := congrArg (·.get l) lanes
    exact this.trans (h.lanes l)
  link := by rw [link]; exact h.link
  reports := by rw [reports]; exact h.reports
  captures := by rw [captures]; exact h.captures

/-- The level of a home line drives no coil (R46, R48). -/
theorem coilState_setHomeRaw (s : State) (a b : AxisId) (level : Level) :
    (s.setAxis a { s.axis a with home := { (s.axis a).home with raw := level } }).coilState b = s.coilState b := by
  unfold State.coilState
  rw [State.axis_setAxis]
  split
  · subst b; rfl
  · rfl

theorem InReset.advance {s : State} (h : InReset s) : InReset (advance s) := by
  obtain ⟨cause, elapsed, inReset⟩ := h.power
  rw [advance_inReset inReset]
  exact h.congr ⟨_, _, rfl⟩ (fun _ => rfl) rfl rfl rfl rfl rfl

/-- Only the end of a device reset leads out of it (R188). -/
theorem InReset.exec {s t : State} {c : Instr} (h : InReset s) (hc : ∀ rate1 rate0, c ≠ .deviceResetEnd rate1 rate0)
    (he : exec c s = .next t) : InReset t := by
  obtain ⟨cause, elapsed, inReset⟩ := h.power
  have acts := exec_inReset inReset c
  cases c with
  | deviceResetEnd rate1 rate0 => exact absurd rfl (hc rate1 rate0)
  | powerOn => cases he; exact inReset_beginReset .power s
  | rstnLow =>
    cases (exec_rstnLow_inReset inReset).symm.trans he
    exact h.congr ⟨_, _, rfl⟩ (fun _ => rfl) rfl rfl rfl rfl rfl
  | rxdLevelChange level =>
    cases acts.symm.trans he
    exact h.congr h.power (fun _ => rfl) rfl rfl rfl rfl rfl
  | triggerRawChange n level =>
    cases acts.symm.trans he
    exact h.congr h.power (fun _ => rfl) rfl rfl rfl rfl rfl
  | homeRawChange a level =>
    cases acts.symm.trans he
    exact h.congr h.power (fun b => coilState_setHomeRaw s a b level) rfl rfl rfl rfl rfl
  | _ =>
    cases acts.symm.trans he
    exact h

/-- Settles O37: a reset begins in the state that R188 says, and each command and the passing of time keeps it there. -/
theorem resetBegins : Obligations.ResetBegins := by
  intro s
  refine ⟨⟨_, rfl, resetBegun_beginReset rfl⟩, fun runs => ?_, fun cause elapsed h => ?_, fun cause elapsed h => ?_, fun h => ?_⟩
  · exact ⟨_, exec_rstnLow_running runs, resetBegun_beginReset rfl, rfl⟩
  · exact exec_rstnLow_inReset h
  · exact ⟨advance_inReset h, exec_inReset h⟩
  · exact ⟨h.advance, fun c t hc => h.exec hc⟩

end Sys2Proof.Machine
end

section
/-! PROOF. The report queue: what it does with the reports handed to it, one and several. -/

namespace Sys2Proof.Machine

open Sys2Proof

/-- With a place free for it, the report joins the tail, and an empty list makes it the head afresh (R176). -/
theorem ReportQueue.hand_of_lt {q : ReportQueue} {b : ReportBody} (h : q.list.length < b.places) : q.hand b = { q with
    list := q.list ++ [⟨q.next, q.lost, b⟩], next := q.next + 1, lost := 0
    head := if q.list = [] then .unsent else q.head
    retries := if q.list = [] then 0 else q.retries
    resendTimer := if q.list = [] then none else q.resendTimer
    suspended := if q.list = [] then false else q.suspended } := by
  unfold ReportQueue.hand
  rw [if_pos h]
  by_cases empty : q.list = []
  · simp only [empty, List.isEmpty_nil, if_true]
  · simp only [empty, List.isEmpty_eq_false_iff.2 empty, if_false, Bool.false_eq_true]

theorem ReportBody.le_places (b : ReportBody) : 12 ≤ b.places := by
  unfold ReportBody.places; split <;> decide

/-- A report that finds no place finds others in the list (R176). -/
theorem ReportQueue.hand_list_ne_nil (q : ReportQueue) (b : ReportBody) : (q.hand b).list ≠ [] := by
  by_cases room : q.list.length < b.places
  · rw [(q.hand_list_of_lt b room).1]; exact List.append_ne_nil_of_right_ne_nil _ (List.cons_ne_nil _ _)
  · have full : b.places ≤ q.list.length := Nat.not_lt.1 room
    have held : 0 < q.list.length := Nat.lt_of_lt_of_le (by decide) (Nat.le_trans b.le_places full)
    rw [q.hand_of_ge b full]
    exact List.ne_nil_of_length_pos held

/-- The numbers from `n` on are `n` and those from `n + 1` on. -/
theorem numbersFrom_succ (n : Byte) (k : Nat) : ((List.range (k + 1)).map fun j => n + BitVec.ofNat 8 j) =
    n :: (List.range k).map fun j => n + 1 + BitVec.ofNat 8 j := by
  rw [List.range_succ_eq_map, List.map_cons, List.map_map]
  have next (j : Nat) : n + BitVec.ofNat 8 (j + 1) = n + 1 + BitVec.ofNat 8 j := by
    rw [BitVec.ofNat_add, BitVec.add_assoc, BitVec.add_comm (BitVec.ofNat 8 j)]; rfl
  have others : (List.range k).map ((fun j => n + BitVec.ofNat 8 j) ∘ Nat.succ) =
      (List.range k).map fun j => n + 1 + BitVec.ofNat 8 j := List.map_congr_left fun j _ => next j
  rw [others]
  exact congrArg (· :: _) (BitVec.add_zero n)

/-- What the queue accepts of the reports `bs` handed to it in turn: `accepted` joins the list, numbered without a gap, and its
lost before counts and the pending lost count account for every report (R176, R177). -/
structure ReportQueue.Accepts (q : ReportQueue) (bs : List ReportBody) (accepted : List Report) : Prop where
  list : (bs.foldl ReportQueue.hand q).list = q.list ++ accepted
  bodies : (accepted.map (·.body)).Sublist bs
  account : (accepted.map (·.lostBefore)).sum + (bs.foldl ReportQueue.hand q).lost + accepted.length = q.lost + bs.length
  numbers : accepted.map (·.number) = (List.range accepted.length).map fun j => q.next + BitVec.ofNat 8 j

/-- The first report is accepted, and the others find the lost count at 0. -/
theorem ReportQueue.Accepts.cons_accepted {q : ReportQueue} {b : ReportBody} {bs : List ReportBody} {accepted : List Report}
    (room : q.list.length < b.places) (h : (q.hand b).Accepts bs accepted) :
    q.Accepts (b :: bs) (⟨q.next, q.lost, b⟩ :: accepted) := by
  obtain ⟨joined, next, cleared⟩ := q.hand_list_of_lt b room
  refine ⟨?_, h.bodies.cons_cons b, ?_, ?_⟩
  · rw [List.foldl_cons, h.list, joined, List.append_assoc]; rfl
  · have account := h.account
    rw [cleared] at account
    simp only [List.map_cons, List.sum_cons, List.foldl_cons, List.length_cons]
    omega
  · rw [List.map_cons, List.length_cons, numbersFrom_succ, h.numbers, next]

/-- The first report is lost and counted, and the others find the same list. -/
theorem ReportQueue.Accepts.cons_lost {q : ReportQueue} {b : ReportBody} {bs : List ReportBody} {accepted : List Report}
    (full : b.places ≤ q.list.length) (fits : q.lost < 255) (h : (q.hand b).Accepts bs accepted) :
    q.Accepts (b :: bs) accepted := by
  have lost : q.hand b = { q with lost := q.lost + 1 } := by rw [q.hand_of_ge b full, Nat.min_eq_left fits]
  refine ⟨?_, h.bodies.cons b, ?_, ?_⟩
  · rw [List.foldl_cons, h.list, lost]
  · have account := h.account
    have counted : (q.hand b).lost = q.lost + 1 := by rw [lost]
    rw [List.foldl_cons, List.length_cons]
    omega
  · rw [h.numbers, lost]

/-- By induction on the reports handed over, each finding the queue as the ones before it left it. -/
theorem ReportQueue.exists_accepts (bs : List ReportBody) :
    ∀ q : ReportQueue, q.lost + bs.length ≤ 255 → ∃ accepted, q.Accepts bs accepted := by
  induction bs with
  | nil => exact fun q _ => ⟨[], (List.append_nil _).symm, List.Sublist.refl _, by simp, rfl⟩
  | cons b bs ih =>
    intro q fits
    rw [List.length_cons] at fits
    by_cases room : q.list.length < b.places
    · obtain ⟨accepted, h⟩ := ih (q.hand b) (by rw [(q.hand_list_of_lt b room).2.2]; omega)
      exact ⟨_, h.cons_accepted room⟩
    · have full : b.places ≤ q.list.length := Nat.not_lt.1 room
      have counted : (q.hand b).lost ≤ q.lost + 1 := by rw [q.hand_of_ge b full]; exact Nat.min_le_left ..
      obtain ⟨accepted, h⟩ := ih (q.hand b) (by omega)
      exact ⟨_, h.cons_lost full (by omega)⟩

/-- Settles O30: one report by whether a place is free for it, several by induction on them. -/
theorem reportsHandedOver : Obligations.ReportsHandedOver := by
  refine fun q => ⟨fun b => ?_, fun bs fits => ?_⟩
  · intro places
    have isPlaces : b.places = places := by cases b <;> rfl
    rw [← isPlaces]
    refine ⟨ReportQueue.hand_of_lt, fun full => (q.hand_of_ge b full).trans ?_⟩
    have : min (q.lost + 1) 255 = if q.lost < 255 then q.lost + 1 else 255 := by split <;> omega
    rw [this]
  · obtain ⟨accepted, h⟩ := ReportQueue.exists_accepts bs q fits
    exact ⟨accepted, h.list, h.bodies, h.account, h.numbers⟩

end Sys2Proof.Machine
end

section
/-! PROOF. The delivery of the head report: FETCH-REPORT, ACK-REPORT, the resend timer's expiry, and ATTN. -/

namespace Sys2Proof.Machine

open Sys2Proof

/-! ### ATTN (R185) -/

theorem State.attn_of_running {s : State} (h : s.power = .running) :
    s.attn = if s.reports.list = [] then .high else .low := by
  unfold State.attn State.running
  rw [h]
  cases s.reports.list <;> rfl

/-! ### FETCH-REPORT (R181) -/

section
variable {s : State} {i : SlotId} {o : Nat} {r : Request} (h : Executes .fetchReport s i o r) (hp : r.payload = [])
include h hp

theorem exec_fetchReport_empty (empty : s.reports.list = []) : exec .fetchReport s = .next (answeredWith s i o r 7 []) := by
  have reads : withLength 0 0 fetchReport r s = fetchReport r s := withLength_eq (Nat.zero_le _) (by rw [hp]; exact Nat.le_refl 0)
  exact answered_status h (status := .empty) (reads.trans (by unfold fetchReport; rw [empty]))

theorem exec_fetchReport_head {head : Report} {rest : List Report} (hl : s.reports.list = head :: rest) :
    exec .fetchReport s =
      .next (answeredWith (fetchEffect s) i o r 0 (head.number :: BitVec.ofNat 8 head.body.code :: head.payload)) := by
  have fetched : withLength 0 0 fetchReport r s =
      (fetchEffect s, Reply.okWith (head.number :: BitVec.ofNat 8 head.body.code :: head.payload)) := by
    rw [withLength_eq (Nat.zero_le _) (by rw [hp]; exact Nat.le_refl 0)]
    unfold fetchReport
    rw [hl]
    simp only [put8, BitVec.ofNat_toNat, BitVec.setWidth_eq, List.cons_append, List.nil_append]
  refine answered_still h _ fetched ?_ ?_ ?_ rfl
  all_goals unfold fetchEffect; split <;> rfl

end

/-! ### ACK-REPORT (R180) -/

section
variable {s : State} {i : SlotId} {o : Nat} {r : Request} {b : Byte} (h : Executes .ackReport s i o r) (hp : r.payload = [b])
include h hp

theorem exec_ackReport_stale (other : ∀ head ∈ s.reports.list.head?, head.number ≠ b) :
    exec .ackReport s = .next (answeredWith s i o r 8 []) := by
  refine answered_status h (status := .stale) ?_
  rw [withLength_eq (by rw [hp]; exact Nat.le_refl 1) (by rw [hp]; exact Nat.le_refl 1)]
  unfold ackReport
  split
  · rfl
  · rename_i head rest hl
    refine if_neg fun same => other head (by rw [hl]; rfl) (BitVec.eq_of_toNat_eq ?_)
    rw [same, hp]
    rfl

theorem exec_ackReport_head {head : Report} {rest : List Report} (hl : s.reports.list = head :: rest) (named : head.number = b) :
    exec .ackReport s = .next (answeredWith { s with reports := s.reports.removeHead } i o r 0 []) := by
  refine answered_still (p := Reply.only .ok) h _ ?_ rfl rfl rfl rfl
  rw [withLength_eq (by rw [hp]; exact Nat.le_refl 1) (by rw [hp]; exact Nat.le_refl 1)]
  unfold ackReport
  rw [hl]
  exact if_pos (by rw [named, hp]; rfl)

end

theorem ReportQueue.removeHead_of_cons {q : ReportQueue} {head : Report} {rest : List Report} (h : q.list = head :: rest) :
    q.removeHead = { q with list := rest, head := .unsent, retries := 0, resendTimer := none, suspended := false } := by
  unfold ReportQueue.removeHead; rw [h]; rfl

/-! ### The resend timer's expiry (R179) -/

theorem exec_resendTimerExpiry {s : State} {q : ReportQueue} (hr : s.power = .running) (ht : s.reports.resendTimer ≠ none)
    (hq : s.reports.resendExpired = q) : ∃ t, exec .resendTimerExpiry s = .next t ∧ Chooses { s with reports := q } t := by
  subst hq
  change ∃ t, execResendTimerExpiry s = .next t ∧ _
  exact onLinkEvent_chooses hr (if_pos (Option.isSome_iff_ne_none.2 ht)) rfl

/-- Settles O29: FETCH-REPORT by the list and the mode, ACK-REPORT by the number it names, the expiry by the resend limit, and
ATTN by the list. -/
theorem reportDeliveryActs : Obligations.ReportDeliveryActs := by
  refine ⟨fun s i o r h hp => ⟨exec_fetchReport_empty h hp, fun head rest hl => ⟨fun poll => ?_, fun push => ?_⟩⟩,
    fun s i o r b h hp => ⟨exec_ackReport_stale h hp, fun head rest hl named => ?_⟩,
    fun s hr => ⟨?_, fun b => ?_⟩, fun s hr ht => ⟨fun below => exec_resendTimerExpiry hr ht (if_pos below),
      fun limit => exec_resendTimerExpiry hr ht (if_neg (Nat.not_lt.2 limit))⟩⟩
  · have kept : fetchEffect s = s := if_neg (by rw [poll]; decide)
    rw [exec_fetchReport_head h hp hl, kept]
  · rw [exec_fetchReport_head h hp hl]
    unfold fetchEffect
    rw [if_pos push]
  · refine ⟨?_, ?_, State.attn_of_running h.running⟩
    · rw [exec_ackReport_head h hp hl named, ReportQueue.removeHead_of_cons hl]
    · rw [State.attn_of_running h.running, hl]; exact if_neg (List.cons_ne_nil _ _)
  · rw [State.attn_of_running hr]
    split <;> simp [*]
  · have runs : { s with reports := s.reports.hand b }.power = .running := hr
    exact (State.attn_of_running runs).trans (if_neg (s.reports.hand_list_ne_nil b))

end Sys2Proof.Machine
end

section
/-! PROOF. The bytes of report frames, of the four report payloads and of capture records, at the offsets of sections 11.1, 11.4
and 11.5. -/

namespace Sys2Proof.Machine

open Sys2Proof

/-! ### Codes, and the fields that stand at an offset -/

theorem ResetCause.code_lt (c : ResetCause) : c.code < 256 := by cases c <;> decide

theorem SegmentKind.code_lt (k : SegmentKind) : k.code < 256 := by cases k <;> decide

theorem CaptureSource.code_lt (c : CaptureSource) : c.code < 256 := by
  cases c with
  | line n => exact TrgId.code_lt n
  | host => decide

theorem Edge.code_lt (e : Edge) : e.code < 256 := by cases e <;> decide

theorem stopCause_lt (halt : Option HaltInfo) : stopCause halt < 256 := by
  cases halt with
  | none => decide
  | some h => exact h.cause.code_lt

/-- A value that a two-byte field holds whole. -/
theorem u16At_of_bytes_lt {n : Nat} (hn : n < 65536) (d : List Byte) (i : Nat) (e0 : byteAt d i = n / 256 % 256)
    (e1 : byteAt d (i + 1) = n % 256) : u16At d i = n :=
  (u16At_of_bytes n d i e0 e1).trans (Nat.mod_eq_of_lt hn)

/-- The signed field that stands at an offset, of any four-byte value. -/
theorem i32At_of_drop_eq {d post : List Byte} {i : Nat} {z : Int} (h : d.drop i = putI32 z ++ post) (hi : i ≤ d.length)
    (low : -2147483648 ≤ z) (high : z ≤ 2147483647) : i32At d i = z := by
  have field := i32At_putI32 (d.take i) post low high
  rwa [← h, List.take_append_drop, List.length_take, Nat.min_eq_left hi] at field

/-- The four positions that stand at an offset. -/
theorem i32At_positions_of_drop {d post : List Byte} {i : Nat} {p : PerAxis Int} (h : d.drop i = putPositions p ++ post)
    (hi : i ≤ d.length) (bounds : ∀ a, -2147483648 ≤ p.get a ∧ p.get a ≤ 2147483647) (a : AxisId) :
    i32At d (i + 4 * AxisId.code a) = p.get a := by
  have field := i32At_putPositions (d.take i) post p bounds a
  rwa [← h, List.take_append_drop, List.length_take, Nat.min_eq_left hi] at field

/-! ### The payloads and the capture record, front to back (sections 11.4 and 11.5) -/

section
variable {r : Report}

theorem Report.payload_of_restarted {cause : ResetCause} {revision : Nat} (h : r.body = .restarted cause revision) :
    r.payload = [r.lostBefore, cause.code, revision].map (BitVec.ofNat 8) := by
  unfold Report.payload; rw [h]; rfl

theorem Report.payload_of_captureReady {n : Nat} (h : r.body = .captureReady n) :
    r.payload = [r.lostBefore, n].map (BitVec.ofNat 8) := by
  unfold Report.payload; rw [h]; rfl

/-- The fields of a HOME are zeros in the report of another segment (R187). -/
theorem Report.payload_of_segmentDone {l : LaneId} {tag : Tag} {kind : SegmentKind} {depth : Nat} {home : Option HomeResult}
    {positions : PerAxis Int} (h : r.body = .segmentDone l tag kind depth home positions) :
    r.payload =
      [r.lostBefore, LaneId.code l, tag.toNat / 256, tag.toNat, kind.code, depth, home.isSome.toNat].map (BitVec.ofNat 8) ++
        (put32 ((home.map (·.stepsTaken)).getD 0) ++ (putI32 ((home.map (·.detectedAt)).getD 0) ++ putPositions positions)) := by
  unfold Report.payload
  rw [h]
  cases home <;> rfl

theorem Report.payload_of_laneStopped {l : LaneId} {halt : Option HaltInfo} {cut : Option Cut} {positions : PerAxis Int}
    (h : r.body = .laneStopped l halt cut positions) :
    let axis := halt.bind (·.axis)
    let left := cut.bind (·.notTaken)
    r.payload =
      [r.lostBefore, LaneId.code l, halt.isSome.toNat, stopCause halt, presence [axis.isSome, cut.isSome, left.isSome],
        (axis.map AxisId.code).getD 0].map (BitVec.ofNat 8) ++
        (put16 ((cut.map (·.tag.toNat)).getD 0) ++ (put32 (left.getD 0) ++ putPositions positions)) := by
  unfold Report.payload; rw [h]; rfl

end

theorem CaptureRecord.data_eq (c : CaptureRecord) : c.data =
    [c.number.toNat / 256, c.number.toNat, c.source.code, presence [c.edge.isSome, c.tags.l0.isSome, c.tags.l1.isSome],
      (c.edge.map Edge.code).getD 0].map (BitVec.ofNat 8) ++
      (put32 c.stamp.toNat ++ (putPositions c.positions ++ (put16 ((c.tags.l0.map BitVec.toNat).getD 0) ++
        (put16 ((c.tags.l1.map BitVec.toNat).getD 0) ++ put16 c.droppedBefore.toNat)))) := by
  simp only [CaptureRecord.data, put8, put16, List.map_cons, List.map_nil, List.append_assoc, List.cons_append, List.nil_append]

theorem byteAt_payload_zero (r : Report) : byteAt r.payload 0 = r.lostBefore % 256 := BitVec.toNat_ofNat ..

/-- Settles O31: the frame from the payload, then each payload and the capture record field by field. -/
theorem recordBytes : Obligations.RecordBytes := by
  unfold Obligations.RecordBytes
  intro positionsAt
  refine ⟨fun r => ?_, fun c => ?_⟩
  · intro d kind body
    refine ⟨?frame, byteAt_payload_zero r, fun cause revision h => ?restarted, fun n h => ?captureReady,
      fun l tag kind depth home positions h => ?segmentDone, fun l halt cut positions h => ?laneStopped⟩
    case frame =>
      have code : BitVec.ofNat 8 r.body.code = kind := by dsimp only [kind]; cases r.body <;> rfl
      unfold reportFrame
      rw [code]
      rfl
    case restarted =>
      dsimp only [d]
      rw [Report.payload_of_restarted h]
      refine ⟨rfl, BitVec.toNat_ofNat .., (toNat_byte cause.code_lt).trans ?_⟩
      cases cause <;> rfl
    case captureReady =>
      dsimp only [d]
      rw [Report.payload_of_captureReady h]
      exact ⟨rfl, BitVec.toNat_ofNat ..⟩
    case segmentDone =>
      dsimp only [d, positionsAt]
      rw [Report.payload_of_segmentDone h]
      refine ⟨rfl, toNat_byte (LaneId.code_lt l), u16At_of_bytes_lt tag.isLt _ 2 rfl rfl, BitVec.toNat_ofNat ..,
        (toNat_byte kind.code_lt).trans ?kindCode, fun absent => ?absent, fun v present => ?present,
        i32At_positions_of_drop (i := 15) (List.append_nil _).symm (Nat.le_of_ble_eq_true rfl)⟩
      case kindCode => cases kind <;> rfl
      case absent =>
        subst absent
        exact ⟨rfl, u32At_of_bytes 0 _ 7 rfl rfl rfl rfl, u32At_of_bytes 0 _ 11 rfl rfl rfl rfl⟩
      case present =>
        subst present
        exact ⟨rfl, u32At_of_bytes _ _ 7 rfl rfl rfl rfl, i32At_of_drop_eq (i := 11) rfl (Nat.le_of_ble_eq_true rfl)⟩
    case laneStopped =>
      dsimp only [d, positionsAt]
      rw [Report.payload_of_laneStopped h]
      have tag : (cut.map (·.tag.toNat)).getD 0 < 65536 := getD_map_lt (by decide) (fun c : Cut => c.tag.isLt) _
      refine ⟨rfl, toNat_byte (LaneId.code_lt l), toNat_byte (toNat_flag_lt _), (toNat_byte (stopCause_lt halt)).trans ?_,
        toNat_presence_three .., toNat_byte (getD_map_lt (by decide) AxisId.code_lt _),
        u16At_of_bytes_lt tag _ 6 rfl rfl, u32At_of_bytes _ _ 8 rfl rfl rfl rfl,
        i32At_positions_of_drop (i := 12) (List.append_nil _).symm (Nat.le_of_ble_eq_true rfl)⟩
      rcases halt with _ | ⟨cause, axis⟩
      · rfl
      · cases cause <;> rfl
  · intro d
    dsimp only [d, positionsAt]
    rw [c.data_eq]
    have tag (t : Option Tag) : (t.map BitVec.toNat).getD 0 < 65536 := getD_map_lt (by decide) BitVec.isLt t
    refine ⟨rfl, u16At_of_bytes_lt c.number.isLt _ 0 rfl rfl, (toNat_byte c.source.code_lt).trans ?source,
      toNat_presence_three .., (toNat_byte (getD_map_lt (by decide) Edge.code_lt c.edge)).trans ?edge,
      (u32At_of_bytes _ _ 5 rfl rfl rfl rfl).trans (Nat.mod_eq_of_lt c.stamp.isLt),
      i32At_positions_of_drop (i := 9) rfl (Nat.le_of_ble_eq_true rfl),
      u16At_of_bytes_lt (tag c.tags.l0) _ 25 rfl rfl, u16At_of_bytes_lt (tag c.tags.l1) _ 27 rfl rfl,
      u16At_of_bytes_lt c.droppedBefore.isLt _ 29 rfl rfl⟩
    case source => cases c.source <;> rfl
    case edge => rcases c.edge with _ | _ | _ <;> rfl

end Sys2Proof.Machine
end

section
/-! PROOF. A step with commands waiting is the command at the front of the queue, and leaves the rest waiting. -/

namespace Sys2Proof.Machine

open Sys2Proof

/-- A waiting command is taken ahead of any internal event that stands due (log 23): `idle` has no part in the step. -/
theorem step_of_pending_cons {c : Instr} {rest : List Instr} {s : State} (waiting : s.pending = c :: rest) :
    step s = exec c { s with pending := rest } := by
  unfold step
  rw [waiting]

/-- Settles O1 (logs 1, 23): the step is the front command's `exec`, and no command touches the queue it is run with. -/
theorem stepRunsFrontCommand : Obligations.StepRunsFrontCommand := by
  intro c rest s waiting
  have runs : step s = exec c { s with pending := rest } := step_of_pending_cons waiting
  refine ⟨runs, fun t next => ?_⟩
  obtain ⟨u, ends, queue⟩ := exec_endsInNext c { s with pending := rest }
  rw [runs, ends] at next
  cases next
  exact queue

end Sys2Proof.Machine
end

section
/-! PROOF. The laws of the axes under each single change of them: what an operation of a lane's work does to the axes, and the axis
that an accepted SET-AXIS leaves. -/

namespace Sys2Proof.Machine

open Sys2Proof

/-! ### Single changes of the axes -/

/-- The law of the axes reads the axes and the pattern table alone. -/
theorem AxisLaw.congr {s t : State} (law : AxisLaw s) (axes : t.axes = s.axes) (patterns : t.patterns = s.patterns) : AxisLaw t :=
  ⟨fun a => by rw [State.axis, axes, patterns]; exact law.axes a, by rw [patterns]; exact law.tableLow,
    by rw [patterns]; exact law.tableHigh, by rw [patterns]; exact law.tableStates⟩

/-- The law of the hold timers reads the axes and the lanes alone. -/
theorem HoldTimerLaw.congr {s t : State} (law : HoldTimerLaw s) (axes : t.axes = s.axes) (lanes : t.lanes = s.lanes) :
    HoldTimerLaw t := by
  intro a
  have runs : t.holdRuns a = s.holdRuns a := by
    apply holdRuns_congr <;> simp only [State.axis, State.lane, axes, lanes, implies_true]
  rw [runs, State.axis, axes]; exact law a

theorem AxisLaw.setAxis {s : State} (law : AxisLaw s) {a : AxisId} {x : Axis} (ok : AxisOk s.patterns x) : AxisLaw (s.setAxis a x) := by
  refine ⟨fun b => ?_, law.tableLow, law.tableHigh, law.tableStates⟩
  rw [State.axis_setAxis]; split
  · exact ok
  · exact law.axes b

theorem AxisLaw.setLane {s : State} (law : AxisLaw s) (l : LaneId) (v : Lane) : AxisLaw (s.setLane l v) := law.congr rfl rfl

theorem AxisLaw.setSync {s : State} (law : AxisLaw s) (l : LaneId) (e : Option SyncEntry) : AxisLaw (s.setSync l e) :=
  law.congr rfl rfl

theorem AxisLaw.setLine {s : State} (law : AxisLaw s) (n : TrgId) (x : TrgLine) : AxisLaw (s.setLine n x) := law.congr rfl rfl

/-- Energising axes that belong to a lane keeps the law (R45). -/
theorem AxisLaw.energises {s t : State} (law : AxisLaw s) (frame : LaneFrame s t) (energises : EnergisesOnly s t) : AxisLaw t := by
  have patterns := frame.patterns
  refine ⟨fun a => ?_, by rw [patterns]; exact law.tableLow, by rw [patterns]; exact law.tableHigh,
    by rw [patterns]; exact law.tableStates⟩
  obtain ⟨same, -, owned⟩ := energises.axis a
  have ok := law.axes a
  have released : (s.axis a).owner = none → (t.axis a).energised = false := fun free =>
    Bool.eq_false_iff.2 fun on => (owned on).elim (fun was => by rw [ok.freeReleased free] at was; cases was) fun h => h free
  rw [patterns, same]
  exact ⟨ok.low, ok.high, ok.boundLow, ok.boundHigh, released, ok.phase⟩

theorem patternLength_pos {patterns : List Nat} (h : 2 ≤ patterns.length) (mode : DriveMode) : 0 < patternLength patterns mode := by
  cases mode with
  | table => exact Nat.lt_of_lt_of_le Nat.zero_lt_two h
  | wave | pair | half | pulse => exact Nat.succ_pos _

/-- A step that passes its window check keeps the law of its axis (R33, R46, R47). -/
theorem AxisOk.takeStep {patterns : List Nat} {x : Axis} (ok : AxisOk patterns x) (h : 2 ≤ patterns.length) {forward : Bool}
    (passes : x.windowFails forward = false) : AxisOk patterns (x.takeStep patterns forward) := by
  have window : ¬x.stepped forward < x.windowMin ∧ ¬x.windowMax < x.stepped forward := by
    simpa [Axis.windowFails] using passes
  have phase : (x.takeStep patterns forward).phase < patternLength patterns x.mode := by
    have pos := patternLength_pos h x.mode
    unfold Axis.takeStep; dsimp only
    split
    · exact ok.phase
    · dsimp only; split <;> exact Nat.mod_lt _ pos
  exact ⟨by simpa using window.1, by simpa using window.2, by simpa using ok.boundLow, by simpa using ok.boundHigh,
    by simpa using ok.freeReleased, by simpa using phase⟩

/-- A step event that does not fail finds every due axis inside its window after the step (R34). -/
theorem windowFails_of_moveFailure_none {l : LaneId} {entries : List (AxisId × Int)} {n : Nat} {s : State}
    (h : moveFailure l entries n s = none) {a : AxisId} (due : (s.lane l).due entries n a = true) :
    (s.axis a).windowFails (forwardCount entries a) = false := by
  unfold moveFailure at h; dsimp only at h
  split at h
  · cases h
  split at h
  · cases h
  · rename_i inside
    simpa [due] using List.find?_eq_none.1 inside a (mem_allAxes a)

theorem AxisLaw.takeMoveStep {l : LaneId} {entries : List (AxisId × Int)} {n : Nat} {s : State} (law : AxisLaw s)
    (h : moveFailure l entries n s = none) : AxisLaw (takeMoveStep l entries n s) := by
  refine ⟨fun a => ?_, law.tableLow, law.tableHigh, law.tableStates⟩
  change AxisOk s.patterns _
  rw [takeMoveStep_axis]; split
  · rename_i due
    rw [← forwardCount_eq, ← takeStep_eq_oneStep]
    exact (law.axes a).takeStep law.tableLow (windowFails_of_moveFailure_none h due)
  · exact law.axes a

/-! ### The operations of a lane's work (R34, R38, R82, R89, R91, R104, R108 to R110) -/

/-- An operation that touches no axis. -/
theorem AxisLaw.lane_still {s t : State} (law : AxisLaw s) (frame : LaneFrame s t) (axes : t.axes = s.axes) : AxisLaw t :=
  law.congr axes frame.patterns

theorem AxisLaw.halt {s : State} (law : AxisLaw s) (l : LaneId) (h : HaltInfo) : AxisLaw (halt l h s) :=
  law.lane_still (halt_frame ..) (halt_axes ..)

theorem AxisLaw.reachStopEnd {s : State} (law : AxisLaw s) (l : LaneId) (e : RampEnd) : AxisLaw (reachStopEnd l e s) :=
  law.lane_still (reachStopEnd_frame ..) (reachStopEnd_axes ..)

theorem AxisLaw.completeInStop {s : State} (law : AxisLaw s) (l : LaneId) (e : RampEnd) : AxisLaw (completeInStop l e s) :=
  (law.lane_still (removeActive_frame ..) (removeActive_axes l none s)).reachStopEnd l e

theorem AxisLaw.complete {s : State} (law : AxisLaw s) (l : LaneId) (home : Option HomeResult) (atTick : Bool) :
    AxisLaw (complete l home atTick s) :=
  law.energises (complete_frame ..) (complete_energises ..)

section
variable {s : State} (law : AxisLaw s)
include law

theorem AxisLaw.runMoveStep (l : LaneId) (entries : List (AxisId × Int)) (i0 i1 n : Nat) :
    AxisLaw (runMoveStep l entries i0 i1 n s) := by
  unfold Machine.runMoveStep; split
  · exact law.halt ..
  · rename_i passes
    have taken := law.takeMoveStep passes
    dsimp only; split
    · exact taken.complete ..
    · exact taken.congr rfl rfl

theorem AxisLaw.runInProgressStep (l : LaneId) (entries : List (AxisId × Int)) (n : Nat) (r : StopRamp) :
    AxisLaw (runInProgressStep l entries n r s) := by
  unfold Machine.runInProgressStep; split
  · exact law.halt ..
  · rename_i passes
    have taken := law.takeMoveStep passes
    dsimp only; split
    · exact taken.completeInStop ..
    split
    · exact taken.reachStopEnd ..
    · exact taken.congr rfl rfl

theorem AxisLaw.runStopStep (l : LaneId) (entries : List (AxisId × Int)) (n : Nat) (r : StopRamp) (steps : Nat) :
    AxisLaw (runStopStep l entries n r steps s) := by
  unfold Machine.runStopStep; split
  · exact law.halt ..
  · rename_i passes
    have taken := law.takeMoveStep passes
    dsimp only; split
    · split
      · exact taken.completeInStop ..
      · exact taken.reachStopEnd ..
    · exact taken.congr rfl rfl

theorem AxisLaw.runDwell (l : LaneId) (i0 : Nat) : AxisLaw (runDwell l i0 s) := by
  unfold Machine.runDwell; dsimp only; split
  · exact law.complete ..
  · exact law.congr rfl rfl

theorem AxisLaw.runHomingStep (l : LaneId) (a : AxisId) (limit i0 : Nat) (h : HomingRun) : AxisLaw (runHomingStep l a limit i0 h s) := by
  unfold Machine.runHomingStep; dsimp only; split
  · exact law.halt ..
  · rename_i passes
    have taken := law.setAxis (a := a) ((law.axes a).takeStep law.tableLow (Bool.eq_false_iff.2 passes))
    exact taken.congr rfl rfl

/-- The preset of a HOME is taken only inside the window (R110). -/
theorem AxisLaw.detectHome (l : LaneId) (a : AxisId) (preset : Int) : AxisLaw (detectHome l a preset s) := by
  unfold Machine.detectHome; dsimp only; split
  · rename_i inside
    simp only [Axis.inWindow, Bool.and_eq_true, decide_eq_true_eq] at inside
    obtain ⟨low, high⟩ := inside
    have ok := law.axes a
    exact (law.setAxis (a := a) (x := { s.axis a with position := preset })
      ⟨low, high, ok.boundLow, ok.boundHigh, ok.freeReleased, ok.phase⟩).complete ..
  · exact law.halt ..

theorem AxisLaw.homeEvent (l : LaneId) (a : AxisId) (becameActive : Bool) : AxisLaw (homeEvent l a becameActive s) := by
  unfold Machine.homeEvent; dsimp only
  split
  · split
    · split
      · split
        · exact law.congr rfl rfl
        · exact law.detectHome ..
        · exact law
      · exact law
    · exact law
  · exact law

/-- The filter of the home line is no part of the law. -/
theorem AxisLaw.setHome (a : AxisId) (f : InputFilter) : AxisLaw (s.setAxis a { s.axis a with home := f }) :=
  have ok := law.axes a
  law.setAxis ⟨ok.low, ok.high, ok.boundLow, ok.boundHigh, ok.freeReleased, ok.phase⟩

theorem AxisLaw.passHomeFilter (a : AxisId) : AxisLaw (passHomeFilter a s) := by
  have filtered := law.setHome a { (s.axis a).home with filtered := (s.axis a).home.raw, measure := none }
  unfold Machine.passHomeFilter; dsimp only; split
  · exact filtered.homeEvent ..
  · exact filtered

theorem AxisLaw.passTriggerFilter (n : TrgId) : AxisLaw (passTriggerFilter n s) := by
  rw [passTriggerFilter_triggerCaptured]
  have captured : AxisLaw (s.triggerCaptured n) := by rw [triggerCaptured_frame]; exact law.congr rfl rfl
  exact captured.energises (roleEffect_frame ..) (roleEffect_energises ..)

theorem AxisLaw.applyHold (l : LaneId) : AxisLaw (applyHold l s) := by rw [applyHold_eq]; exact law.congr rfl rfl

theorem AxisLaw.stopLaneEffect (l : LaneId) : AxisLaw (stopLaneEffect l s) := by
  refine law.lane_still (stopLaneEffect_frame ..) ?_
  unfold Machine.stopLaneEffect; dsimp only
  split
  · rfl
  · rfl
  · rfl
  · split <;> rfl
  all_goals rfl

theorem AxisLaw.silenceLane (l : LaneId) : AxisLaw (silenceLane l s) := by
  obtain ⟨frame, -, -, axes, -, -⟩ := silenceLane_frame l s
  exact law.lane_still frame axes

end

/-! ### The axis that an accepted SET-AXIS leaves (R53, R58, R59, R105) -/

/-- The new setting moves the axis from a lane to FREE (R59). -/
def AxisSetting.frees (w : AxisSetting) (x : Axis) : Bool := w.owner = none && x.owner ≠ none

/-- The new setting changes the lane or the hold time, and so starts the hold timer of an ENERGISED axis afresh (R53). -/
def AxisSetting.restarts (w : AxisSetting) (x : Axis) : Bool := w.owner ≠ x.owner || w.holdTime ≠ x.holdTime

/-- The new setting has a home filter time that the raw level has already exceeded (R105). -/
def AxisSetting.passesHome (w : AxisSetting) (x : Axis) : Bool := w.homeFilter ≠ x.homeFilter && x.home.passed w.homeFilter

theorem AxisSetting.frees_iff (w : AxisSetting) (x : Axis) : w.frees x = true ↔ w.owner = none ∧ x.owner ≠ none := by
  rw [AxisSetting.frees, Bool.and_eq_true, decide_eq_true_iff, decide_eq_true_iff]

theorem AxisSetting.restarts_iff (w : AxisSetting) (x : Axis) :
    w.restarts x = true ↔ w.owner ≠ x.owner ∨ w.holdTime ≠ x.holdTime := by
  rw [AxisSetting.restarts, Bool.or_eq_true, decide_eq_true_iff, decide_eq_true_iff]

theorem AxisSetting.passesHome_iff (w : AxisSetting) (x : Axis) :
    w.passesHome x = true ↔ w.homeFilter ≠ x.homeFilter ∧ ∃ e, x.home.measure = some e ∧ 8 * w.homeFilter ≤ e := by
  rw [AxisSetting.passesHome, Bool.and_eq_true, decide_eq_true_iff, InputFilter.passed_iff]

/-- The axis unit of the part `s` under the new setting, field by field. -/
def Axis.withSetting (s : State) (w : AxisSetting) (x : Axis) : Axis where
  owner := w.owner
  mode := w.mode
  sense := w.sense
  phase := if w.mode = x.mode then x.phase else 0
  position := x.position
  windowMin := w.windowMin
  windowMax := w.windowMax
  energised := if w.frees x then false else x.energised
  holdTime := w.holdTime
  homeLevel := w.homeLevel
  homeDir := w.homeDir
  guard := w.guard
  homeFilter := w.homeFilter
  dirLevel := if w.mode = x.mode then x.dirLevel else .low
  holdTimer :=
    if w.frees x then none
    else if x.energised && w.restarts x then (if w.holdTime = 0 then none else some (s.msFor w.holdTime))
    else x.holdTimer
  home := if w.passesHome x then ⟨x.home.raw, x.home.raw, none⟩ else x.home
  pulse := if w.frees x then none else if w.mode = x.mode then x.pulse else none

/-- The axis as the model makes it, before its home filter passes (R59). -/
theorem Axis.takeSetting_eq (s : State) (w : AxisSetting) (x : Axis) :
    x.takeSetting s.holdStart w = { x.withSetting s w with home := x.home } := by
  unfold Axis.takeSetting Axis.withSetting; dsimp only
  cases frees : w.frees x with
  | true => exact (if_pos frees).trans rfl
  | false =>
    refine (if_neg (Bool.eq_false_iff.1 frees)).trans ?_
    cases again : x.energised && w.restarts x with
    | true => exact (if_pos again).trans rfl
    | false => exact (if_neg (Bool.eq_false_iff.1 again)).trans rfl

section
variable {s : State} {a : AxisId} {w : AxisSetting} (allows : axisStateAllows s (s.axis a) w = true)
include allows

theorem not_barred_of_allows :
    (w.owner = (s.axis a).owner ∨
      ∀ l, (s.axis a).owner = some l ∨ w.owner = some l → (s.lane l).state = .idle ∨ (s.lane l).state = .halted) ∧
    ({ w with owner := (s.axis a).owner } = (s.axis a).setting ∨ ∀ l, (s.axis a).owner = some l → (s.lane l).busy = false) := by
  unfold axisStateAllows at allows
  simp only [Bool.and_eq_true, Bool.or_eq_true, decide_eq_true_eq] at allows
  obtain ⟨sides, settings⟩ := allows
  refine ⟨sides.imp_right fun empty l h => ?_, settings.imp_right fun still l h => ?_⟩
  · obtain ⟨was, is⟩ := empty
    rcases h with h | h
    · rw [h] at was; simpa [State.sideOpen, Lane.emptyState] using was
    · rw [h] at is; simpa [State.sideOpen, Lane.emptyState] using is
  · rw [h] at still; simpa [State.ownerAllows] using still

/-- Where any field changes, neither the lane that the axis leaves nor the one it joins is busy (R58). -/
theorem not_busy_of_allows (changed : w ≠ (s.axis a).setting) {l : LaneId} (h : (s.axis a).owner = some l ∨ w.owner = some l) :
    (s.lane l).busy = false := by
  obtain ⟨sides, settings⟩ := not_barred_of_allows allows
  have resting : (s.lane l).state = .idle ∨ (s.lane l).state = .halted → (s.lane l).busy = false := by
    unfold Lane.busy; rintro (e | e) <;> rw [e]
  by_cases same : w.owner = (s.axis a).owner
  · rcases settings with same' | still
    · exact absurd (by rw [← same', ← same]) changed
    · exact still l (h.elim id fun k => same ▸ k)
  · rcases sides with k | k
    · exact absurd k same
    · exact resting (k l h)

/-- No lane acts on the change of the filtered level that a new filter time brings. -/
theorem takeAxisSetting_eq : takeAxisSetting a w s = s.setAxis a ((s.axis a).withSetting s w) := by
  unfold takeAxisSetting; dsimp only
  rw [Axis.takeSetting_eq]
  split
  · rename_i h
    have passing : w.passesHome (s.axis a) = true := h
    have changed : w ≠ (s.axis a).setting := fun e => ((w.passesHome_iff _).1 passing).1 (congrArg AxisSetting.homeFilter e)
    rw [passHomeFilter_of_no_homing fun l ho => .inl ?_]
    · have home : ((s.axis a).withSetting s w).home = ⟨(s.axis a).home.raw, (s.axis a).home.raw, none⟩ := if_pos passing
      rw [State.homePassed, State.axis_setAxis_self, Axis.homePassed, ← home]
      simp only [State.setAxis, PerAxis.set_set]
    · rw [State.axis_setAxis_self] at ho
      have still := not_busy_of_allows allows changed (.inr ho)
      constructor <;> (intro e; rw [State.setAxis_lane] at e; simp [Lane.busy, e] at still)
  · rename_i h
    have home : ((s.axis a).withSetting s w).home = (s.axis a).home := if_neg h
    rw [← home]

/-- Under the new setting the hold timer of the axis runs exactly while its three conditions hold (R53). -/
theorem HoldTimerLaw.withSetting (law : HoldTimerLaw s) : HoldTimerLaw (s.setAxis a ((s.axis a).withSetting s w)) := by
  intro b
  by_cases other : b = a
  · subst b
    have runs := law a
    have fields : ∀ y : Axis, (s.setAxis a y).holdRuns a = (y.energised && y.holdTime != 0 && !s.ownerExecutes y) := fun y => by
      unfold State.holdRuns; rw [State.axis_setAxis_self]; rfl
    rw [State.axis_setAxis_self, fields]
    cases free : w.frees (s.axis a) with
    | true => simp [Axis.withSetting, free]
    | false =>
      cases on : (s.axis a).energised with
      | false =>
        have stopped : (s.axis a).holdTimer.isSome = false := by rw [runs, State.holdRuns, on]; rfl
        simpa [Axis.withSetting, free, on] using stopped
      | true =>
        cases again : w.restarts (s.axis a) with
        | true =>
          have changed : w ≠ (s.axis a).setting := fun e => ((w.restarts_iff _).1 again).elim
            (fun k => k (congrArg AxisSetting.owner e)) fun k => k (congrArg AxisSetting.holdTime e)
          have idle : s.ownerExecutes ((s.axis a).withSetting s w) = false := by
            unfold State.ownerExecutes
            split
            · rename_i l ho; exact executing_of_not_busy (not_busy_of_allows allows changed (.inr ho))
            · rfl
          rw [idle]
          by_cases zero : w.holdTime = 0 <;> simp [Axis.withSetting, free, again, on, zero]
        | false =>
          have same := mt (w.restarts_iff (s.axis a)).2 (Bool.eq_false_iff.1 again)
          simp only [ne_eq, not_or, not_not] at same
          obtain ⟨owner, time⟩ := same
          have executes : s.ownerExecutes ((s.axis a).withSetting s w) = s.ownerExecutes (s.axis a) := by
            unfold State.ownerExecutes; rw [show ((s.axis a).withSetting s w).owner = w.owner from rfl, owner]
          rw [executes]
          simpa [Axis.withSetting, free, again, on, time, State.holdRuns] using runs
  · have runs : (s.setAxis a ((s.axis a).withSetting s w)).holdRuns b = s.holdRuns b := by
      apply holdRuns_congr <;> simp [other]
    rw [runs, State.axis_setAxis_of_ne _ _ other]; exact law b

end

end Sys2Proof.Machine
end

section
/-! PROOF. Every command and every step as a change of the axes; and with that the law of the axes and the law of the hold timers,
kept by every step. -/

namespace Sys2Proof.Machine

open Sys2Proof

/-- What an event does to the axes. -/
structure AxesMove (s t : State) : Prop where
  axes : AxisLaw s → AxisLaw t
  timers : HoldTimerLaw s → HoldTimerLaw t

/-- What an event does to the axes before the hold timers settle with it: it touches none whose conditions it leaves as they were
(R53). -/
structure AxesEffect (s t : State) : Prop where
  axes : AxisLaw s → AxisLaw t
  timers : HoldTimerLaw s → ∀ a, s.holdRuns a = t.holdRuns a → (t.axis a).holdTimer.isSome = t.holdRuns a

theorem AxesMove.refl (s : State) : AxesMove s s := ⟨id, id⟩

theorem AxesMove.congr {s t u : State} (h : AxesMove s t) (axes : u.axes = t.axes) (lanes : u.lanes = t.lanes)
    (patterns : u.patterns = t.patterns) : AxesMove s u :=
  ⟨fun law => (h.axes law).congr axes patterns, fun law => (h.timers law).congr axes lanes⟩

/-- An event that reaches neither the axes nor the lanes nor the pattern table. -/
theorem AxesMove.elsewhere {s t : State} (axes : t.axes = s.axes) (lanes : t.lanes = s.lanes) (patterns : t.patterns = s.patterns) :
    AxesMove s t :=
  (AxesMove.refl s).congr axes lanes patterns

theorem AxesMove.beginFrame {s t : State} (h : AxesMove s t) : AxesMove s (beginFrame t) :=
  h.congr (beginFrame_axes t) (beginFrame_lanes t) (beginFrame_patterns t)

theorem AxesMove.effect {s t : State} (h : AxesMove s t) : AxesEffect s t := ⟨h.axes, fun law a _ => h.timers law a⟩

theorem AxesEffect.refl (s : State) : AxesEffect s s := (AxesMove.refl s).effect

theorem AxesEffect.elsewhere {s t : State} (axes : t.axes = s.axes) (lanes : t.lanes = s.lanes) (patterns : t.patterns = s.patterns) :
    AxesEffect s t :=
  (AxesMove.elsewhere axes lanes patterns).effect

/-- An event that touches no hold timer. -/
theorem AxesEffect.of_timers_kept {s t : State} (axes : AxisLaw s → AxisLaw t)
    (timers : ∀ a, (t.axis a).holdTimer = (s.axis a).holdTimer) : AxesEffect s t :=
  ⟨axes, fun law a same => by rw [timers, ← same]; exact law a⟩

/-- An operation of a lane's work. -/
theorem AxesEffect.of_lane {s t : State} (frame : LaneFrame s t) (axes : AxisLaw s → AxisLaw t) : AxesEffect s t :=
  .of_timers_kept axes frame.timers

/-- With the hold timers settled the event keeps their law (R53). -/
theorem AxesEffect.settle {s t : State} (h : AxesEffect s t) : AxesMove s (settleHoldTimers s t) := by
  refine ⟨fun law => ?_, fun law => .settle (h.timers law)⟩
  have moved := h.axes law
  refine ⟨fun a => ?_, moved.tableLow, moved.tableHigh, moved.tableStates⟩
  have ok := moved.axes a
  rw [settleHoldTimers_axis_eq]
  exact ⟨ok.low, ok.high, ok.boundLow, ok.boundHigh, ok.freeReleased, ok.phase⟩

/-- A change of one axis. -/
theorem AxesEffect.setAxis {s : State} {a : AxisId} {x : Axis} (ok : AxisLaw s → AxisOk s.patterns x)
    (timer : HoldTimerLaw s → s.holdRuns a = (s.setAxis a x).holdRuns a → x.holdTimer.isSome = (s.setAxis a x).holdRuns a) :
    AxesEffect s (s.setAxis a x) := by
  refine ⟨fun law => law.setAxis (ok law), fun law b same => ?_⟩
  by_cases self : b = a
  · subst b; rw [State.axis_setAxis_self]; exact timer law same
  · rw [State.axis_setAxis_of_ne _ _ self, ← same]; exact law b

/-! ### Requests -/

/-- The request's effect, whatever its payload is. -/
def Meaning.MovesAxes (m : Meaning) : Prop := ∀ r s, AxesEffect s (m r s).1

theorem Meaning.MovesAxes.withLength {m : Meaning} (h : m.MovesAxes) (lo hi : Nat) : Meaning.MovesAxes (withLength lo hi m) := by
  intro r s
  unfold Machine.withLength; split
  · exact h r s
  · exact .refl s

theorem onLane_movesAxes {m : LaneId → Request → State → State × Reply} (h : ∀ l r s, AxesEffect s (m l r s).1) :
    Meaning.MovesAxes (onLane m) := by
  intro r s
  unfold onLane; split
  · exact h _ r s
  · exact .refl s

theorem onAxis_movesAxes {m : AxisId → Request → State → State × Reply} (h : ∀ a r s, AxesEffect s (m a r s).1) :
    Meaning.MovesAxes (onAxis m) := by
  intro r s
  unfold onAxis; split
  · exact h _ r s
  · exact .refl s

theorem setTick_movesAxes : Meaning.MovesAxes setTick := by
  intro r s
  unfold setTick takeExponent; dsimp only
  repeat' split
  all_goals exact .elsewhere rfl rfl rfl

theorem setLink_movesAxes : Meaning.MovesAxes setLink := by
  intro r s
  unfold setLink; dsimp only
  repeat' split
  all_goals exact .elsewhere rfl rfl rfl

/-- The windows that SET-AXIS admits lie within the widest one (R50, R58). -/
theorem axisSettingOf_bounds {p : List Byte} {w : AxisSetting} (h : axisSettingOf p = some w) :
    -boundMax ≤ w.windowMin ∧ w.windowMax ≤ boundMax := by
  unfold axisSettingOf at h
  simp only [Option.bind_eq_bind, Option.bind_eq_some_iff] at h
  obtain ⟨owner, -, mode, -, sense, -, homeLevel, -, homeDir, -, guard, -, h⟩ := h
  split at h
  · rename_i checked
    simp only [Bool.and_eq_true, decide_eq_true_eq] at checked
    obtain ⟨⟨low, high⟩, -⟩ := checked
    cases h; exact ⟨low, high⟩
  · cases h

/-- An axis that keeps its law keeps it under a setting whose window contains its position (R45, R46, R50). -/
theorem AxisOk.withSetting {s : State} {w : AxisSetting} {x : Axis} (ok : AxisOk s.patterns x) (table : 2 ≤ s.patterns.length)
    (bounds : -boundMax ≤ w.windowMin ∧ w.windowMax ≤ boundMax) (low : w.windowMin ≤ x.position)
    (high : x.position ≤ w.windowMax) : AxisOk s.patterns (x.withSetting s w) := by
  refine ⟨low, high, bounds.1, bounds.2, fun free => ?_, ?_⟩
  · have free : w.owner = none := free
    cases frees : w.frees x with
    | true => simp [Axis.withSetting, frees]
    | false =>
      have was : x.owner = none := by
        have := mt (w.frees_iff x).2 (Bool.eq_false_iff.1 frees)
        simpa [free] using this
      simpa [Axis.withSetting, frees] using ok.freeReleased was
  · change (if w.mode = x.mode then x.phase else 0) < patternLength s.patterns w.mode
    split
    · rename_i same; rw [same]; exact ok.phase
    · exact patternLength_pos table _

theorem setAxis_movesAxes : Meaning.MovesAxes setAxis := by
  intro r s
  unfold Machine.setAxis
  split
  · rename_i a w _ hw
    dsimp only
    split
    · exact .refl s
    split
    · exact .refl s
    · rename_i allows window
      simp only [Bool.not_eq_true', Bool.not_eq_false] at allows
      simp only [Bool.not_eq_true', Bool.not_eq_false, Bool.and_eq_true, decide_eq_true_eq] at window
      obtain ⟨low, high⟩ := window
      dsimp only
      rw [takeAxisSetting_eq allows]
      refine AxesMove.effect ⟨fun law => ?_, .withSetting allows⟩
      exact law.setAxis ((law.axes a).withSetting law.tableLow (axisSettingOf_bounds hw) low high)
  · exact .refl s

theorem setLane_movesAxes : Meaning.MovesAxes setLane := by
  refine onLane_movesAxes fun l r s => ?_
  dsimp only
  repeat' split
  · exact .refl s
  · exact .refl s
  · exact .of_lane (.setLane ..) fun law => law.congr rfl rfl

theorem passTriggerFilter_timers (n : TrgId) (s : State) (a : AxisId) :
    ((passTriggerFilter n s).axis a).holdTimer = (s.axis a).holdTimer := by
  rw [passTriggerFilter_triggerCaptured, (roleEffect_frame ..).timers, triggerCaptured_frame]; rfl

theorem takeLineSetting_axes (n : TrgId) (x : TrgLine) (s : State) : AxesEffect s (takeLineSetting n x s) := by
  have set : AxisLaw s → AxisLaw (s.setLine n x) := fun law => law.congr rfl rfl
  unfold takeLineSetting; dsimp only
  refine .of_timers_kept (fun law => .applyHold (.applyHold ?_ _) _) fun a => ((applyHolds_frame _).timers a).trans ?_
  · split
    · exact (set law).passTriggerFilter n
    · exact set law
  · split
    · exact passTriggerFilter_timers ..
    · rfl

theorem setLine_movesAxes : Meaning.MovesAxes setLine := by
  intro r s
  unfold setLine; dsimp only
  split
  · exact takeLineSetting_axes ..
  · exact .refl s

theorem takePattern_axis (table : List Nat) (s : State) (a : AxisId) : (takePattern table s).axis a =
    if (s.axis a).mode = .table then { s.axis a with phase := (s.axis a).phase % table.length } else s.axis a :=
  PerAxis.get_mapWith ..

/-- The indices of the TABLE axes are reduced modulo the new count (R46, R55, R57). -/
theorem AxisLaw.takePattern {s : State} (law : AxisLaw s) {table : List Nat} (low : 2 ≤ table.length) (high : table.length ≤ 16)
    (states : ∀ p ∈ table, p ≤ 15) : AxisLaw (takePattern table s) := by
  refine ⟨fun a => ?_, low, high, states⟩
  have ok := law.axes a
  change AxisOk table ((Machine.takePattern table s).axis a)
  rw [takePattern_axis]; split
  · rename_i mode
    refine ⟨ok.low, ok.high, ok.boundLow, ok.boundHigh, ok.freeReleased, ?_⟩
    dsimp only; rw [mode]; exact Nat.mod_lt _ (Nat.lt_of_lt_of_le Nat.zero_lt_two low)
  · rename_i mode
    have length : patternLength table (s.axis a).mode = patternLength s.patterns (s.axis a).mode := by
      cases e : (s.axis a).mode with
      | table => exact absurd e mode
      | wave | pair | half | pulse => rfl
    exact ⟨ok.low, ok.high, ok.boundLow, ok.boundHigh, ok.freeReleased, by rw [length]; exact ok.phase⟩

theorem takePattern_timers (table : List Nat) (s : State) (a : AxisId) :
    ((takePattern table s).axis a).holdTimer = (s.axis a).holdTimer := by
  rw [takePattern_axis]; split <;> rfl

theorem loadPattern_movesAxes : Meaning.MovesAxes loadPattern := by
  intro r s
  unfold loadPattern; dsimp only
  split
  · exact .refl s
  rename_i length
  split
  · exact .refl s
  rename_i fields
  split
  · exact .refl s
  simp only [Bool.or_eq_true, decide_eq_true_eq, List.any_eq_true, not_or, not_exists, not_and, not_lt] at fields
  obtain ⟨⟨low, high⟩, states⟩ := fields
  have count : (r.payload.tail.map BitVec.toNat).length = byteAt r.payload 0 := by
    rw [List.length_map, List.length_tail, not_not.1 length]; rfl
  exact .of_timers_kept (fun law => law.takePattern (by omega) (by omega) states) (takePattern_timers _ s)

theorem setPosition_movesAxes : Meaning.MovesAxes setPosition := by
  refine onAxis_movesAxes fun a r s => ?_
  dsimp only
  split
  · exact .refl s
  split
  · exact .refl s
  · rename_i inside
    simp only [Axis.inWindow, Bool.not_eq_true', Bool.not_eq_false, Bool.and_eq_true, decide_eq_true_eq] at inside
    obtain ⟨low, high⟩ := inside
    refine .setAxis (fun law => ?_) fun law same => by rw [← same]; exact law a
    have ok := law.axes a
    exact ⟨low, high, ok.boundLow, ok.boundHigh, ok.freeReleased, ok.phase⟩

/-- The lane of an axis whose settings may change executes nothing (R58). -/
theorem ownerExecutes_of_allows {s : State} {x : Axis} (h : s.ownerAllows x.owner = true) : s.ownerExecutes x = false := by
  unfold State.ownerExecutes; split
  · rename_i l ho; rw [ho] at h; exact executing_of_not_busy (by simpa [State.ownerAllows] using h)
  · rfl

theorem holdRuns_setAxis_self (s : State) (a : AxisId) (x : Axis) :
    (s.setAxis a x).holdRuns a = (x.energised && x.holdTime != 0 && !s.ownerExecutes x) := by
  unfold State.holdRuns; rw [State.axis_setAxis_self]; rfl

/-- A hold timer runs by the axis alone where the lane of the axis is not busy (R53). -/
theorem holdRuns_setAxis_of_allows {s : State} {a : AxisId} {x : Axis} (h : s.ownerAllows x.owner = true) :
    (s.setAxis a x).holdRuns a = (x.energised && x.holdTime != 0) := by
  rw [holdRuns_setAxis_self, ownerExecutes_of_allows h, Bool.not_false, Bool.and_true]

theorem energise_movesAxes : Meaning.MovesAxes energise := by
  refine onAxis_movesAxes fun a r s => ?_
  dsimp only
  split
  · exact .refl s
  rename_i allowed
  simp only [Bool.or_eq_true, decide_eq_true_eq, Bool.not_eq_true', not_or, Bool.not_eq_false] at allowed
  obtain ⟨owned, allows⟩ := allowed
  split
  · rename_i on
    refine .setAxis (fun law => ?_) fun _ _ => ?_
    · have ok := law.axes a
      exact ⟨ok.low, ok.high, ok.boundLow, ok.boundHigh, ok.freeReleased, ok.phase⟩
    · rw [holdRuns_setAxis_of_allows (by exact allows)]
      by_cases zero : (s.axis a).holdTime = 0 <;> simp [on, zero, State.holdStart]
  · refine .setAxis (fun law => ?_) fun law same => by rw [← same]; exact law a
    have ok := law.axes a
    exact ⟨ok.low, ok.high, ok.boundLow, ok.boundHigh, fun free => absurd free owned, ok.phase⟩

theorem AxisOk.released {patterns : List Nat} {x : Axis} (ok : AxisOk patterns x) : AxisOk patterns x.released :=
  ⟨ok.low, ok.high, ok.boundLow, ok.boundHigh, fun _ => rfl, ok.phase⟩

theorem HoldTimerLaw.released {s : State} (law : HoldTimerLaw s) (a : AxisId) : HoldTimerLaw (s.setAxis a (s.axis a).released) := by
  intro b
  by_cases self : b = a
  · subst b; rw [State.axis_setAxis_self, holdRuns_setAxis_self]; rfl
  · have runs : (s.setAxis a (s.axis a).released).holdRuns b = s.holdRuns b := by apply holdRuns_congr <;> simp [self]
    rw [State.axis_setAxis_of_ne _ _ self, runs]; exact law b

theorem AxesMove.released (s : State) (a : AxisId) : AxesMove s (s.setAxis a (s.axis a).released) :=
  ⟨fun law => law.setAxis (law.axes a).released, fun law => law.released a⟩

theorem release_movesAxes : Meaning.MovesAxes release := by
  refine onAxis_movesAxes fun a r s => ?_
  dsimp only
  split
  · exact .refl s
  split
  · exact (AxesMove.released s a).effect
  · exact .refl s

theorem queueSegment_movesAxes : Meaning.MovesAxes queueSegment := by
  intro r s
  have kept : ∀ l v, AxesEffect s (s.setLane l v) := fun l v => .of_lane (.setLane ..) fun law => law.congr rfl rfl
  unfold queueSegment; dsimp only
  split
  · exact .refl s
  split
  · exact .refl s
  repeat' split
  · exact .refl s
  · exact .refl s
  · exact .refl s
  · exact kept _ _
  · exact .refl s

theorem startLane_movesAxes : Meaning.MovesAxes startLane := by
  refine onLane_movesAxes fun l r s => ?_
  cases hs : (s.lane l).state with
  | ready => exact .of_lane (activate_frame ..) fun law => law.energises (activate_frame ..) (activate_energises ..)
  | idle | waiting | running | held | stopping | halted => exact .refl s

theorem makeCapture_patterns (src : CaptureSource) (edge : Option Edge) (s : State) : (makeCapture src edge s).patterns = s.patterns := by
  rw [makeCapture_frame]

theorem readCaptures_movesAxes : Meaning.MovesAxes readCaptures := by
  intro r s
  unfold readCaptures; dsimp only
  split <;> exact .elsewhere rfl rfl rfl

theorem fetchReport_movesAxes : Meaning.MovesAxes fetchReport := by
  intro r s
  unfold fetchReport fetchEffect
  repeat' split
  all_goals exact .elsewhere rfl rfl rfl

theorem ackReport_movesAxes : Meaning.MovesAxes ackReport := by
  intro r s
  unfold ackReport
  repeat' split
  all_goals exact .elsewhere rfl rfl rfl

/-- The executor's event: the request's effect with the hold timers settled, and the PENDING slot answered (R53, R156). -/
theorem AxesMove.takeRequest (row : Instr) (replyOf : Byte → Byte → List Byte → List Byte) {m : Meaning} (h : m.MovesAxes)
    (s : State) : AxesMove s (takeRequest row replyOf m s) := by
  unfold Machine.takeRequest
  split
  · split
    · split
      · exact .beginFrame (.elsewhere rfl rfl rfl)
      · exact .beginFrame ((h _ s).settle.congr rfl rfl rfl)
    · exact .refl s
  · exact .refl s

/-! ### The passing of time -/

theorem countTime_axis (tick mark : Bool) (s : State) (a : AxisId) : (countTime tick mark s).axis a =
    { s.axis a with
      holdTimer := if mark then countDown (s.axis a).holdTimer else (s.axis a).holdTimer
      home := (s.axis a).home.advance, pulse := countDown (s.axis a).pulse } := PerAxis.get_mapWith ..

/-- A timer that counts down runs on (R54). -/
theorem AxesMove.countTime (tick mark : Bool) (s : State) : AxesMove s (countTime tick mark s) := by
  have lane : ∀ l, ((Machine.countTime tick mark s).lane l).executing = (s.lane l).executing := fun l => by
    have e : (Machine.countTime tick mark s).lane l = { s.lane l with
        stepTimer := if tick then (s.lane l).stepTimer.tick else (s.lane l).stepTimer
        settleTimer := if mark then countDown (s.lane l).settleTimer else (s.lane l).settleTimer } := PerLane.get_mapWith ..
    rw [e]; rfl
  refine ⟨fun law => ⟨fun a => ?_, law.tableLow, law.tableHigh, law.tableStates⟩, fun law a => ?_⟩
  · have ok := law.axes a
    rw [countTime_axis]; exact ⟨ok.low, ok.high, ok.boundLow, ok.boundHigh, ok.freeReleased, ok.phase⟩
  · have runs : (Machine.countTime tick mark s).holdRuns a = s.holdRuns a := by
      exact holdRuns_congr a (by rw [countTime_axis]) (by rw [countTime_axis]) (by rw [countTime_axis]) lane
    rw [runs, countTime_axis, ← law a]
    exact countDown_isSome _ _

theorem AxesMove.advance (s : State) : AxesMove s (advance s) := by
  unfold Machine.advance
  split
  · exact .elsewhere rfl rfl rfl
  · have counted := AxesMove.countTime (s.time.advance.tickPhase = 0) (s.time.advance.msPhase = 0) { s with time := s.time.advance }
    exact ⟨fun law => counted.axes (law.congr rfl rfl), fun law => counted.timers (law.congr rfl rfl)⟩

/-! ### Device resets -/

theorem axisOk_atReset (l : LaneId) (level : Level) {patterns : List Nat} : AxisOk patterns (Axis.atReset l level) where
  low := show -boundMax ≤ 0 by decide
  high := show 0 ≤ boundMax by decide
  boundLow := Int.le_refl _
  boundHigh := Int.le_refl _
  freeReleased _ := rfl
  phase := Nat.succ_pos _

/-- Every axis right after a device reset is inside the widest window and RELEASED (R44, R188). -/
theorem AxesMove.of_reset {s t : State} {home : PerAxis Level} (patterns : t.patterns = [8, 12, 4, 6, 2, 3, 1, 9])
    (axes : t.axes = ⟨Axis.atReset .L0 home.a, Axis.atReset .L0 home.b, Axis.atReset .L1 home.c, Axis.atReset .L1 home.d⟩) :
    AxesMove s t := by
  have axis : ∀ a, ∃ l level, t.axis a = Axis.atReset l level := fun a => by
    rw [State.axis, axes]; cases a <;> exact ⟨_, _, rfl⟩
  refine ⟨fun _ => ⟨fun a => ?_, by rw [patterns]; decide, by rw [patterns]; decide, by rw [patterns]; decide⟩, fun _ a => ?_⟩
  · obtain ⟨l, level, e⟩ := axis a
    rw [e]; exact axisOk_atReset l level
  · obtain ⟨l, level, e⟩ := axis a
    unfold State.holdRuns; rw [e]; rfl

theorem AxesMove.beginReset (cause : ResetCause) (s t : State) : AxesMove s (beginReset cause t) :=
  .of_reset (home := homeLevels t) rfl rfl

theorem AxesMove.endReset (cause : ResetCause) (rate1 rate0 : Level) (s : State) : AxesMove s (endReset cause rate1 rate0 s) :=
  .of_reset (home := homeLevels s) rfl rfl

/-! ### Events of the link -/

theorem judgeFrame_patterns (len seq kind : Byte) (payload : List Byte) (high low : Byte) (s : State) :
    (judgeFrame len seq kind payload high low s).patterns = s.patterns := by
  unfold judgeFrame; dsimp only
  split
  · split <;> rfl
  · split
    · exact beginFrame_patterns _
    · rfl

theorem AxesMove.judgeFrame (len seq kind : Byte) (payload : List Byte) (high low : Byte) (s : State) :
    AxesMove s (judgeFrame len seq kind payload high low s) := by
  have kept := judgeFrame_kept len seq kind payload high low s
  exact .elsewhere kept.axes kept.lanes (judgeFrame_patterns ..)

theorem AxesMove.receiveByte (b : Byte) (s : State) : AxesMove s (receiveByte b s) := by
  have kept := receiveByte_kept b s
  refine .elsewhere kept.axes kept.lanes ?_
  unfold Machine.receiveByte
  split
  · split <;> rfl
  · split <;> rfl
  · rfl
  · rfl
  · rfl
  · rfl
  · exact judgeFrame_patterns ..

theorem AxesMove.takeRxd (level : Level) (s : State) : AxesMove s (takeRxd level s) := by
  cases level with
  | low => exact .elsewhere rfl rfl rfl
  | high =>
    unfold Machine.takeRxd; dsimp only
    split
    · exact .beginFrame (.elsewhere rfl rfl rfl)
    · exact .elsewhere rfl rfl rfl

/-- The end of a reply brings the transmitter's choice or a device reset (R135, R151, R164). -/
theorem AxesMove.afterReply {s t : State} (h : AxesMove s t) (after : AfterReply) : AxesMove s (afterReply t after) := by
  cases after with
  | nothing => exact h.beginFrame
  | changeRate rate => exact .beginFrame (h.congr rfl rfl rfl)
  | deviceReset => exact .beginReset .request s t

theorem AxesMove.endFrame (source : TxSource) (s : State) : AxesMove s (endFrame source s) := by
  cases source with
  | slot i =>
    unfold Machine.endFrame; dsimp only
    refine .afterReply ?_ _
    exact .elsewhere rfl rfl rfl
  | report number => exact .beginFrame (.elsewhere rfl rfl rfl)

/-! ### The commands -/

/-- The outcome is a next state, with such a change of the axes. -/
def AxesMoveTo (s : State) (o : Host.Outcome State Fault Refusal) : Prop := ∃ t, o = .next t ∧ AxesMove s t

section
variable {s : State}

theorem AxesMoveTo.request (row : Instr) {m : Meaning} (h : m.MovesAxes) : AxesMoveTo s (execRequest row m s) :=
  ⟨_, rfl, .takeRequest row _ h s⟩

/-- A request that names a lane and acts on it alone. -/
theorem AxesMoveTo.laneRequest (row : Instr) {f : LaneId → State → State} (frame : ∀ l s, LaneFrame s (f l s))
    (axes : ∀ l s, AxisLaw s → AxisLaw (f l s)) :
    AxesMoveTo s (execRequest row (withLength 1 1 (onLane fun l _ s => (f l s, Reply.only .ok))) s) :=
  .request row ((onLane_movesAxes fun l _ s => .of_lane (frame l s) (axes l s)).withLength 1 1)

variable {f : State → Option State}

theorem AxesMoveTo.onEvent (h : ∀ t, f s = some t → AxesEffect s t) : AxesMoveTo s (onEvent f s) := by
  refine ⟨_, rfl, ?_⟩
  split
  · rename_i t _ ht; exact (h t ht).settle.beginFrame
  · exact .refl s

theorem AxesMoveTo.onLinkEvent (h : ∀ t, f s = some t → AxesMove s t) : AxesMoveTo s (onLinkEvent f s) := by
  refine ⟨_, rfl, ?_⟩
  split
  · rename_i t _ ht; exact (h t ht).beginFrame
  · exact .refl s

theorem AxesMoveTo.onQuietEvent (h : ∀ t, f s = some t → AxesMove s t) : AxesMoveTo s (onQuietEvent f s) := by
  refine ⟨_, rfl, ?_⟩
  split
  · rename_i t _ ht; exact h t ht
  · exact .refl s

end

section
variable (s : State)

theorem AxesMoveTo.stepEvent (l : LaneId) : AxesMoveTo s (execStepEvent l s) := by
  refine .onEvent fun t h => ?_
  split at h
  · split at h
    · cases h; exact .of_lane (runMoveStep_frame ..) fun law => law.runMoveStep ..
    · cases h
  · cases h

theorem AxesMoveTo.inProgressStepEvent (l : LaneId) : AxesMoveTo s (execInProgressStepEvent l s) := by
  refine .onEvent fun t h => ?_
  split at h
  · exact holds_of_if h (.of_lane (runInProgressStep_frame ..) fun law => law.runInProgressStep ..)
  · cases h

theorem AxesMoveTo.stopRampStepEvent (l : LaneId) : AxesMoveTo s (execStopRampStepEvent l s) := by
  refine .onEvent fun t h => ?_
  split at h
  · obtain ⟨steps, -, rfl⟩ := Option.map_eq_some_iff.1 h
    exact .of_lane (runStopStep_frame ..) fun law => law.runStopStep ..
  · cases h

theorem AxesMoveTo.dwellIntervalExpiry (l : LaneId) : AxesMoveTo s (execDwellIntervalExpiry l s) := by
  refine .onEvent fun t h => ?_
  split at h
  · split at h
    · cases h; exact .of_lane (runDwell_frame ..) fun law => law.runDwell ..
    · cases h
  · cases h

theorem AxesMoveTo.homingStepEvent (l : LaneId) : AxesMoveTo s (execHomingStepEvent l s) := by
  refine .onEvent fun t h => ?_
  split at h
  · split at h
    · split at h
      · cases h
      · cases h; exact .of_lane (runHomingStep_frame ..) fun law => law.runHomingStep ..
    · cases h
  · cases h

theorem AxesMoveTo.homeLimitIntervalExpiry (l : LaneId) : AxesMoveTo s (execHomeLimitIntervalExpiry l s) := by
  refine .onEvent fun t h => ?_
  split at h
  · exact holds_of_if h (.of_lane (halt_frame ..) fun law => law.halt ..)
  · cases h

theorem AxesMoveTo.settleExpiry (l : LaneId) : AxesMoveTo s (execSettleExpiry l s) :=
  .onEvent fun _ h => holds_of_if h (.of_lane ((LaneFrame.setLane ..).trans (leaveIfMet_frame ..)) fun law =>
    (law.setLane l _).energises (leaveIfMet_frame ..) (leaveIfMet_energises ..))

theorem AxesMoveTo.syncTimeoutExpiry (l : LaneId) : AxesMoveTo s (execSyncTimeoutExpiry l s) := by
  refine .onEvent fun t h => ?_
  split at h
  · cases h; exact .of_lane ((LaneFrame.setSync ..).trans (halt_frame ..)) fun law => (law.setSync l _).halt ..
  · cases h

theorem AxesMoveTo.silenceExpiry : AxesMoveTo s (execSilenceExpiry s) := by
  refine .onEvent fun _ h => holds_of_if h (.of_timers_kept (fun law => ?_) fun a => ?_)
  · have stopped : AxisLaw s.silenceStopped := law.congr rfl rfl
    exact (stopped.silenceLane .L0).silenceLane .L1
  · exact ((silenceLane_frame .L1 _).1.timers a).trans ((silenceLane_frame .L0 s.silenceStopped).1.timers a)

theorem AxesMoveTo.triggerRawChange (n : TrgId) (level : Level) : AxesMoveTo s (execTriggerRawChange n level s) := by
  unfold execTriggerRawChange; split
  · refine .onEvent fun t h => ?_
    dsimp only at h
    split at h
    · cases h
    · cases h
      split
      · exact .of_timers_kept (fun law => (law.setLine n _).passTriggerFilter n) fun a => passTriggerFilter_timers n _ a
      · exact .elsewhere rfl rfl rfl
  · exact ⟨_, rfl, .elsewhere rfl rfl rfl⟩

theorem AxesMoveTo.triggerFilteredChange (n : TrgId) : AxesMoveTo s (execTriggerFilteredChange n s) :=
  .onEvent fun _ h => holds_of_if h (.of_timers_kept (fun law => law.passTriggerFilter n) (passTriggerFilter_timers n s))

/-- A change of a home line's filter alone. -/
theorem AxesEffect.setHome (a : AxisId) (f : InputFilter) : AxesEffect s (s.setAxis a { s.axis a with home := f }) :=
  .of_lane (.setAxis rfl) fun law => law.setHome a f

theorem AxesMoveTo.homeRawChange (a : AxisId) (level : Level) : AxesMoveTo s (execHomeRawChange a level s) := by
  unfold execHomeRawChange; split
  · refine .onEvent fun t h => ?_
    dsimp only at h
    split at h
    · cases h
    · cases h
      split
      · have raw : LaneFrame s (s.setAxis a { s.axis a with home := (s.axis a).home.rawChange level }) := .setAxis rfl
        exact .of_lane (raw.trans (passHomeFilter_frame ..)) fun law => (law.setHome a _).passHomeFilter a
      · exact .setHome s a _
  · refine ⟨_, rfl, (AxesEffect.setHome s a _).axes, fun law => ?_⟩
    have runs := holdRuns_setAxis (s := s) (a := a) (x := { s.axis a with home := { (s.axis a).home with raw := level } }) rfl rfl rfl
    exact fun b => (AxesEffect.setHome s a _).timers law b (runs b)

theorem AxesMoveTo.homeFilteredChange (a : AxisId) : AxesMoveTo s (execHomeFilteredChange a s) :=
  .onEvent fun _ h => holds_of_if h (.of_lane (passHomeFilter_frame a s) fun law => law.passHomeFilter a)

theorem AxesMoveTo.pulseEnd (a : AxisId) : AxesMoveTo s (execPulseEnd a s) := by
  have ended : AxesEffect s (s.setAxis a { s.axis a with pulse := none }) := .of_lane (.setAxis rfl) fun law =>
    have ok := law.axes a
    law.setAxis ⟨ok.low, ok.high, ok.boundLow, ok.boundHigh, ok.freeReleased, ok.phase⟩
  have runs := holdRuns_setAxis (s := s) (a := a) (x := { s.axis a with pulse := none }) rfl rfl rfl
  exact .onQuietEvent fun _ h => holds_of_if h ⟨ended.axes, fun law b => ended.timers law b (runs b)⟩

theorem AxesMoveTo.holdTimerExpiry (a : AxisId) : AxesMoveTo s (execHoldTimerExpiry a s) :=
  .onQuietEvent fun _ h => holds_of_if h (.released s a)

theorem AxesMoveTo.framingError : AxesMoveTo s (execFramingError s) :=
  .onQuietEvent fun _ h => holds_of_if h (.elsewhere rfl rfl rfl)

theorem AxesMoveTo.lenOver200 (len : Byte) : AxesMoveTo s (execLenOver200 len s) :=
  .onQuietEvent fun _ h => holds_of_if h (.elsewhere rfl rfl rfl)

theorem AxesMoveTo.gapExpiry : AxesMoveTo s (execGapExpiry s) :=
  .onQuietEvent fun _ h => holds_of_if h (.elsewhere rfl rfl rfl)

theorem AxesMoveTo.linkBreak : AxesMoveTo s (execLinkBreak s) :=
  .onQuietEvent fun _ h => holds_of_if h (.elsewhere rfl rfl rfl)

theorem AxesMoveTo.byteArrival (byte : Byte) : AxesMoveTo s (execByteArrival byte s) :=
  .onQuietEvent fun _ h => holds_of_if h (.receiveByte byte s)

theorem AxesMoveTo.frameReceived (low : Byte) : AxesMoveTo s (execFrameReceived low s) := by
  refine .onQuietEvent fun t h => ?_
  split at h
  · cases h; exact .judgeFrame ..
  · cases h

theorem AxesMoveTo.frameSent : AxesMoveTo s (execFrameSent s) := by
  refine .onQuietEvent fun t h => ?_
  split at h
  · cases h; exact .endFrame ..
  · cases h

theorem AxesMoveTo.rxdLevelChange (level : Level) : AxesMoveTo s (execRxdLevelChange level s) := by
  refine ⟨_, rfl, ?_⟩
  split
  · split
    · exact .refl s
    · exact .takeRxd level s
  · exact .elsewhere rfl rfl rfl

theorem AxesMoveTo.resendTimerExpiry : AxesMoveTo s (execResendTimerExpiry s) :=
  .onLinkEvent fun _ h => holds_of_if h (.elsewhere rfl rfl rfl)

theorem AxesMoveTo.rstnLow : AxesMoveTo s (execRstnLow s) := by
  refine ⟨_, rfl, ?_⟩
  dsimp only
  split
  · exact .beginReset .pin s _
  · exact .elsewhere rfl rfl rfl

theorem AxesMoveTo.deviceResetEnd (rate1 rate0 : Level) : AxesMoveTo s (execDeviceResetEnd rate1 rate0 s) := by
  refine ⟨_, rfl, ?_⟩
  split
  · exact .refl s
  · exact .beginFrame (.endReset ..)

end

theorem exec_axesMove (c : Instr) (s : State) : AxesMoveTo s (exec c s) := by
  cases c with
  | ping => exact .request _ (Meaning.MovesAxes.withLength (m := ping) (fun _ s => .refl s) 0 200)
  | identify => exact .request _ (.withLength (fun _ s => .refl s) 0 0)
  | setLink => exact .request _ (setLink_movesAxes.withLength 6 6)
  | restart => exact .request _ (.withLength (fun _ _ => .elsewhere rfl rfl rfl) 0 0)
  | setTick => exact .request _ (setTick_movesAxes.withLength 1 1)
  | setAxis => exact .request _ (setAxis_movesAxes.withLength 18 18)
  | setLane => exact .request _ (setLane_movesAxes.withLength 9 9)
  | setLine => exact .request _ (setLine_movesAxes.withLength 7 7)
  | loadPattern => exact .request _ (loadPattern_movesAxes.withLength 1 200)
  | setPosition => exact .request _ (setPosition_movesAxes.withLength 5 5)
  | energise => exact .request _ (energise_movesAxes.withLength 1 1)
  | release => exact .request _ (release_movesAxes.withLength 1 1)
  | queueSegment => exact .request _ (queueSegment_movesAxes.withLength 9 32)
  | startLane => exact .request _ (startLane_movesAxes.withLength 1 1)
  | stopLane => exact .laneRequest _ stopLaneEffect_frame fun l s law => law.stopLaneEffect l
  | abortLane => exact .laneRequest _ (fun l s => halt_frame l ⟨.abort, none⟩ s) fun l s law => law.halt l _
  | holdLane =>
    exact .laneRequest _ (fun l s => (LaneFrame.setLane ..).trans (applyHold_frame l _)) fun l s law =>
      (law.setLane l _).applyHold l
  | resumeLane =>
    exact .laneRequest _ (fun l s => (LaneFrame.setLane ..).trans (applyHold_frame l _)) fun l s law =>
      (law.setLane l _).applyHold l
  | clearLane =>
    exact .laneRequest _ clearLaneEffect_frame fun l s law =>
      law.lane_still (clearLaneEffect_frame l s) (by unfold clearLaneEffect; split <;> rfl)
  | readLane => exact .request _ ((onLane_movesAxes fun _ _ s => .refl s).withLength 1 1)
  | readAxis => exact .request _ ((onAxis_movesAxes fun _ _ s => .refl s).withLength 1 1)
  | readLines => exact .request _ (.withLength (fun _ s => .refl s) 0 0)
  | mark =>
    refine .request _ (.withLength (fun _ s => ?_) 0 0)
    have kept := makeCapture_kept .host none s
    exact .elsewhere kept.axes kept.lanes (makeCapture_patterns .host none s)
  | readCaptures => exact .request _ (readCaptures_movesAxes.withLength 1 1)
  | fetchReport => exact .request _ (fetchReport_movesAxes.withLength 0 0)
  | ackReport => exact .request _ (ackReport_movesAxes.withLength 1 1)
  | unknownKindRequest => exact ⟨_, rfl, .takeRequest _ _ (fun _ s => .refl s) s⟩
  | frameReceived low => exact .frameReceived s low
  | framingError => exact .framingError s
  | lenOver200 len => exact .lenOver200 s len
  | gapExpiry => exact .gapExpiry s
  | linkBreak => exact .linkBreak s
  | frameBegin => exact .onLinkEvent fun t h => by cases h; exact .refl s
  | frameSent => exact .frameSent s
  | powerOn => exact ⟨_, rfl, .beginReset .power s s⟩
  | rstnLow => exact .rstnLow s
  | deviceResetEnd rate1 rate0 => exact .deviceResetEnd s rate1 rate0
  | stepEvent l => exact .stepEvent s l
  | inProgressStepEvent l => exact .inProgressStepEvent s l
  | stopRampStepEvent l => exact .stopRampStepEvent s l
  | dwellIntervalExpiry l => exact .dwellIntervalExpiry s l
  | homingStepEvent l => exact .homingStepEvent s l
  | homeLimitIntervalExpiry l => exact .homeLimitIntervalExpiry s l
  | settleExpiry l => exact .settleExpiry s l
  | holdTimerExpiry a => exact .holdTimerExpiry s a
  | syncTimeoutExpiry l => exact .syncTimeoutExpiry s l
  | silenceExpiry => exact .silenceExpiry s
  | resendTimerExpiry => exact .resendTimerExpiry s
  | triggerRawChange n level => exact .triggerRawChange s n level
  | triggerFilteredChange n => exact .triggerFilteredChange s n
  | homeRawChange a level => exact .homeRawChange s a level
  | homeFilteredChange a => exact .homeFilteredChange s a
  | pulseEnd a => exact .pulseEnd s a
  | byteArrival byte => exact .byteArrival s byte
  | rxdLevelChange level => exact .rxdLevelChange s level

/-! ### Every step -/

/-- A command run off the queue or a free choice counted is no change of the axes. -/
theorem AxesMove.after {s u t : State} (h : AxesMove u t) (axes : u.axes = s.axes) (lanes : u.lanes = s.lanes)
    (patterns : u.patterns = s.patterns) : AxesMove s t :=
  have same := AxesMove.elsewhere axes lanes patterns
  ⟨h.axes ∘ same.axes, h.timers ∘ same.timers⟩

theorem step_axesMove {s t : State} (h : step s = .next t) : AxesMove s t := by
  cases hp : s.pending with
  | cons c rest =>
    obtain ⟨u, e, move⟩ := exec_axesMove c { s with pending := rest }
    rw [step_of_pending_cons hp, e] at h; cases h
    exact move.after rfl rfl rfl
  | nil =>
    obtain ⟨count, row, -, hs⟩ := step_idle hp
    rw [hs] at h
    cases row with
    | some c =>
      obtain ⟨u, e, move⟩ := exec_axesMove c { s with freeCount := count }
      dsimp only at h
      rw [e] at h; cases h
      exact move.after rfl rfl rfl
    | none =>
      cases h
      exact (AxesMove.advance { s with freeCount := count }).after rfl rfl rfl

/-- Settles O57: each command keeps the law of the axes, and touches no hold timer whose conditions it leaves as they were, so that
with the timers settled their law holds too. -/
theorem axisLawsKept : Obligations.AxisLawsKept := by
  intro s t h
  have move := step_axesMove h
  exact ⟨move.axes, move.timers⟩

end Sys2Proof.Machine
end

section
/-! PROOF. The requests that change the axis units and the pattern table: their checks in order, and what they leave. -/

namespace Sys2Proof.Machine

open Sys2Proof

/-- An axis code in the first byte of a payload reaches its axis. -/
theorem onAxis_of_code {m : AxisId → Request → State → State × Reply} {r : Request} {s : State} {a : AxisId}
    (h : byteAt r.payload 0 = AxisId.code a) : onAxis m r s = m a r s := by
  unfold onAxis; rw [h, axisOfCode_code]

/-- An axis code above 3 is refused with BAD-FIELD. -/
theorem onAxis_of_bad {m : AxisId → Request → State → State × Reply} {r : Request} {s : State} (h : 3 < byteAt r.payload 0) :
    onAxis m r s = (s, Reply.only .badField) := by
  unfold onAxis; rw [axisOfCode_none h]

/-- The lane states leave the axis open exactly while its lane is not busy. -/
theorem ownerAllows_of_not_busy {s : State} {x : Option LaneId}
    (h : ¬∃ l, x = some l ∧ (s.lane l).state ∈ [LaneState.waiting, .running, .held, .stopping]) : s.ownerAllows x = true := by
  have := mt (ownerAllows_iff s x).1 h
  rwa [Bool.not_eq_false] at this

theorem Axis.inWindow_iff (x : Axis) (z : Int) : x.inWindow z = true ↔ x.windowMin ≤ z ∧ z ≤ x.windowMax := by
  rw [Axis.inWindow, Bool.and_eq_true, decide_eq_true_eq, decide_eq_true_eq]

/-! ### SET-POSITION -/

/-- SET-POSITION for axis `a`, by its checks in order (R60). -/
theorem setPosition_eq {r : Request} {s : State} {a : AxisId} {axis b3 b2 b1 b0 : Byte} (hp : r.payload = [axis, b3, b2, b1, b0])
    (ha : axis.toNat = AxisId.code a) : withLength 5 5 setPosition r s =
      if s.ownerAllows (s.axis a).owner = false then (s, Reply.only .badState)
      else if (s.axis a).inWindow (word32 b3 b2 b1 b0) = false then (s, Reply.only .window)
      else (s.setAxis a { s.axis a with position := word32 b3 b2 b1 b0 }, Reply.only .ok) := by
  rw [withLength_eq (by rw [hp]; simp) (by rw [hp]; simp), setPosition, onAxis_of_code (by rw [hp]; exact ha)]
  have value : i32At r.payload 1 = word32 b3 b2 b1 b0 := by rw [hp]; exact i32At_eq_word32 _ _ _ _ _ _ rfl rfl rfl rfl
  simp only [value, Bool.not_eq_true']

/-- Settles O11: each branch of `setPosition_eq`, where a preset starts and stops no hold timer. -/
theorem setPositionChecksAndTakes : Obligations.SetPositionChecksAndTakes := by
  intro s i o r axis b3 b2 b1 b0 h hp
  refine ⟨fun haxis => ?_, fun a ha => ⟨fun busy => ?_, fun open' outside => ?_, fun open' low high => ?_⟩⟩
  · refine answered_status h (status := .badField) ?_
    rw [withLength_eq (by rw [hp]; simp) (by rw [hp]; simp)]
    exact onAxis_of_bad (by rw [hp]; exact haxis)
  · refine answered_status h (status := .badState) ?_
    rw [setPosition_eq hp ha, if_pos ((ownerAllows_iff ..).2 busy)]
  · refine answered_status h (status := .window) ?_
    have fails : (s.axis a).inWindow (word32 b3 b2 b1 b0) = false := by
      rw [Bool.eq_false_iff, ne_eq, Axis.inWindow_iff]; omega
    rw [setPosition_eq hp ha, if_neg (mt (ownerAllows_iff ..).1 open'), if_pos fails]
  · refine answered_runs h _ (p := Reply.only .ok) ?_ rfl (holdRuns_setAxis rfl rfl rfl) rfl
    have inside := ((s.axis a).inWindow_iff (word32 b3 b2 b1 b0)).2 ⟨low, high⟩
    rw [setPosition_eq hp ha, if_neg (mt (ownerAllows_iff ..).1 open'), if_neg (by rw [inside]; simp)]

/-! ### ENERGISE and RELEASE -/

/-- ENERGISE for axis `a`, by its checks in order (R61). -/
theorem energise_eq {r : Request} {s : State} {axis : Byte} {a : AxisId} (hp : r.payload = [axis]) (ha : axis.toNat = AxisId.code a) :
    withLength 1 1 energise r s =
      if (s.axis a).owner = none ∨ s.ownerAllows (s.axis a).owner = false then (s, Reply.only .badState)
      else if (s.axis a).energised then
        (s.setAxis a { s.axis a with holdTimer := if (s.axis a).holdTime = 0 then none else s.holdStart (s.axis a) }, Reply.only .ok)
      else (s.setAxis a { s.axis a with energised := true }, Reply.only .ok) := by
  rw [energise, onAxis_code hp ha]
  simp only [Bool.or_eq_true, decide_eq_true_eq, Bool.not_eq_true']

/-- RELEASE for axis `a`, by its check (R62). -/
theorem release_eq {r : Request} {s : State} {axis : Byte} {a : AxisId} (hp : r.payload = [axis]) (ha : axis.toNat = AxisId.code a) :
    withLength 1 1 release r s =
      if s.ownerAllows (s.axis a).owner = false then (s, Reply.only .badState)
      else if (s.axis a).energised then (s.setAxis a (s.axis a).released, Reply.only .ok)
      else (s, Reply.only .ok) := by
  rw [release, onAxis_code hp ha]
  simp only [Bool.not_eq_true']

/-- A RELEASED axis of a lane that is not busy has its hold timer started with its energising, where its hold time is not 0 (R53). -/
theorem settleHoldTimers_energise {s : State} (law : HoldTimerLaw s) {a : AxisId} (off : (s.axis a).energised = false)
    (allows : s.ownerAllows (s.axis a).owner = true) :
    settleHoldTimers s (s.setAxis a { s.axis a with energised := true }) = s.setAxis a { s.axis a with
      energised := true, holdTimer := if (s.axis a).holdTime = 0 then none else some (s.msFor (s.axis a).holdTime) } := by
  have before : s.holdRuns a = false := by rw [State.holdRuns, off]; rfl
  have stopped : (s.axis a).holdTimer = none := by
    have := law a; rwa [before, Option.isSome_eq_false_iff, Option.isNone_iff_eq_none] at this
  apply settleHoldTimers_setAxis
  rw [before, holdRuns_setAxis_of_allows (by exact allows)]
  by_cases zero : (s.axis a).holdTime = 0
  · simp [zero, stopped]
  · have runs : (true && (s.axis a).holdTime != 0) = true := by simpa using zero
    rw [if_neg zero, runs]; rfl

/-- A release stops the hold timer of its axis, whatever its conditions were (R52, R53). -/
theorem settleHoldTimers_released (s : State) (a : AxisId) :
    settleHoldTimers s (s.setAxis a (s.axis a).released) = s.setAxis a (s.axis a).released := by
  apply settleHoldTimers_setAxis
  rw [holdRuns_setAxis_self]
  cases s.holdRuns a <;> rfl

theorem coilState_of_released {s : State} {a : AxisId} (h : (s.axis a).energised = false) : s.coilState a = 0 := by
  rw [State.coilState, Axis.coilState, h]; rfl

/-- Settles O12: each branch of `energise_eq` and of `release_eq`, with the hold timer that settles with it. -/
theorem energiseAndReleaseAct : Obligations.EnergiseAndReleaseAct := by
  intro s i o r axis hp
  refine ⟨fun h law => ⟨fun haxis => ?_, fun a ha => ⟨fun refused => ?_, fun takes => ?_⟩⟩,
    fun h => ⟨fun haxis => ?_, fun a ha => ⟨fun busy => ?_, fun open' off => ?_, fun open' on => ⟨?_, ?_⟩⟩⟩⟩
  · exact answered_status h (status := .badField) (onAxis_bad hp haxis)
  · refine answered_status h (status := .badState) ?_
    rw [energise_eq hp ha, if_pos (refused.imp_right (ownerAllows_iff ..).2)]
  · have checks := mt (Or.imp_right (ownerAllows_iff s (s.axis a).owner).1) takes
    have allows := ownerAllows_of_not_busy (s := s) (not_or.1 takes).2
    cases energised : (s.axis a).energised with
    | true =>
      have runs := holdRuns_setAxis (s := s) (a := a) (x := { s.axis a with
        energised := true, holdTimer := if (s.axis a).holdTime = 0 then none else some (s.msFor (s.axis a).holdTime) })
        energised.symm rfl rfl
      refine answered_runs h _ (p := Reply.only .ok) ?_ rfl runs rfl
      rw [energise_eq hp ha, if_neg checks, if_pos energised, ← energised]; rfl
    | false =>
      rw [← settleHoldTimers_energise law energised allows]
      refine answered_settle h _ (p := Reply.only .ok) ?_ rfl rfl
      rw [energise_eq hp ha, if_neg checks, if_neg (by rw [energised]; simp)]
  · exact answered_status h (status := .badField) (onAxis_bad hp haxis)
  · refine answered_status h (status := .badState) ?_
    rw [release_eq hp ha, if_pos ((ownerAllows_iff ..).2 busy)]
  · refine answered_status h (status := .ok) ?_
    rw [release_eq hp ha, if_neg (mt (ownerAllows_iff ..).1 open'), if_neg (by rw [off]; simp)]
  · have released := release_eq (s := s) hp ha
    rw [if_neg (mt (ownerAllows_iff ..).1 open'), if_pos on] at released
    refine (answered_settle h _ (p := Reply.only .ok) released rfl rfl).trans ?_
    rw [settleHoldTimers_released]; rfl
  · refine coilState_of_released ?_
    change ((s.setAxis a (s.axis a).released).axis a).energised = false
    rw [State.axis_setAxis_self]; rfl

/-! ### LOAD-PATTERN -/

/-- LOAD-PATTERN, by its checks in order (R56). -/
theorem loadPattern_eq {r : Request} {s : State} {count : Byte} {table : List Byte} (hp : r.payload = count :: table)
    (hl : r.payload.length ≤ 200) : withLength 1 200 loadPattern r s =
      if table.length ≠ count.toNat then (s, Reply.only .badLength)
      else if count.toNat < 2 ∨ 16 < count.toNat ∨ ∃ b ∈ table, 15 < b.toNat then (s, Reply.only .badField)
      else if s.tableBusy then (s, Reply.only .badState)
      else (takePattern (table.map BitVec.toNat) s, Reply.only .ok) := by
  rw [withLength_eq (by rw [hp]; simp) hl, loadPattern]
  have first : byteAt r.payload 0 = count.toNat := by rw [hp]; rfl
  have states : r.payload.tail = table := by rw [hp]; rfl
  have length : r.payload.length ≠ count.toNat + 1 ↔ table.length ≠ count.toNat := by rw [hp, List.length_cons]; omega
  simp only [first, states, length, Bool.or_eq_true, decide_eq_true_eq, List.any_map, List.any_eq_true, Function.comp_apply, or_assoc]

/-- The new table with the axes written out (R57). -/
theorem takePattern_reduced {s : State} {table : List Byte} {n : Nat} (length : table.length = n) :
    let reduced := fun a : AxisId =>
      if (s.axis a).mode = .table then { s.axis a with phase := (s.axis a).phase % n } else s.axis a
    takePattern (table.map BitVec.toNat) s =
      { s with patterns := table.map BitVec.toNat, axes := ⟨reduced .A, reduced .B, reduced .C, reduced .D⟩ } := by
  rw [takePattern, List.length_map, length]; rfl

/-- The reduction of an index starts and stops no hold timer. -/
theorem holdRuns_takePattern (table : List Nat) (s : State) (a : AxisId) : s.holdRuns a = (takePattern table s).holdRuns a := by
  refine holdRuns_congr a ?_ ?_ ?_ fun _ => rfl <;> (rw [takePattern_axis]; split <;> rfl)

/-- In every mode but PULSE an ENERGISED axis shows the state of its pattern at its index (R46, R55). -/
theorem coilState_of_pattern {s : State} {a : AxisId} {mode : DriveMode} (on : (s.axis a).energised = true)
    (hm : (s.axis a).mode = mode) (steps : mode ≠ .pulse) :
    s.coilState a = (pattern s.patterns mode).getD (s.axis a).phase 0 := by
  rw [State.coilState, Axis.coilState, hm, if_neg (by rw [on]; decide), if_neg steps]

/-- Under the new table the coil state of an ENERGISED TABLE axis is the one at its reduced index (R57). -/
theorem coilState_takePattern {s : State} {a : AxisId} {table : List Byte} {n : Nat} (on : (s.axis a).energised = true)
    (mode : (s.axis a).mode = .table) (length : table.length = n) :
    (takePattern (table.map BitVec.toNat) s).coilState a = (table.getD ((s.axis a).phase % n) 0).toNat := by
  have axis := takePattern_axis (table.map BitVec.toNat) s a
  rw [if_pos mode, List.length_map, length] at axis
  rw [coilState_of_pattern (mode := .table) (by rw [axis]; exact on) (by rw [axis]; exact mode) (by decide), axis]
  exact List.getD_map table (0 : Byte) BitVec.toNat

/-- Settles O13: each branch of `loadPattern_eq`; a reduced index keeps every hold timer. -/
theorem loadPatternChecksAndTakes : Obligations.LoadPatternChecksAndTakes := by
  intro s i o r count table h hp hl
  refine ⟨fun length => ?_, fun length bad => ?_, fun length good busy => ?_, fun length good open' => ⟨?_, fun a mode on => ?_⟩⟩
  · refine answered_status h (status := .badLength) ?_
    rw [loadPattern_eq hp hl, if_pos length]
  · refine answered_status h (status := .badField) ?_
    rw [loadPattern_eq hp hl, if_neg (not_not.2 length), if_pos bad]
  · refine answered_status h (status := .badState) ?_
    rw [loadPattern_eq hp hl, if_neg (not_not.2 length), if_neg good, if_pos ((tableBusy_iff s).2 busy)]
  · have taken := loadPattern_eq (s := s) hp hl
    rw [if_neg (not_not.2 length), if_neg good, if_neg (mt (tableBusy_iff s).1 open')] at taken
    refine (answered_runs h _ (p := Reply.only .ok) taken rfl (holdRuns_takePattern _ s) rfl).trans ?_
    rw [takePattern_reduced length]; rfl
  · exact (congrArg (·.coilState a) (takePattern_reduced (s := s) length).symm).trans (coilState_takePattern on mode length)

/-! ### SET-AXIS -/

/-- SET-AXIS with the payload of a setting, by its checks in order (R58). -/
theorem setAxis_eq {r : Request} {s : State} {a : AxisId} {w : AxisSetting} (admitted : w.Admitted)
    (hp : r.payload = AxisSetting.payload a w) : setAxis r s =
      if axisStateAllows s (s.axis a) w = false then (s, Reply.only .badState)
      else if ¬(w.windowMin ≤ (s.axis a).position ∧ (s.axis a).position ≤ w.windowMax) then (s, Reply.only .window)
      else (takeAxisSetting a w s, Reply.only .ok) := by
  obtain ⟨axis, setting⟩ := axisSettingOf_payload a w admitted
  unfold setAxis
  rw [hp, axis, setting]
  simp only [Bool.not_eq_true', ← Bool.decide_and, decide_eq_false_iff_not]

/-- Settles O14: a payload of SET-AXIS is read back as the axis and the setting it was made from; then each branch of `setAxis_eq`. -/
theorem setAxisRefusals : Obligations.SetAxisRefusals := by
  intro s i o r h hl
  have answer : ∀ {status : Status}, setAxis r s = (s, Reply.only status) →
      exec .setAxis s = .next (answeredWith s i o r status.code []) := fun hm =>
    answered_status h (by rw [withLength_eq (Nat.le_of_eq hl.symm) (Nat.le_of_eq hl)]; exact hm)
  refine ⟨fun noSetting => answer (status := .badField) ?_, fun a w admitted hp => ⟨fun barred => ?_, fun open' outside => ?_⟩⟩
  · unfold setAxis
    split
    · rename_i a w ha hw
      obtain ⟨admitted, hp⟩ := payload_of_axisSettingOf _ hl a w ha hw
      exact absurd hp (noSetting a w admitted)
    · rfl
  · refine answer (status := .badState) ?_
    rw [setAxis_eq admitted hp, if_pos ((axisStateAllows_iff ..).2 barred)]
  · refine answer (status := .window) ?_
    rw [setAxis_eq admitted hp, if_neg (mt (axisStateAllows_iff ..).1 open'), if_pos (by omega)]

/-- Under a new setting a hold timer that runs and did not run before has just started (R53). -/
theorem Axis.holdTimer_withSetting_of_stopped {s : State} {w : AxisSetting} {x : Axis} (stopped : x.holdTimer = none)
    (runs : (x.withSetting s w).holdTimer.isSome = true) : (x.withSetting s w).holdTimer = some (s.msFor w.holdTime) := by
  have timer : (x.withSetting s w).holdTimer = if w.frees x then none else
      if x.energised && w.restarts x then (if w.holdTime = 0 then none else some (s.msFor w.holdTime)) else x.holdTimer := rfl
  rw [timer] at runs ⊢
  split at runs
  · cases runs
  split at runs
  · split at runs
    · cases runs
    · rename_i frees starts nonzero; rw [if_neg frees, if_pos starts, if_neg nonzero]
  · rw [stopped] at runs; cases runs

/-- The setting starts and stops the hold timer of its axis itself, so that none is left to settle. -/
theorem settleHoldTimers_withSetting {s : State} {a : AxisId} {w : AxisSetting}
    (allows : axisStateAllows s (s.axis a) w = true) (law : HoldTimerLaw s) :
    settleHoldTimers s (s.setAxis a ((s.axis a).withSetting s w)) = s.setAxis a ((s.axis a).withSetting s w) := by
  have before := law a
  have after := HoldTimerLaw.withSetting allows law a
  rw [State.axis_setAxis_self] at after
  apply settleHoldTimers_setAxis
  cases was : s.holdRuns a with
  | false =>
    cases is : (s.setAxis a ((s.axis a).withSetting s w)).holdRuns a with
    | false => rfl
    | true =>
      rw [is] at after
      rw [was, Option.isSome_eq_false_iff, Option.isNone_iff_eq_none] at before
      have starts := Axis.holdTimer_withSetting_of_stopped before after
      exact congrArg (fun timer => { (s.axis a).withSetting s w with holdTimer := timer }) starts.symm
  | true =>
    cases is : (s.setAxis a ((s.axis a).withSetting s w)).holdRuns a with
    | false =>
      rw [is, Option.isSome_eq_false_iff, Option.isNone_iff_eq_none] at after
      exact congrArg (fun timer => { (s.axis a).withSetting s w with holdTimer := timer }) after.symm
    | true => rfl

/-- An axis that ends up RELEASED has no hold timer running (R53). -/
theorem Axis.holdTimer_withSetting_released {s : State} {a : AxisId} {w : AxisSetting}
    (allows : axisStateAllows s (s.axis a) w = true) (law : HoldTimerLaw s)
    (off : ((s.axis a).withSetting s w).energised = false) : ((s.axis a).withSetting s w).holdTimer = none := by
  have runs := HoldTimerLaw.withSetting allows law a
  rwa [State.axis_setAxis_self, holdRuns_setAxis_self, off, Bool.false_and, Bool.false_and, Option.isSome_eq_false_iff,
    Option.isNone_iff_eq_none] at runs

/-- An axis that is ENERGISED under the new setting was so before it, and has not been moved to FREE. -/
theorem Axis.energised_withSetting_iff (s : State) (w : AxisSetting) (x : Axis) :
    (x.withSetting s w).energised = true ↔ w.frees x = false ∧ x.energised = true := by
  change (if w.frees x then false else x.energised) = true ↔ _
  cases w.frees x <;> simp

/-- Settles O15: the axis is `Axis.withSetting`, whose fields are read off one by one. -/
theorem setAxisTakes : Obligations.SetAxisTakes := by
  intro s i o r a w h hp admitted law
  dsimp only
  intro sides settings low high
  have length : r.payload.length = 18 := by rw [hp, AxisSetting.payload_bytes]; rfl
  have allows : axisStateAllows s (s.axis a) w = true := by
    rw [← Bool.not_eq_false, axisStateAllows_iff]
    rintro (⟨moves, closed⟩ | ⟨changes, busy⟩)
    · exact sides.elim moves fun ⟨was, is⟩ => closed.elim was is
    · exact settings.elim changes fun still => still busy
  refine ⟨(s.axis a).withSetting s w, ?_, rfl, rfl, rfl, rfl, ?_, ?_, ?_, fun on changes => ?_, fun on owner time => ?_,
    Axis.holdTimer_withSetting_released allows law⟩
  · rw [← settleHoldTimers_withSetting allows law]
    refine answered_settle h _ (p := Reply.only .ok) ?_ rfl rfl
    rw [withLength_eq (Nat.le_of_eq length.symm) (Nat.le_of_eq length), setAxis_eq admitted hp, if_neg (by rw [allows]; simp),
      if_neg (not_not.2 ⟨low, high⟩), takeAxisSetting_eq allows]
  · exact if_congr (w.frees_iff _) rfl rfl
  · change (if w.frees (s.axis a) then none else if w.mode = (s.axis a).mode then (s.axis a).pulse else none) = _
    by_cases frees : w.frees (s.axis a) = true
    · rw [if_pos frees, if_pos (.inl ((w.frees_iff _).1 frees))]
    · rw [if_neg frees]
      have kept := mt (w.frees_iff _).2 frees
      by_cases same : w.mode = (s.axis a).mode
      · rw [if_pos same, if_neg (not_or.2 ⟨kept, not_not.2 same⟩)]
      · rw [if_neg same, if_pos (.inr same)]
  · exact if_congr (w.passesHome_iff _) rfl rfl
  · obtain ⟨stays, on⟩ := (Axis.energised_withSetting_iff ..).1 on
    have restarts := (w.restarts_iff (s.axis a)).2 changes
    exact (if_neg (by rw [stays]; simp)).trans (if_pos (by rw [on, restarts]; rfl))
  · obtain ⟨stays, on⟩ := (Axis.energised_withSetting_iff ..).1 on
    have goesOn : w.restarts (s.axis a) = false := by
      rw [Bool.eq_false_iff, ne_eq, w.restarts_iff]; simp [owner, time]
    exact (if_neg (by rw [stays]; simp)).trans (if_neg (by rw [goesOn, Bool.and_false]; simp))

end Sys2Proof.Machine
end

section
/-! PROOF. The coil lines in every drive mode, the expiry of a hold timer and the end of a step pulse. -/

namespace Sys2Proof.Machine

open Sys2Proof

/-- In PULSE mode the lines of an ENERGISED axis are the pulse, the direction level, high and low (R48). -/
theorem coilState_of_pulse {s : State} {a : AxisId} (on : (s.axis a).energised = true) (mode : (s.axis a).mode = .pulse) :
    s.coilState a = (if (s.axis a).pulse ≠ none then 8 else 0) + (if (s.axis a).dirLevel = .high then 4 else 0) + 2 := by
  rw [State.coilState, Axis.coilState, if_neg (by rw [on]; decide), if_pos mode]
  simp only [Option.isSome_iff_ne_none]

/-- In every other mode they show the state that the pattern holds at the index (R46). -/
theorem coilState_of_getElem {s : State} {a : AxisId} {mode : DriveMode} (on : (s.axis a).energised = true)
    (hm : (s.axis a).mode = mode) (steps : mode ≠ .pulse) (v : Nat) (hv : (pattern s.patterns mode)[(s.axis a).phase]? = some v) :
    s.coilState a = v := by
  rw [coilState_of_pattern on hm steps, List.getD_eq_getElem?_getD, hv]; rfl

/-- A hold timer that runs expires with the release of its axis (R54). -/
theorem exec_holdTimerExpiry {s : State} {a : AxisId} {n : Nat} (running : s.power = .running) (runs : (s.axis a).holdTimer = some n) :
    exec (.holdTimerExpiry a) s = .next (s.setAxis a (s.axis a).released) := by
  change execHoldTimerExpiry a s = _
  exact onQuietEvent_eq running (if_pos (by rw [runs]; rfl))

/-- A pulse in progress ends, and its axis keeps all else (R48). -/
theorem exec_pulseEnd {s : State} {a : AxisId} {n : Nat} (running : s.power = .running) (lasts : (s.axis a).pulse = some n) :
    exec (.pulseEnd a) s = .next (s.setAxis a { s.axis a with pulse := none }) := by
  change execPulseEnd a s = _
  exact onQuietEvent_eq running (if_pos (by rw [lasts]; rfl))

/-- Settles O48: the coil state by the drive mode, and the two events. -/
theorem axisTimersExpire : Obligations.AxisTimersExpire := by
  intro s a running
  refine ⟨coilState_of_released, fun on => ?_, fun n runs => ⟨exec_holdTimerExpiry running runs, ?_⟩,
    fun n lasts => ⟨exec_pulseEnd running lasts, fun on mode => ?_⟩⟩
  · dsimp only
    split
    case h_1 mode => exact coilState_of_getElem on mode (by decide)
    case h_2 mode => exact coilState_of_getElem on mode (by decide)
    case h_3 mode => exact coilState_of_getElem on mode (by decide)
    case h_4 mode => exact coilState_of_getElem on mode (by decide)
    case h_5 mode => exact coilState_of_pulse on mode
  · exact coilState_of_released (by rw [State.axis_setAxis_self])
  · rw [coilState_of_pulse (by rw [State.axis_setAxis_self]; exact on) (by rw [State.axis_setAxis_self]; exact mode),
      State.axis_setAxis_self, if_neg (by simp), Nat.zero_add]

end Sys2Proof.Machine
end

section
/-! PROOF. The change of a trigger line's filtered level under a record of the line: the level, the capture, and what it does by
the role of the line; as an event of its own, and with an accepted SET-LINE. -/

namespace Sys2Proof.Machine

open Sys2Proof

/-! ### The change under a record -/

/-- The part with the record `x` in line `n`, its filtered level passed and its capture made, before any lane acts (R118, R119,
R126). -/
def State.lineCaptured (s : State) (n : TrgId) (x : TrgLine) : State :=
  { s.setLine n { x with input := ⟨x.input.raw, x.input.raw, none⟩ } with
    captures := if x.capture = true ∧ x.edgeAccepted = true then
      logAfter (.line n) (some (if x.input.raw = .high then .rise else .fall)) s else s.captures
    reports := if x.capture = true ∧ x.edgeAccepted = true then reportsAfterCapture s else s.reports }

theorem lineCaptured_line (s : State) (n : TrgId) (x : TrgLine) :
    (s.lineCaptured n x).line n = { x with input := ⟨x.input.raw, x.input.raw, none⟩ } := State.line_setLine_self ..

/-- The change of the filtered level, in its order (R118, R119). -/
theorem passTriggerFilter_lineCaptured (s : State) (n : TrgId) (x : TrgLine) :
    passTriggerFilter n (s.setLine n x) = roleEffect n x.edgeAccepted (s.lineCaptured n x) := by
  have passed : (s.setLine n x).triggerPassed n = s.setLine n { x with input := ⟨x.input.raw, x.input.raw, none⟩ } := by
    rw [State.triggerPassed, State.line_setLine_self]
    simp only [State.setLine, PerTrg.set_set]
  rw [passTriggerFilter_triggerCaptured, State.triggerCaptured, passed, State.line_setLine_self, edgeAccepted_eq]
  congr 1
  unfold State.lineCaptured
  by_cases captures : x.capture = true ∧ x.edgeAccepted = true
  · rw [if_pos captures, if_pos captures, if_pos (by rw [captures.1, captures.2]; rfl), makeCapture_eq, edgeTo_eq]; rfl
  · rw [if_neg captures, if_neg captures, if_neg (by rwa [Bool.and_eq_true])]; rfl

/-- A record set into its own line is no change. -/
theorem setLine_line (s : State) (n : TrgId) : s.setLine n (s.line n) = s := by
  rw [State.setLine, State.line, PerTrg.set_get]

/-- What the change does to the lanes, the axes and the sync unit, and the reports that it hands over, without and with the holds
of both lanes taking effect (R67, R72, R78, R82, R121). -/
theorem lineCaptured_acts {s : State} (law : LaneLaw s) (n : TrgId) (x : TrgLine) :
    (LineActs n x (s.lineCaptured n x).holdAsserted s (applyHolds (roleEffect n x.edgeAccepted (s.lineCaptured n x))) ∧
      (applyHolds (roleEffect n x.edgeAccepted (s.lineCaptured n x))).reports = lineReports x s (s.lineCaptured n x).reports) ∧
    ((x.role ≠ .hold → ∀ l, (s.lineCaptured n x).holdAsserted l = s.holdAsserted l) →
      LineActs n x (s.lineCaptured n x).holdAsserted s (roleEffect n x.edgeAccepted (s.lineCaptured n x)) ∧
        (roleEffect n x.edgeAccepted (s.lineCaptured n x)).reports = lineReports x s (s.lineCaptured n x).reports) :=
  roleEffect_acts law rfl rfl rfl rfl (by rw [lineCaptured_line]) (by rw [lineCaptured_line])

/-! ### The filtered change -/

theorem TrgLine.holds_of_role_ne {x : TrgLine} (h : x.role ≠ .hold) (l : LaneId) : x.holds l = false := by
  unfold TrgLine.holds; simp [h]

/-- A line that is no hold source holds no lane, whatever its level (R72). -/
theorem holdAsserted_lineCaptured {s : State} {n : TrgId} (h : (s.line n).role ≠ .hold) (l : LaneId) :
    (s.lineCaptured n (s.line n)).holdAsserted l = s.holdAsserted l := by
  refine holdAsserted_setLine (s := s) l ?_
  rw [TrgLine.holds_of_role_ne h, TrgLine.holds_of_role_ne (by exact h)]

/-- Settles O51: the filtered change acts as an event of the part with the capture made, by `lineCaptured_acts`. -/
theorem triggerRolesAct : Obligations.TriggerRolesAct := by
  intro s n running law measured
  dsimp only
  have effect : passTriggerFilter n s = roleEffect n (s.line n).edgeAccepted (s.lineCaptured n (s.line n)) := by
    rw [← passTriggerFilter_lineCaptured, setLine_line]
  have frame := roleEffect_frame n (s.line n).edgeAccepted (s.lineCaptured n (s.line n))
  obtain ⟨t, event, laneEvent, lanes, sync, chooses, axes, -⟩ :=
    onEvent_spec (s := s.lineCaptured n (s.line n)) (f := fun _ => some (passTriggerFilter n s)) running rfl (by rwa [effect])
  obtain ⟨acts, reports⟩ := (lineCaptured_acts law n (s.line n)).2 holdAsserted_lineCaptured
  rw [← effect] at acts reports
  rw [reports] at chooses
  have timers := laneEvent.timers
  refine ⟨t, ?_, ?_, ⟨timers.kept, timers.started, timers.stopped⟩, acts.congr (fun _ => rfl) lanes sync axes, chooses⟩
  · rw [← event]
    exact (execTriggerFilteredChange_of_measured measured).trans (onEvent_congr running running rfl rfl fun _ => rfl)
  · exact ⟨laneEvent.power, laneEvent.pins, laneEvent.lines, laneEvent.time, laneEvent.captures, laneEvent.patterns,
      laneEvent.restartWait, laneEvent.freeCount, laneEvent.pending⟩

end Sys2Proof.Machine
end

section
/-! PROOF. SET-LINE: its check, the six fields, and the filter pass that a new filter time brings. -/

namespace Sys2Proof.Machine

open Sys2Proof

/-! ### The codes of a line's record (section 11.2) -/

theorem trgOfCode_code (n : TrgId) : trgOfCode (TrgId.code n) = some n := by cases n <;> rfl

theorem roleOfCode_code (x : Role) : roleOfCode x.code = some x := by cases x <;> rfl

theorem edgeOfCode_code (x : EdgeSetting) : edgeOfCode x.code = some x := by cases x <;> rfl

theorem maskOfCode_code (x : LaneMask) : maskOfCode x.code = some x := by cases x <;> rfl

theorem roleOfCode_none {n : Nat} (h : 3 < n) : roleOfCode n = none := by match n, h with | n + 4, _ => rfl

theorem edgeOfCode_none {n : Nat} (h : 2 < n) : edgeOfCode n = none := by match n, h with | n + 3, _ => rfl

theorem levelOfCode_none {n : Nat} (h : 1 < n) : levelOfCode n = none := by match n, h with | n + 2, _ => rfl

theorem maskOfCode_none {n : Nat} (h : 3 < n) : maskOfCode n = none := by match n, h with | n + 4, _ => rfl

theorem flagOfCode_none {n : Nat} (h : 1 < n) : flagOfCode n = none := by match n, h with | n + 2, _ => rfl

/-! ### The request -/

section
variable {r : Request} {s : State} {line role edge level mask filter capture : Byte}
  (hp : r.payload = [line, role, edge, level, mask, filter, capture])
include hp

/-- A code that names nothing is refused with BAD-FIELD (R120). -/
theorem setLine_refuses (h : 3 < line.toNat ∨ 3 < role.toNat ∨ 2 < edge.toNat ∨ 1 < level.toNat ∨ 3 < mask.toNat ∨
    1 < capture.toNat) : withLength 7 7 setLine r s = (s, Reply.only .badField) := by
  rw [withLength_eq (by rw [hp]; simp) (by rw [hp]; simp), setLine, hp]
  dsimp only
  split
  · rename_i hline hrole hedge hlevel hmask hcapture
    rcases h with h | h | h | h | h | h
    · exact nomatch (trgOfCode_none h).symm.trans hline
    · exact nomatch (roleOfCode_none h).symm.trans hrole
    · exact nomatch (edgeOfCode_none h).symm.trans hedge
    · exact nomatch (levelOfCode_none h).symm.trans hlevel
    · exact nomatch (maskOfCode_none h).symm.trans hmask
    · exact nomatch (flagOfCode_none h).symm.trans hcapture
  · rfl

/-- The codes of a record replace the six fields together (R120). -/
theorem setLine_eq {n : TrgId} {t : TrgLine} (hline : line.toNat = TrgId.code n) (hrole : role.toNat = t.role.code)
    (hedge : edge.toNat = t.edge.code) (hlevel : level.toNat = Level.code t.activeLevel) (hmask : mask.toNat = t.mask.code)
    (hfilter : filter.toNat = t.filterTime) (hcapture : capture.toNat = t.capture.toNat) (hinput : t.input = (s.line n).input) :
    withLength 7 7 setLine r s = (takeLineSetting n t s, Reply.only .ok) := by
  rw [withLength_eq (by rw [hp]; simp) (by rw [hp]; simp), setLine, hp]
  have e0 : trgOfCode (byteAt [line, role, edge, level, mask, filter, capture] 0) = some n :=
    (congrArg trgOfCode hline).trans (trgOfCode_code n)
  have e1 : roleOfCode (byteAt [line, role, edge, level, mask, filter, capture] 1) = some t.role :=
    (congrArg roleOfCode hrole).trans (roleOfCode_code _)
  have e2 : edgeOfCode (byteAt [line, role, edge, level, mask, filter, capture] 2) = some t.edge :=
    (congrArg edgeOfCode hedge).trans (edgeOfCode_code _)
  have e3 : levelOfCode (byteAt [line, role, edge, level, mask, filter, capture] 3) = some t.activeLevel :=
    (congrArg levelOfCode hlevel).trans (levelOfCode_code _)
  have e4 : maskOfCode (byteAt [line, role, edge, level, mask, filter, capture] 4) = some t.mask :=
    (congrArg maskOfCode hmask).trans (maskOfCode_code _)
  have e5 : byteAt [line, role, edge, level, mask, filter, capture] 5 = t.filterTime := hfilter
  have e6 : flagOfCode (byteAt [line, role, edge, level, mask, filter, capture] 6) = some t.capture :=
    (congrArg flagOfCode hcapture).trans (flagOfCode_code _)
  simp only [e0, e1, e2, e3, e4, e5, e6, ← hinput]

end

/-! ### The effect -/

/-- The holds of both lanes start and stop no hold timer. -/
theorem holdRuns_applyHolds (s : State) (a : AxisId) : s.holdRuns a = (applyHolds s).holdRuns a := by
  rw [applyHolds_eq]
  refine holdRuns_congr a rfl rfl rfl fun l => ?_
  cases l <;> exact (underHold_executing ..).symm

/-- A new record whose filter time lets no level pass changes the holds alone (R72, R121). -/
theorem takeLineSetting_of_not_passed {s : State} {n : TrgId} {t : TrgLine} (h : t.input.passed t.filterTime = false) :
    takeLineSetting n t s = applyHolds (s.setLine n t) := by
  unfold takeLineSetting; rw [h]; rfl

/-- A filter time already exceeded passes the raw level under the new record (R121). -/
theorem takeLineSetting_of_passed {s : State} {n : TrgId} {t : TrgLine} (h : t.input.passed t.filterTime = true) :
    takeLineSetting n t s = applyHolds (roleEffect n t.edgeAccepted (s.lineCaptured n t)) := by
  unfold takeLineSetting; rw [← passTriggerFilter_lineCaptured]; exact congrArg applyHolds (if_pos h)

/-- Settles O16: the refusals, the holds under the new record, and the filter pass with `lineCaptured_acts`. -/
theorem setLineChecksAndTakes : Obligations.SetLineChecksAndTakes := by
  intro s i o r line role edge level mask filter capture h hp
  refine ⟨fun bad => answered_status h (status := .badField) (setLine_refuses hp bad), ?_⟩
  intro n t hline hrole hedge hlevel hmask hfilter hcapture hinput
  have taken := setLine_eq hp hline hrole hedge hlevel hmask hfilter hcapture hinput
  refine ⟨fun stays => ?_, fun passes law => ?_⟩
  · rw [takeLineSetting_of_not_passed (Bool.eq_false_iff.2 (mt (InputFilter.passed_iff ..).1 stays))] at taken
    refine (answered_runs h _ taken (applyHolds_frame _).power (holdRuns_applyHolds (s.setLine n t)) rfl).trans ?_
    rw [applyHolds_eq]; rfl
  · rw [takeLineSetting_of_passed ((InputFilter.passed_iff ..).2 passes)] at taken
    have frame := (roleEffect_frame n t.edgeAccepted (s.lineCaptured n t)).trans (applyHolds_frame _)
    obtain ⟨acts, reports⟩ := (lineCaptured_acts law n t).1
    have timers := settleHoldTimers_settled (s := s) frame.timers
    refine ⟨_, answered_settle h _ taken frame.power rfl, ?_, frame.lines, frame.captures, reports,
      acts.congr (fun _ => rfl) rfl rfl (settleHoldTimers_untimed s _), ⟨timers.kept, timers.started, timers.stopped⟩,
      frame.time, frame.patterns, frame.pins, frame.power, frame.restartWait, frame.freeCount, frame.pending⟩
    exact congrArg (linkAnswered · i o r (replyOf r 0 []) .nothing) frame.link

end Sys2Proof.Machine
end

section
/-! PROOF. The measures in half microseconds, and the bits of a frame on TXD. -/

namespace Sys2Proof.Machine

open Sys2Proof

/-! ### Measures -/

/-- A measure that starts now makes its row due as soon as its span has passed. -/
theorem measure_runsOut {s : State} {row : Instr} (hp : s.power = .running) (get : State → Option Nat)
    (hg : ∀ b m (s : State), get (countTime b m s) = measured (get s)) (ht : ∀ (s : State) t, get { s with time := t } = get s)
    (span : State → Nat) (hspan : ∀ b m (s : State), span (countTime b m s) = span s)
    (htspan : ∀ (s : State) t, span { s with time := t } = span s)
    (hrow : ∀ s, StandsDue s row ↔ ∃ e, get s = some e ∧ span s ≤ e) (h : get s = some 0) (k : Nat) :
    row ∈ dueRows (Nat.repeat advance k s) ↔ span s ≤ k := by
  rw [mem_dueRows_iff (later_running hp k), hrow, later_measure hp get hg ht h, later_kept hp span hspan htspan]
  simp

theorem countTime_line (tick mark : Bool) (s : State) (n : TrgId) :
    (countTime tick mark s).line n = { s.line n with input := (s.line n).input.advance } := PerTrg.get_mapWith ..

/-- A step pulse loses one half microsecond in each (R48). -/
theorem later_pulse {s : State} (hp : s.power = .running) {a : AxisId} {n : Nat} (h : (s.axis a).pulse = some n) (k : Nat) :
    ((Nat.repeat advance k s).axis a).pulse = some (n - k) := by
  induction k with
  | zero => exact h
  | succ k ih =>
    rw [later_succ hp, countTime_axis]
    exact (congrArg countDown ih).trans (congrArg some (Nat.sub_sub n k 1))

/-! ### The bits of a frame (R133) -/

theorem byteLevels_length (b : Byte) : (byteLevels b).length = 10 := rfl

/-- The ten bit times of a byte: the start bit, the data bits from the least significant, the stop bit. -/
theorem byteLevels_getElem? (b : Byte) {j : Nat} (h : j < 10) : (byteLevels b)[j]? =
    some (if j = 0 then .low else if j = 9 then .high else if b.getLsbD (j - 1) then .high else .low) := by
  cases j with
  | zero => rfl
  | succ i =>
    change ((List.range 8).map (fun i => if b.getLsbD i then Level.high else .low) ++ [.high])[i]? = _
    by_cases stop : i = 8
    · subst stop; rfl
    · rw [List.getElem?_append_left (by rw [List.length_map, List.length_range]; omega), List.getElem?_map,
        List.getElem?_range (by omega), if_neg (Nat.succ_ne_zero i), if_neg (by omega)]
      rfl

theorem frameLevels_length (f : List Byte) : (f.flatMap byteLevels).length = f.length * 10 := by
  induction f with
  | nil => rfl
  | cons b f ih => rw [List.flatMap_cons, List.length_append, ih, byteLevels_length, List.length_cons]; omega

/-- The bits of a frame are those of its bytes, front to back. -/
theorem frameLevels_getElem? {f : List Byte} {i j : Nat} {b : Byte} (h : f[i]? = some b) (hj : j < 10) :
    (f.flatMap byteLevels)[10 * i + j]? = (byteLevels b)[j]? := by
  induction f generalizing i with
  | nil => cases h
  | cons c f ih =>
    rw [List.flatMap_cons]
    cases i with
    | zero =>
      cases h
      rw [Nat.mul_zero, Nat.zero_add, List.getElem?_append_left (by rw [byteLevels_length]; exact hj)]
    | succ i =>
      have next : 10 * (i + 1) + j - (byteLevels c).length = 10 * i + j := by rw [byteLevels_length]; omega
      rw [List.getElem?_append_right (by rw [byteLevels_length]; omega), next]
      exact ih h

/-- The bit on TXD with `sent` of a frame gone out: bit `j` of byte `i` while that bit lasts. -/
theorem frameBit_eq {f : List Byte} {i j sent : Nat} {b : Byte} (h : f[i]? = some b) (hj : j < 10)
    (begun : (10 * i + j) * bitWeight ≤ sent) (lasts : sent < (10 * i + j + 1) * bitWeight) :
    frameBit f (f.length * 10 * bitWeight - sent) =
      if j = 0 then .low else if j = 9 then .high else if b.getLsbD (j - 1) then .high else .low := by
  have inside : i < f.length := (List.getElem?_eq_some_iff.1 h).1
  have whole : (10 * i + j + 1) * bitWeight ≤ f.length * 10 * bitWeight := Nat.mul_le_mul_right _ (by omega)
  have index : (f.length * 10 * bitWeight - (f.length * 10 * bitWeight - sent)) / bitWeight = 10 * i + j := by
    rw [Nat.sub_sub_self (by omega)]
    exact Nat.div_eq_of_lt_le begun lasts
  unfold frameBit; dsimp only
  rw [frameLevels_length, index, List.getD_eq_getElem?_getD, frameLevels_getElem? h hj, byteLevels_getElem? b hj]
  rfl

/-! ### TXD -/

/-- TXD in a frame of which some bits have gone out (R133). -/
theorem later_txd_sending {s : State} (hp : s.power = .running) {source : TxSource} {f : List Byte} {left : Nat}
    (h : s.link.tx = .sending source f left) (hb : s.link.lastBit = none) (k : Nat) :
    (Nat.repeat advance k s).txd = frameBit f (left - k * s.link.rate.bitsPerSecond) := by
  obtain ⟨tx, lastBit, -⟩ := later_sending hp h hb k
  rw [State.txd, lastBit, tx]

/-- TXD after a break: the bit in progress to its end, then the rest level (R138). -/
theorem later_txd_lastBit {s : State} (hp : s.power = .running) {b : LastBit} (hb : s.link.lastBit = some b) (h1 : 1 ≤ b.left)
    (h : s.link.tx = .idle) (k : Nat) :
    (Nat.repeat advance k s).txd = if k * b.rate.bitsPerSecond < b.left then b.level else .high := by
  obtain ⟨tx, lastBit⟩ := later_lastBit hp hb h1 h k
  by_cases goesOn : k * b.rate.bitsPerSecond < b.left
  · rw [State.txd, lastBit, if_pos goesOn, if_pos goesOn]
  · rw [State.txd, lastBit, tx, if_neg goesOn, if_neg goesOn]

/-- A frame whose bits have all gone out stands to be ended (R151). -/
theorem frameSent_due_iff {s : State} (hp : s.power = .running) {source : TxSource} {f : List Byte} {left : Nat}
    (h : s.link.tx = .sending source f left) (hb : s.link.lastBit = none) (k : Nat) :
    .frameSent ∈ dueRows (Nat.repeat advance k s) ↔ left ≤ k * s.link.rate.bitsPerSecond := by
  obtain ⟨tx, -, -⟩ := later_sending hp h hb k
  rw [mem_dueRows_iff (later_running hp k), StandsDue, tx]
  simp [Nat.sub_eq_zero_iff_le]

/-- Settles O54: the filters, the gap and the break by `measure_runsOut`, the pulse by its count, and TXD by what is left to send. -/
theorem measuresRunOut : Obligations.MeasuresRunOut := by
  intro s hp later bitsASecond
  have rate : ∀ r, bitsASecond r = r.bitsPerSecond := fun r => by cases r <;> rfl
  refine ⟨fun n h k => ?_, fun a h k => ?_, fun h k => ?_, fun h k => ?_, fun a h k => ?_, fun source f h hb => ⟨fun k => ?_,
    fun k i j b hi hj begun lasts => ?_⟩, fun b hb h1 h k => ?_⟩
  · exact measure_runsOut hp (fun s => (s.line n).input.measure) (fun _ _ _ => by rw [countTime_line]; rfl) (fun _ _ => rfl)
      (fun s => 8 * (s.line n).filterTime) (fun _ _ _ => by rw [countTime_line]) (fun _ _ => rfl) (fun _ => Iff.rfl) h k
  · exact measure_runsOut hp (fun s => (s.axis a).home.measure) (fun _ _ _ => by rw [countTime_axis]; rfl) (fun _ _ => rfl)
      (fun s => 8 * (s.axis a).homeFilter) (fun _ _ _ => by rw [countTime_axis]) (fun _ _ => rfl) (fun _ => Iff.rfl) h k
  · exact measure_runsOut hp (fun s => s.link.gap) (fun _ _ _ => rfl) (fun _ _ => rfl) (fun _ => 10000) (fun _ _ _ => rfl)
      (fun _ _ => rfl) (fun _ => Iff.rfl) h k
  · exact measure_runsOut hp (fun s => s.link.breakMeasure) (fun _ _ _ => rfl) (fun _ _ => rfl) (fun _ => 20000) (fun _ _ _ => rfl)
      (fun _ _ => rfl) (fun _ => Iff.rfl) h k
  · rw [mem_dueRows_iff (later_running hp k), StandsDue, later_pulse hp h, Option.some.injEq, Nat.sub_eq_zero_iff_le]
  · rw [rate]; exact frameSent_due_iff hp h hb k
  · rw [rate] at begun lasts
    rw [show (later k).txd = _ from later_txd_sending hp h hb k]
    exact frameBit_eq hi hj begun lasts
  · rw [rate]; exact later_txd_lastBit hp hb h1 h k

end Sys2Proof.Machine
end
